-- ==== Sys2Proof/Word.lean ====
section
/-! DEFINITION. The two machine words of the spec and their plainest arithmetic.
`u8` fields and command bytes are `Byte`, `u32` counters, times and operands are `Word`
(00_scope.md R13, 30_encoding.md R300 and R305, 10_state.md R119). -/

namespace Sys2Proof

/-- A `u8`: a command byte, a note number, a velocity, a selector. -/
abbrev Byte := BitVec 8

/-- A `u32`: a counter, a millisecond time, an index operand, the noise state. -/
abbrev Word := BitVec 32

end Sys2Proof
end

