-- ==== Sys2Proof/Config.lean ====
section
/-! DEFINITION. The values of the arithmetic (00_scope.md R13), the configuration record `Cfg` that the model takes as
an argument (R11), the `SynthParams` record it holds presets of (10_state.md R104), and the free value of the model.
Every OPEN parameter of 92_eei_decisions.md is a field of `Cfg`.
A `Cfg` is held in `State.cfg`, no step changes it, and every statement holds for every `Cfg`. -/

namespace Sys2Proof

/-- A Real value as the arithmetic holds it: a number, or what IEEE binary32 has beside the numbers, an infinity or a
NaN (D1). In the exact reals every register holds a number. A host may present any of the three (43_parameter_store.md
R702). A zero has no sign here (log entry 15). -/
inductive RealNum where
  | fin (q : Rat)
  | inf (negative : Bool)
  | nan
  deriving DecidableEq, Repr, Inhabited

/-- `Arith` (D1): the arithmetic every real-valued operation uses.
`reals bits` is the exact-real reference.
Rational operations are exact there, and the irrational results of `sqrt`, `sin`, `cos` and `2^x`
are given to `bits` fractional bits (log entry 2, DESIGN CHOICE).
`binary32` is IEEE binary32: round to nearest, ties to even, after each named operation, an infinity where the rounded
result is out of range, a NaN where the operation is invalid (R13). -/
inductive Arith where
  | reals (bits : Nat)
  | binary32
  deriving DecidableEq, Repr

/-- The number of fractional bits to which an irrational result is worked out before it is rounded (log entry 2). -/
def Arith.bits : Arith → Nat
  | .reals bits => bits
  | .binary32 => 160

/-- FREE VALUE (log entry 3): `max` or `min` of two operands of which one is a NaN. No rule states it. -/
opaque Config.extremumOfNan : RealNum → RealNum → RealNum

/-- The parameter record of 10_state.md R104, fields in its order; `R` is the type of its Real fields. -/
structure SynthParams (R : Type) where
  osc1Wave : Byte
  osc2Wave : Byte
  oscMix : R
  mono : Bool
  maxVoices : Byte
  attack : R
  decay : R
  sustain : R
  release : R
  filterType : Byte
  cutoff : R
  resonance : R
  reverb : R
  delayMs : R
  delayFeedback : R
  delayMix : R
  drive : R
  masterGain : R
  detune : R
  gainTrim : R
  drumKit : Byte
  presetIndex : Byte
  deriving DecidableEq, Repr

/-- A record of the SynthParams type whose Real fields are numbers. -/
abbrev Params := SynthParams Rat

/-- One row of the preset table: a name and a record (43_parameter_store.md R709). -/
structure Preset where
  name : String
  params : Params
  deriving DecidableEq, Repr

/-- The static recipe of one percussion part (41_percussion.md R501). -/
structure Recipe where
  baseHz : Rat
  pitchDepth : Rat
  pitchDecayS : Rat
  toneMix : Rat
  noiseMix : Rat
  decayS : Rat
  attackS : Rat
  pan : Rat
  drive : Rat
  partGain : Rat
  lpCoef : Rat
  cymbal : Bool
  deriving DecidableEq, Repr

/-- The multipliers and the gain of one drum kit: `KIT[k]` and `KITGAIN[k]` (41_percussion.md R502). -/
structure Kit where
  decayMul : Rat
  toneMul : Rat
  noiseMul : Rat
  attackMul : Rat
  gain : Rat
  deriving DecidableEq, Repr

/-- One row of a tabulated pan law: the gains at one pan position. -/
structure PanRow where
  pan : Rat
  gainL : Rat
  gainR : Rat
  deriving DecidableEq, Repr

/-- `PAN_LAW` (D49): the linear law of R524, or another law given by its rows.
A build has eight recipes, so finitely many pan positions occur; one that no row lists follows the linear law. -/
inductive PanLaw where
  | linear
  | table (rows : List PanRow)
  deriving DecidableEq, Repr

/-- One exception row of `DETUNE_SCALE`. -/
structure DetuneRow where
  note : Byte
  vel : Byte
  scale : Rat
  deriving DecidableEq, Repr

/-- `DETUNE_SCALE` (D6), a function of note and velocity byte: a default and the pairs that differ from it. -/
structure DetuneScale where
  default : Rat
  rows : List DetuneRow
  deriving DecidableEq, Repr

/-- One exception row of a function of `sinkConfig`. -/
structure SinkRow where
  config : Nat
  value : Word
  deriving DecidableEq, Repr

/-- `SINK_BUFFER_COUNT` and `SINK_BUFFER_LEN` (D62), functions of the opaque sink configuration. -/
structure SinkFn where
  default : Word
  rows : List SinkRow
  deriving DecidableEq, Repr

/-- `Cfg` of 00_scope.md R11: the build constants, under the spec's names. -/
structure Cfg where
  /-- `Arith` (D1) -/
  arith : Arith
  /-- `MAX_VOICES` (D53) -/
  maxVoices : Nat
  /-- `QCAP` (D44) -/
  qcap : Nat
  /-- `SCHED_N` (D38) -/
  schedN : Nat
  /-- `PRESETS`; its length is `P` (D41) -/
  presets : List Preset
  /-- `NOISE_SEED` (D48) -/
  noiseSeed : Word
  /-- `RECIPE[0..7]` (D49) -/
  recipes : List Recipe
  /-- `KIT[0..2]` with `KITGAIN[0..2]` (D49) -/
  kits : List Kit
  /-- `CHOKE` (D49) -/
  choke : Rat
  /-- `DRUM_VEL_FLOOR` (D49) -/
  drumVelFloor : Rat
  /-- `DRUM_DECAY_THR` (D49) -/
  drumDecayThr : Rat
  /-- `DRUM_LEGACY_DECAY` (D49) -/
  drumLegacyDecay : Bool
  /-- `RATIO2`, `RATIO3`, `PARTIAL2`, `PARTIAL3` (D49) -/
  ratio2 : Rat
  ratio3 : Rat
  partial2 : Rat
  partial3 : Rat
  /-- `DRUM_HP_COEF` (D49) -/
  drumHpCoef : Rat
  /-- `PAN_LAW` (D49) -/
  panLaw : PanLaw
  /-- `DETUNE_SCALE` (D6) -/
  detuneScale : DetuneScale
  /-- `POLY_K` (D17) -/
  polyK : Rat
  /-- `DRIVE_K` (D18) -/
  driveK : Rat
  /-- `RETIRE_EPS` (D9) -/
  retireEps : Rat
  /-- `REV_AL`, `REV_AR`, `REV_X` (D26) -/
  revAL : Rat
  revAR : Rat
  revX : Rat
  /-- `MIX_HI`, `DRIVE_HI`, `DRIVE_GAIN_ATTEN` (D42) -/
  mixHi : Rat
  driveHi : Rat
  driveGainAtten : Rat
  /-- `TEST_CHORD`, `TEST_VEL` (D40) -/
  testChord : List Byte
  testVel : Byte
  /-- `STOP_FADE_MS`, `STOP_WAIT_MS` (D47) -/
  stopFadeMs : Word
  stopWaitMs : Word
  /-- `SINK_TIMEOUT_MS` (D62) -/
  sinkTimeoutMs : Word
  /-- `SINK_BUFFER_COUNT`, `SINK_BUFFER_LEN` (D62) -/
  sinkBufferCount : SinkFn
  sinkBufferLen : SinkFn
  deriving DecidableEq, Repr

/-- The ranges R501 states for the fields of one recipe. -/
abbrev Recipe.wf (r : Recipe) : Prop :=
  0 < r.baseHz ∧ 0 ≤ r.pitchDepth ∧ 0 < r.pitchDecayS ∧ (0 ≤ r.toneMix ∧ r.toneMix ≤ 1) ∧
  (0 ≤ r.noiseMix ∧ r.noiseMix ≤ 1) ∧ 0 < r.decayS ∧ 0 ≤ r.attackS ∧ (-1 ≤ r.pan ∧ r.pan ≤ 1) ∧
  0 ≤ r.drive ∧ 0 < r.partGain ∧ (0 < r.lpCoef ∧ r.lpCoef < 1)

/-- The ranges R502 states for one kit. -/
abbrev Kit.wf (k : Kit) : Prop :=
  0 < k.decayMul ∧ 0 < k.toneMul ∧ 0 < k.noiseMul ∧ 0 < k.attackMul ∧ 0 < k.gain

/-- The sizes of the fixed arenas lie in the ranges of R11, R600, R709, D38 and D44. -/
abbrev Cfg.sizesWf (c : Cfg) : Prop :=
  (8 ≤ c.maxVoices ∧ c.maxVoices ≤ 12) ∧ 2 ≤ c.qcap ∧ 1 ≤ c.schedN ∧
  (13 ≤ c.presets.length ∧ c.presets.length ≤ 18) ∧ c.recipes.length = 8 ∧ c.kits.length = 3

/-- The drum constants lie in the ranges of D48 and D49; the hat parts 2 and 3 are cymbal voices (R501). -/
abbrev Cfg.drumsWf (c : Cfg) : Prop :=
  c.noiseSeed ≠ 0 ∧ (∀ r ∈ c.recipes, r.wf) ∧ (∀ k ∈ c.kits, k.wf) ∧
  (c.recipes[2]?.map (·.cymbal) = some true ∧ c.recipes[3]?.map (·.cymbal) = some true) ∧
  (0 < c.choke ∧ c.choke ≤ 5 / 100) ∧ (0 ≤ c.drumVelFloor ∧ c.drumVelFloor ≤ 1) ∧
  (0 < c.drumDecayThr ∧ c.drumDecayThr < 1) ∧ (0 < c.drumHpCoef ∧ c.drumHpCoef < 1)

/-- The mixer, filter and store constants lie in the ranges of D6, D9, D17, D18, D26 and D42. -/
abbrev Cfg.mixWf (c : Cfg) : Prop :=
  0 ≤ c.detuneScale.default ∧ (∀ r ∈ c.detuneScale.rows, 0 ≤ r.scale) ∧ 0 < c.polyK ∧ 0 ≤ c.driveK ∧
  (0 ≤ c.retireEps ∧ c.retireEps ≤ 1 / 1000) ∧ (0 < c.revAL ∧ c.revAL < 1) ∧ (0 < c.revAR ∧ c.revAR < 1) ∧
  c.revAL ≠ c.revAR ∧ (0 ≤ c.revX ∧ c.revX < 1) ∧ (0 < c.mixHi ∧ c.mixHi ≤ 9 / 10) ∧
  (0 < c.driveHi ∧ c.driveHi ≤ 1) ∧ (0 < c.driveGainAtten ∧ c.driveGainAtten < 1)

/-- Irrational results are given to at least 64 fractional bits: at every admitted rate and cutoff the computed sine of
the filter's angle is then positive and its cosine below 1 in magnitude, which R453 rests on (log entry 2). -/
abbrev Cfg.arithWf (c : Cfg) : Prop := 64 ≤ c.arith.bits

/-- Every build constant lies within the range the spec states for it (70_reset_and_hazards.md R1203 step 1). -/
abbrev Cfg.wf (c : Cfg) : Prop := c.sizesWf ∧ c.drumsWf ∧ c.mixWf ∧ c.arithWf

end Sys2Proof
end

