-- ==== Sys2Proof/Syntax.lean ====
section
/-! DEFINITION. The instructions: the five ring commands (30_encoding.md R301) and the twenty-one host
operations (30_encoding.md R305), one constructor per row of spec/opcode_table.json. -/

namespace Sys2Proof

/-- The `sinkConfig` operand of `start`, opaque to the core: the model only compares it (30_encoding.md R305). -/
structure SinkConfig where
  handle : Nat
  deriving DecidableEq, Repr

/-- The instructions of the core. The `cmd…` constructors are ring commands, the others host operations. -/
inductive Instr where
  /-- `NOTE_ON note vel`, kind 0x00 -/
  | cmdNoteOn (note vel : Byte)
  /-- `NOTE_OFF note`, kind 0x01 -/
  | cmdNoteOff (note : Byte)
  /-- `ALL_NOTES_OFF`, kind 0x02 -/
  | cmdAllNotesOff
  /-- `DRUM_HIT part vel`, kind 0x03 -/
  | cmdDrumHit (part vel : Byte)
  /-- `ALL_DRUMS_OFF`, kind 0x04 -/
  | cmdAllDrumsOff
  /-- `start(sinkConfig, sampleRate, blockSize)`, selector 0x01 -/
  | start (sink : SinkConfig) (sampleRate blockSize : Word)
  /-- `stop()`, selector 0x02 -/
  | stop
  /-- `running()`, selector 0x03 -/
  | running
  /-- `fadeIn(ms)`, selector 0x04 -/
  | fadeIn (ms : Word)
  /-- `fadeOut(ms)`, selector 0x05 -/
  | fadeOut (ms : Word)
  /-- `noteOn(note, velocity, gateMs)`, selector 0x06 -/
  | noteOn (note vel : Byte) (gateMs : Word)
  /-- `noteOff(note)`, selector 0x07 -/
  | noteOff (note : Byte)
  /-- `allNotesOff()`, selector 0x08 -/
  | allNotesOff
  /-- `drumHit(part, velocity)`, selector 0x09 -/
  | drumHit (part vel : Byte)
  /-- `allDrumsOff()`, selector 0x0A -/
  | allDrumsOff
  /-- `setDrumsEnabled(b)`, selector 0x0B -/
  | setDrumsEnabled (b : Bool)
  /-- `setParams(p)`, selector 0x0C -/
  | setParams (p : SynthParams RealNum)
  /-- `getParams()`, selector 0x0D -/
  | getParams
  /-- `loadPreset(index)`, selector 0x0E -/
  | loadPreset (index : Word)
  /-- `resetPreset()`, selector 0x0F -/
  | resetPreset
  /-- `triggerTestChord(durationMs)`, selector 0x10 -/
  | triggerTestChord (durationMs : Word)
  /-- `service(nowMs)`, selector 0x11 -/
  | service (nowMs : Word)
  /-- `consumeUnderruns()`, selector 0x12 -/
  | consumeUnderruns
  /-- `getPerfSnapshot()`, selector 0x13 -/
  | getPerfSnapshot
  /-- `presetName(index)`, selector 0x14 -/
  | presetName (index : Word)
  /-- `presetDefaults(index)`, selector 0x15 -/
  | presetDefaults (index : Word)
  deriving DecidableEq, Repr

end Sys2Proof
end

