-- ==== Sys2Proof/WellFormed.lean ====
section
/-! DEFINITION. Which instructions have an encoding that is not reserved (30_encoding.md R303).
Only the ring commands restrict their operands; every host operation accepts every operand of its
stated width, and its own rule handles a value out of range (30_encoding.md R306). -/

namespace Sys2Proof

/-- A note number of a command record: a primary of 0x80 or above is reserved (R303). -/
abbrev legalNote (note : Byte) : Bool := note.toNat < 0x80

/-- A velocity of a command record: a secondary of 0x80 or above is reserved (R303). -/
abbrev legalVelocity (vel : Byte) : Bool := vel.toNat < 0x80

/-- A drum part of a command record: a primary of 0x08 or above is reserved (R303). -/
abbrev legalPart (part : Byte) : Bool := part.toNat < 0x08

/-- The instruction has an unreserved encoding. -/
def Instr.wellFormed : Instr → Bool
  | .cmdNoteOn note vel => legalNote note && legalVelocity vel
  | .cmdNoteOff note => legalNote note
  | .cmdDrumHit part vel => legalPart part && legalVelocity vel
  | .cmdAllNotesOff | .cmdAllDrumsOff => true
  | .start _ _ _ | .stop | .running | .fadeIn _ | .fadeOut _ | .noteOn _ _ _ | .noteOff _ | .allNotesOff
  | .drumHit _ _ | .allDrumsOff | .setDrumsEnabled _ | .setParams _ | .getParams | .loadPreset _
  | .resetPreset | .triggerTestChord _ | .service _ | .consumeUnderruns | .getPerfSnapshot
  | .presetName _ | .presetDefaults _ => true

end Sys2Proof
end

