-- ==== Sys2Proof/Decode.lean ====
section
/-! DEFINITION. Decoding of the two kinds of instruction (30_encoding.md): a 3-byte Command record of the ring,
and a host-call record of a selector byte and its arguments. Total, and every reserved encoding is rejected
by name. After it the encoder, from the same tables. -/

namespace Sys2Proof

/-- A Command record, bytes in the order kind, primary, secondary (R300). -/
structure Record where
  kind : Byte
  primary : Byte
  secondary : Byte
  deriving DecidableEq, Repr

/-- The 24-bit word of a record, `kind ++ primary ++ secondary` (R300). -/
def Record.word (r : Record) : BitVec 24 := r.kind ++ r.primary ++ r.secondary

/-- The record whose 24-bit word is `w`: kind in bits 23..16, primary in 15..8, secondary in 7..0 (R300). -/
def Record.ofWord (w : Nat) : Record where
  kind := BitVec.ofNat 8 (w / 0x10000)
  primary := BitVec.ofNat 8 (w / 0x100)
  secondary := BitVec.ofNat 8 w

/-- One argument of a host call, passed by value at its stated width (R305, R306).
The SynthParams record and the sink configuration have no byte image in the spec, so they are passed whole
(91_not_in_source.md, "Field types and order of SynthParams"). -/
inductive Arg where
  | u8 (b : Byte)
  | u32 (w : Word)
  | bool (b : Bool)
  | sink (c : SinkConfig)
  | params (p : SynthParams RealNum)
  deriving DecidableEq, Repr

/-- The uniform host-call record `{selector, arguments}` of R305. -/
structure HostCall where
  selector : Byte
  args : List Arg
  deriving DecidableEq, Repr

/-- What an agent fetches: the render context a ring record, a control context its own call. -/
inductive Fetched where
  | record (r : Record)
  | call (c : HostCall)
  deriving DecidableEq, Repr

/-- Why a fetched encoding stands for no instruction. -/
inductive DecodeError where
  /-- a reserved kind or a reserved operand value (R303) -/
  | reservedCommand
  /-- a selector outside 0x01..0x15 (R305) -/
  | reservedHostOp
  /-- arguments that are not those R305 lists for the selector -/
  | badArguments
  deriving DecidableEq, Repr

/-- The instruction of a Command record (R301, R303). A "must be 0" field is not read: any value is accepted. -/
def decodeRecord (r : Record) : Except DecodeError Instr :=
  match r.kind.toNat with
  | 0x00 => if legalNote r.primary && legalVelocity r.secondary then .ok (.cmdNoteOn r.primary r.secondary)
            else .error .reservedCommand
  | 0x01 => if legalNote r.primary then .ok (.cmdNoteOff r.primary) else .error .reservedCommand
  | 0x02 => .ok .cmdAllNotesOff
  | 0x03 => if legalPart r.primary && legalVelocity r.secondary then .ok (.cmdDrumHit r.primary r.secondary)
            else .error .reservedCommand
  | 0x04 => .ok .cmdAllDrumsOff
  | _ => .error .reservedCommand

/-- The instruction of a host-call record, by the selector table of R305. -/
def decodeCall (c : HostCall) : Except DecodeError Instr :=
  match c.selector.toNat with
  | 0x01 => match c.args with | [.sink k, .u32 rate, .u32 size] => .ok (.start k rate size) | _ => .error .badArguments
  | 0x02 => match c.args with | [] => .ok .stop | _ => .error .badArguments
  | 0x03 => match c.args with | [] => .ok .running | _ => .error .badArguments
  | 0x04 => match c.args with | [.u32 ms] => .ok (.fadeIn ms) | _ => .error .badArguments
  | 0x05 => match c.args with | [.u32 ms] => .ok (.fadeOut ms) | _ => .error .badArguments
  | 0x06 => match c.args with | [.u8 n, .u8 v, .u32 g] => .ok (.noteOn n v g) | _ => .error .badArguments
  | 0x07 => match c.args with | [.u8 n] => .ok (.noteOff n) | _ => .error .badArguments
  | 0x08 => match c.args with | [] => .ok .allNotesOff | _ => .error .badArguments
  | 0x09 => match c.args with | [.u8 p, .u8 v] => .ok (.drumHit p v) | _ => .error .badArguments
  | 0x0A => match c.args with | [] => .ok .allDrumsOff | _ => .error .badArguments
  | 0x0B => match c.args with | [.bool b] => .ok (.setDrumsEnabled b) | _ => .error .badArguments
  | 0x0C => match c.args with | [.params p] => .ok (.setParams p) | _ => .error .badArguments
  | 0x0D => match c.args with | [] => .ok .getParams | _ => .error .badArguments
  | 0x0E => match c.args with | [.u32 i] => .ok (.loadPreset i) | _ => .error .badArguments
  | 0x0F => match c.args with | [] => .ok .resetPreset | _ => .error .badArguments
  | 0x10 => match c.args with | [.u32 ms] => .ok (.triggerTestChord ms) | _ => .error .badArguments
  | 0x11 => match c.args with | [.u32 t] => .ok (.service t) | _ => .error .badArguments
  | 0x12 => match c.args with | [] => .ok .consumeUnderruns | _ => .error .badArguments
  | 0x13 => match c.args with | [] => .ok .getPerfSnapshot | _ => .error .badArguments
  | 0x14 => match c.args with | [.u32 i] => .ok (.presetName i) | _ => .error .badArguments
  | 0x15 => match c.args with | [.u32 i] => .ok (.presetDefaults i) | _ => .error .badArguments
  | _ => .error .reservedHostOp

/-- The instruction of a fetched encoding, or the reason there is none. -/
def decode : Fetched → Except DecodeError Instr
  | .record r => decodeRecord r
  | .call c => decodeCall c

/-- The record a ring command is stored as; a "must be 0" field is written 0 (R301). -/
def recordOf (kind primary secondary : Byte) : Fetched := .record ⟨kind, primary, secondary⟩

/-- The encoding of an instruction, from the tables of R301 and R305. -/
def encode : Instr → Fetched
  | .cmdNoteOn note vel => recordOf 0x00 note vel
  | .cmdNoteOff note => recordOf 0x01 note 0
  | .cmdAllNotesOff => recordOf 0x02 0 0
  | .cmdDrumHit part vel => recordOf 0x03 part vel
  | .cmdAllDrumsOff => recordOf 0x04 0 0
  | .start k rate size => .call ⟨0x01, [.sink k, .u32 rate, .u32 size]⟩
  | .stop => .call ⟨0x02, []⟩
  | .running => .call ⟨0x03, []⟩
  | .fadeIn ms => .call ⟨0x04, [.u32 ms]⟩
  | .fadeOut ms => .call ⟨0x05, [.u32 ms]⟩
  | .noteOn n v g => .call ⟨0x06, [.u8 n, .u8 v, .u32 g]⟩
  | .noteOff n => .call ⟨0x07, [.u8 n]⟩
  | .allNotesOff => .call ⟨0x08, []⟩
  | .drumHit p v => .call ⟨0x09, [.u8 p, .u8 v]⟩
  | .allDrumsOff => .call ⟨0x0A, []⟩
  | .setDrumsEnabled b => .call ⟨0x0B, [.bool b]⟩
  | .setParams p => .call ⟨0x0C, [.params p]⟩
  | .getParams => .call ⟨0x0D, []⟩
  | .loadPreset i => .call ⟨0x0E, [.u32 i]⟩
  | .resetPreset => .call ⟨0x0F, []⟩
  | .triggerTestChord ms => .call ⟨0x10, [.u32 ms]⟩
  | .service t => .call ⟨0x11, [.u32 t]⟩
  | .consumeUnderruns => .call ⟨0x12, []⟩
  | .getPerfSnapshot => .call ⟨0x13, []⟩
  | .presetName i => .call ⟨0x14, [.u32 i]⟩
  | .presetDefaults i => .call ⟨0x15, [.u32 i]⟩

/-- The SynthParams argument whose every bit is 0. -/
def zeroParams : SynthParams RealNum where
  osc1Wave := 0
  osc2Wave := 0
  oscMix := .fin 0
  mono := false
  maxVoices := 0
  attack := .fin 0
  decay := .fin 0
  sustain := .fin 0
  release := .fin 0
  filterType := 0
  cutoff := .fin 0
  resonance := .fin 0
  reverb := .fin 0
  delayMs := .fin 0
  delayFeedback := .fin 0
  delayMix := .fin 0
  drive := .fin 0
  masterGain := .fin 0
  detune := .fin 0
  gainTrim := .fin 0
  drumKit := 0
  presetIndex := 0

/-- The arguments of a host operation when every operand bit is 0. -/
def zeroArgs (selector : Nat) : List Arg :=
  match selector with
  | 0x01 => [.sink ⟨0⟩, .u32 0, .u32 0]
  | 0x04 | 0x05 | 0x0E | 0x10 | 0x11 | 0x14 | 0x15 => [.u32 0]
  | 0x06 => [.u8 0, .u8 0, .u32 0]
  | 0x07 => [.u8 0]
  | 0x09 => [.u8 0, .u8 0]
  | 0x0B => [.bool false]
  | 0x0C => [.params zeroParams]
  | _ => []

/-- The fetched encoding whose table bits are `w`: a 24-bit row is a ring record, an 8-bit row is the
selector of a host call whose operand bits are all 0 (spec/opcode_table.json). -/
def fetchedOfTable (nbits w : Nat) : Option Fetched :=
  if nbits = 24 then some (.record (Record.ofWord w))
  else if nbits = 8 then some (.call ⟨BitVec.ofNat 8 w, zeroArgs (w % 256)⟩)
  else none

/-- The instruction the decoder reads from an instruction whose table bits are `w`. -/
def decodeTableWord (nbits w : Nat) : Option Instr :=
  match fetchedOfTable nbits w with
  | none => none
  | some f => match decode f with
    | .ok i => some i
    | .error _ => none

end Sys2Proof
end

