-- ==== Sys2Proof/Machine/Build.lean ====
section
/-! DEFINITION. The build constants of the core that `State.reset` constructs (70_reset_and_hazards.md R1203 step 1):
the defaults of 92_eei_decisions.md, the choices of 95_test_vectors.md for MAX_VOICES and NOISE_SEED, and for every
parameter that is OPEN without a default a value named in log entry 4 (DESIGN CHOICE).
No statement rests on these values: statements hold for every `Cfg`. -/

namespace Sys2Proof.Machine

/-- The base record B of 95_test_vectors.md §3. -/
def baseRecord : Params where
  osc1Wave := 0
  osc2Wave := 0
  oscMix := 0
  mono := false
  maxVoices := 8
  attack := 1 / 100
  decay := 1 / 10
  sustain := 1 / 2
  release := 1 / 10
  filterType := 0
  cutoff := 12000
  resonance := 1 / 2
  reverb := 0
  delayMs := 0
  delayFeedback := 0
  delayMix := 0
  drive := 0
  masterGain := 1
  detune := 0
  gainTrim := 1
  drumKit := 0
  presetIndex := 0

/-- Preset `i` of the default table: record B, under a name of its own. -/
def defaultPreset (i : Nat) : Preset where
  name := "preset " ++ toString i
  params := { baseRecord with presetIndex := BitVec.ofNat 8 i }

/-- The one recipe the default build gives every part, but for the cymbal bit of R501. -/
def defaultRecipe (cymbal : Bool) : Recipe where
  baseHz := 200
  pitchDepth := 1
  pitchDecayS := 1 / 20
  toneMix := 1 / 2
  noiseMix := 1 / 2
  decayS := 1 / 4
  attackS := 1 / 1000
  pan := 0
  drive := 0
  partGain := 1
  lpCoef := 1 / 2
  cymbal := cymbal

/-- A kit whose multipliers and gain are all 1 (the kit of the R510 example). -/
def defaultKit : Kit where
  decayMul := 1
  toneMul := 1
  noiseMul := 1
  attackMul := 1
  gain := 1

/-- The build constants of the constructed core. DESIGN CHOICE (log entry 4), none of them stated by the spec: the presets,
the recipes and the kits above; `arith` and its 64 bits; `choke` 5/100 (R511); `drumVelFloor` 1/10, `drumDecayThr`
15/100000 and `drumLegacyDecay` false (R510); `ratio2` exactly 197/100, `ratio3` exactly 293/100, `partial2` 1/2,
`partial3` 1/4 and `drumHpCoef` 1/10 (R522); `stopFadeMs`, `stopWaitMs`, `sinkTimeoutMs` and the sink buffers. The others
are defaults of 92_eei_decisions.md or the choices of 95_test_vectors.md. -/
def defaultCfg : Cfg where
  arith := .reals 64
  maxVoices := 8
  qcap := 64
  schedN := 16
  presets := (List.range 16).map defaultPreset
  noiseSeed := 1
  recipes := [false, false, true, true, false, false, true, true].map defaultRecipe
  kits := [defaultKit, defaultKit, defaultKit]
  choke := 5 / 100
  drumVelFloor := 1 / 10
  drumDecayThr := 15 / 100000
  drumLegacyDecay := false
  ratio2 := 197 / 100
  ratio3 := 293 / 100
  partial2 := 1 / 2
  partial3 := 1 / 4
  drumHpCoef := 1 / 10
  panLaw := .linear
  detuneScale := { default := 1, rows := [] }
  polyK := 1
  driveK := 9
  retireEps := 0
  revAL := 2 / 100
  revAR := 3 / 100
  revX := 6 / 10
  mixHi := 85 / 100
  driveHi := 8 / 10
  driveGainAtten := 9 / 10
  testChord := [60, 64, 67]
  testVel := 100
  stopFadeMs := 10
  stopWaitMs := 100
  sinkTimeoutMs := 10
  sinkBufferCount := { default := 4, rows := [] }
  sinkBufferLen := { default := 64, rows := [] }

end Sys2Proof.Machine
end

