-- ==== Sys2Proof/Machine/Numeric.lean ====
section
/-! DEFINITION. The arithmetic of the Real values (00_scope.md R13 and R14, decision D1): the functions of the notation
(`clamp`, `frac`, `roundHalfAway`, `sqrt`, `sin`, `cos`, `2^x`), the rounding of `Arith`, and the operations rounded after
each one. An irrational function is a partial sum of its series, with rational terms; Laws/Accuracy.lean proves how near
each comes to the real function. -/

namespace Sys2Proof.Machine

/-! ## The exact functions of the notation -/

/-- `clamp(x, lo, hi)` (40_dsp_primitives.md R400). -/
def clamp (x lo hi : Rat) : Rat := if x < lo then lo else if hi < x then hi else x

/-- `clamp` on a natural number (R400: the operands are Real or integer). -/
def clampNat (x lo hi : Nat) : Nat := if x < lo then lo else if hi < x then hi else x

/-- `clamp` on an integer (R400). -/
def clampInt (x lo hi : Int) : Int := if x < lo then lo else if hi < x then hi else x

/-- `clamp` on a `u8` field: an integer field stays an integer (43_parameter_store.md R700). -/
def clampByte (x : Byte) (lo hi : Nat) : Byte := BitVec.ofNat 8 (clampNat x.toNat lo hi)

/-- `roundHalfAway(x)`: the nearest integer, ties away from zero (R14). -/
def roundHalfAway (x : Rat) : Int :=
  if 0 ≤ x then (x + 1 / 2).floor else -((-x + 1 / 2).floor)

/-- `n / d` rounded to the nearest integer, ties to even. -/
def divHalfEven (n d : Nat) : Nat :=
  let q := n / d
  let r := n % d
  if 2 * r < d then q else if d < 2 * r then q + 1 else if q % 2 = 0 then q else q + 1

/-- `2^e` for an integer `e`. -/
def pow2 (e : Int) : Rat :=
  if 0 ≤ e then ((2 ^ e.toNat : Nat) : Rat) else 1 / ((2 ^ (-e).toNat : Nat) : Rat)

/-- The integer `e` with `2^e ≤ n / d < 2^(e+1)`, for positive `n` and `d`. -/
def floorLog2 (n d : Nat) : Int :=
  let k : Int := (n.log2 : Int) - (d.log2 : Int)
  if 0 ≤ k then (if d * 2 ^ k.toNat ≤ n then k else k - 1)
  else (if d ≤ n * 2 ^ (-k).toNat then k else k - 1)

/-- `q · 2^s` rounded to the nearest integer, ties to even, for `q ≥ 0` given as `n / d`. -/
def scaledHalfEven (n d : Nat) (s : Int) : Nat :=
  if 0 ≤ s then divHalfEven (n * 2 ^ s.toNat) d else divHalfEven n (d * 2 ^ (-s).toNat)

/-- The nearest multiple of `2^(-bits)`, ties to even. -/
def roundToGrid (bits : Nat) (q : Rat) : Rat :=
  let m : Rat := (scaledHalfEven q.num.natAbs q.den bits : Nat)
  (if q < 0 then -m else m) * pow2 (-(bits : Int))

/-- The magnitude nearest to `|q|`, ties to even, with 24 significant bits and least exponent -149; no bound above. -/
def magnitude32 (q : Rat) : Rat :=
  let ulp : Int := max (floorLog2 q.num.natAbs q.den) (-126) - 23
  (scaledHalfEven q.num.natAbs q.den (-ulp) : Rat) * pow2 ulp

/-- `q` rounded to nearest even as if the exponent had no upper bound. -/
def nearest32 (q : Rat) : Rat := if q = 0 then 0 else if q < 0 then -magnitude32 q else magnitude32 q

/-- Round-to-nearest-even to IEEE binary32 (D1): a rounded magnitude of `2^128` or more is an infinity. -/
def roundBinary32 (q : Rat) : RealNum :=
  if pow2 128 ≤ magnitude32 q ∧ q ≠ 0 then .inf (decide (q < 0)) else .fin (nearest32 q)

/-! ## The irrational functions

Each takes a working precision `w` and comes within `2^(-w)` of the real function. -/

/-- `acc + Σ t · x^j · coef (m + j)` over the first `n` values of `j`. -/
def powerSeries (x : Rat) (coef : Nat → Rat) : (n m : Nat) → (t acc : Rat) → Rat
  | 0, _, _, acc => acc
  | n + 1, m, t, acc => powerSeries x coef n (m + 1) (t * x) (acc + t * coef m)

/-- `n` terms of `arctan z`. -/
def arctanSum (n : Nat) (z : Rat) : Rat := powerSeries (-(z * z)) (fun m => 1 / (2 * m + 1 : Nat)) n 0 z 0

/-- `n` terms of `-ln (1 - x)`. -/
def logSum (n : Nat) (x : Rat) : Rat := powerSeries x (fun m => 1 / (m + 1 : Nat)) n 0 x 0

/-- `n` terms of the exponential function at `y`. -/
def expSum (n : Nat) (y : Rat) : Rat := powerSeries y (fun m => 1 / (m.factorial : Nat)) n 0 1 0

/-- `n` terms of `sin y`, an angle in radians. -/
def sinSum (n : Nat) (y : Rat) : Rat := powerSeries (-(y * y)) (fun m => 1 / ((2 * m + 1).factorial : Nat)) n 0 y 0

/-- `n` terms of `cos y`, an angle in radians. -/
def cosSum (n : Nat) (y : Rat) : Rat := powerSeries (-(y * y)) (fun m => 1 / ((2 * m).factorial : Nat)) n 0 1 0

/-- `π`, by Machin's formula. -/
def piApprox (w : Nat) : Rat :=
  roundToGrid (w + 4) (4 * (4 * arctanSum (w / 4 + 4) (1 / 5) - arctanSum (w / 4 + 4) (1 / 239)))

/-- `ln 2`. -/
def ln2Approx (w : Nat) : Rat := roundToGrid (w + 2) (logSum (w + 2) (1 / 2))

/-- The exponent of the leading bit of `b > 0`: `2^k ≤ b < 2^(k+1)`. -/
def leadingExponent (b : Rat) : Int := floorLog2 b.num.natAbs b.den

/-- `ln b` for `b > 0`: with `b = 2^k · m`, `k · ln 2 − ln (1 − (1 − 1/m))`. -/
def lnApprox (w : Nat) (b : Rat) : Rat :=
  let k := leadingExponent b
  k * ln2Approx (w + k.natAbs + 2) + logSum (w + 2) (1 - 1 / (b * pow2 (-k)))

/-- `e^y · 2^n` for `y` about 0 to 1, to `w` fractional bits of `e^y`. -/
def scaledExp (w : Nat) (y : Rat) (n : Int) : Rat := expSum (w / 2 + 6) (roundToGrid w y) * pow2 n

/-- `2^x`; exact for an integer `x`. -/
def exp2Approx (w : Nat) (x : Rat) : Rat :=
  let n := x.floor
  let v := w + n.toNat + 4
  scaledExp v ((x - n) * ln2Approx v) n

/-- `b^e` for `0 < b ≤ 1` and `0 ≤ e`: `e^(e · ln b − n · ln 2) · 2^n`. -/
def powApprox (w : Nat) (b e : Rat) : Rat :=
  let v := w + ((e.floor.toNat + 1) * ((leadingExponent b).natAbs + 2)).log2 + 8
  let y := e * lnApprox v b
  let n := (y / ln2Approx v).floor
  scaledExp v (y - n * ln2Approx v) n

/-- An angle of `turn` whole turns, reduced to half a turn about 0, in radians. -/
def turnAngle (w : Nat) (turn : Rat) : Rat :=
  roundToGrid (w + 4) (2 * piApprox (w + 4) * (turn - roundHalfAway turn))

/-- An angle of `x` radians, reduced to half a turn about 0. -/
def radianAngle (w : Nat) (x : Rat) : Rat :=
  let p := 2 * piApprox (w + x.num.natAbs.log2 + 6)
  roundToGrid (w + 4) (x - roundHalfAway (x / p) * p)

/-- The integer square root, one binary digit at a time from the top; `n < 4^fuel`. -/
def isqrtDigits : (fuel n : Nat) → Nat
  | 0, _ => 0
  | fuel + 1, n =>
    let r := 2 * isqrtDigits fuel (n / 4)
    if (r + 1) * (r + 1) ≤ n then r + 1 else r

/-- The integer square root. -/
def isqrt (n : Nat) : Nat := isqrtDigits (n.log2 + 1) n

/-- The square root of a natural number, from below; exact for a square. -/
def sqrtApprox (w n : Nat) : Rat := isqrt (n * 4 ^ w) / (2 ^ w : Nat)

end Sys2Proof.Machine

namespace Sys2Proof

open Machine

/-! ## Values that are no number, and comparisons -/

/-- The value is a number. -/
def RealNum.isFin : RealNum → Bool
  | .fin _ => true
  | .inf _ => false
  | .nan => false

/-- The value is a number between two bounds. -/
def RealNum.between (lo hi : Rat) : RealNum → Bool
  | .fin q => decide (lo ≤ q) && decide (q ≤ hi)
  | .inf _ => false
  | .nan => false

/-- The value is a NaN. -/
def RealNum.isNan : RealNum → Bool
  | .nan => true
  | .fin _ => false
  | .inf _ => false

/-- The sign bit of a value; a zero counts as positive. -/
def RealNum.isNeg : RealNum → Bool
  | .fin q => decide (q < 0)
  | .inf s => s
  | .nan => false

/-- `x < y`; no NaN compares. -/
def RealNum.lt : RealNum → RealNum → Bool
  | .nan, _ => false
  | .fin _, .nan => false
  | .inf _, .nan => false
  | .fin x, .fin y => decide (x < y)
  | .fin _, .inf t => !t
  | .inf s, .fin _ => s
  | .inf s, .inf t => s && !t

/-- `x ≤ y`; no NaN compares. -/
def RealNum.le : RealNum → RealNum → Bool
  | .nan, _ => false
  | .fin _, .nan => false
  | .inf _, .nan => false
  | .fin x, .fin y => decide (x ≤ y)
  | .fin _, .inf t => !t
  | .inf s, .fin _ => s
  | .inf s, .inf t => s || !t

/-- `max(x, y)`; with a NaN among them a free value (log entry 3). -/
def RealNum.max (x y : RealNum) : RealNum :=
  if x.isNan || y.isNan then Config.extremumOfNan x y else if x.lt y then y else x

/-- `min(x, y)`; with a NaN among them a free value (log entry 3). -/
def RealNum.min (x y : RealNum) : RealNum :=
  if x.isNan || y.isNan then Config.extremumOfNan x y else if y.lt x then y else x

/-- `−x`. -/
def RealNum.neg : RealNum → RealNum
  | .fin q => .fin (-q)
  | .inf s => .inf (!s)
  | .nan => .nan

/-- `roundHalfAway` of a value: an infinity and a NaN are kept (R14). -/
def RealNum.round : RealNum → RealNum
  | .fin q => .fin (roundHalfAway q)
  | .inf s => .inf s
  | .nan => .nan

/-! ## The operations of the arithmetic (R13; for infinities and NaN, IEEE 754 as D1 names it) -/

/-- The rounding after a named operation: none in the reals, to nearest even in binary32 (R13). -/
def Arith.rnd : Arith → Rat → RealNum
  | .reals _, q => .fin q
  | .binary32, q => roundBinary32 q

/-- The rounding of a number that is known to be in range, as the bounded constants and the stored parameters are. -/
def Arith.near : Arith → Rat → Rat
  | .reals _, q => q
  | .binary32, q => nearest32 q

/-- A constant or an operand of the pseudocode, as a value of the arithmetic. -/
def Arith.const (a : Arith) (q : Rat) : RealNum := a.rnd q

/-- The sum; opposite infinities have none. -/
def Arith.add (a : Arith) : RealNum → RealNum → RealNum
  | .fin x, .fin y => a.rnd (x + y)
  | .nan, _ => .nan
  | .fin _, .nan => .nan
  | .inf _, .nan => .nan
  | .fin _, .inf t => .inf t
  | .inf s, .fin _ => .inf s
  | .inf s, .inf t => if s = t then .inf s else .nan

/-- The difference; equal infinities have none. -/
def Arith.sub (a : Arith) : RealNum → RealNum → RealNum
  | .fin x, .fin y => a.rnd (x - y)
  | .nan, _ => .nan
  | .fin _, .nan => .nan
  | .inf _, .nan => .nan
  | .fin _, .inf t => .inf (!t)
  | .inf s, .fin _ => .inf s
  | .inf s, .inf t => if s = t then .nan else .inf s

/-- The product; zero times an infinity has none. -/
def Arith.mul (a : Arith) : RealNum → RealNum → RealNum
  | .fin x, .fin y => a.rnd (x * y)
  | .nan, _ => .nan
  | .fin _, .nan => .nan
  | .inf _, .nan => .nan
  | .fin x, .inf t => if x = 0 then .nan else .inf (xor (decide (x < 0)) t)
  | .inf s, .fin y => if y = 0 then .nan else .inf (xor s (decide (y < 0)))
  | .inf s, .inf t => .inf (xor s t)

/-- The quotient of two numbers. Division by 0 gives an infinity in binary32, and 0/0 a NaN; no rule divides by 0 in
the reals (log entry 3). No divisor of the core is ever negative, so its zero is taken as positive (log entry 15). -/
def Arith.quotient (a : Arith) (x y : Rat) : RealNum :=
  match a with
  | .reals _ => .fin (x / y)
  | .binary32 => if y = 0 then (if x = 0 then .nan else .inf (decide (x < 0))) else roundBinary32 (x / y)

/-- The quotient; that of two infinities is a NaN. -/
def Arith.div (a : Arith) : RealNum → RealNum → RealNum
  | .fin x, .fin y => a.quotient x y
  | .nan, _ => .nan
  | .fin _, .nan => .nan
  | .inf _, .nan => .nan
  | .fin _, .inf _ => .fin 0
  | .inf s, .fin y => .inf (xor s (decide (y < 0)))
  | .inf _, .inf _ => .nan

/-- `frac(x) = x − floor(x)`, in [0, 1) (R14). An infinity is its own floor, so its fraction is a NaN
(log entry 26). -/
def Arith.frac (a : Arith) : RealNum → RealNum
  | .fin x => a.rnd (x - (x.floor : Int))
  | .inf _ => .nan
  | .nan => .nan

/-- The result of an irrational function, given the function at a working precision: the nearest multiple of
`2^(-bits)` in the reals, rounded in binary32 (log entry 2). -/
def Arith.irrational (a : Arith) (f : Nat → Rat) : RealNum :=
  match a with
  | .reals bits => .fin (roundToGrid bits (f (bits + 8)))
  | .binary32 => roundBinary32 (f a.bits)

/-- `2^x` (R401, R626). -/
def Arith.exp2 (a : Arith) : RealNum → RealNum
  | .fin x => a.irrational fun w => exp2Approx w x
  | .inf s => if s then .fin 0 else .inf false
  | .nan => .nan

/-- The square root of a count (R902). -/
def Arith.sqrt (a : Arith) (n : Nat) : RealNum := a.irrational fun w => sqrtApprox w n

/-- `b^e` in the reals for `0 < b < 1` and `e > 0`. The power lies strictly between 0 and 1, and so does the result
(41_percussion.md R525): a small exponent is given more bits, and neither bound is taken. -/
def realPower (bits : Nat) (b e : Rat) : Rat :=
  let g := bits + (-leadingExponent e).toNat + 1
  clamp (roundToGrid g (powApprox (g + 8) b e)) (pow2 (-(g : Int))) (1 - pow2 (-(g : Int)))

/-- `b^e` of two numbers, `0 ≤ b ≤ 1` and `e ≥ 0`. -/
def Arith.power (a : Arith) (b e : Rat) : RealNum :=
  if e = 0 ∨ b = 1 then .fin 1
  else if b = 0 then .fin 0
  else match a with
    | .reals bits => .fin (realPower bits b e)
    | .binary32 => roundBinary32 (powApprox a.bits b e)

/-- `b^e` for `0 ≤ b ≤ 1` and `e ≥ 0`, the real power (R510); `b^∞` is its limit. -/
def Arith.pow (a : Arith) (b : Rat) : RealNum → RealNum
  | .fin e => a.power b e
  | .inf _ => if b = 1 then .fin 1 else .fin 0
  | .nan => if b = 1 then .fin 1 else .nan

/-- `2π · x`. In the reals an angle is carried in turns, so that no value of π is chosen: `2π · x` is `x` turns.
In binary32 it is the rounded product of the rounded constant `2π` with `x`, in radians (log entry 16). -/
def Arith.twoPi (a : Arith) (x : RealNum) : RealNum :=
  match a with
  | .reals _ => x
  | .binary32 => a.mul (a.irrational fun w => 2 * piApprox (w + 1)) x

/-- The reduced angle, in radians, of a number that `twoPi` and the operations made. -/
def Arith.angle (a : Arith) (w : Nat) (x : Rat) : Rat :=
  match a with
  | .reals _ => turnAngle w x
  | .binary32 => radianAngle w x

/-- `sin` of an angle made by `twoPi` and the operations; that of an infinity is a NaN. -/
def Arith.sin (a : Arith) : RealNum → RealNum
  | .fin x => a.irrational fun w => sinSum (w / 2 + 10) (a.angle w x)
  | .inf _ => .nan
  | .nan => .nan

/-- `cos` of an angle made by `twoPi` and the operations; that of an infinity is a NaN. -/
def Arith.cos (a : Arith) : RealNum → RealNum
  | .fin x => a.irrational fun w => cosSum (w / 2 + 10) (a.angle w x)
  | .inf _ => .nan
  | .nan => .nan

end Sys2Proof
end

