-- ==== Sys2Proof/Machine/ParamRules.lean ====
section
/-! DEFINITION. The sanitizing of a SynthParams record (43_parameter_store.md §1) and the reading of the
preset table, both needed to construct the core (70_reset_and_hazards.md R1201). -/

namespace Sys2Proof.Machine

/-- `FB_CAP`, fixed by the source's §8 scenario (R701). -/
def fbCap : Rat := 92 / 100

/-- `P`, the number of presets (00_scope.md R11). -/
def presetCount (c : Cfg) : Nat := c.presets.length

/-- The clamp of an integer or Real field, in the order of the table of R700.
The presented number is clamped first, whatever its size, and the result is then held in the arithmetic (R13, R104). -/
def clampFields (c : Cfg) (p : Params) : Params :=
  let real (x lo hi : Rat) : Rat := c.arith.near (clamp x lo hi)
  { osc1Wave := clampByte p.osc1Wave 0 3
    osc2Wave := clampByte p.osc2Wave 0 3
    oscMix := real p.oscMix 0 1
    mono := p.mono
    maxVoices := clampByte p.maxVoices 1 c.maxVoices
    attack := real p.attack 0 5
    decay := real p.decay 0 5
    sustain := real p.sustain 0 1
    release := real p.release (1 / 100) 10
    filterType := clampByte p.filterType 0 2
    cutoff := real p.cutoff 20 18000
    resonance := real p.resonance (1 / 10) 10
    reverb := real p.reverb 0 1
    delayMs := real p.delayMs 0 800
    delayFeedback := real p.delayFeedback 0 (95 / 100)
    delayMix := real p.delayMix 0 1
    drive := real p.drive 0 1
    masterGain := real p.masterGain 0 1
    detune := real p.detune 0 8
    gainTrim := real p.gainTrim (45 / 100) 1
    drumKit := clampByte p.drumKit 0 2
    presetIndex := clampByte p.presetIndex 0 (presetCount c - 1) }

/-- `crossField(q)`: the feedback cap and the drive compensation (R701). -/
def crossField (c : Cfg) (q : Params) : Params :=
  let a := c.arith
  { q with
    delayFeedback :=
      if a.near fbCap < q.delayFeedback ∧ a.near c.mixHi ≤ q.delayMix then a.near fbCap else q.delayFeedback
    masterGain :=
      if a.near c.driveHi ≤ q.drive then a.near (q.masterGain * a.near c.driveGainAtten) else q.masterGain }

/-- `sanitize(p)` (R700). -/
def sanitize (c : Cfg) (p : Params) : Params := crossField c (clampFields c p)

/-- The record with `f` applied to each Real field. -/
def mapReals {R R' : Type} (f : R → R') (p : SynthParams R) : SynthParams R' where
  osc1Wave := p.osc1Wave
  osc2Wave := p.osc2Wave
  oscMix := f p.oscMix
  mono := p.mono
  maxVoices := p.maxVoices
  attack := f p.attack
  decay := f p.decay
  sustain := f p.sustain
  release := f p.release
  filterType := p.filterType
  cutoff := f p.cutoff
  resonance := f p.resonance
  reverb := f p.reverb
  delayMs := f p.delayMs
  delayFeedback := f p.delayFeedback
  delayMix := f p.delayMix
  drive := f p.drive
  masterGain := f p.masterGain
  detune := f p.detune
  gainTrim := f p.gainTrim
  drumKit := p.drumKit
  presetIndex := p.presetIndex

/-- The Real fields of a record, in the order of R104. -/
def realFields {R : Type} (p : SynthParams R) : List R :=
  [p.oscMix, p.attack, p.decay, p.sustain, p.release, p.cutoff, p.resonance, p.reverb, p.delayMs,
   p.delayFeedback, p.delayMix, p.drive, p.masterGain, p.detune, p.gainTrim]

/-- The number of a finite Real argument. -/
def finiteValue : RealNum → Rat
  | .fin q => q
  | .inf _ => 0
  | .nan => 0

/-- The number record of an argument record, if every Real field is finite (R702). -/
def finiteParams (p : SynthParams RealNum) : Option Params :=
  if (realFields p).all (·.isFin) then some (mapReals finiteValue p) else none

/-- `clamp(index, 0, P − 1)` (R705, R707, R708). -/
def presetSlot (c : Cfg) (index : Word) : Nat := clampNat index.toNat 0 (presetCount c - 1)

/-- The preset record of a slot with its `presetIndex` set to the slot (R705, R708). -/
def presetRecord (i : Nat) (p : Preset) : Params := { p.params with presetIndex := BitVec.ofNat 8 i }

/-- A record with every field 0: what stands in for a preset of a table that has none. -/
def zeroRecord : Params where
  osc1Wave := 0
  osc2Wave := 0
  oscMix := 0
  mono := false
  maxVoices := 0
  attack := 0
  decay := 0
  sustain := 0
  release := 0
  filterType := 0
  cutoff := 0
  resonance := 0
  reverb := 0
  delayMs := 0
  delayFeedback := 0
  delayMix := 0
  drive := 0
  masterGain := 0
  detune := 0
  gainTrim := 0
  drumKit := 0
  presetIndex := 0

/-- `sanitize(PRESETS[0])` with `presetIndex` 0, the record the core is constructed with (R105, R709).
Every admitted table has at least 13 rows, so the empty table's zero record is never used there. -/
def initialParams (c : Cfg) : Params :=
  sanitize c (match c.presets with
    | [] => zeroRecord
    | p :: _ => presetRecord 0 p)

end Sys2Proof.Machine
end

