-- ==== Sys2Proof/Machine/State.lean ====
section
/-! DEFINITION. The state of the core as plain data (10_state.md), the reasons a step can stop, and the state
after construction (70_reset_and_hazards.md R1201).
A field marked MODEL is the model's own: the environment's inputs, the record of what was observed, and
the "has been written" marks that R124 asks a model to keep. -/

namespace Sys2Proof.Machine

/-! ## Why a step stops -/

/-- The state elements that hold no defined value until a rule writes them (10_state.md R124). -/
inductive Element where
  /-- the snapshot (R106) -/
  | snapshot
  /-- the increments of an envelope (R108) -/
  | envelope
  /-- the filter coefficients (R112) -/
  | filter
  /-- `fs`, given by the first successful start (R1201) -/
  | sampleRate
  /-- a cell of the block buffer (R121) -/
  | block
  deriving DecidableEq, Repr

/-- The arenas and tables a small integer indexes (20_memory.md R200, R212). -/
inductive Arena where
  | delay | block | ring | voice | drum | recipe | kit | preset
  deriving DecidableEq, Repr

/-- The faults of the spec's model rules. Both are safe: the model stops where the spec says a model must. -/
inductive Fault where
  /-- A read of an element before its first write (10_state.md R124): raised by the commands and the render phases. Safe. -/
  | readBeforeWrite (e : Element)
  /-- An index outside its arena (20_memory.md R212): raised by the memory operations and the table reads. Safe. -/
  | indexOutOfRange (a : Arena)
  deriving DecidableEq, Repr

/-- The refusals of 60_exceptions.md R1106 and 40_dsp_primitives.md R400, and two of the model's own. All are safe: no
meaning is given. -/
inductive Refusal where
  /-- An instruction that has no meaning yet; raised by `exec` alone. Safe. -/
  | notModelled (mnemonic : String)
  /-- `ReservedCommand` (30_encoding.md R303): raised by the drain and by a command with a reserved operand. Safe. -/
  | reservedCommand
  /-- `ReservedHostOp` (30_encoding.md R305): raised by the decoding of a host call. Safe. -/
  | reservedHostOp
  /-- A host call whose arguments are not those of its selector, which no caller of R305 can make. Safe. -/
  | badArguments
  /-- `NonFiniteParam` (43_parameter_store.md R702): raised by setParams. Safe. -/
  | nonFiniteParam
  /-- `BadStartConfig` (46_scheduler_api.md R1010): raised by start. Safe. -/
  | badStartConfig
  /-- `NaNOperand` (40_dsp_primitives.md R400): raised by the clamps of the delay and output stages. Safe. -/
  | nanOperand
  deriving DecidableEq, Repr

/-- Why a computation inside a step stops. -/
inductive Stop where
  | fault (f : Fault)
  | refusal (r : Refusal)
  deriving DecidableEq, Repr

/-! ## Memory -/

/-- A fixed-size arena of bytes by index: a list of cells in canonical form (log entry 8).
The addresses rise strictly, and where an unlisted address reads as 0 no cell holds 0. -/
abbrev Memory := List Host.Cell

/-- The byte-addressed spaces of 20_memory.md R200 (PARAM is held as records, R206). -/
inductive Space where
  /-- one byte a cell (R201) -/
  | delay
  /-- the byte image of the block buffer (R202) -/
  | block
  /-- three bytes a slot (R203) -/
  | ring
  deriving DecidableEq, Repr

/-! ## The register files -/

/-- The envelope states (10_state.md R103). -/
inductive EnvState where
  | off | attack | decay | sustain | release
  deriving DecidableEq, Repr

/-- One envelope generator (10_state.md R108). -/
structure Envelope where
  state : EnvState
  level : RealNum
  attackInc : RealNum
  decayInc : RealNum
  sustainLevel : RealNum
  releaseInc : RealNum
  /-- MODEL: the four configured registers have been written since the last reset (R124). -/
  configured : Bool
  deriving DecidableEq, Repr

/-- One melodic voice (10_state.md R107). -/
structure Voice where
  active : Bool
  note : Byte
  age : Nat
  phase1 : RealNum
  phase2 : RealNum
  velocity : RealNum
  env : Envelope
  deriving DecidableEq, Repr

/-- The voice pool and its shared age counter (10_state.md R107, R109). -/
structure Pool where
  voices : List Voice
  ageCounter : Nat
  deriving DecidableEq, Repr

/-- One percussion voice (10_state.md R110). -/
structure Drum where
  active : Bool
  envLevel : RealNum
  envTarget : RealNum
  attackRate : RealNum
  attacking : Bool
  decayCoef : RealNum
  phase : RealNum
  carrierHz : RealNum
  pitchEnv : RealNum
  pitchDecay : RealNum
  toneMix : RealNum
  noiseMix : RealNum
  pan : RealNum
  drive : RealNum
  gain : RealNum
  lpState : RealNum
  hpState : RealNum
  deriving DecidableEq, Repr

/-- The shared filter (10_state.md R112). -/
structure Biquad where
  b0 : RealNum
  b1 : RealNum
  b2 : RealNum
  a1 : RealNum
  a2 : RealNum
  z1 : RealNum
  z2 : RealNum
  /-- MODEL: the coefficients have been written (R124). -/
  configured : Bool
  deriving DecidableEq, Repr

/-- One DC blocker (10_state.md R113). -/
structure DcBlocker where
  xPrev : RealNum
  yPrev : RealNum
  deriving DecidableEq, Repr

/-- The delay line (10_state.md R114). -/
structure DelayLine where
  cells : Memory
  /-- `DELAY_LEN` of the last successful start; 0 stands for "undetermined" before one (R1201). -/
  len : Nat
  writeIdx : Nat
  deriving DecidableEq, Repr

/-- The reverb states (10_state.md R115). -/
structure Reverb where
  revL : RealNum
  revR : RealNum
  deriving DecidableEq, Repr

/-- The fade stage (10_state.md R116). `target` is the one bit of `fadeTarget`: true for 1. -/
structure Fade where
  level : RealNum
  target : Bool
  step : RealNum
  deriving DecidableEq, Repr

/-! ## Store, queue, table, counters -/

/-- The double-buffered parameter store (10_state.md R105). -/
structure Store where
  params0 : Params
  params1 : Params
  activeIdx : Fin 2
  deriving DecidableEq, Repr

/-- The render context's private snapshot (10_state.md R106). -/
structure Snapshot where
  params : Params
  /-- MODEL: the snapshot has been taken (R124). -/
  taken : Bool
  deriving DecidableEq, Repr

/-- The command ring (10_state.md R117). Byte `j` of slot `i` is at address `3i + j`. -/
structure Ring where
  slots : Memory
  head : Nat
  tail : Nat
  deriving DecidableEq, Repr

/-- One entry of the scheduled note-off table (10_state.md R118). -/
structure SchedEntry where
  live : Bool
  note : Byte
  due : Word
  deriving DecidableEq, Repr

/-- The diagnostic counters (10_state.md R119). -/
structure Counters where
  underrunsPending : Word
  underrunsTotal : Word
  sinkWriteFailures : Word
  queueDrops : Word
  queueHighWater : Word
  renderTimeSumUs : Word
  renderBlocks : Word
  renderTimeMaxUs : Word
  deriving DecidableEq, Repr

/-! ## Sequencing and the environment -/

/-- The position of the render context in its loop (10_state.md R101, 46_scheduler_api.md R1001 to R1004). -/
inductive Phase where
  /-- before a successful start, or after the loop was left: the context takes no step -/
  | absent
  /-- the top of an iteration (R1001) -/
  | loopTest
  | snap
  | drain
  /-- RENDER, about to compute frame `k` -/
  | render (k : Nat)
  | write
  deriving DecidableEq, Repr

/-- The lifecycle state (10_state.md R103, R120) with the operating point given to start. -/
structure Lifecycle where
  running : Bool
  enabled : Bool
  ack : Bool
  /-- "fs unset" means no start has ever succeeded (46_scheduler_api.md R1013): `started` is false. -/
  started : Bool
  fs : Nat
  blockSize : Nat
  sink : Option SinkConfig
  phase : Phase
  /-- MODEL: the block in flight belongs to a run that `stop` has ended, so its WRITE is a failed write (D47). -/
  late : Bool
  deriving DecidableEq, Repr

/-- A host operation that spans several atomic steps, between two of them (20_memory.md R213). -/
inductive Ongoing where
  /-- stop, before its step 2 (46_scheduler_api.md R1011) -/
  | stopDisable
  /-- stop, in its step 3, with the bound STOP_WAIT_MS -/
  | stopAwait (boundMs : Word)
  /-- stop, before its step 4 -/
  | stopTearDown
  /-- triggerTestChord with the notes still to play (46_scheduler_api.md R1026) -/
  | chord (notes : List Byte) (durationMs : Word)
  deriving DecidableEq, Repr

/-- The results a step may need from outside the core, whatever the environment answers
(60_exceptions.md R1131, 46_scheduler_api.md R1011, R1020 and R1042). -/
structure Draws where
  /-- `nowMs()`, the host's millisecond clock (R1020) -/
  nowMs : Word
  /-- the result of `sink.configure` (R1130) -/
  configureOk : Bool
  /-- the result of `sink.write` (R1130); `bytesWritten` is taken modulo `byteCount + 1`, so every value of
  [0, byteCount] is drawn and no other -/
  bytesWritten : Nat
  writeOk : Bool
  /-- `RENDER_TIME_US` (R1042) -/
  renderTimeUs : Word
  /-- the bound STOP_WAIT_MS has expired (R1011 step 3) -/
  waitExpired : Bool
  deriving DecidableEq, Repr

/-- Which agent takes the next atomic step (20_memory.md R213). -/
inductive Move where
  /-- some control context issues this host call -/
  | call (c : HostCall)
  /-- the control context inside ongoing operation `j` takes its next step -/
  | resume (j : Nat)
  /-- the render context takes its next step -/
  | render
  deriving DecidableEq, Repr

/-- One input: the schedule's choice and the draws that step may use. -/
structure Input where
  move : Move
  draws : Draws
  deriving DecidableEq, Repr

/-- The record getPerfSnapshot returns (46_scheduler_api.md R1041). -/
structure PerfSnapshot where
  underrunsTotal : Word
  sinkWriteFailures : Word
  queueDepth : Nat
  queueHighWater : Word
  queueDrops : Word
  avgRenderTimeUs : Word
  maxRenderTimeUs : Word
  deriving DecidableEq, Repr

/-- The result of a host operation (30_encoding.md R305). -/
inductive HostResult where
  | flag (b : Bool)
  | count (n : Word)
  | params (p : Params)
  | perf (r : PerfSnapshot)
  | name (s : String)
  deriving DecidableEq, Repr

/-- What is observed of a run (60_exceptions.md R1131), and the calls made to the sink (R1130). -/
inductive Event where
  /-- a host operation returned -/
  | result (r : HostResult)
  /-- a block was rendered; its BLOCK byte image -/
  | block (image : List Byte)
  /-- `sink.configure(sampleRate, bitDepth, channels, bufferCount, bufferLen)` -/
  | sinkConfigure (sampleRate bitDepth channels : Nat) (bufferCount bufferLen : Word) (ok : Bool)
  /-- `sink.write(BLOCK, byteCount, timeoutMs)` and the bytes the sink accepted -/
  | sinkWrite (byteCount : Nat) (timeoutMs : Word) (accepted : List Byte) (ok : Bool)
  /-- `sink.flushSilence()` -/
  | sinkFlush
  /-- `sink.release()` -/
  | sinkRelease
  deriving DecidableEq, Repr

/-- The state of the core. -/
structure State where
  /-- the build constants (00_scope.md R11); no step changes them -/
  cfg : Cfg
  life : Lifecycle
  drumsEnabled : Bool
  store : Store
  snapshot : Snapshot
  pool : Pool
  drums : List Drum
  noise : Word
  filter : Biquad
  dcL : DcBlocker
  dcR : DcBlocker
  delay : DelayLine
  reverb : Reverb
  fade : Fade
  block : Memory
  queue : Ring
  sched : List SchedEntry
  counters : Counters
  /-- MODEL: the host operations between two of their steps, oldest first -/
  ongoing : List Ongoing
  /-- MODEL: the schedule and the external results to come, next first -/
  inputs : List Input
  /-- MODEL: the draws of the step being taken -/
  draws : Draws
  /-- MODEL: what has been observed, newest first -/
  trace : List Event
  deriving DecidableEq, Repr

/-! ## Construction and reset values -/

/-- An envelope after construction and after start: Off at level 0, its increments not set (R108, R1200). -/
def Envelope.initial : Envelope where
  state := .off
  level := .fin 0
  attackInc := .fin 0
  decayInc := .fin 0
  sustainLevel := .fin 0
  releaseInc := .fin 0
  configured := false

/-- A voice after construction and after start (R107). -/
def Voice.initial : Voice where
  active := false
  note := 0
  age := 0
  phase1 := .fin 0
  phase2 := .fin 0
  velocity := .fin 0
  env := .initial

/-- A percussion voice after construction and after start (R110). -/
def Drum.initial : Drum where
  active := false
  envLevel := .fin 0
  envTarget := .fin 0
  attackRate := .fin 0
  attacking := false
  decayCoef := .fin 0
  phase := .fin 0
  carrierHz := .fin 0
  pitchEnv := .fin 0
  pitchDecay := .fin 0
  toneMix := .fin 0
  noiseMix := .fin 0
  pan := .fin 0
  drive := .fin 0
  gain := .fin 0
  lpState := .fin 0
  hpState := .fin 0

/-- The pool after construction and after start (R107, R109). -/
def Pool.initial (c : Cfg) : Pool where
  voices := List.replicate c.maxVoices .initial
  ageCounter := 0

/-- The filter after construction (R112). -/
def Biquad.initial : Biquad where
  b0 := .fin 0
  b1 := .fin 0
  b2 := .fin 0
  a1 := .fin 0
  a2 := .fin 0
  z1 := .fin 0
  z2 := .fin 0
  configured := false

/-- A DC blocker after construction and after start (R113). -/
def DcBlocker.initial : DcBlocker where
  xPrev := .fin 0
  yPrev := .fin 0

/-- The fade stage after construction and after start (R116). -/
def Fade.initial : Fade where
  level := .fin 1
  target := true
  step := .fin 0

/-- The counters after construction (R119). -/
def Counters.initial : Counters where
  underrunsPending := 0
  underrunsTotal := 0
  sinkWriteFailures := 0
  queueDrops := 0
  queueHighWater := 0
  renderTimeSumUs := 0
  renderBlocks := 0
  renderTimeMaxUs := 0

/-- A table entry that is not live (R118). -/
def SchedEntry.initial : SchedEntry where
  live := false
  note := 0
  due := 0

/-- The lifecycle after construction (R103, R120): not running, no sink, no render context. -/
def Lifecycle.initial : Lifecycle where
  running := false
  enabled := false
  ack := false
  started := false
  fs := 0
  blockSize := 0
  sink := none
  phase := .absent
  late := false

/-- No draw has been made. -/
def Draws.initial : Draws where
  nowMs := 0
  configureOk := false
  bytesWritten := 0
  writeOk := false
  renderTimeUs := 0
  waitExpired := false

/-- The number of percussion parts, `N_DRUM` (R110). -/
def drumCount : Nat := 8

/-- The core right after construction with the build constants `c` (70_reset_and_hazards.md R1201). -/
def State.construct (c : Cfg) : State where
  cfg := c
  life := .initial
  drumsEnabled := true
  store := { params0 := initialParams c, params1 := initialParams c, activeIdx := 0 }
  snapshot := { params := initialParams c, taken := false }
  pool := .initial c
  drums := List.replicate drumCount .initial
  noise := c.noiseSeed
  filter := .initial
  dcL := .initial
  dcR := .initial
  delay := { cells := [], len := 0, writeIdx := 0 }
  reverb := { revL := .fin 0, revR := .fin 0 }
  fade := .initial
  block := []
  queue := { slots := [], head := 0, tail := 0 }
  sched := List.replicate c.schedN .initial
  counters := .initial
  ongoing := []
  inputs := []
  draws := .initial
  trace := []

/-- The machine right after reset: the core constructed with the default build constants. -/
def State.reset : State := State.construct defaultCfg

end Sys2Proof.Machine
end

