-- ==== Sys2Proof/Machine/Ops.lean ====
section
/-! DEFINITION. The named operations over the arenas, the ring, the note-off table, the parameter store and the
counters, which the instructions share (20_memory.md, 44_command_queue.md, 46_scheduler_api.md §4, 43_parameter_store.md).
The core has no trap: `raise` records an error event where the spec does and transfers control nowhere
(60_exceptions.md R1100, R1109), and there is nothing to return from (R1110). -/

namespace Sys2Proof.Machine

/-- The three outcomes of a step of this machine. -/
abbrev Outcome := Host.Outcome State Fault Refusal

/-- A computation inside a step: a value, or the reason the step stops. -/
abbrev Run (α : Type) := Except Stop α

/-- The outcome of a computation that may stop. -/
def finish : Run State → Outcome
  | .ok s => .next s
  | .error (.fault f) => .fault f
  | .error (.refusal r) => .refused r

/-! ## Memory -/

/-- The byte listed at an address. -/
def Memory.lookup : Memory → Nat → Option Byte
  | [], _ => none
  | (b, v) :: m, a => if a = b then some v else if a < b then none else Memory.lookup m a

/-- The list with the byte at `a` set to `v`. -/
def Memory.insert (a : Nat) (v : Byte) : Memory → Memory
  | [] => [(a, v)]
  | (b, w) :: m => if a < b then (a, v) :: (b, w) :: m else if a = b then (a, v) :: m else (b, w) :: Memory.insert a v m

/-- The list with nothing at `a`. -/
def Memory.erase (a : Nat) : Memory → Memory
  | [] => []
  | (b, w) :: m => if a < b then (b, w) :: m else if a = b then m else (b, w) :: Memory.erase a m

/-- What an unlisted cell of a space reads as: 0 in DELAY and RING (10_state.md R114, R117);
nothing in BLOCK, whose cells are unspecified until written (R121). -/
def Space.blank : Space → Option Byte
  | .delay => some 0
  | .ring => some 0
  | .block => none

/-- The byte a memory holds at an address, if it holds one. -/
def Memory.get (blank : Option Byte) (m : Memory) (a : Nat) : Option Byte :=
  match Memory.lookup m a with
  | some v => some v
  | none => blank

/-- The memory after a byte is stored; it stays in canonical form. -/
def Memory.put (blank : Option Byte) (m : Memory) (a : Nat) (v : Byte) : Memory :=
  if blank = some v then Memory.erase a m else Memory.insert a v m

/-- The canonical form: addresses rise strictly, and no entry repeats what an unlisted cell reads as. -/
abbrev Memory.wf (blank : Option Byte) (m : Memory) : Prop :=
  m.Pairwise (fun x y => x.1 < y.1) ∧ ∀ c ∈ m, blank ≠ some c.2

/-- The bytes of a space. -/
def State.arena (s : State) : Space → Memory
  | .delay => s.delay.cells
  | .block => s.block
  | .ring => s.queue.slots

/-- The size of a space in bytes (20_memory.md R201, R202, R203). -/
def State.arenaSize (s : State) : Space → Nat
  | .delay => s.delay.len
  | .block => 4 * s.life.blockSize
  | .ring => 3 * s.cfg.qcap

/-- The arena a space's index faults under. -/
def Space.arena : Space → Arena
  | .delay => .delay
  | .block => .block
  | .ring => .ring

/-- The state with the bytes of one space replaced. -/
def State.setArena (s : State) (sp : Space) (m : Memory) : State :=
  match sp with
  | .delay => { s with delay := { s.delay with cells := m } }
  | .block => { s with block := m }
  | .ring => { s with queue := { s.queue with slots := m } }

/-- The byte at an address of a space; none outside the space and in an unwritten BLOCK cell. -/
def State.readByte (s : State) (sp : Space) (a : Nat) : Option Byte :=
  if a < s.arenaSize sp then Memory.get sp.blank (s.arena sp) a else none

/-- `MemRead(space:a, 1)` (R15): an index out of range faults (20_memory.md R212), and so does an
unwritten cell (10_state.md R124). -/
def memRead (s : State) (sp : Space) (a : Nat) : Run Byte :=
  if a < s.arenaSize sp then
    match Memory.get sp.blank (s.arena sp) a with
    | some v => .ok v
    | none => .error (.fault (.readBeforeWrite .block))
  else .error (.fault (.indexOutOfRange sp.arena))

/-- `MemRead(space:a, n)`: the bytes at `a`, `a + 1`, …, in rising order. -/
def memReads (s : State) (sp : Space) : (a n : Nat) → Run (List Byte)
  | _, 0 => .ok []
  | a, n + 1 => do
    let b ← memRead s sp a
    let bs ← memReads s sp (a + 1) n
    .ok (b :: bs)

/-- `MemWrite(space:a, 1, v)`. -/
def memWrite (sp : Space) (a : Nat) (v : Byte) (s : State) : Run State :=
  if a < s.arenaSize sp then .ok (s.setArena sp (Memory.put sp.blank (s.arena sp) a v))
  else .error (.fault (.indexOutOfRange sp.arena))

/-- `MemWrite(space:a, n, v)`: the bytes of `v` at `a`, `a + 1`, …. -/
def memWrites (sp : Space) : (a : Nat) → List Byte → State → Run State
  | _, [], s => .ok s
  | a, b :: bs, s => do
    let s' ← memWrite sp a b s
    memWrites sp (a + 1) bs s'

/-- The two bytes of an s16, low byte first (20_memory.md R205). -/
def s16Bytes (x : Int) : List Byte :=
  let v := BitVec.ofInt 16 x
  [v.extractLsb' 0 8, v.extractLsb' 8 8]

/-! ## Events and observations -/

/-- The error events of 60_exceptions.md R1100. -/
inductive ErrorEvent where
  /-- E1 ParamClamped -/
  | paramClamped
  /-- E2 QueueDrop -/
  | queueDrop
  /-- E3 Underrun, with the status of the write -/
  | underrun (failed : Bool)
  /-- E4 StartFailure -/
  | startFailure
  /-- E5 TeardownAnomaly -/
  | teardownAnomaly
  deriving DecidableEq, Repr

/-- `raise <Event>`: the counters of the table of R1100, and nothing else. -/
def raise (e : ErrorEvent) (s : State) : State :=
  match e with
  | .paramClamped => s
  | .queueDrop => { s with counters := { s.counters with queueDrops := s.counters.queueDrops + 1 } }
  | .underrun failed =>
    { s with counters := { s.counters with
        sinkWriteFailures := if failed then s.counters.sinkWriteFailures + 1 else s.counters.sinkWriteFailures
        underrunsTotal := s.counters.underrunsTotal + 1
        underrunsPending := s.counters.underrunsPending + 1 } }
  | .startFailure => s
  | .teardownAnomaly => s

/-- The state with one more observation (60_exceptions.md R1131). -/
def State.emit (s : State) (e : Event) : State := { s with trace := e :: s.trace }

/-- A host operation that returns a result and has no further effect. -/
def State.answer (s : State) (r : HostResult) : State := s.emit (.result r)

/-! ## The command ring -/

/-- The number of commands held, `(head − tail) mod QCAP` (44_command_queue.md R800). -/
def State.queueDepth (s : State) : Nat := (s.queue.head + s.cfg.qcap - s.queue.tail) % s.cfg.qcap

/-- The slot after slot `i`. -/
def State.nextSlot (s : State) (i : Nat) : Nat := (i + 1) % s.cfg.qcap

/-- The greater of two `u32` values. -/
def maxWord (a b : Word) : Word := if a.toNat < b.toNat then b else a

/-- The bytes of a record in slot order (30_encoding.md R300). -/
def recordBytes (r : Record) : List Byte := [r.kind, r.primary, r.secondary]

/-- The state after the head moves over the slot just written (R801).
DESIGN CHOICE (log entry 23): the depth enters the `u32` counter reduced modulo 2^32, before the maximum is taken. It
differs from the depth only where `QCAP` exceeds 2^32, which D44 does not exclude. -/
def State.advanceHead (s : State) : State :=
  let s' := { s with queue := { s.queue with head := s.nextSlot s.queue.head } }
  { s' with counters := { s'.counters with
      queueHighWater := maxWord s'.counters.queueHighWater (BitVec.ofNat 32 s'.queueDepth) } }

/-- The next-head index equals the tail index: the ring is full (R800). -/
def State.queueFull (s : State) : Bool := s.nextSlot s.queue.head = s.queue.tail

/-- `push(cmd)` (R801): the state after it, and whether the record was accepted. -/
def push (r : Record) (s : State) : Run (State × Bool) :=
  if s.queueFull then .ok (raise .queueDrop s, false)
  else do
    let s' ← memWrites .ring (3 * s.queue.head) (recordBytes r) s
    .ok (s'.advanceHead, true)

/-- The record of a slot. -/
def readSlot (s : State) (i : Nat) : Run Record := do
  let k ← memRead s .ring (3 * i)
  let p ← memRead s .ring (3 * i + 1)
  let v ← memRead s .ring (3 * i + 2)
  .ok ⟨k, p, v⟩

/-- `pop()` (R802): none from an empty ring, else the oldest record and the state without it. -/
def pop (s : State) : Run (Option (Record × State)) :=
  if s.queue.head = s.queue.tail then .ok none
  else do
    let r ← readSlot s s.queue.tail
    .ok (some (r, { s with queue := { s.queue with tail := s.nextSlot s.queue.tail } }))

/-! ## The scheduled note-off table -/

/-- The entry is live and holds the note. -/
def SchedEntry.holds (e : SchedEntry) (note : Byte) : Bool := e.live && (e.note == note)

/-- The table with the lowest-index entry that is not live set; unchanged when every entry is live (R1031). -/
def schedTake (note : Byte) (due : Word) : List SchedEntry → List SchedEntry
  | [] => []
  | e :: es => if e.live then e :: schedTake note due es else ⟨true, note, due⟩ :: es

/-- `schedInsert(note, due)` (46_scheduler_api.md R1031). -/
def schedInsert (note : Byte) (due : Word) (es : List SchedEntry) : List SchedEntry :=
  if es.any (·.holds note) then es.map fun e => if e.holds note then { e with due := due } else e
  else schedTake note due es

/-- `schedRemove(note)` (R1032). -/
def schedRemove (note : Byte) (es : List SchedEntry) : List SchedEntry :=
  es.map fun e => if e.holds note then { e with live := false } else e

/-- `schedClear()` (R1033). -/
def schedClear (es : List SchedEntry) : List SchedEntry := es.map fun e => { e with live := false }

/-! ## The parameter store -/

/-- `params[activeIdx]` (10_state.md R105). -/
def Store.active (p : Store) : Params := if p.activeIdx = 0 then p.params0 else p.params1

/-- The publish of R703: the inactive copy is written, then the index flips. -/
def Store.publish (p : Store) (q : Params) : Store :=
  if p.activeIdx = 0 then { p with params1 := q, activeIdx := 1 } else { p with params0 := q, activeIdx := 0 }

/-- `setParams` on a number record: sanitize, then publish, in one atomic step (R703). -/
def storeParams (p : Params) (s : State) : State := { s with store := s.store.publish (sanitize s.cfg p) }

end Sys2Proof.Machine
end

