-- ==== Sys2Proof/Machine/Operands.lean ====
section
/-! DEFINITION. The operand forms: how a command byte, an API operand and a build table become the values the
operations use (30_encoding.md R302 and R306). -/

namespace Sys2Proof.Machine

/-- A `u8` operand, zero-extended to a Real (R302). -/
def byteReal (b : Byte) : RealNum := .fin (b.toNat : Nat)

/-- A `u32` operand as a Real (R306). -/
def wordReal (w : Word) : Rat := (w.toNat : Nat)

/-- `clamp(x, lo, hi)` of a signal value: a NaN operand is refused (40_dsp_primitives.md R400, D43). -/
def clampSignal (x : RealNum) (lo hi : Rat) : Run Rat :=
  match x with
  | .fin q => .ok (clamp q lo hi)
  | .inf s => .ok (if s then lo else hi)
  | .nan => .error (.refusal .nanOperand)

/-- The velocity scalar of a voice, `vel / 127` (42_voice_pool.md R613). -/
def velocityScalar (a : Arith) (vel : Byte) : RealNum := a.div (byteReal vel) (.fin 127)

/-- The velocity byte of a velocity scalar, `roundHalfAway(127 · velocity)` (R626). -/
def velocityByte (a : Arith) (velocity : RealNum) : RealNum := (a.mul (.fin 127) velocity).round

/-- The drum level of a velocity: at least `DRUM_VEL_FLOOR` (41_percussion.md R510). -/
def drumLevel (c : Cfg) (vel : Byte) : RealNum :=
  (c.arith.const c.drumVelFloor).max (c.arith.div (.fin (clampNat vel.toNat 0 127 : Nat)) (.fin 127))

/-- An API velocity: `min(velocity, 127)` (46_scheduler_api.md R1020, R1022). -/
def apiVelocity (vel : Byte) : Byte := BitVec.ofNat 8 (min vel.toNat 127)

/-- An API note the core accepts; one above 127 is dropped (R1020, R1021). -/
def apiNote (note : Byte) : Bool := note.toNat ≤ 127

/-- An API part the core accepts; one above 7 is dropped (R1022). -/
def apiPart (part : Byte) : Bool := part.toNat ≤ 7

/-- `DETUNE_SCALE(note, velByte)` (D6). -/
def detuneScaleAt (d : DetuneScale) (note : Byte) (velByte : RealNum) : Rat :=
  match d.rows.find? fun r => (r.note == note) && (byteReal r.vel == velByte) with
  | some r => r.scale
  | none => d.default

/-- A function of the sink configuration (D62). -/
def sinkFnAt (f : SinkFn) (k : SinkConfig) : Word :=
  match f.rows.find? fun r => r.config == k.handle with
  | some r => r.value
  | none => f.default

/-- A row of a build table; an index outside it faults (20_memory.md R212). -/
def tableRow {α : Type} (a : Arena) (rows : List α) (i : Nat) : Run α :=
  match rows[i]? with
  | some r => .ok r
  | none => .error (.fault (.indexOutOfRange a))

end Sys2Proof.Machine
end

