-- ==== Sys2Proof/Machine/Flags.lean ====
section
/-! DEFINITION. The status elements of the core and the conditions computed from them (10_state.md R103).
None is set as a side effect of arithmetic: the core has no arithmetic flags. -/

namespace Sys2Proof.Machine

/-- `env.active()` (40_dsp_primitives.md R434). -/
def Envelope.active (e : Envelope) : Bool := decide (e.state ≠ .off)

/-- `env.noteOn()`: the state is Attack, the level is kept (R431). -/
def Envelope.noteOn (e : Envelope) : Envelope := { e with state := .attack }

/-- `env.noteOff()`: the state is Release unless it is Off (R432). -/
def Envelope.noteOff (e : Envelope) : Envelope := if e.state = .off then e else { e with state := .release }

/-- `retire(env)` (42_voice_pool.md R640). -/
def retire (c : Cfg) (e : Envelope) : Bool :=
  match e.state with
  | .off => true
  | .release => e.level.lt (c.arith.const c.retireEps)
  | .attack => false
  | .decay => false
  | .sustain => false

/-- The envelope threshold below which a part is deactivated, 0.00015 (41_percussion.md R523). -/
def drumCutThreshold : Rat := 15 / 100000

/-- The part is deactivated after its envelope advance (R520, R523): not while it is attacking. -/
def drumDone (a : Arith) (d : Drum) : Bool := !d.attacking && d.envLevel.lt (a.const drumCutThreshold)

/-- `isDue(t, due)`: the difference, read as s32, is non-negative (46_scheduler_api.md R1030). -/
def isDue (t due : Word) : Bool := decide (0 ≤ (t - due).toInt)

/-- A live entry whose due time has come (R1034). -/
def SchedEntry.isServed (e : SchedEntry) (now : Word) : Bool := e.live && isDue now e.due

/-- A voice with its `active` bit cleared, its other registers kept (R612, R640). -/
def Voice.deactivate (v : Voice) : Voice := { v with active := false }

/-- A part with its `active` bit cleared, its other registers kept (R515, R523). -/
def Drum.deactivate (d : Drum) : Drum := { d with active := false }

end Sys2Proof.Machine
end

