-- ==== Sys2Proof/Machine/NoteOps.lean ====
section
/-! DEFINITION. The note and drum operations of the API, the scheduled note-offs, and the diagnostics
(46_scheduler_api.md §3 to §5). -/

namespace Sys2Proof.Machine

/-- The record of a ring command with its "must be 0" fields 0 (30_encoding.md R301). -/
def noteOnRecord (note vel : Byte) : Record := ⟨0x00, note, vel⟩
def noteOffRecord (note : Byte) : Record := ⟨0x01, note, 0⟩
def allNotesOffRecord : Record := ⟨0x02, 0, 0⟩
def drumHitRecord (part vel : Byte) : Record := ⟨0x03, part, vel⟩
def allDrumsOffRecord : Record := ⟨0x04, 0, 0⟩

/-- A push whose result the operation does not use. -/
def pushOnly (r : Record) (s : State) : Run State := do
  let x ← push r s
  .ok x.1

/-- The body of `noteOn(note, velocity, gateMs)`: a note above 127 is dropped; the gate is scheduled only
if the push was accepted (R1020, D60). -/
def playNote (note vel : Byte) (gateMs : Word) (s : State) : Run State :=
  if apiNote note then do
    let x ← push (noteOnRecord note (apiVelocity vel)) s
    if x.2 && decide (gateMs ≠ 0) then
      .ok { x.1 with sched := schedInsert note (x.1.draws.nowMs + gateMs) x.1.sched }
    else .ok x.1
  else .ok s

/-- `noteOn(note, velocity, gateMs)` (R1020). -/
def execNoteOn (note vel : Byte) (gateMs : Word) (s : State) : Outcome := finish (playNote note vel gateMs s)

/-- `noteOff(note)`: the push, then the entry of the note is removed whether or not it was accepted (R1021). -/
def execNoteOff (note : Byte) (s : State) : Outcome :=
  if apiNote note then finish do
    let s' ← pushOnly (noteOffRecord note) s
    .ok { s' with sched := schedRemove note s'.sched }
  else .next s

/-- `allNotesOff()`: the push, then the table is cleared whether or not it was accepted (R1025). -/
def execAllNotesOff (s : State) : Outcome :=
  finish do
    let s' ← pushOnly allNotesOffRecord s
    .ok { s' with sched := schedClear s'.sched }

/-- `drumHit(part, velocity)`: discarded while drums are disabled or for a part above 7 (R1022). -/
def execDrumHit (part vel : Byte) (s : State) : Outcome :=
  if s.drumsEnabled && apiPart part then finish (pushOnly (drumHitRecord part (apiVelocity vel)) s) else .next s

/-- `allDrumsOff()` (R1023). -/
def execAllDrumsOff (s : State) : Outcome := finish (pushOnly allDrumsOffRecord s)

/-- `setDrumsEnabled(b)` (R1024). -/
def execSetDrumsEnabled (b : Bool) (s : State) : Outcome := .next { s with drumsEnabled := b }

/-- The next noteOn of a test chord: one atomic step, and the notes still to play (R1026). -/
def playChord (notes : List Byte) (durationMs : Word) (s : State) : Run (State × List Byte) :=
  match notes with
  | [] => .ok (s, [])
  | n :: rest => do
    let s' ← playNote n s.cfg.testVel durationMs s
    .ok (s', rest)

/-- The operations left after a chord step: none when every note has been played. -/
def chordLeft (rest : List Byte) (durationMs : Word) : List Ongoing :=
  if rest = [] then [] else [.chord rest durationMs]

/-- `triggerTestChord(durationMs)`: the first noteOn of the chord; each later one is a step of its own, and the
calling context stays inside the operation until then (R1026). -/
def execTriggerTestChord (durationMs : Word) (s : State) : Outcome :=
  finish do
    let x ← playChord s.cfg.testChord durationMs s
    .ok { x.1 with ongoing := x.1.ongoing ++ chordLeft x.2 durationMs }

/-- The entries served in index order at time `now`, with the state the pushes leave.
An entry whose push is dropped stays live (R1034, D55). -/
def serveEntries (now : Word) : List SchedEntry → State → Run (List SchedEntry × State)
  | [], s => .ok ([], s)
  | e :: es, s =>
    if e.isServed now then do
      let x ← push (noteOffRecord e.note) s
      let r ← serveEntries now es x.1
      .ok ({ e with live := e.live && !x.2 } :: r.1, r.2)
    else do
      let r ← serveEntries now es s
      .ok (e :: r.1, r.2)

/-- `service(nowMs)` (R1034). -/
def execService (nowMs : Word) (s : State) : Outcome :=
  finish do
    let r ← serveEntries nowMs s.sched s
    .ok { r.2 with sched := r.1 }

/-! ## Diagnostics -/

/-- `consumeUnderruns()`: the pending count, exchanged with 0 (R1040). -/
def execConsumeUnderruns (s : State) : Outcome :=
  .next (({ s with counters := { s.counters with underrunsPending := 0 } }).answer (.count s.counters.underrunsPending))

/-- `floor(renderTimeSumUs / renderBlocks)`, or 0 when no block was rendered (R1041). -/
def avgRenderTime (c : Counters) : Word :=
  if c.renderBlocks = 0 then 0 else BitVec.ofNat 32 (c.renderTimeSumUs.toNat / c.renderBlocks.toNat)

/-- The record of R1041. -/
def perfSnapshot (s : State) : PerfSnapshot where
  underrunsTotal := s.counters.underrunsTotal
  sinkWriteFailures := s.counters.sinkWriteFailures
  queueDepth := s.queueDepth
  queueHighWater := s.counters.queueHighWater
  queueDrops := s.counters.queueDrops
  avgRenderTimeUs := avgRenderTime s.counters
  maxRenderTimeUs := s.counters.renderTimeMaxUs

/-- `getPerfSnapshot()` (R1041). -/
def execGetPerfSnapshot (s : State) : Outcome := .next (s.answer (.perf (perfSnapshot s)))

end Sys2Proof.Machine
end

