-- ==== Sys2Proof/Machine/ParamStore.lean ====
section
/-! DEFINITION. The parameter store operations setParams, getParams, loadPreset, resetPreset, presetName and
presetDefaults (43_parameter_store.md §2). -/

namespace Sys2Proof.Machine

/-- `setParams(p)`: a record with a NaN or infinite field is refused (R702), any other is sanitized and published (R703). -/
def execSetParams (p : SynthParams RealNum) (s : State) : Outcome :=
  match finiteParams p with
  | none => .refused .nonFiniteParam
  | some q => .next (storeParams q s)

/-- `getParams()`: the active record, whole (R704). -/
def execGetParams (s : State) : Outcome := .next (s.answer (.params s.store.active))

/-- The body of loadPreset for a slot: the preset with its index, through setParams (R705). -/
def loadSlot (i : Nat) (s : State) : Run State := do
  let p ← tableRow .preset s.cfg.presets i
  .ok (storeParams (presetRecord i p) s)

/-- `loadPreset(index)` (R705). -/
def execLoadPreset (index : Word) (s : State) : Outcome := finish (loadSlot (presetSlot s.cfg index) s)

/-- `resetPreset()`: the preset of the active record's index, loaded again (R706). -/
def execResetPreset (s : State) : Outcome :=
  finish (loadSlot (presetSlot s.cfg (s.store.active.presetIndex.setWidth 32)) s)

/-- `presetName(index)` (R707). -/
def execPresetName (index : Word) (s : State) : Outcome :=
  finish do
    let p ← tableRow .preset s.cfg.presets (presetSlot s.cfg index)
    .ok (s.answer (.name p.name))

/-- `presetDefaults(index)`: the sanitized preset with its index, not published (R708). -/
def execPresetDefaults (index : Word) (s : State) : Outcome :=
  finish do
    let i := presetSlot s.cfg index
    let p ← tableRow .preset s.cfg.presets i
    .ok (s.answer (.params { sanitize s.cfg p.params with presetIndex := BitVec.ofNat 8 i }))

end Sys2Proof.Machine
end

