-- ==== Sys2Proof/Machine/Dsp.lean ====
section
/-! DEFINITION. The DSP primitives (40_dsp_primitives.md): pitch, soft clip, the envelope generator, the filter,
the DC blocker and the noise generator. They are internal operations of the render context (30_encoding.md R307).
Each named operation of the pseudocode is one operation of `Arith`, in the pseudocode's order (R13). -/

namespace Sys2Proof.Machine

/-- `noteToFrequency(note) = 440 · 2^((note − 69) / 12)` (R401). -/
def noteToFrequency (a : Arith) (note : Byte) : RealNum :=
  a.mul (.fin 440) (a.exp2 (a.div (a.sub (byteReal note) (.fin 69)) (.fin 12)))

/-- `softClip(x)` (R402; 90_conflicts.md C2).
DESIGN CHOICE (log entry 26): in binary32 each operation is rounded, although some results then leave the laws of R403. -/
def softClip (a : Arith) (x : RealNum) : RealNum :=
  if (RealNum.fin 3).lt x then .fin 1
  else if x.lt (.fin (-3)) then .fin (-1)
  else
    let xx := a.mul x x
    a.div (a.mul x (a.add (.fin 27) xx)) (a.add (.fin 27) (a.mul (.fin 9) xx))

/-! ## Envelope -/

/-- `env.configure(attack_s, decay_s, sustain_level, release_s)` at the sample rate `fs` (R430). The four arguments are
stored parameters, which are numbers. -/
def Envelope.configure (a : Arith) (fs : Nat) (attackS decayS sustainLevel releaseS : Rat) (e : Envelope) : Envelope :=
  let att := RealNum.fin (clamp attackS (a.near (1 / 1000)) 5)
  let dec := RealNum.fin (clamp decayS (a.near (1 / 1000)) 5)
  let sus := RealNum.fin (clamp sustainLevel 0 1)
  let rel := RealNum.fin (clamp releaseS (a.near (1 / 100)) 10)
  let rate := a.const (fs : Nat)
  { e with
    attackInc := a.div (.fin 1) (a.mul att rate)
    decayInc := a.div (a.sub (.fin 1) sus) (a.mul dec rate)
    sustainLevel := sus
    releaseInc := a.div (.fin 1) (a.mul rel rate)
    configured := true }

/-- `env.process()`: one sample; the new level is the `level` of the result (R433).
DESIGN CHOICE (log entry 24): in binary32 each sum is rounded (00_scope.md R13, D1), although the length of a long segment
then differs from the exact count by more than the one sample R435 speaks of. -/
def Envelope.process (a : Arith) (e : Envelope) : Envelope :=
  match e.state with
  | .off => e
  | .attack =>
    let level := a.add e.level e.attackInc
    if (RealNum.fin 1).le level then { e with level := .fin 1, state := .decay } else { e with level := level }
  | .decay =>
    let level := a.sub e.level e.decayInc
    if level.le e.sustainLevel then { e with level := e.sustainLevel, state := .sustain } else { e with level := level }
  | .sustain => e
  | .release =>
    let level := a.sub e.level e.releaseInc
    if level.le (.fin 0) then { e with level := .fin 0, state := .off } else { e with level := level }

/-! ## Biquad -/

/-- The coefficients of a filter type: `B0`, `B1`, `B2` of the cookbook (R450).
A stored type is 0, 1 or 2 (R700); any other reads as 2 (log entry 13). -/
def filterNumerator (a : Arith) (type : Byte) (c alpha : RealNum) : RealNum × RealNum × RealNum :=
  match type.toNat with
  | 0 => let h := a.div (a.sub (.fin 1) c) (.fin 2)
         (h, a.sub (.fin 1) c, h)
  | 1 => let h := a.div (a.add (.fin 1) c) (.fin 2)
         (h, (a.add (.fin 1) c).neg, h)
  | _ => (alpha, .fin 0, alpha.neg)

/-- `biquad.configure(type, fs, cutoffHz, Q)`: the coefficients; `z1` and `z2` are kept (R450).
DESIGN CHOICE (log entry 26): in binary32 a cosine near 1 may round to 1, which leaves the laws of R453. -/
def Biquad.configure (a : Arith) (type : Byte) (fs : Nat) (cutoffHz quality : Rat) (f : Biquad) : Biquad :=
  let f0 := RealNum.fin (clamp cutoffHz 20 18000)
  let q := RealNum.fin (clamp quality (a.near (1 / 10)) 10)
  let w0 := a.div (a.twoPi f0) (a.const (fs : Nat))
  let c := a.cos w0
  let alpha := a.div (a.sin w0) (a.mul (.fin 2) q)
  let b := filterNumerator a type c alpha
  let a0 := a.add (.fin 1) alpha
  { f with
    b0 := a.div b.1 a0
    b1 := a.div b.2.1 a0
    b2 := a.div b.2.2 a0
    a1 := a.div (a.mul (.fin 2) c).neg a0
    a2 := a.div (a.sub (.fin 1) alpha) a0
    configured := true }

/-- The output of `biquad.process(x)` (R451). -/
def Biquad.output (a : Arith) (f : Biquad) (x : RealNum) : RealNum := a.add (a.mul f.b0 x) f.z1

/-- The filter after `biquad.process(x)`: transposed direct form II, with the old `z2` in the new `z1` (R451). -/
def Biquad.process (a : Arith) (f : Biquad) (x : RealNum) : Biquad :=
  let y := f.output a x
  { f with
    z1 := a.add (a.sub (a.mul f.b1 x) (a.mul f.a1 y)) f.z2
    z2 := a.sub (a.mul f.b2 x) (a.mul f.a2 y) }

/-- `biquad.reset()`: the state only, not the coefficients (R452). -/
def Biquad.reset (f : Biquad) : Biquad := { f with z1 := .fin 0, z2 := .fin 0 }

/-! ## DC blocker -/

/-- The fixed literal `r` of R460. -/
def dcPole : Rat := 995 / 1000

/-- The output of `dc.process(x)` (R460). -/
def DcBlocker.output (a : Arith) (d : DcBlocker) (x : RealNum) : RealNum :=
  a.add (a.sub x d.xPrev) (a.mul (a.const dcPole) d.yPrev)

/-- The DC blocker after `dc.process(x)` (R460). -/
def DcBlocker.process (a : Arith) (d : DcBlocker) (x : RealNum) : DcBlocker := { xPrev := x, yPrev := d.output a x }

/-- `dc.reset()` (R461). -/
def DcBlocker.reset (_ : DcBlocker) : DcBlocker := { xPrev := .fin 0, yPrev := .fin 0 }

/-! ## Noise -/

/-- The state after `noise.next()`: xorshift32 with the shifts 13, 17, 5 (R470). -/
def noiseNext (s : Word) : Word :=
  let s1 := s ^^^ (s <<< 13)
  let s2 := s1 ^^^ (s1 >>> 17)
  s2 ^^^ (s2 <<< 5)

/-- The value of a drawn state, `s / 2^31 − 1` (R470).
DESIGN CHOICE (log entry 25): in binary32 the quotient is rounded (00_scope.md R13, D1), so a state of `2^32 − 128` or
more gives 1, which R470 leaves out of the range. -/
def noiseValue (a : Arith) (s : Word) : RealNum := a.sub (a.div (.fin (wordReal s)) (.fin 2147483648)) (.fin 1)

end Sys2Proof.Machine
end

