-- ==== Sys2Proof/Machine/Percussion.lean ====
section
/-! DEFINITION. The percussion voice bank and the commands DRUM_HIT and ALL_DRUMS_OFF (41_percussion.md). -/

namespace Sys2Proof.Machine

/-- The part whose trigger chokes the open hat, and the open hat (R510, R511). -/
def closedHat : Nat := 2
def openHat : Nat := 3

/-- The part with its envelope multiplied by `CHOKE` (R511). -/
def Drum.choke (c : Cfg) (d : Drum) : Drum := { d with envLevel := c.arith.mul d.envLevel (c.arith.const c.choke) }

/-- The decay coefficient that falls to `DRUM_DECAY_THR` in `samples` frames (R510).
DESIGN CHOICE (log entry 26): in binary32 a coefficient near 1 may round to 1, which leaves the first law of R525. -/
def decayCoefficient (c : Cfg) (samples : RealNum) : RealNum :=
  c.arith.pow (c.arith.near c.drumDecayThr) (c.arith.div (.fin 1) samples)

/-- The part after a trigger at velocity `vel` with recipe `r` and kit `m` (R510). -/
def Drum.trigger (c : Cfg) (fs : Nat) (r : Recipe) (m : Kit) (vel : Byte) (d : Drum) : Drum :=
  let a := c.arith
  let k := a.const
  let rate := k (fs : Nat)
  let v := drumLevel c vel
  { active := true
    envLevel := if c.drumLegacyDecay then v else .fin 0
    envTarget := v
    attackRate :=
      if c.drumLegacyDecay then d.attackRate
      else a.div v ((RealNum.fin 1).max (a.mul (a.mul (k r.attackS) (k m.attackMul)) rate))
    attacking := !c.drumLegacyDecay
    decayCoef := decayCoefficient c (a.mul (a.mul (k r.decayS) (k m.decayMul)) rate)
    phase := .fin 0
    carrierHz := a.mul (k r.baseHz) (k m.toneMul)
    pitchEnv := k r.pitchDepth
    pitchDecay := decayCoefficient c (a.mul (k r.pitchDecayS) rate)
    toneMix := k r.toneMix
    noiseMix := a.mul (k r.noiseMix) (k m.noiseMul)
    pan := k r.pan
    drive := k r.drive
    gain := a.mul (k r.partGain) (k m.gain)
    lpState := .fin 0
    hpState := .fin 0 }

/-- The bank after part `p` is hit: the choke first, then the trigger (R510, R511). -/
def hitDrums (c : Cfg) (fs : Nat) (r : Recipe) (m : Kit) (p : Nat) (vel : Byte) (ds : List Drum) : List Drum :=
  (if p = closedHat then ds.modify openHat (Drum.choke c) else ds).modify p (Drum.trigger c fs r m vel)

/-- `DRUM_HIT part vel` (R510). -/
def execCmdDrumHit (part vel : Byte) (s : State) : Outcome :=
  if !(legalPart part && legalVelocity vel) then .refused .reservedCommand
  else if !s.snapshot.taken then .fault (.readBeforeWrite .snapshot)
  else if !s.life.started then .fault (.readBeforeWrite .sampleRate)
  else finish do
    let r ← tableRow .recipe s.cfg.recipes part.toNat
    let m ← tableRow .kit s.cfg.kits s.snapshot.params.drumKit.toNat
    if part.toNat < s.drums.length ∧ (part.toNat = closedHat → openHat < s.drums.length) then
      .ok { s with drums := hitDrums s.cfg s.life.fs r m part.toNat vel s.drums }
    else .error (.fault (.indexOutOfRange .drum))

/-- `ALL_DRUMS_OFF`: every part is cut at once, its other registers kept (R515). -/
def execCmdAllDrumsOff (s : State) : Outcome := .next { s with drums := s.drums.map Drum.deactivate }

/-! ## Per-sample render -/

/-- `panGains(pan)`: the linear law of R524, or the build's own law (D49). -/
def linearPan (a : Arith) (pan : RealNum) : RealNum × RealNum := (a.div (a.sub (.fin 1) pan) (.fin 2), a.div (a.add (.fin 1) pan) (.fin 2))

def panGains (c : Cfg) (pan : RealNum) : RealNum × RealNum :=
  match c.panLaw with
  | .linear => linearPan c.arith pan
  | .table rows =>
    match rows.find? fun r => c.arith.const r.pan == pan with
    | some r => (c.arith.const r.gainL, c.arith.const r.gainR)
    | none => linearPan c.arith pan

/-- The three inharmonic partials of the carrier at phase `t` (R522). -/
def drumTone (c : Cfg) (t : RealNum) : RealNum :=
  let a := c.arith
  let k := a.const
  a.add (a.add (a.sin (a.mul (a.twoPi (.fin 1)) t))
      (a.mul (k c.partial2) (a.sin (a.mul (a.twoPi (k c.ratio2)) t))))
    (a.mul (k c.partial3) (a.sin (a.mul (a.twoPi (k c.ratio3)) t)))

/-- `drumVoiceSample(p)` with the noise value `n`: the part with its filter memories moved, and its sample (R522). -/
def Drum.sample (c : Cfg) (r : Recipe) (n : RealNum) (d : Drum) : Drum × RealNum :=
  let a := c.arith
  let hp := a.add d.hpState (a.mul (a.const c.drumHpCoef) (a.sub n d.hpState))
  let nh := a.sub n hp
  let x := a.add (a.mul d.toneMix (drumTone c d.phase)) (a.mul d.noiseMix nh)
  let lp := if r.cymbal then a.add d.lpState (a.mul (a.const r.lpCoef) (a.sub x d.lpState)) else d.lpState
  let x1 := if r.cymbal then a.sub x lp else x
  let x2 := softClip a (a.mul x1 (a.add (.fin 1) d.drive))
  ({ d with hpState := hp, lpState := lp }, a.mul (a.mul x2 d.envLevel) d.gain)

/-- `drumEnvAdvance(p)`: the envelope, then the phase with the pitch envelope before its decay (R521). -/
def Drum.advance (a : Arith) (fs : Nat) (d : Drum) : Drum :=
  let up := a.add d.envLevel d.attackRate
  { d with
    envLevel := if d.attacking then (if d.envTarget.le up then d.envTarget else up) else a.mul d.envLevel d.decayCoef
    attacking := d.attacking && !d.envTarget.le up
    phase := a.add d.phase (a.div (a.mul d.carrierHz (a.add (.fin 1) d.pitchEnv)) (a.const (fs : Nat)))
    pitchEnv := a.mul d.pitchEnv d.pitchDecay }

/-- The part after the advance, cut if its envelope has fallen below the threshold (R520, R523). -/
def Drum.settle (a : Arith) (d : Drum) : Drum := if drumDone a d then d.deactivate else d

/-- The bank, the noise state and the running stereo accumulator after some parts of one frame. -/
structure DrumFrame where
  drums : List Drum
  noise : Word
  left : RealNum
  right : RealNum
  deriving DecidableEq, Repr

/-- One part of `drums.render()`: an inactive part does nothing and draws no noise (R520). -/
def renderDrum (c : Cfg) (fs : Nat) (r : Recipe) (d : Drum) (acc : DrumFrame) : Drum × DrumFrame :=
  if d.active then
    let a := c.arith
    let noise := noiseNext acc.noise
    let ds := d.sample c r (noiseValue a noise)
    let g := panGains c d.pan
    ((ds.1.advance a fs).settle a,
      { acc with
        noise := noise
        left := a.add acc.left (a.mul g.1 ds.2)
        right := a.add acc.right (a.mul g.2 ds.2) })
  else (d, acc)

/-- The parts in index order, each with its recipe; the rendered parts are appended to `acc.drums` (R520). -/
def renderDrumsFrom (c : Cfg) (fs : Nat) : List Recipe → List Drum → DrumFrame → Run DrumFrame
  | _, [], acc => .ok acc
  | [], _ :: _, _ => .error (.fault (.indexOutOfRange .recipe))
  | r :: rs, d :: ds, acc =>
    let x := renderDrum c fs r d acc
    renderDrumsFrom c fs rs ds { x.2 with drums := x.2.drums ++ [x.1] }

/-- `drums.render()` (R520). -/
def renderDrums (c : Cfg) (fs : Nat) (ds : List Drum) (noise : Word) : Run DrumFrame :=
  renderDrumsFrom c fs c.recipes ds { drums := [], noise := noise, left := .fin 0, right := .fin 0 }

end Sys2Proof.Machine
end

