-- ==== Sys2Proof/Machine/Voices.lean ====
section
/-! DEFINITION. The melodic voice pool and its oscillators, and the commands NOTE_ON, NOTE_OFF and ALL_NOTES_OFF
(42_voice_pool.md). -/

namespace Sys2Proof.Machine

/-! ## Allocation -/

/-- The least age among the voices and the index that holds it, indices counted from `k`; on equal ages the
least index (R611). -/
def oldestFrom : (k : Nat) → List Voice → Option (Nat × Nat)
  | _, [] => none
  | k, v :: vs =>
    match oldestFrom (k + 1) vs with
    | none => some (k, v.age)
    | some (j, age) => if age < v.age then some (j, age) else some (k, v.age)

/-- `allocatePoly(W)`: the first inactive voice of the window `voice[0..W−1]`, or its oldest (R601, R611).
An empty window has no voice. -/
def allocatePoly (w : Nat) (vs : List Voice) : Option Nat :=
  match (vs.take w).findIdx? fun v => !v.active with
  | some i => some i
  | none => (oldestFrom 0 (vs.take w)).map (·.1)

/-- The voice a NOTE_ON takes: voice 0 in mono mode, else by `allocatePoly` (R610, R612). -/
def allocate (p : Params) (vs : List Voice) : Option Nat :=
  if p.mono then some 0 else allocatePoly p.maxVoices.toNat vs

/-- The voice a NOTE_ON has taken: phases 0, a new age, the envelope in Attack at the level it held (R610). -/
def Voice.strike (a : Arith) (note vel : Byte) (age : Nat) (v : Voice) : Voice :=
  { active := true
    note := note
    age := age
    phase1 := .fin 0
    phase2 := .fin 0
    velocity := velocityScalar a vel
    env := v.env.noteOn }

/-- The mono cut: every voice but voice 0 loses its `active` bit (R612). -/
def cutOthers : List Voice → List Voice
  | [] => []
  | v :: vs => v :: vs.map Voice.deactivate

/-- The pool after a NOTE_ON has taken voice `i` (R610). -/
def Pool.noteOn (a : Arith) (mono : Bool) (note vel : Byte) (i : Nat) (p : Pool) : Pool :=
  let struck := p.voices.modify i (Voice.strike a note vel (p.ageCounter + 1))
  { voices := if mono then cutOthers struck else struck
    ageCounter := p.ageCounter + 1 }

/-! ## The commands -/

/-- `NOTE_ON note vel` (R610). -/
def execCmdNoteOn (note vel : Byte) (s : State) : Outcome :=
  if !(legalNote note && legalVelocity vel) then .refused .reservedCommand
  else if !s.snapshot.taken then .fault (.readBeforeWrite .snapshot)
  else
    match allocate s.snapshot.params s.pool.voices with
    | none => .fault (.indexOutOfRange .voice)
    | some i =>
      if i < s.pool.voices.length then
        .next { s with pool := s.pool.noteOn s.cfg.arith s.snapshot.params.mono note vel i }
      else .fault (.indexOutOfRange .voice)

/-- The voice after a NOTE_OFF of `note`: released if it is active on that note (R630). -/
def Voice.release (note : Byte) (v : Voice) : Voice :=
  if v.active && (v.note == note) then { v with env := v.env.noteOff } else v

/-- `NOTE_OFF note`: every voice sounding the note is released (R630). -/
def execCmdNoteOff (note : Byte) (s : State) : Outcome :=
  if !legalNote note then .refused .reservedCommand
  else .next { s with pool := { s.pool with voices := s.pool.voices.map (Voice.release note) } }

/-- The voice after an ALL_NOTES_OFF: released if it is active (R631). -/
def Voice.releaseAny (v : Voice) : Voice := if v.active then { v with env := v.env.noteOff } else v

/-- `ALL_NOTES_OFF`: every active voice is released (R631). -/
def execCmdAllNotesOff (s : State) : Outcome :=
  .next { s with pool := { s.pool with voices := s.pool.voices.map Voice.releaseAny } }

/-! ## Oscillators -/

/-- `wave(code, p)` (R620 to R624). A stored code is 0 to 3 (R700); any other reads as 3 (log entry 13). -/
def wave (a : Arith) (code : Byte) (p : RealNum) : RealNum :=
  match code.toNat with
  | 0 => a.sub (a.mul (.fin 2) p) (.fin 1)
  | 1 => if p.lt (.fin (1 / 2)) then .fin 1 else .fin (-1)
  | 2 => let m := a.sub p (.fin (1 / 2))
         a.sub (.fin 1) (a.mul (.fin 4) (if m.isNeg then m.neg else m))
  | _ => a.sin (a.twoPi p)

/-- `mix(w1, w2)` (R625). -/
def oscMixed (a : Arith) (mix w1 w2 : RealNum) : RealNum := a.add (a.mul (a.sub (.fin 1) mix) w1) (a.mul mix w2)

/-- The phase increments of the two oscillators (R626). -/
def phaseIncrements (c : Cfg) (fs : Nat) (detune : Rat) (v : Voice) : RealNum × RealNum :=
  let a := c.arith
  let rate := a.const (fs : Nat)
  let f1 := noteToFrequency a v.note
  let cents := a.mul (.fin detune) (a.const (detuneScaleAt c.detuneScale v.note (velocityByte a v.velocity)))
  let f2 := a.mul f1 (a.exp2 (a.div cents (.fin 1200)))
  (a.div f1 rate, a.div f2 rate)

/-- The voice with both phases advanced and wrapped (R641).
DESIGN CHOICE (log entry 26): in binary32 a `DETUNE_SCALE` so large that `2^(c/1200)` overflows gives an infinite increment,
whose `frac` is a NaN, although R641 keeps the phase in [0, 1) at every `DETUNE_SCALE`. -/
def Voice.advance (c : Cfg) (fs : Nat) (detune : Rat) (v : Voice) : Voice :=
  let inc := phaseIncrements c fs detune v
  { v with
    phase1 := c.arith.frac (c.arith.add v.phase1 inc.1)
    phase2 := c.arith.frac (c.arith.add v.phase2 inc.2) }

/-- The value of a voice at its present phases and envelope level (R625, R642). -/
def Voice.value (a : Arith) (p : Params) (v : Voice) : RealNum :=
  let w1 := wave a p.osc1Wave v.phase1
  let w2 := wave a p.osc2Wave v.phase2
  a.mul (a.mul (oscMixed a (.fin p.oscMix) w1 w2) v.env.level) v.velocity

/-- `voiceSample(i)`: the voice after one frame, and its contribution unless it does not sound (R642). -/
def Voice.sample (c : Cfg) (fs : Nat) (p : Params) (v : Voice) : Voice × Option RealNum :=
  if !v.active then (v, none)
  else
    let v1 := { v with env := v.env.process c.arith }
    if retire c v1.env then (v1.deactivate, none)
    else (v1.advance c fs p.detune, some (v1.value c.arith p))

/-- The voices after one frame, in index order. -/
def sampleVoices (c : Cfg) (fs : Nat) (p : Params) (vs : List Voice) : List Voice :=
  vs.map fun v => (v.sample c fs p).1

/-- The contributions of one frame, in index order (45_render_pipeline.md R901). -/
def voiceContributions (c : Cfg) (fs : Nat) (p : Params) (vs : List Voice) : List RealNum :=
  vs.filterMap fun v => (v.sample c fs p).2

end Sys2Proof.Machine
end

