-- ==== Sys2Proof/Machine/Pipeline.lean ====
section
/-! DEFINITION. The per-sample render pipeline: the mixer, the distortion, the filter, the delay line, the reverb,
the output stage, and the frame that joins them (45_render_pipeline.md). -/

namespace Sys2Proof.Machine

/-- A stereo pair of signals. -/
structure Stereo where
  left : RealNum
  right : RealNum
  deriving DecidableEq, Repr

/-! ## Mixer and distortion -/

/-- Step 3: the contributions summed in index order (R901). -/
def sumContributions (a : Arith) (xs : List RealNum) : RealNum := xs.foldl a.add (.fin 0)

/-- Step 4: the polyphony gain `POLY_K / sqrt(n)` (R902).
DESIGN CHOICE (log entry 2): in the reals the root of a count that is no square is given to `bits` fractional bits. -/
def polyMix (c : Cfg) (xs : List RealNum) : RealNum :=
  if xs.length = 0 then .fin 0
  else c.arith.div (c.arith.mul (sumContributions c.arith xs) (c.arith.const c.polyK)) (c.arith.sqrt xs.length)

/-- Step 5: the waveshaper at scale `g = 1 + DRIVE_K · drive`, divided by the same scale (R903). -/
def driveStage (c : Cfg) (drive : Rat) (x : RealNum) : RealNum :=
  let a := c.arith
  let g := a.add (.fin 1) (a.mul (a.const c.driveK) (.fin drive))
  a.div (softClip a (a.mul g x)) g

/-! ## Delay line -/

/-- `DELAY_LEN = floor(0.8 · fs) + 1` (20_memory.md R201).
DESIGN CHOICE (log entry 15): the length of an arena is no Real register, so `0.8 · fs` is the exact product in either
arithmetic. A binary32 build that rounds it as a Real operation (00_scope.md R13) has another length from
`fs = 5242881` on at some rates. -/
def delayLength (fs : Nat) : Nat := 4 * fs / 5 + 1

/-- `delaySamples(ms)` with a buffer of `len` cells (R921). -/
def delaySamples (a : Arith) (fs len : Nat) (ms : Rat) : Run Nat := do
  let d ← clampSignal (a.div (a.mul (.fin ms) (a.const (fs : Nat))) (.fin 1000)).round 1 ((len : Nat) - 1)
  .ok d.floor.toNat

/-- `enc(x)`, the byte of an s8 in [−127, 127] (20_memory.md R204). -/
def encodeSample (a : Arith) (x : RealNum) : Run Byte := do
  let q ← clampSignal (a.mul (.fin 127) x).round (-127) 127
  .ok (BitVec.ofInt 8 q.floor)

/-- `dec(q) = q / 127`, the byte read as an s8 (20_memory.md R204). -/
def decodeSample (a : Arith) (b : Byte) : RealNum := a.div (.fin (b.toInt : Int)) (.fin 127)

/-- The wet/dry crossfade of one channel (R922). -/
def wetDry (a : Arith) (mix : Rat) (dry wet : RealNum) : RealNum :=
  a.add (a.mul (a.sub (.fin 1) (.fin mix)) dry) (a.mul (.fin mix) wet)

/-- The cell the tap reads: `(writeIdx − d) mod DELAY_LEN` (R920). -/
def tapIndex (len writeIdx d : Nat) : Nat := (writeIdx + len - d) % len

/-- Step 8, `delayStage(L, R)`: read the tap, write the new sample, blend (R920). -/
def delayStage (s : State) (x : Stereo) : Run (State × Stereo) := do
  let a := s.cfg.arith
  let p := s.snapshot.params
  let d ← delaySamples a s.life.fs s.delay.len p.delayMs
  let b ← memRead s .delay (tapIndex s.delay.len s.delay.writeIdx d)
  let wet := decodeSample a b
  let input := a.div (a.add x.left x.right) (.fin 2)
  let v ← encodeSample a (a.add input (a.mul (.fin p.delayFeedback) wet))
  let s' ← memWrite .delay s.delay.writeIdx v s
  .ok ({ s' with delay := { s'.delay with writeIdx := (s'.delay.writeIdx + 1) % s'.delay.len } },
    { left := wetDry a p.delayMix x.left wet, right := wetDry a p.delayMix x.right wet })

/-! ## Reverb -/

/-- The two smoothers after a frame, both from the states before it (R925). -/
def Reverb.advance (c : Cfg) (x : Stereo) (v : Reverb) : Reverb :=
  let a := c.arith
  let al := a.const c.revAL
  let ar := a.const c.revAR
  let cross := a.const c.revX
  { revL := a.add (a.mul (a.sub (.fin 1) al) v.revL) (a.mul al (a.add x.right (a.mul cross v.revR)))
    revR := a.add (a.mul (a.sub (.fin 1) ar) v.revR) (a.mul ar (a.add x.left (a.mul cross v.revL))) }

/-- Step 9: the signal with the new reverb states added at the reverb amount (R925). -/
def reverbMix (a : Arith) (amount : Rat) (v : Reverb) (x : Stereo) : Stereo where
  left := a.add x.left (a.mul (.fin amount) v.revL)
  right := a.add x.right (a.mul (.fin amount) v.revR)

/-! ## Output stage -/

/-- Step 10, gain of one channel (R930). -/
def outputGain (a : Arith) (p : Params) (x : RealNum) : RealNum := a.mul (a.mul x (.fin p.masterGain)) (.fin p.gainTrim)

/-- The number a fade target stands for. -/
def fadeGoal (target : Bool) : RealNum := if target then .fin 1 else .fin 0

/-- `fadeAdvance()` (R933).
DESIGN CHOICE (log entry 26): in binary32 the sum is rounded, although a very small step then leaves the level where it is. -/
def Fade.advance (a : Arith) (f : Fade) : Fade :=
  let goal := fadeGoal f.target
  if f.level.lt goal then { f with level := goal.min (a.add f.level f.step) }
  else if goal.lt f.level then { f with level := goal.max (a.sub f.level f.step) }
  else f

/-- `q16(x)` (R934). -/
def q16 (a : Arith) (x : RealNum) : Run Int := do
  let c ← clampSignal x (-1) 1
  .ok (roundHalfAway (a.near (32767 * c)))

/-! ## The frame -/

/-- Every register the frame reads has been written (10_state.md R124): the first that has not is named. -/
def frameUnset (s : State) : Option Element :=
  if !s.snapshot.taken then some .snapshot
  else if !s.life.started then some .sampleRate
  else if s.pool.voices.any fun v => v.active && !v.env.configured then some .envelope
  else if !s.filter.configured then some .filter
  else none

/-- Steps 1 to 6 of the frame: the voices, the mix, the waveshaper and the filter; the filtered mono signal (R900). -/
def monoStage (s : State) : State × RealNum :=
  let c := s.cfg
  let p := s.snapshot.params
  let xs := voiceContributions c s.life.fs p s.pool.voices
  let x := driveStage c p.drive (polyMix c xs)
  ({ s with
      pool := { s.pool with voices := sampleVoices c s.life.fs p s.pool.voices }
      filter := s.filter.process c.arith x },
    s.filter.output c.arith x)

/-- Step 7: the drum bank's stereo contribution added to both channels (R905). -/
def drumStage (s : State) (y : RealNum) : Run (State × Stereo) := do
  let f ← renderDrums s.cfg s.life.fs s.drums s.noise
  let a := s.cfg.arith
  .ok ({ s with drums := f.drums, noise := f.noise }, { left := a.add y f.left, right := a.add y f.right })

/-- Steps 9 to 11: reverb, gain, DC blockers, safety clip and fade (R900). -/
def outputStage (s : State) (x : Stereo) : State × Stereo :=
  let a := s.cfg.arith
  let p := s.snapshot.params
  let reverb := s.reverb.advance s.cfg x
  let wet := reverbMix a p.reverb reverb x
  let gl := outputGain a p wet.left
  let gr := outputGain a p wet.right
  let fade := s.fade.advance a
  ({ s with
      reverb := reverb
      dcL := s.dcL.process a gl
      dcR := s.dcR.process a gr
      fade := fade },
    { left := a.mul (softClip a (s.dcL.output a gl)) fade.level
      right := a.mul (softClip a (s.dcR.output a gr)) fade.level })

/-- Step 12: frame `k` of the block, left then right, each s16 low byte first (R934, 20_memory.md R205). -/
def blockStage (s : State) (k : Nat) (x : Stereo) : Run State := do
  let l ← q16 s.cfg.arith x.left
  let r ← q16 s.cfg.arith x.right
  memWrites .block (4 * k) (s16Bytes l ++ s16Bytes r) s

/-- `frame(k)` (R900). -/
def frame (k : Nat) (s : State) : Run State :=
  match frameUnset s with
  | some e => .error (.fault (.readBeforeWrite e))
  | none => do
    let m := monoStage s
    let d ← drumStage m.1 m.2
    let t ← delayStage d.1 d.2
    let o := outputStage t.1 t.2
    blockStage o.1 k o.2

end Sys2Proof.Machine
end

