-- ==== Sys2Proof/Machine/Scheduler.lean ====
section
/-! DEFINITION. The render context's loop, and the lifecycle and fade operations start, stop, running, fadeIn and
fadeOut (46_scheduler_api.md §1 and §2, 70_reset_and_hazards.md §1). -/

namespace Sys2Proof.Machine

/-- The state with the render context at another position of its loop. -/
def State.setPhase (s : State) (p : Phase) : State := { s with life := { s.life with phase := p } }

/-! ## The block phases -/

/-- The loop test: a block if `enabled`, else the context leaves its loop and acknowledges (R1001, R1004). -/
def loopTest (s : State) : State :=
  if s.life.enabled then s.setPhase .snap else { s with life := { s.life with ack := true, phase := .absent } }

/-- An envelope configured from a record (R1003, D11). -/
def Voice.configureFrom (a : Arith) (fs : Nat) (p : Params) (v : Voice) : Voice :=
  { v with env := v.env.configure a fs p.attack p.decay p.sustain p.release }

/-- Phase SNAP: the snapshot, every envelope, the filter (R1003).
The sample rate is read here, so a start must have succeeded (10_state.md R124). -/
def snapPhase (s : State) : Run State :=
  if s.life.started then
    let a := s.cfg.arith
    let p := s.store.active
    .ok { s with
      snapshot := { params := p, taken := true }
      pool := { s.pool with voices := s.pool.voices.map (Voice.configureFrom a s.life.fs p) }
      filter := s.filter.configure a p.filterType s.life.fs p.cutoff p.resonance
      life := { s.life with phase := .drain } }
  else .error (.fault (.readBeforeWrite .sampleRate))

/-- The byte image of the block, 4 · blockSize bytes from byte 0 (20_memory.md R202, R208). -/
def blockImage (s : State) : Run (List Byte) := memReads s .block 0 (4 * s.life.blockSize)

/-- The end of phase RENDER: the block is rendered and observed (60_exceptions.md R1131), WRITE is next. -/
def finishBlock (s : State) : Run State := do
  let image ← blockImage s
  .ok ((s.emit (.block image)).setPhase .write)

/-- Phase RENDER, at frame `k` (R1003): one frame, then the next frame or the end of the phase. -/
def renderPhase (k : Nat) (s : State) : Run State :=
  if k < s.life.blockSize then do
    let s' ← frame k s
    if k + 1 < s'.life.blockSize then .ok (s'.setPhase (.render (k + 1))) else finishBlock s'
  else finishBlock s

/-- `account(bytesWritten, status)` (R1005). -/
def account (bytesWritten : Nat) (ok : Bool) (s : State) : State :=
  if !ok then raise (.underrun true) s
  else if bytesWritten < 4 * s.life.blockSize then raise (.underrun false) s
  else s

/-- `recordRenderTime()` (R1042). -/
def recordRenderTime (s : State) : State :=
  let t := s.draws.renderTimeUs
  { s with counters := { s.counters with
      renderTimeSumUs := s.counters.renderTimeSumUs + t
      renderBlocks := s.counters.renderBlocks + 1
      renderTimeMaxUs := maxWord s.counters.renderTimeMaxUs t } }

/-- The number of bytes a write of `byteCount` reports, drawn from [0, byteCount] (60_exceptions.md R1130). -/
def drawnBytes (s : State) (byteCount : Nat) : Nat := s.draws.bytesWritten % (byteCount + 1)

/-- `sink.write(BLOCK, 4 · blockSize, SINK_TIMEOUT_MS)` and its accounting.
With no sink, and for the late block of a run whose sink was released, the write is (0, fail) without a call to any
device (60_exceptions.md R1105, D47; log entry 9). -/
def sinkWrite (s : State) : Run State :=
  match s.life.late, s.life.sink with
  | true, _ => .ok (account 0 false s)
  | false, none => .ok (account 0 false s)
  | false, some _ => do
    let image ← blockImage s
    let n := drawnBytes s image.length
    .ok (account n s.draws.writeOk (s.emit (.sinkWrite image.length s.cfg.sinkTimeoutMs (image.take n) s.draws.writeOk)))

/-- The end of WRITE: the loop test is next, and no block is in flight. -/
def State.endBlock (s : State) : State := { s with life := { s.life with phase := .loopTest, late := false } }

/-- Phase WRITE (R1003). -/
def writePhase (s : State) : Run State := do
  let s' ← sinkWrite s
  .ok (recordRenderTime s').endBlock

/-! ## Fade requests -/

/-- `fadeRequest(target, ms)` (R1013). -/
def fadeRequest (target : Bool) (ms : Word) (s : State) : State :=
  let a := s.cfg.arith
  { s with fade :=
      if ms = 0 ∨ s.life.started = false then { level := fadeGoal target, target := target, step := .fin 0 }
      else { s.fade with
        target := target
        step := a.div (.fin 1000) (a.mul (a.const (wordReal ms)) (a.const (s.life.fs : Nat))) } }

/-- `fadeIn(ms)` (R1014). -/
def execFadeIn (ms : Word) (s : State) : Outcome := .next (fadeRequest true ms s)

/-- `fadeOut(ms)` (R1015). -/
def execFadeOut (ms : Word) (s : State) : Outcome := .next (fadeRequest false ms s)

/-! ## start, stop, running -/

/-- The phases of a block, from the loop test that began it to the end of its WRITE. -/
def Phase.inFlight : Phase → Bool
  | .absent => false
  | .loopTest => false
  | .snap => true
  | .drain => true
  | .render _ => true
  | .write => true

/-- A voice after start: every field 0, its envelope Off at level 0 with the increments left as they are. They count as
not set, unless a block that has set them is still in flight (R1200, 10_state.md R108; log entry 1). -/
def Voice.restart (inFlight : Bool) (v : Voice) : Voice :=
  { Voice.initial with
    env := { v.env with state := .off, level := .fin 0, configured := inFlight && v.env.configured } }

/-- `resetAll()` (70_reset_and_hazards.md R1200). The block buffer is unspecified after start (10_state.md R121); a block
in flight keeps the frames it has rendered (R1001). -/
def resetAll (s : State) : State :=
  { s with
    pool := { voices := s.pool.voices.map (Voice.restart s.life.phase.inFlight), ageCounter := 0 }
    drums := List.replicate drumCount .initial
    noise := s.cfg.noiseSeed
    filter := s.filter.reset
    dcL := s.dcL.reset
    dcR := s.dcR.reset
    delay := { cells := [], len := delayLength s.life.fs, writeIdx := 0 }
    reverb := { revL := .fin 0, revR := .fin 0 }
    fade := .initial
    block := if s.life.phase.inFlight then s.block else []
    queue := { s.queue with tail := s.queue.head } }

/-- The least sample rate start refuses is 36000 Hz (R1010, D2). -/
def refusedRate : Nat := 36000

/-- `sink.configure(fs, 16, 2, SINK_BUFFER_COUNT, SINK_BUFFER_LEN)`, the call and its drawn result (60_exceptions.md R1130). -/
def sinkConfigure (k : SinkConfig) (s : State) : State :=
  s.emit (.sinkConfigure s.life.fs 16 2 (sinkFnAt s.cfg.sinkBufferCount k) (sinkFnAt s.cfg.sinkBufferLen k) s.draws.configureOk)

/-- The failed start: the sink is released, the engine is not running (60_exceptions.md R1104). -/
def startFailed (s : State) : State :=
  let s' := raise .startFailure (s.emit .sinkRelease)
  ({ s' with life := { s'.life with sink := none, running := false, enabled := false } }).answer (.flag false)

/-- The loop position after a start: the render context is launched at its loop test (R1202). One that an expired stop
left inside a block goes on with it, for a block in flight is never cancelled and there is one render context (R1001,
60_exceptions.md R1120; log entry 9). -/
def Phase.launched (p : Phase) : Phase := if p.inFlight then p else .loopTest

/-- The successful start: everything R1200 lists is reset and the render context runs. -/
def startDone (k : SinkConfig) (s : State) : State :=
  let s' := resetAll s
  ({ s' with life := { s'.life with
      sink := some k, ack := false, enabled := true, running := true, started := true,
      phase := s.life.phase.launched, late := s.life.phase.inFlight } }).answer (.flag true)

/-- `start(sinkConfig, sampleRate, blockSize)` (R1010). -/
def execStart (k : SinkConfig) (sampleRate blockSize : Word) (s : State) : Outcome :=
  if s.life.running then .next (s.answer (.flag true))
  else if sampleRate.toNat ≤ refusedRate ∨ blockSize.toNat < 1 then .refused .badStartConfig
  else
    let s1 := sinkConfigure k { s with life := { s.life with fs := sampleRate.toNat, blockSize := blockSize.toNat } }
    if s.draws.configureOk then .next (startDone k s1) else .next (startFailed s1)

/-- `stop()`, step 1: the fade to silence; the calling context is then inside the operation (R1011). -/
def execStop (s : State) : Outcome :=
  if s.life.running then
    let s' := fadeRequest false s.cfg.stopFadeMs s
    .next { s' with ongoing := s'.ongoing ++ [.stopDisable] }
  else .next s

/-- stop, step 4: the sink is silenced and released and the engine is not running (R1011). -/
def tearDown (s : State) : State :=
  let s' := if s.life.sink = none then s else (s.emit .sinkFlush).emit .sinkRelease
  { s' with life := { s'.life with sink := none, running := false } }

/-- `running()` (R1012). -/
def execRunning (s : State) : Outcome := .next (s.answer (.flag s.life.running))

end Sys2Proof.Machine
end

