-- ==== Sys2Proof/Machine/Dispatch.lean ====
section
/-! DEFINITION. The dispatch of every instruction to its meaning, one arm per constructor of `Instr`. -/

namespace Sys2Proof.Machine

/-- The meaning of an instruction. -/
def exec (i : Instr) (s : State) : Host.Outcome State Fault Refusal :=
  match i with
  | .cmdNoteOn note vel => Sys2Proof.Machine.execCmdNoteOn note vel s
  | .cmdNoteOff note => Sys2Proof.Machine.execCmdNoteOff note s
  | .cmdAllNotesOff => Sys2Proof.Machine.execCmdAllNotesOff s
  | .cmdDrumHit part vel => Sys2Proof.Machine.execCmdDrumHit part vel s
  | .cmdAllDrumsOff => Sys2Proof.Machine.execCmdAllDrumsOff s
  | .start sink sampleRate blockSize => Sys2Proof.Machine.execStart sink sampleRate blockSize s
  | .stop => Sys2Proof.Machine.execStop s
  | .running => Sys2Proof.Machine.execRunning s
  | .fadeIn ms => Sys2Proof.Machine.execFadeIn ms s
  | .fadeOut ms => Sys2Proof.Machine.execFadeOut ms s
  | .noteOn note vel gateMs => Sys2Proof.Machine.execNoteOn note vel gateMs s
  | .noteOff note => Sys2Proof.Machine.execNoteOff note s
  | .allNotesOff => Sys2Proof.Machine.execAllNotesOff s
  | .drumHit part vel => Sys2Proof.Machine.execDrumHit part vel s
  | .allDrumsOff => Sys2Proof.Machine.execAllDrumsOff s
  | .setDrumsEnabled b => Sys2Proof.Machine.execSetDrumsEnabled b s
  | .setParams p => Sys2Proof.Machine.execSetParams p s
  | .getParams => Sys2Proof.Machine.execGetParams s
  | .loadPreset index => Sys2Proof.Machine.execLoadPreset index s
  | .resetPreset => Sys2Proof.Machine.execResetPreset s
  | .triggerTestChord durationMs => Sys2Proof.Machine.execTriggerTestChord durationMs s
  | .service nowMs => Sys2Proof.Machine.execService nowMs s
  | .consumeUnderruns => Sys2Proof.Machine.execConsumeUnderruns s
  | .getPerfSnapshot => Sys2Proof.Machine.execGetPerfSnapshot s
  | .presetName index => Sys2Proof.Machine.execPresetName index s
  | .presetDefaults index => Sys2Proof.Machine.execPresetDefaults index s

end Sys2Proof.Machine
end

