-- ==== Sys2Proof/Machine/Agents.lean ====
section
/-! DEFINITION. One atomic step of each agent (20_memory.md R213): a control context that issues a host call or goes
on inside an operation of several steps, and the render context at its loop position. With them the fetch of the
two kinds of instruction, and the placing of one for the host. -/

namespace Sys2Proof.Machine

/-- The refusal of an encoding that stands for no instruction (60_exceptions.md R1106). -/
def refusalOf : DecodeError → Refusal
  | .reservedCommand => .reservedCommand
  | .reservedHostOp => .reservedHostOp
  | .badArguments => .badArguments

/-- A fetched encoding, decoded and run. -/
def runFetched (f : Fetched) (s : State) : Outcome :=
  match decode f with
  | .ok i => exec i s
  | .error e => .refused (refusalOf e)

/-! ## Control contexts -/

/-- The state with ongoing operation `j` replaced by the operations `os` (one, or none when it has ended). -/
def State.replaceOngoing (s : State) (j : Nat) (os : List Ongoing) : State :=
  { s with ongoing := s.ongoing.take j ++ os ++ s.ongoing.drop (j + 1) }

/-- stop, step 2: the wait is over and `enabled` is cleared (46_scheduler_api.md R1011). -/
def stopDisableStep (j : Nat) (s : State) : State :=
  ({ s with life := { s.life with enabled := false } }).replaceOngoing j [.stopAwait s.cfg.stopWaitMs]

/-- stop, step 3: over when the render context has acknowledged or the bound has expired, else still waiting.
Ending without the acknowledgement is the event E5 (R1011, 60_exceptions.md R1105). -/
def stopAwaitStep (j : Nat) (s : State) : State :=
  if s.life.ack then s.replaceOngoing j [.stopTearDown]
  else if s.draws.waitExpired then (raise .teardownAnomaly s).replaceOngoing j [.stopTearDown]
  else s

/-- The next step of the control context inside ongoing operation `j`; nothing if there is no such operation. -/
def resumeStep (j : Nat) (s : State) : Run State :=
  match s.ongoing[j]? with
  | none => .ok s
  | some .stopDisable => .ok (stopDisableStep j s)
  | some (.stopAwait _) => .ok (stopAwaitStep j s)
  | some .stopTearDown => .ok (tearDown (s.replaceOngoing j []))
  | some (.chord notes durationMs) => do
    let x ← playChord notes durationMs s
    .ok (x.1.replaceOngoing j (chordLeft x.2 durationMs))

/-! ## The render context -/

/-- Phase DRAIN: one pop with the application of its command; from an empty ring, on to RENDER
(44_command_queue.md R803, R804). -/
def drainPhase (s : State) : Outcome :=
  match pop s with
  | .error e => finish (.error e)
  | .ok none => .next (s.setPhase (.render 0))
  | .ok (some (r, s')) => runFetched (.record r) s'

/-- One atomic step of the render context (46_scheduler_api.md R1001 to R1004); none while it does not exist. -/
def renderStep (s : State) : Outcome :=
  match s.life.phase with
  | .absent => .next s
  | .loopTest => .next (loopTest s)
  | .snap => finish (snapPhase s)
  | .drain => drainPhase s
  | .render k => finish (renderPhase k s)
  | .write => finish (writePhase s)

/-! ## Inputs -/

/-- The state as the agent an input names sees it: the input is taken and its draws are at hand. -/
def State.take (s : State) (i : Input) (rest : List Input) : State := { s with inputs := rest, draws := i.draws }

/-- The step of the agent a move names. -/
def agentStep (m : Move) (s : State) : Outcome :=
  match m with
  | .call c => runFetched (.call c) s
  | .resume j => finish (resumeStep j s)
  | .render => renderStep s

/-! ## Placing one instruction -/

/-- The state with `c` the next host call. -/
def placeCall (c : HostCall) (s : State) : State :=
  { s with inputs := { move := .call c, draws := .initial } :: s.inputs }

/-- The operating point of a core that no start has given one: that of 95_test_vectors.md. -/
def Lifecycle.withRate (l : Lifecycle) : Lifecycle :=
  if l.started then l else { l with started := true, fs := 48000, blockSize := 64 }

/-- The state with `r` the oldest record of the ring and the render context in phase DRAIN about to pop it.
A DRAIN follows a start and a SNAP, so the sample rate and the snapshot are set where they are not. -/
def placeRecord (r : Record) (s : State) : State :=
  let put (j : Nat) (v : Byte) (m : Memory) : Memory := Memory.put Space.ring.blank m (3 * s.queue.tail + j) v
  { s with
    inputs := { move := .render, draws := .initial } :: s.inputs
    life := { s.life.withRate with phase := .drain }
    snapshot := if s.snapshot.taken then s.snapshot else { params := s.store.active, taken := true }
    queue := { s.queue with
      slots := put 2 r.secondary (put 1 r.primary (put 0 r.kind s.queue.slots))
      head := s.nextSlot s.queue.tail } }

end Sys2Proof.Machine
end

