-- ==== Sys2Proof/Machine/Step.lean ====
section
/-! DEFINITION. The step of the machine: the next input says which agent moves and what the environment answers
(20_memory.md R213); with no input left, no agent moves. -/

namespace Sys2Proof.Machine

/-- One atomic step. -/
def step (s : State) : Host.Outcome State Fault Refusal :=
  match s.inputs with
  | [] => .next s
  | i :: rest => agentStep i.move (s.take i rest)

/-- The state with the instruction whose table bits are `w` placed where the next step fetches it (log entry 5). -/
def State.withFetchWord (s : State) (nbits w : Nat) : State :=
  match fetchedOfTable nbits w with
  | none => s
  | some (.call c) => placeCall c s
  | some (.record r) => placeRecord r s

end Sys2Proof.Machine
end

