-- ==== Sys2Proof/Safety.lean ====
section
/-! DEFINITION. What counts as a safe state: the invariants of the core, and the abstract contents of the ring that
statements speak of. -/

namespace Sys2Proof.Machine

/-! ## Parameter ranges -/

/-- A stored Real lies between two bounds of the arithmetic. -/
abbrev within (a : Arith) (lo hi x : Rat) : Prop := a.near lo ≤ x ∧ x ≤ a.near hi

/-- Every field of a stored record lies in its range (10_state.md R104). -/
abbrev paramsInRange (c : Cfg) (p : Params) : Prop :=
  (p.osc1Wave.toNat ≤ 3 ∧ p.osc2Wave.toNat ≤ 3) ∧ within c.arith 0 1 p.oscMix ∧
  (1 ≤ p.maxVoices.toNat ∧ p.maxVoices.toNat ≤ c.maxVoices) ∧
  within c.arith 0 5 p.attack ∧ within c.arith 0 5 p.decay ∧ within c.arith 0 1 p.sustain ∧
  within c.arith (1 / 100) 10 p.release ∧ p.filterType.toNat ≤ 2 ∧ within c.arith 20 18000 p.cutoff ∧
  within c.arith (1 / 10) 10 p.resonance ∧ within c.arith 0 1 p.reverb ∧ within c.arith 0 800 p.delayMs ∧
  within c.arith 0 (95 / 100) p.delayFeedback ∧ within c.arith 0 1 p.delayMix ∧ within c.arith 0 1 p.drive ∧
  within c.arith 0 1 p.masterGain ∧ within c.arith 0 8 p.detune ∧ within c.arith (45 / 100) 1 p.gainTrim ∧
  p.drumKit.toNat ≤ 2 ∧ p.presetIndex.toNat < c.presets.length

/-- Both stored records, and the snapshot once taken, are in range (43_parameter_store.md R710). -/
abbrev State.paramsOk (s : State) : Prop :=
  paramsInRange s.cfg s.store.params0 ∧ paramsInRange s.cfg s.store.params1 ∧
  (s.snapshot.taken = true → paramsInRange s.cfg s.snapshot.params)

/-! ## Register values -/

/-- Every Real register of an envelope holds a number. -/
abbrev Envelope.numbers (e : Envelope) : Prop :=
  e.level.isFin ∧ e.attackInc.isFin ∧ e.decayInc.isFin ∧ e.sustainLevel.isFin ∧ e.releaseInc.isFin

/-- Every Real register of a voice holds a number. -/
abbrev Voice.numbers (v : Voice) : Prop := v.phase1.isFin ∧ v.phase2.isFin ∧ v.velocity.isFin ∧ v.env.numbers

/-- Every Real register of a part holds a number. -/
abbrev Drum.numbers (d : Drum) : Prop :=
  (d.envLevel.isFin ∧ d.envTarget.isFin ∧ d.attackRate.isFin ∧ d.decayCoef.isFin ∧ d.phase.isFin ∧ d.carrierHz.isFin ∧
    d.pitchEnv.isFin ∧ d.pitchDecay.isFin) ∧
  (d.toneMix.isFin ∧ d.noiseMix.isFin ∧ d.pan.isFin ∧ d.drive.isFin ∧ d.gain.isFin ∧ d.lpState.isFin ∧ d.hpState.isFin)

/-- Every Real register of the filter holds a number. -/
abbrev Biquad.numbers (f : Biquad) : Prop :=
  f.b0.isFin ∧ f.b1.isFin ∧ f.b2.isFin ∧ f.a1.isFin ∧ f.a2.isFin ∧ f.z1.isFin ∧ f.z2.isFin

/-- Both memories of a DC blocker hold a number. -/
abbrev DcBlocker.numbers (d : DcBlocker) : Prop := d.xPrev.isFin ∧ d.yPrev.isFin

/-- Every Real register of the signal path holds a number. -/
abbrev State.numbers (s : State) : Prop :=
  (∀ v ∈ s.pool.voices, v.numbers) ∧ (∀ d ∈ s.drums, d.numbers) ∧ s.filter.numbers ∧ s.dcL.numbers ∧ s.dcR.numbers ∧
  s.reverb.revL.isFin ∧ s.reverb.revR.isFin ∧ s.fade.level.isFin ∧ s.fade.step.isFin

/-- In the exact reals every register holds a number; infinities and NaN are values of binary32 alone (00_scope.md R13, D1). -/
abbrev State.numbersOk (s : State) : Prop := s.cfg.arith ≠ .binary32 → s.numbers

/-! ## Sizes, indices, memory -/

/-- The arenas of voices, parts and table entries have their fixed sizes (10_state.md R107, R110, R118). -/
abbrev State.sizesOk (s : State) : Prop :=
  s.pool.voices.length = s.cfg.maxVoices ∧ s.drums.length = drumCount ∧ s.sched.length = s.cfg.schedN

/-- The ring indices lie in [0, QCAP) (10_state.md R117). -/
abbrev State.ringOk (s : State) : Prop := s.queue.head < s.cfg.qcap ∧ s.queue.tail < s.cfg.qcap

/-- Every arena of bytes is in canonical form. -/
abbrev State.memoryWf (s : State) : Prop :=
  Memory.wf Space.delay.blank s.delay.cells ∧ Memory.wf Space.block.blank s.block ∧ Memory.wf Space.ring.blank s.queue.slots

/-- The delay line: once started the write index lies in the buffer, which holds at least two cells;
no listed cell lies outside it or holds the byte 0x80 (10_state.md R114, 20_memory.md R204). -/
abbrev State.delayOk (s : State) : Prop :=
  (s.life.started = true → 2 ≤ s.delay.len ∧ s.delay.writeIdx < s.delay.len) ∧
  ∀ c ∈ s.delay.cells, c.1 < s.delay.len ∧ c.2 ≠ 0x80

/-- After the first successful start the sample rate is an admitted one and a block has a frame (46_scheduler_api.md R1010). -/
abbrev State.rateOk (s : State) : Prop :=
  s.life.started = true → refusedRate < s.life.fs ∧ s.life.fs < 2 ^ 32 ∧ 1 ≤ s.life.blockSize

/-- The fade level lies in [0, 1] and the fade step is not negative (10_state.md R116); a step is at most full scale. -/
abbrev State.fadeOk (s : State) : Prop := RealNum.between 0 1 s.fade.level ∧ RealNum.between 0 1 s.fade.step

/-! ## The ring as a queue -/

/-- The slot of the `d`-th oldest record. -/
def State.slotAt (s : State) (d : Nat) : Nat := (s.queue.tail + d) % s.cfg.qcap

/-- The byte `j` of slot `i`; an unlisted cell reads as 0 (10_state.md R117). -/
def State.slotByte (s : State) (i j : Nat) : Byte :=
  match Memory.get Space.ring.blank s.queue.slots (3 * i + j) with
  | some b => b
  | none => 0

/-- The record held in slot `i`. -/
def State.slotRecord (s : State) (i : Nat) : Record := ⟨s.slotByte i 0, s.slotByte i 1, s.slotByte i 2⟩

/-- The queued records, oldest first (44_command_queue.md R800). -/
def State.queued (s : State) : List Record := (List.range s.queueDepth).map fun d => s.slotRecord (s.slotAt d)

/-- A record that stands for a command (30_encoding.md R303). -/
def recordLegal (r : Record) : Bool :=
  match decodeRecord r with
  | .ok _ => true
  | .error _ => false

/-- Every queued record stands for a command: no reserved record is ever in the ring (30_encoding.md R303). -/
abbrev State.queueLegal (s : State) : Prop := ∀ r ∈ s.queued, recordLegal r = true

/-- The note-off table: a live entry holds a note number, and at most one live entry holds a note (10_state.md R118). -/
abbrev State.schedOk (s : State) : Prop :=
  (∀ e ∈ s.sched, e.live = true → legalNote e.note = true) ∧
  s.sched.Pairwise fun x y => x.live = true → y.live = true → x.note ≠ y.note

/-! ## The loop position and what has been written -/

/-- The phases in which the snapshot of the block is read. -/
def Phase.inBlock : Phase → Bool
  | .absent | .loopTest | .snap => false
  | .drain | .render _ | .write => true

/-- The render context exists only after a successful start, and inside a block the snapshot, the envelope increments
and the filter coefficients have been written (10_state.md R124). -/
abbrev State.phaseOk (s : State) : Prop :=
  (s.life.phase ≠ .absent → s.life.started = true) ∧
  (s.life.phase.inBlock = true →
    s.snapshot.taken = true ∧ (∀ v ∈ s.pool.voices, v.env.configured = true) ∧ s.filter.configured = true)

/-- Every BLOCK byte below `n` has been written. -/
abbrev State.blockWritten (s : State) (n : Nat) : Prop := ∀ a < n, (Memory.lookup s.block a).isSome = true

/-- The frames already rendered stand in the block buffer, and the whole block does when a sink will read it
(10_state.md R121). -/
abbrev State.blockOk (s : State) : Prop :=
  match s.life.phase with
  | .render k => s.blockWritten (4 * k)
  | .write => s.life.late = false → s.life.sink ≠ none → s.blockWritten (4 * s.life.blockSize)
  | .absent => True
  | .loopTest => True
  | .snap => True
  | .drain => True

/-- The invariant of the core: with it no step meets a fault of R124 or R212. -/
structure State.Inv (s : State) : Prop where
  cfgWf : s.cfg.wf
  sizes : s.sizesOk
  ring : s.ringOk
  memory : s.memoryWf
  delay : s.delayOk
  params : s.paramsOk
  legal : s.queueLegal
  sched : s.schedOk
  phase : s.phaseOk
  block : s.blockOk
  numbers : s.numbersOk

/-- Every envelope's level and increments lie in [0, 1] (10_state.md R108): the level and the sustain level as the
table says, and no increment is negative or above full scale. -/
abbrev Envelope.inRange (e : Envelope) : Prop :=
  RealNum.between 0 1 e.level ∧ RealNum.between 0 1 e.attackInc ∧ RealNum.between 0 1 e.decayInc ∧
  RealNum.between 0 1 e.sustainLevel ∧ RealNum.between 0 1 e.releaseInc

/-- The feedback cap of a stored record (43_parameter_store.md R701, R710). -/
abbrev feedbackCapped (c : Cfg) (p : Params) : Prop :=
  c.arith.near c.mixHi ≤ p.delayMix → p.delayFeedback ≤ c.arith.near fbCap

/-! ## A push, as its callers see it -/

/-- `t` is `s` with the record `r` pushed: it stands in the old head slot, every other byte of every space reads as
before, the head has moved over it, the high water mark follows, and nothing else has changed (R801). -/
structure Pushed (r : Record) (s t : State) : Prop where
  stored : t.readByte .ring (3 * s.queue.head) = some r.kind ∧ t.readByte .ring (3 * s.queue.head + 1) = some r.primary ∧
    t.readByte .ring (3 * s.queue.head + 2) = some r.secondary
  others : ∀ sp a, ¬ (sp = .ring ∧ 3 * s.queue.head ≤ a ∧ a < 3 * s.queue.head + 3) → t.readByte sp a = s.readByte sp a
  head : t.queue.head = (s.queue.head + 1) % s.cfg.qcap
  tail : t.queue.tail = s.queue.tail
  counters : t.counters = { s.counters with
    queueHighWater := maxWord s.counters.queueHighWater (BitVec.ofNat 32 t.queueDepth) }
  rest : t = { s with queue := t.queue, counters := t.counters }

/-- `t` is `s` after an operation pushed `r`: the record is in the ring, or the ring was full and the drop is counted. -/
def PushOutcome (r : Record) (s t : State) : Prop :=
  (s.queueDepth < s.cfg.qcap - 1 ∧ Pushed r s t) ∨
  (s.queueDepth = s.cfg.qcap - 1 ∧ t = { s with counters := { s.counters with queueDrops := s.counters.queueDrops + 1 } })

/-- The table after the first `k` due entries have lost their `live` bit (46_scheduler_api.md R1034). -/
def serveFirst (now : Word) : (k : Nat) → List SchedEntry → List SchedEntry
  | _, [] => []
  | k, e :: es =>
    if e.live && isDue now e.due then
      match k with
      | 0 => e :: serveFirst now 0 es
      | k + 1 => { e with live := false } :: serveFirst now k es
    else e :: serveFirst now k es

/-- The live entries that are due, in index order. -/
def dueEntries (now : Word) (es : List SchedEntry) : List SchedEntry := es.filter fun e => e.live && isDue now e.due

/-! ## Observations and phases -/

/-- The block images among the observations: the output of a run (60_exceptions.md R1131). -/
def blockImages (trace : List Event) : List (List Byte) :=
  trace.filterMap fun e => match e with
    | .block image => some image
    | .result _ => none
    | .sinkConfigure _ _ _ _ _ _ => none
    | .sinkWrite _ _ _ _ => none
    | .sinkFlush => none
    | .sinkRelease => none

/-- Two states that agree in everything but the counters, the observations (not the block images) and the draws, and
whose coming inputs agree but for the draws of the render context (60_exceptions.md R1131). -/
structure SameSound (s u : State) : Prop where
  state : u = { s with counters := u.counters, inputs := u.inputs, draws := u.draws, trace := u.trace }
  inputs : List.Forall₂ (fun i j => i.move = j.move ∧ (i.move ≠ .render → i.draws = j.draws)) s.inputs u.inputs
  images : blockImages s.trace = blockImages u.trace

/-- The next block phases the loop may take from one phase (46_scheduler_api.md R1001 to R1004). -/
def Phase.successors (enabled : Bool) : Phase → List Phase
  | .absent => [.absent]
  | .loopTest => if enabled then [.snap] else [.absent]
  | .snap => [.drain]
  | .drain => [.drain, .render 0]
  | .render k => [.render (k + 1), .write]
  | .write => [.loopTest]

end Sys2Proof.Machine
end

