-- ==== Sys2Proof/Certificates/Slice0/Obligations.lean ====
section
/-! DEFINITION. The statements about the model: what its instructions and its steps do, from the rules of spec/.
Each docstring says what it states and on what it rests. -/

open Sys2Proof Sys2Proof.Machine

/-- O1. The nine unreserved command words of 95_test_vectors.md §2.1, and one host call of each argument shape of R305 (no
argument; a sink configuration with two u32; one u8; two u8; two u8 with a u32; one u32; one bool; one record), decode
to the instructions the spec gives them. The kind codes and selectors are the spec's own decisions D31 and D32.
Derived from 30_encoding.md §1, 30_encoding.md §2, 95_test_vectors.md §2.1. -/
def Obligations.SampleEncodingsDecode : Prop :=
  decodeTableWord 24 0x003C64 = some (.cmdNoteOn 60 100) ∧ decodeTableWord 24 0x000000 = some (.cmdNoteOn 0 0) ∧
  decodeTableWord 24 0x007F7F = some (.cmdNoteOn 127 127) ∧
  decodeTableWord 24 0x013C00 = some (.cmdNoteOff 60) ∧ decodeTableWord 24 0x013C55 = some (.cmdNoteOff 60) ∧
  decodeTableWord 24 0x020000 = some .cmdAllNotesOff ∧ decodeTableWord 24 0x021234 = some .cmdAllNotesOff ∧
  decodeTableWord 24 0x03027F = some (.cmdDrumHit 2 127) ∧ decodeTableWord 24 0x040000 = some .cmdAllDrumsOff ∧
  decodeCall ⟨0x02, []⟩ = .ok .stop ∧
  (∀ k : SinkConfig, decodeCall ⟨0x01, [.sink k, .u32 48000, .u32 64]⟩ = .ok (.start k 48000 64)) ∧
  decodeCall ⟨0x06, [.u8 60, .u8 100, .u32 500]⟩ = .ok (.noteOn 60 100 500) ∧
  decodeCall ⟨0x07, [.u8 60]⟩ = .ok (.noteOff 60) ∧ decodeCall ⟨0x09, [.u8 2, .u8 127]⟩ = .ok (.drumHit 2 127) ∧
  decodeCall ⟨0x0B, [.bool true]⟩ = .ok (.setDrumsEnabled true) ∧
  (∀ p : SynthParams RealNum, decodeCall ⟨0x0C, [.params p]⟩ = .ok (.setParams p)) ∧
  decodeCall ⟨0x15, [.u32 3]⟩ = .ok (.presetDefaults 3)

/-- O2. For every well-formed instruction, decoding its encoding gives it back. Conversely every encoding that decodes
gives a well-formed instruction, and it is that instruction's encoding: a host call exactly, a record in its kind and
in every byte its kind reads (NOTE_ON and DRUM_HIT read both operand bytes, NOTE_OFF the primary). Rests on the spec's
decisions D31 and D32.
Derived from 30_encoding.md §1, 30_encoding.md §2. -/
def Obligations.EncodedInstructionsDecodeBack : Prop :=
  (∀ i : Instr, i.wellFormed = true → decode (encode i) = .ok i) ∧
  ∀ (f : Fetched) (i : Instr), decode f = .ok i → i.wellFormed = true ∧
    match f, encode i with
    | .call c, .call e => c = e
    | .record r, .record e => r.kind = e.kind ∧ ((r.kind = 0x00 ∨ r.kind = 0x03) → r = e) ∧ (r.kind = 0x01 → r.primary = e.primary)
    | .call _, .record _ => False
    | .record _, .call _ => False

/-- O3. Applying a ring record is refused with ReservedCommand if and only if the kind is above 0x04, or a NOTE_ON or
NOTE_OFF primary is 0x80 or more, or a NOTE_ON or DRUM_HIT secondary is 0x80 or more, or a DRUM_HIT primary is 0x08 or
more. A nonzero must-be-0 byte is not reserved. The reserved ranges are the spec's decision D31. A host call is
refused with ReservedHostOp if and only if its selector is 0x00 or in 0x16 to 0xFF, whatever its arguments and the
state. The selectors are the spec's decision D32.
Derived from 30_encoding.md §1, 44_command_queue.md R804, 60_exceptions.md R1106, 30_encoding.md §2. -/
def Obligations.ReservedEncodingsAreRefused : Prop :=
  (∀ (r : Record) (s : State), runFetched (.record r) s = .refused .reservedCommand ↔
    (0x05 ≤ r.kind.toNat ∨ ((r.kind = 0x00 ∨ r.kind = 0x01) ∧ 0x80 ≤ r.primary.toNat) ∨
      ((r.kind = 0x00 ∨ r.kind = 0x03) ∧ 0x80 ≤ r.secondary.toNat) ∨ (r.kind = 0x03 ∧ 0x08 ≤ r.primary.toNat))) ∧
  (∀ (c : HostCall) (s : State), runFetched (.call c) s = .refused .reservedHostOp ↔
    (c.selector = 0x00 ∨ 0x16 ≤ c.selector.toNat))

/-- O4. When the next input is a host call that decodes to i, the step is exec of i on the state with that input taken and
its draws at hand.
Derived from 20_memory.md §4, 30_encoding.md §2. -/
def Obligations.StepRunsTheHostCall : Prop :=
  ∀ (s : State) (c : HostCall) (d : Draws) (rest : List Input) (i : Instr),
    s.inputs = ⟨.call c, d⟩ :: rest → decodeCall c = .ok i → step s = exec i (s.take ⟨.call c, d⟩ rest)

/-- O5. In phase DRAIN with the indices in range: from an empty ring the step pops nothing and goes on to RENDER;
otherwise, when the record in the tail slot decodes to i, the step is exec of i on the state whose tail has moved one
slot, modulo QCAP.
Formalises R802: "if head = tail then return empty; cmd <- ring[tail]; tail <- (tail + 1) mod QCAP; return cmd" -/
def Obligations.DrainPopsTheOldestCommandAndRunsIt : Prop :=
  ∀ (s : State) (d : Draws) (rest : List Input), s.inputs = ⟨.render, d⟩ :: rest → s.life.phase = .drain → s.ringOk →
    (s.queue.head = s.queue.tail → step s = .next ((s.take ⟨.render, d⟩ rest).setPhase (.render 0))) ∧
    ∀ i, s.queue.head ≠ s.queue.tail → decodeRecord (s.slotRecord s.queue.tail) = .ok i →
      step s = exec i { s.take ⟨.render, d⟩ rest with
        queue := { s.queue with tail := (s.queue.tail + 1) % s.cfg.qcap } }

/-- O6. For every set of build constants within its stated ranges the constructed core meets the invariant, its fade, its
rate, its envelopes and its noise state are in range, both records and the snapshot are capped (O11), queueHighWater
is at most QCAP − 1 (O12) and no element of BLOCK is −32768 (O13); the reset state is such a core. The envelope
increments and the snapshot of a constructed core, which R1201 leaves unspecified, have the values the model chose
(log entry 1), and the constants of the reset state are the model's choice where the spec gives no default (log entry
4).
Derived from 70_reset_and_hazards.md §1, 43_parameter_store.md §3. -/
def Obligations.ConstructionMeetsTheInvariants : Prop :=
  (∀ c : Cfg, c.wf → ∀ s : State, s = State.construct c →
    s.Inv ∧ s.fadeOk ∧ s.rateOk ∧ s.noise ≠ 0 ∧ (∀ v ∈ s.pool.voices, v.env.inRange) ∧
    feedbackCapped c s.store.params0 ∧ feedbackCapped c s.store.params1 ∧ feedbackCapped c s.snapshot.params ∧
    s.counters.queueHighWater.toNat ≤ c.qcap - 1 ∧
    ∀ j, ¬ (Memory.lookup s.block (2 * j) = some 0x00 ∧ Memory.lookup s.block (2 * j + 1) = some 0x80)) ∧
  State.reset.Inv ∧ State.reset = State.construct State.reset.cfg

/-- O7. From every state that meets the invariant (build constants in range, arenas of their fixed sizes and in canonical
form, ring indices in range, delay line well formed, stored parameters in range, only legal records queued, at most
one live gate per note, everything a block reads written before, and in the reals every register a number) a step that
answers a next state leads to a state that meets it.
Derived from 10_state.md §8, 20_memory.md §3, 20_memory.md §4. -/
def Obligations.StepKeepsTheInvariant : Prop :=
  ∀ s t : State, s.Inv → step s = .next t → t.Inv

/-- O8. From every state that meets the invariant, no step ends in a fault: no element is read before it was written and
no index leaves its arena. From every state that meets the invariant a step of the render context or of an operation
between its steps completes: no wait on a control context, no refused record, no fault. Only a frame of RENDER in
binary32 may instead be refused as NaNOperand, the refusal of R400. From 46_scheduler_api.md R1000, that a block waits
for no control context.
Derived from 10_state.md R124, 20_memory.md R212, 20_memory.md R218, 30_encoding.md R303, 46_scheduler_api.md R1000,
40_dsp_primitives.md R400. -/
def Obligations.StepsNeverFaultAndRenderStepsComplete : Prop :=
  (∀ (s : State), s.Inv → ∀ f, step s ≠ .fault f) ∧
  (∀ (s : State) (i : Input) (rest : List Input), s.Inv → s.inputs = i :: rest → (i.move = .render ∨ ∃ j, i.move = .resume j) →
    (∃ t, step s = .next t) ∨
    (step s = .refused .nanOperand ∧ s.cfg.arith = .binary32 ∧ i.move = .render ∧ ∃ k, s.life.phase = .render k))

/-- O9. If the DELAY, BLOCK and RING arenas list strictly rising addresses and no cell that repeats what an unlisted cell
reads as, then so do they after a step (the form is the model's own, log entry 8).
Derived from 20_memory.md §1. -/
def Obligations.StepKeepsMemoryCanonical : Prop :=
  ∀ s t : State, s.memoryWf → step s = .next t → t.memoryWf

/-- O10. Storing bytes that fit in a space completes; afterwards each address of the run reads its byte and every other
address of every space reads as before.
Derived from 20_memory.md §1, 00_scope.md R15. -/
def Obligations.MemoryReadsBackWhatWasStored : Prop :=
  ∀ (s : State) (sp : Space) (a : Nat) (bs : List Byte), s.memoryWf → a + bs.length ≤ s.arenaSize sp →
    ∃ t, memWrites sp a bs s = .ok t ∧ t.memoryWf ∧
      (∀ j b, bs[j]? = some b → t.readByte sp (a + j) = some b) ∧
      ∀ sp' b, ¬ (sp' = sp ∧ a ≤ b ∧ b < a + bs.length) → t.readByte sp' b = s.readByte sp' b

/-- O11. With build constants in range, if both stored records and the snapshot are in range and capped then they are
after every step: delayFeedback is at most the number the arithmetic holds for 0.95 always, and at most the one it
holds for 0.92 whenever delayMix is at least the one it holds for MIX_HI. In the reals these are the numbers
themselves; in binary32 they are the nearest binary32 numbers, which is the model's choice (log entry 15), and the one
nearest to 0.92 lies above 0.92.
Derived from 43_parameter_store.md R710, 10_state.md R104. -/
def Obligations.StepKeepsParameterRanges : Prop :=
  ∀ s t : State, s.cfg.wf → s.paramsOk → feedbackCapped s.cfg s.store.params0 → feedbackCapped s.cfg s.store.params1 →
    feedbackCapped s.cfg s.snapshot.params → step s = .next t →
    t.paramsOk ∧ feedbackCapped t.cfg t.store.params0 ∧ feedbackCapped t.cfg t.store.params1 ∧ feedbackCapped t.cfg t.snapshot.params

/-- O12. If head and tail lie in [0, QCAP) and queueHighWater is at most QCAP − 1, then so after every step. If every live
entry holds a note number and no two live entries hold the same note, then so after every step, and the table keeps
its size. After every step the configuration is the same, and if the arenas had their fixed sizes they have them
still.
Derived from 10_state.md R117, 44_command_queue.md R805, 10_state.md R118, 46_scheduler_api.md R1031, 00_scope.md R9,
42_voice_pool.md R600, 70_reset_and_hazards.md R1203. -/
def Obligations.StepKeepsSizesIndicesAndGates : Prop :=
  (∀ s t : State, s.ringOk → s.counters.queueHighWater.toNat ≤ s.cfg.qcap - 1 → step s = .next t →
    t.ringOk ∧ t.counters.queueHighWater.toNat ≤ t.cfg.qcap - 1) ∧
  (∀ s t : State, s.schedOk → step s = .next t → t.schedOk ∧ t.sched.length = s.sched.length) ∧
  (∀ s t : State, step s = .next t → t.cfg = s.cfg ∧ (s.sizesOk → t.sizesOk))

/-- O13. If after a start the write index lies in a buffer of at least two cells, and no cell outside the buffer is listed
and none holds 0x80, then so after every step. The encoding of a cell is the spec's decision D24. If no s16 element of
the BLOCK image is the code −32768, then none is after a step. The scale and the byte order are the spec's decisions
D29 and D30.
Derived from 20_memory.md R204, 10_state.md R114, 45_render_pipeline.md R934, 45_render_pipeline.md R940, 20_memory.md
R205. -/
def Obligations.StoredSamplesAvoidTheForbiddenCodes : Prop :=
  (∀ s t : State, s.delayOk → step s = .next t → t.delayOk) ∧
  (∀ s t : State,
    (∀ j, ¬ (Memory.lookup s.block (2 * j) = some 0x00 ∧ Memory.lookup s.block (2 * j + 1) = some 0x80)) → step s = .next t →
    ∀ j, ¬ (Memory.lookup t.block (2 * j) = some 0x00 ∧ Memory.lookup t.block (2 * j + 1) = some 0x80))

/-- O14. With an admitted sample rate, if the fade level lies in [0, 1] with a step in [0, 1], every envelope level and
increment lies in [0, 1] and the noise state and seed are nonzero, then so after every step, in either arithmetic.
Derived from 10_state.md §4, 10_state.md R116, 45_render_pipeline.md R933, 40_dsp_primitives.md R430. -/
def Obligations.StepKeepsSignalRegistersInRange : Prop :=
  ∀ s t : State, s.cfg.noiseSeed ≠ 0 → s.rateOk → s.fadeOk → s.noise ≠ 0 → (∀ v ∈ s.pool.voices, v.env.inRange) →
    step s = .next t → t.rateOk ∧ t.fadeOk ∧ t.noise ≠ 0 ∧ ∀ v ∈ t.pool.voices, v.env.inRange

/-- O15. At the loop test: with enabled set the step goes to SNAP and changes nothing else; with it clear the step sets
ack and leaves the loop and changes nothing else (the sink included), and a render context that has left the loop
takes no step.
Formalises R1004: "When the render context finds `enabled` false, it sets `ack ← true` and takes no further step. It
does not touch the sink." -/
def Obligations.LoopTestDecidesOnEnabled : Prop :=
  ∀ (s : State) (d : Draws) (rest : List Input), s.inputs = ⟨.render, d⟩ :: rest →
    (s.life.phase = .loopTest → s.life.enabled = true →
      step s = .next { s.take ⟨.render, d⟩ rest with life := { s.life with phase := .snap } }) ∧
    (s.life.phase = .loopTest → s.life.enabled = false →
      step s = .next { s.take ⟨.render, d⟩ rest with life := { s.life with phase := .absent, ack := true } }) ∧
    (s.life.phase = .absent → step s = .next (s.take ⟨.render, d⟩ rest))

/-- O16. In phase SNAP after a start the step completes: the snapshot is the active record, every voice keeps everything
but its envelope increments, which follow R430, the filter keeps z1 and z2 and its coefficients are those of R450 for
the low-pass, high-pass or band-pass type, each computed by the operations of the arithmetic in the pseudocode's
order, and the next phase is DRAIN. Stated in either arithmetic. Rests on the spec's decisions D10, D11, D20 and D21,
and on the model's sine and cosine and its roundings (log entries 2, 15 and 16).
Derived from 46_scheduler_api.md R1003, 40_dsp_primitives.md R430, 40_dsp_primitives.md R450. -/
def Obligations.SnapCopiesTheActiveRecordAndConfigures : Prop :=
  ∀ (s : State) (d : Draws) (rest : List Input), s.inputs = ⟨.render, d⟩ :: rest → s.life.phase = .snap → s.life.started = true →
    let a := s.cfg.arith
    let p := s.store.active
    let rate := a.const (s.life.fs : Nat)
    let w0 := a.div (a.twoPi (.fin (clamp p.cutoff 20 18000))) rate
    let c := a.cos w0
    let alpha := a.div (a.sin w0) (a.mul (.fin 2) (.fin (clamp p.resonance (a.near (1 / 10)) 10)))
    let a0 := a.add (.fin 1) alpha
    ∃ f : Biquad,
      step s = .next { s.take ⟨.render, d⟩ rest with
        snapshot := { params := p, taken := true }
        pool := { s.pool with voices := s.pool.voices.map fun v => { v with env := { v.env with
          attackInc := a.div (.fin 1) (a.mul (.fin (clamp p.attack (a.near (1 / 1000)) 5)) rate)
          decayInc := a.div (a.sub (.fin 1) (.fin (clamp p.sustain 0 1)))
            (a.mul (.fin (clamp p.decay (a.near (1 / 1000)) 5)) rate)
          sustainLevel := .fin (clamp p.sustain 0 1)
          releaseInc := a.div (.fin 1) (a.mul (.fin (clamp p.release (a.near (1 / 100)) 10)) rate)
          configured := true } } }
        filter := f
        life := { s.life with phase := .drain } } ∧
      f.z1 = s.filter.z1 ∧ f.z2 = s.filter.z2 ∧ f.configured = true ∧
      f.a1 = a.div (a.mul (.fin 2) c).neg a0 ∧ f.a2 = a.div (a.sub (.fin 1) alpha) a0 ∧
      (p.filterType = 0 → f.b0 = a.div (a.div (a.sub (.fin 1) c) (.fin 2)) a0 ∧ f.b1 = a.div (a.sub (.fin 1) c) a0 ∧
        f.b2 = a.div (a.div (a.sub (.fin 1) c) (.fin 2)) a0) ∧
      (p.filterType = 1 → f.b0 = a.div (a.div (a.add (.fin 1) c) (.fin 2)) a0 ∧ f.b1 = a.div (a.add (.fin 1) c).neg a0 ∧
        f.b2 = a.div (a.div (a.add (.fin 1) c) (.fin 2)) a0) ∧
      (p.filterType = 2 → f.b0 = a.div alpha a0 ∧ f.b1 = a.div (.fin 0) a0 ∧ f.b2 = a.div alpha.neg a0)

/-- O17. A render step goes from each phase only to its successors; a control step leaves the position alone, but for a
start that succeeds with no render context in its loop, which puts it at the loop test. A block in flight is never
cancelled (R1001); that a start finds one only after a stop whose wait expired, and that the one context then goes on
with it, is the model's reading (log entry 9).
Derived from 46_scheduler_api.md R1003, 60_exceptions.md R1107, 10_state.md R101, 46_scheduler_api.md R1001. -/
def Obligations.BlockPhasesFollowOneAnother : Prop :=
  ∀ (s t : State) (i : Input) (rest : List Input), s.inputs = i :: rest → step s = .next t →
    (i.move = .render → t.life.phase ∈ s.life.phase.successors s.life.enabled) ∧
    (i.move ≠ .render → t.life.phase = s.life.phase ∨
      (t.life.phase = .loopTest ∧ s.life.phase = .absent ∧ s.life.running = false ∧ t.life.running = true ∧
        ∃ c k rate size, i.move = .call c ∧ decodeCall c = .ok (.start k rate size)))

/-- O18. If a step changes the snapshot or a filter coefficient, the render context was in phase SNAP and moved, and the
new snapshot is the record that was active: of several publishes before it only the last is seen.
Derived from 20_memory.md R214, 10_state.md R106, 45_render_pipeline.md R904. -/
def Obligations.ParameterChangesWaitForSnap : Prop :=
  ∀ (s t : State), step s = .next t →
    (t.snapshot ≠ s.snapshot ∨ (t.filter.b0, t.filter.b1, t.filter.b2, t.filter.a1, t.filter.a2) ≠
      (s.filter.b0, s.filter.b1, s.filter.b2, s.filter.a1, s.filter.a2)) →
    s.life.phase = .snap ∧ (∃ d rest, s.inputs = ⟨.render, d⟩ :: rest) ∧ t.snapshot.params = s.store.active

/-- O19. A step of a control context that is not a start leaves unchanged everything the render context owns: voices,
drums, noise, filter, DC blockers, delay, reverb, snapshot, block, tail, ack, loop position and the render-side
counters other than the pending underruns. (A start that succeeds resets them by R1200.)
Derived from 10_state.md R123, 60_exceptions.md R1120. -/
def Obligations.ControlStepsLeaveRenderStateAlone : Prop :=
  ∀ (s t : State) (i : Input) (rest : List Input), s.inputs = i :: rest → step s = .next t →
    ((∃ j, i.move = .resume j) ∨ ∃ c n, i.move = .call c ∧ decodeCall c = .ok n ∧ ∀ k rate size, n ≠ .start k rate size) →
    t.pool = s.pool ∧ t.drums = s.drums ∧ t.noise = s.noise ∧ t.filter = s.filter ∧ t.dcL = s.dcL ∧ t.dcR = s.dcR ∧
    t.delay = s.delay ∧ t.reverb = s.reverb ∧ t.snapshot = s.snapshot ∧ t.block = s.block ∧
    t.queue.tail = s.queue.tail ∧ t.life.ack = s.life.ack ∧ t.life.phase = s.life.phase ∧ t.life.late = s.life.late ∧
    t.counters.underrunsTotal = s.counters.underrunsTotal ∧ t.counters.sinkWriteFailures = s.counters.sinkWriteFailures ∧
    t.counters.renderTimeSumUs = s.counters.renderTimeSumUs ∧ t.counters.renderBlocks = s.counters.renderBlocks ∧
    t.counters.renderTimeMaxUs = s.counters.renderTimeMaxUs

/-- O20. A step of the render context leaves unchanged everything the control contexts own: both records and their
selector, head and every ring byte, the gates, drumsEnabled, the fade request, running, enabled and sink, the drop and
high water counters, and the operations under way.
Derived from 10_state.md R123, 20_memory.md R219. -/
def Obligations.RenderStepsLeaveControlStateAlone : Prop :=
  ∀ (s t : State) (d : Draws) (rest : List Input), s.inputs = ⟨.render, d⟩ :: rest → step s = .next t →
    t.store = s.store ∧ t.queue.head = s.queue.head ∧ (∀ a, t.readByte .ring a = s.readByte .ring a) ∧ t.sched = s.sched ∧
    t.drumsEnabled = s.drumsEnabled ∧ t.fade.target = s.fade.target ∧ t.fade.step = s.fade.step ∧
    t.life.running = s.life.running ∧ t.life.enabled = s.life.enabled ∧ t.life.sink = s.life.sink ∧
    t.counters.queueDrops = s.counters.queueDrops ∧ t.counters.queueHighWater = s.counters.queueHighWater ∧
    t.ongoing = s.ongoing

/-- O21. Take two states that agree in everything but the diagnostic counters, the observations (the observed block images
being the same) and the draws, whose coming inputs agree but for the draws of the render context. If a step of one
answers a next state then so does the step of the other, and the two next states agree in the same way. So the sound
of a run depends on no sink result and no render time.
Derived from 60_exceptions.md R1131, 46_scheduler_api.md R1042, 45_render_pipeline.md R940. -/
def Obligations.SinkResultsReachOnlyTheCounters : Prop :=
  ∀ s u t : State, SameSound s u → step s = .next t → ∃ v, step u = .next v ∧ SameSound t v

/-- O22. In phase WRITE: without a sink, or for the late block of a run that a stop has ended, the write is counted as a
failure without a device call; with a sink and a block that has been written, the whole block is offered, a failed
write adds one failure and one underrun, a short write adds one underrun, and a whole write adds none. The render time
is recorded in each case, and nothing else changes. Which counter counts what is the spec's decision D45; the failed
write of a block whose run a stop has ended, while no sink is held, is its decision D47. That the late block's write
fails also while a new run's sink is held is the model's choice (log entry 9).
Derived from 46_scheduler_api.md R1005, 46_scheduler_api.md R1042, 60_exceptions.md R1105, 60_exceptions.md R1130,
46_scheduler_api.md R1011. -/
def Obligations.WriteAccountsEveryUnderrun : Prop :=
  ∀ (s : State) (d : Draws) (rest : List Input), s.inputs = ⟨.render, d⟩ :: rest → s.life.phase = .write →
    let timed (c : Counters) : Counters := { c with
      renderTimeSumUs := c.renderTimeSumUs + d.renderTimeUs
      renderBlocks := c.renderBlocks + 1
      renderTimeMaxUs := if c.renderTimeMaxUs.toNat < d.renderTimeUs.toNat then d.renderTimeUs else c.renderTimeMaxUs }
    let under (c : Counters) : Counters :=
      { c with underrunsTotal := c.underrunsTotal + 1, underrunsPending := c.underrunsPending + 1 }
    let failed (c : Counters) : Counters := { under c with sinkWriteFailures := c.sinkWriteFailures + 1 }
    (s.life.late = true ∨ s.life.sink = none → step s = .next { s.take ⟨.render, d⟩ rest with
      counters := timed (failed s.counters), life := { s.life with phase := .loopTest, late := false } }) ∧
    (s.life.late = false → s.life.sink ≠ none → s.blockWritten (4 * s.life.blockSize) → ∃ image : List Byte,
      image.length = 4 * s.life.blockSize ∧ (∀ a b, image[a]? = some b → s.readByte .block a = some b) ∧
      step s = .next { s.take ⟨.render, d⟩ rest with
        counters := timed (if d.writeOk = false then failed s.counters
          else if d.bytesWritten % (4 * s.life.blockSize + 1) < 4 * s.life.blockSize then under s.counters else s.counters)
        life := { s.life with phase := .loopTest }
        trace := .sinkWrite (4 * s.life.blockSize) s.cfg.sinkTimeoutMs
          (image.take (d.bytesWritten % (4 * s.life.blockSize + 1))) d.writeOk :: s.trace })

/-- O23. With indices in range and memory canonical: a DRAIN step takes exactly the oldest record, any other render step
none; a control step only adds records at the end, but for a start, which may empty the ring.
Derived from 44_command_queue.md R801, 44_command_queue.md R802, 44_command_queue.md R805, 20_memory.md R215,
70_reset_and_hazards.md R1200. -/
def Obligations.StepMovesTheRingAsAFifoQueue : Prop :=
  ∀ (s t : State) (i : Input) (rest : List Input), s.ringOk → s.memoryWf → s.inputs = i :: rest → step s = .next t →
    (i.move = .render → t.queued = if s.life.phase = .drain then s.queued.tail else s.queued) ∧
    (i.move ≠ .render → (∃ new, t.queued = s.queued ++ new) ∨
      (t.queued = [] ∧ ∃ c k rate size, i.move = .call c ∧ decodeCall c = .ok (.start k rate size)))

/-- O24. With indices in range and memory canonical a push completes. If fewer than QCAP − 1 records are held it reports
success, its three bytes stand in the head slot, every other byte of memory reads as before, head, high water mark and
nothing else move, and the record is the newest queued. At QCAP − 1 records it reports failure and only queueDrops
changes. Counting drops is the spec's decision D44. That the depth enters queueHighWater modulo 2^32 is the model's
choice (log entry 23).
Derived from 44_command_queue.md R800, 44_command_queue.md R801, 60_exceptions.md R1102. -/
def Obligations.PushStoresOneRecordOrDrops : Prop :=
  ∀ (r : Record) (s : State), s.ringOk → s.memoryWf → ∃ t b, push r s = .ok (t, b) ∧ PushOutcome r s t ∧
    (b = true ↔ s.queueDepth < s.cfg.qcap - 1) ∧ t.queued = if b then s.queued ++ [r] else s.queued

/-- O25. In poly mode with a window of 1 to all voices, NOTE_ON completes: it takes the first inactive voice of
voice[0..W−1], or, all being active, the one of least age (least index on a tie); that voice is active on the note
with the next age, phases 0, velocity vel/127 and its envelope in Attack at the level it held; every other voice and
all other state is unchanged. The order of the steps is the spec's decision D14.
Derived from 42_voice_pool.md R610, 42_voice_pool.md R611, 42_voice_pool.md R613, 40_dsp_primitives.md R431. -/
def Obligations.NoteOnTakesAFreeOrTheOldestVoice : Prop :=
  ∀ (note vel : Byte) (s : State), legalNote note = true → legalVelocity vel = true → s.snapshot.taken = true →
    s.snapshot.params.mono = false → 1 ≤ s.snapshot.params.maxVoices.toNat →
    s.snapshot.params.maxVoices.toNat ≤ s.pool.voices.length →
    ∃ (i : Nat) (v : Voice), i < s.snapshot.params.maxVoices.toNat ∧ s.pool.voices[i]? = some v ∧
      ((v.active = false ∧ ∀ (j : Nat) (w : Voice), j < i → s.pool.voices[j]? = some w → w.active = true) ∨
       ∀ (j : Nat) (w : Voice), j < s.snapshot.params.maxVoices.toNat → s.pool.voices[j]? = some w →
          w.active = true ∧ v.age ≤ w.age ∧ (w.age = v.age → i ≤ j)) ∧
      exec (.cmdNoteOn note vel) s = .next { s with pool := {
        voices := s.pool.voices.set i {
          active := true, note := note, age := s.pool.ageCounter + 1, phase1 := .fin 0, phase2 := .fin 0
          velocity := s.cfg.arith.div (.fin (vel.toNat : Nat)) (.fin 127)
          env := { v.env with state := .attack } }
        ageCounter := s.pool.ageCounter + 1 } }

/-- O26. In mono mode NOTE_ON completes: voice 0 takes the note as in poly mode, every other voice keeps all but its
active bit, which is cleared, and all other state is unchanged. What deactivation clears is the spec's decision D52.
Derived from 42_voice_pool.md R610, 42_voice_pool.md R612, 42_voice_pool.md R650. -/
def Obligations.NoteOnInMonoTakesVoiceZero : Prop :=
  ∀ (note vel : Byte) (s : State) (v : Voice) (vs : List Voice), legalNote note = true → legalVelocity vel = true →
    s.snapshot.taken = true → s.snapshot.params.mono = true → s.pool.voices = v :: vs →
    exec (.cmdNoteOn note vel) s = .next { s with pool := {
      voices := {
          active := true, note := note, age := s.pool.ageCounter + 1, phase1 := .fin 0, phase2 := .fin 0
          velocity := s.cfg.arith.div (.fin (vel.toNat : Nat)) (.fin 127)
          env := { v.env with state := .attack } } :: vs.map fun w => { w with active := false }
      ageCounter := s.pool.ageCounter + 1 } }

/-- O27. A legal NOTE_OFF completes: each active voice on the note has its envelope state set to Release unless it is Off,
every other voice and all other state is unchanged; the secondary byte of its record is ignored.
Formalises R630, R432: "for i in 0..MAX_VOICES−1: if voice[i].active and voice[i].note = note then
voice[i].env.noteOff()" -/
def Obligations.NoteOffReleasesEveryMatch : Prop :=
  (∀ (note : Byte) (s : State), legalNote note = true →
    exec (.cmdNoteOff note) s = .next { s with pool := { s.pool with voices := s.pool.voices.map fun v =>
      if v.active = true ∧ v.note = note then
        { v with env := if v.env.state ≠ .off then { v.env with state := .release } else v.env }
      else v } }) ∧
  ∀ note secondary : Byte, legalNote note = true → decodeRecord ⟨0x01, note, secondary⟩ = .ok (.cmdNoteOff note)

/-- O28. ALL_NOTES_OFF completes in every state: each active voice has its envelope state set to Release unless it is Off;
every other voice and all other state is unchanged. That it releases and does not cut is the spec's decision D34.
ALL_DRUMS_OFF completes in every state: every part's active bit is cleared, its other registers and all other state
are unchanged. The hard cut is the spec's decision D36.
Derived from 42_voice_pool.md R631, 40_dsp_primitives.md R432, 41_percussion.md R515. -/
def Obligations.AllOffCommandsReleaseVoicesAndCutParts : Prop :=
  (∀ (s : State), exec .cmdAllNotesOff s = .next { s with pool := { s.pool with voices := s.pool.voices.map fun v =>
      if v.active = true then { v with env := if v.env.state ≠ .off then { v.env with state := .release } else v.env } else v } }) ∧
  (∀ (s : State), exec .cmdAllDrumsOff s = .next { s with drums := s.drums.map fun d => { d with active := false } })

/-- O29. With a snapshot taken, a start made and the tables in place, DRUM_HIT completes: its part holds the values R510
gives, part 3 is multiplied by CHOKE in its level when part 2 is hit, every other part and all other state is
unchanged. The formulas are the spec's decision D49. The values are those of the operations of the arithmetic: each
recipe constant is rounded once, and the real power is the model's (log entries 15 and 2).
Derived from 41_percussion.md R510, 41_percussion.md R511. -/
def Obligations.DrumHitInitialisesItsPart : Prop :=
  ∀ (part vel : Byte) (s : State) (r : Recipe) (m : Kit), legalPart part = true → legalVelocity vel = true →
    s.snapshot.taken = true → s.life.started = true → s.drums.length = 8 → s.cfg.recipes[part.toNat]? = some r →
    s.cfg.kits[s.snapshot.params.drumKit.toNat]? = some m →
    let a := s.cfg.arith
    let rate := a.const (s.life.fs : Nat)
    let v := (a.const s.cfg.drumVelFloor).max (a.div (.fin (vel.toNat : Nat)) (.fin 127))
    ∃ ds, exec (.cmdDrumHit part vel) s = .next { s with drums := ds } ∧ ds.length = 8 ∧
      (∀ (p : Nat) (d : Drum), p ≠ part.toNat → s.drums[p]? = some d → ds[p]? = some
        (if part = 2 ∧ p = 3 then { d with envLevel := a.mul d.envLevel (a.const s.cfg.choke) } else d)) ∧
      ∀ d : Drum, s.drums[part.toNat]? = some d → ds[part.toNat]? = some {
        active := true
        envTarget := v
        envLevel := if s.cfg.drumLegacyDecay = true then v else .fin 0
        attacking := !s.cfg.drumLegacyDecay
        attackRate := if s.cfg.drumLegacyDecay = true then d.attackRate
          else a.div v ((RealNum.fin 1).max (a.mul (a.mul (a.const r.attackS) (a.const m.attackMul)) rate))
        decayCoef := a.pow (a.near s.cfg.drumDecayThr) (a.div (.fin 1) (a.mul (a.mul (a.const r.decayS) (a.const m.decayMul)) rate))
        phase := .fin 0, lpState := .fin 0, hpState := .fin 0
        carrierHz := a.mul (a.const r.baseHz) (a.const m.toneMul)
        pitchEnv := a.const r.pitchDepth
        pitchDecay := a.pow (a.near s.cfg.drumDecayThr) (a.div (.fin 1) (a.mul (a.const r.pitchDecayS) rate))
        toneMix := a.const r.toneMix
        noiseMix := a.mul (a.const r.noiseMix) (a.const m.noiseMul)
        pan := a.const r.pan
        drive := a.const r.drive
        gain := a.mul (a.const r.partGain) (a.const m.gain) }

/-- O30. For each ring command and each host operation that neither pushes nor starts, a next state reads every byte of
DELAY, BLOCK and RING as before.
Derived from 10_state.md R123, 20_memory.md R200. -/
def Obligations.CommandsAndQueriesStoreNoByte : Prop :=
  ∀ (i : Instr) (s t : State), (∀ k rate size, i ≠ .start k rate size) → (∀ n v g, i ≠ .noteOn n v g) →
    (∀ n, i ≠ .noteOff n) → i ≠ .allNotesOff → (∀ p v, i ≠ .drumHit p v) → i ≠ .allDrumsOff →
    (∀ ms, i ≠ .triggerTestChord ms) → (∀ now, i ≠ .service now) → exec i s = .next t →
    ∀ sp a, t.readByte sp a = s.readByte sp a

/-- O31. While running, start completes with the result true and changes nothing else, whatever its operands. While not
running, a sample rate of at most 36000 or a block size of 0 is refused as BadStartConfig. Rests on the spec's
decisions D2 and D46.
Derived from 46_scheduler_api.md R1010, 60_exceptions.md R1107. -/
def Obligations.StartWhileRunningChangesNothing : Prop :=
  ∀ (k : SinkConfig) (rate size : Word) (s : State),
    (s.life.running = true → exec (.start k rate size) s = .next { s with trace := .result (.flag true) :: s.trace }) ∧
    (s.life.running = false → (rate.toNat ≤ 36000 ∨ size.toNat < 1) → exec (.start k rate size) s = .refused .badStartConfig)

/-- O32. While not running, with admitted operands and a sink that fails to configure, start completes: running and
enabled are false, the sink is none and was released, the result is false, and every voice, drum, filter and other
signal register, the stores, gates, ring and counters are unchanged. That the new rate and block size stand, as the
pseudocode writes them first, and that enabled is cleared is the model's reading (log entry 7).
Derived from 60_exceptions.md R1104, 46_scheduler_api.md R1010. -/
def Obligations.FailedStartLeavesTheEngineNotRunning : Prop :=
  ∀ (k : SinkConfig) (rate size : Word) (s : State), s.life.running = false → 36000 < rate.toNat → 1 ≤ size.toNat →
    s.draws.configureOk = false →
    exec (.start k rate size) s = .next { s with
      life := { s.life with fs := rate.toNat, blockSize := size.toNat, running := false, enabled := false, sink := none }
      trace := [.result (.flag false), .sinkRelease,
        .sinkConfigure rate.toNat 16 2 (sinkFnAt s.cfg.sinkBufferCount k) (sinkFnAt s.cfg.sinkBufferLen k) false] ++ s.trace }

/-- O33. While not running, with admitted operands and a sink that configures, start completes with the result true:
voices (their envelope increments kept), drums, noise, filter memories, DC blockers, delay line (of the new length),
reverb, fade and block are reset and the ring emptied; coefficients, parameters, snapshot, gates, drumsEnabled and
counters are kept; the loop is at its loop test. The reset list is the spec's decision D58. That the length
floor(0.8·fs) + 1 is exact in binary32 too is the model's choice (log entry 15). That the increments count as not set
and the block as unwritten afterwards is the model's choice (log entries 1 and 11). When a block is still in flight,
after a stop whose wait expired, it is not cancelled (R1001): the loop stays where it is, what the block has set and
written stays usable, and its WRITE will be the late one (log entry 9).
Derived from 46_scheduler_api.md R1010, 70_reset_and_hazards.md R1200, 70_reset_and_hazards.md R1202. -/
def Obligations.SuccessfulStartResetsAndLaunches : Prop :=
  ∀ (k : SinkConfig) (rate size : Word) (s : State), s.life.running = false → 36000 < rate.toNat → 1 ≤ size.toNat →
    s.draws.configureOk = true →
    exec (.start k rate size) s = .next { s with
      life := { running := true, enabled := true, ack := false, started := true, fs := rate.toNat, blockSize := size.toNat,
                sink := some k, phase := if s.life.phase.inFlight then s.life.phase else .loopTest
                late := s.life.phase.inFlight }
      pool := {
        voices := s.pool.voices.map fun v => {
          active := false, note := 0, age := 0, phase1 := .fin 0, phase2 := .fin 0, velocity := .fin 0
          env := { v.env with
            state := .off, level := .fin 0, configured := s.life.phase.inFlight && v.env.configured } }
        ageCounter := 0 }
      drums := List.replicate 8 .initial
      noise := s.cfg.noiseSeed
      filter := { s.filter with z1 := .fin 0, z2 := .fin 0 }
      dcL := { xPrev := .fin 0, yPrev := .fin 0 }
      dcR := { xPrev := .fin 0, yPrev := .fin 0 }
      delay := { cells := [], len := 4 * rate.toNat / 5 + 1, writeIdx := 0 }
      reverb := { revL := .fin 0, revR := .fin 0 }
      fade := { level := .fin 1, target := true, step := .fin 0 }
      block := if s.life.phase.inFlight then s.block else []
      queue := { s.queue with tail := s.queue.head }
      trace := [.result (.flag true),
        .sinkConfigure rate.toNat 16 2 (sinkFnAt s.cfg.sinkBufferCount k) (sinkFnAt s.cfg.sinkBufferLen k) true] ++ s.trace }

/-- O34. While not running stop completes and changes nothing. While running it completes its first step: the fade request
is that of fadeOut(STOP_FADE_MS), the calling context is inside the operation before its second step, and nothing else
changes. Each later step completes from every state, whatever has moved in between: the second clears enabled and
changes nothing else; the third ends when ack is set or the bound has expired, and changes nothing at all while
neither has come; the fourth flushes and releases the sink if one is held, then clears sink and running, changes
nothing else, and leaves no operation. In particular, from a running engine with a sink, a stop call and three
resumptions in a row, with ack set or the bound expired at the third, complete: running and enabled are false, the
sink is none after a flush and a release, the fade target is 0, no operation is left under way, and voices, stores,
ring, gates and memory are unchanged. Rests on the spec's decisions D46 and D47. The four moves and the observed sink
calls, none while no sink is held, are the model's reading (log entries 10 and 12).
Derived from 46_scheduler_api.md R1011, 46_scheduler_api.md R1013, 60_exceptions.md R1105, 20_memory.md R213. -/
def Obligations.StopRunsItsFourStepsToTheEnd : Prop :=
  (∀ (s : State), (s.life.running = false → exec .stop s = .next s) ∧
    (s.life.running = true → ∃ u, exec (.fadeOut s.cfg.stopFadeMs) s = .next u ∧
      exec .stop s = .next { u with ongoing := s.ongoing ++ [.stopDisable] })) ∧
  (∀ (s : State) (j : Nat) (d : Draws) (rest : List Input), s.inputs = ⟨.resume j, d⟩ :: rest →
    let now := s.take ⟨.resume j, d⟩ rest
    let left (os : List Ongoing) := s.ongoing.take j ++ os ++ s.ongoing.drop (j + 1)
    (s.ongoing[j]? = some .stopDisable → step s = .next { now with
      life := { s.life with enabled := false }, ongoing := left [.stopAwait s.cfg.stopWaitMs] }) ∧
    (∀ bound, s.ongoing[j]? = some (.stopAwait bound) →
      (s.life.ack = true ∨ d.waitExpired = true → step s = .next { now with ongoing := left [.stopTearDown] }) ∧
      (s.life.ack = false → d.waitExpired = false → step s = .next now)) ∧
    (s.ongoing[j]? = some .stopTearDown → step s = .next { now with
      life := { s.life with sink := none, running := false }
      ongoing := left []
      trace := (if s.life.sink = none then [] else [.sinkRelease, .sinkFlush]) ++ s.trace })) ∧
  ∀ (s : State) (d0 d1 d2 d3 : Draws) (rest : List Input), s.life.running = true → s.life.sink ≠ none →
    s.inputs = ⟨.call ⟨0x02, []⟩, d0⟩ :: ⟨.resume s.ongoing.length, d1⟩ :: ⟨.resume s.ongoing.length, d2⟩ ::
      ⟨.resume s.ongoing.length, d3⟩ :: rest →
    (s.life.ack = true ∨ d2.waitExpired = true) →
    ∃ s1 s2 s3 t, step s = .next s1 ∧ step s1 = .next s2 ∧ step s2 = .next s3 ∧ step s3 = .next t ∧
      t = { s with
        life := { s.life with enabled := false, running := false, sink := none }
        fade := t.fade, inputs := rest, draws := d3
        trace := .sinkRelease :: .sinkFlush :: s.trace } ∧ t.fade.target = false

/-- O35. running() completes in every state: its result is the running flag and nothing else changes.
Formalises R1012: "`running() -> bool` (selector 0x03) returns `running`. It writes no state and raises no exception." -/
def Obligations.RunningAnswersTheFlag : Prop :=
  ∀ (s : State), exec .running s = .next { s with trace := .result (.flag s.life.running) :: s.trace }

/-- O36. fadeIn and fadeOut complete in every state: with ms = 0 or before any start the level is the target at once with
step 0; otherwise the level is kept and the step is 1000/(ms·fs), each of ms and fs rounded to the arithmetic before
the product (log entry 15). Nothing but the fade stage changes. The linear law is the spec's decision D28. In the
reals, from a level in [0, 1] with a step that is not negative, after n advances the level is min(1, level + n·step)
toward 1 and max(0, level − n·step) toward 0, and target and step are unchanged.
Derived from 46_scheduler_api.md R1013, 46_scheduler_api.md R1014, 46_scheduler_api.md R1015, 45_render_pipeline.md
R933. -/
def Obligations.FadeRequestsRampLinearly : Prop :=
  (∀ (ms : Word) (s : State),
    (ms = 0 ∨ s.life.started = false →
      exec (.fadeIn ms) s = .next { s with fade := { level := .fin 1, target := true, step := .fin 0 } } ∧
      exec (.fadeOut ms) s = .next { s with fade := { level := .fin 0, target := false, step := .fin 0 } }) ∧
    (ms ≠ 0 → s.life.started = true →
      let step := s.cfg.arith.div (.fin 1000)
        (s.cfg.arith.mul (s.cfg.arith.const (ms.toNat : Nat)) (s.cfg.arith.const (s.life.fs : Nat)))
      exec (.fadeIn ms) s = .next { s with fade := { level := s.fade.level, target := true, step := step } } ∧
      exec (.fadeOut ms) s = .next { s with fade := { level := s.fade.level, target := false, step := step } })) ∧
  (∀ (bits n : Nat) (f : Fade) (l r : Rat), f.level = .fin l → f.step = .fin r → 0 ≤ l → l ≤ 1 → 0 ≤ r →
    (Fade.advance (.reals bits))^[n] f =
      { f with level := .fin (if f.target = true then min 1 (l + n * r) else max 0 (l - n * r)) })

/-- O37. noteOn completes with the indices in range: a note above 127 changes nothing; otherwise NOTE_ON note
min(velocity, 127) is pushed (one ring slot stored, every other byte as before), and only if the push was accepted and
the gate is not 0 the gate is scheduled at now + gate modulo 2^32. Rests on the spec's decisions D33, D39 and D60.
That the depth enters queueHighWater modulo 2^32 is the model's choice (log entry 23).
Derived from 46_scheduler_api.md R1020, 60_exceptions.md R1107. -/
def Obligations.NoteOnPushesAndSchedulesItsGate : Prop :=
  ∀ (note vel : Byte) (gate : Word) (s : State), s.ringOk → s.memoryWf →
    (127 < note.toNat → exec (.noteOn note vel gate) s = .next s) ∧
    (note.toNat ≤ 127 → ∃ u, PushOutcome ⟨0x00, note, BitVec.ofNat 8 (min vel.toNat 127)⟩ s u ∧
      exec (.noteOn note vel gate) s = .next { u with
        sched := if gate ≠ 0 ∧ s.queueDepth < s.cfg.qcap - 1 then schedInsert note (s.draws.nowMs + gate) s.sched else s.sched })

/-- O38. If a live entry holds the note then exactly its due time changes; else the lowest-index entry that is not live
becomes {live, note, due}; if every entry is live nothing changes. Dropping the gate is the spec's decision D38.
Derived from 46_scheduler_api.md R1031. -/
def Obligations.ScheduleRefreshesOrTakesTheFirstFreeEntry : Prop :=
  ∀ (note : Byte) (due : Word) (es : List SchedEntry),
    ((∃ e ∈ es, e.live = true ∧ e.note = note) →
      schedInsert note due es = es.map fun e => if e.live = true ∧ e.note = note then { e with due := due } else e) ∧
    ((¬ ∃ e ∈ es, e.live = true ∧ e.note = note) →
      (∀ (i : Nat) (e : SchedEntry), es[i]? = some e → e.live = false →
        (∀ (j : Nat) (x : SchedEntry), j < i → es[j]? = some x → x.live = true) →
        schedInsert note due es = es.set i { live := true, note := note, due := due }) ∧
      ((∀ e ∈ es, e.live = true) → schedInsert note due es = es))

/-- O39. noteOff completes with the indices in range: a note above 127 changes nothing; otherwise NOTE_OFF note 0 is
pushed (one ring slot stored, every other byte as before) and every live entry of the note stops being live. Rests on
the spec's decisions D33 and D35. allNotesOff completes with the indices in range: ALL_NOTES_OFF is pushed (one ring
slot stored, every other byte as before) and no entry of the table is live. Rests on the spec's decision D34. That the
depth enters queueHighWater modulo 2^32 is the model's choice (log entry 23).
Derived from 46_scheduler_api.md R1021, 46_scheduler_api.md R1032, 46_scheduler_api.md R1025, 46_scheduler_api.md
R1033. -/
def Obligations.NoteOffsPushAndCancelGates : Prop :=
  (∀ (note : Byte) (s : State), s.ringOk → s.memoryWf →
    (127 < note.toNat → exec (.noteOff note) s = .next s) ∧
    (note.toNat ≤ 127 → ∃ u, PushOutcome ⟨0x01, note, 0x00⟩ s u ∧ exec (.noteOff note) s = .next { u with
      sched := s.sched.map fun e => if e.live = true ∧ e.note = note then { e with live := false } else e })) ∧
  (∀ (s : State), s.ringOk → s.memoryWf → ∃ u, PushOutcome ⟨0x02, 0x00, 0x00⟩ s u ∧
    exec .allNotesOff s = .next { u with sched := s.sched.map fun e => { e with live := false } })

/-- O40. drumHit completes with the indices in range: while drums are disabled, or for a part above 7, nothing changes;
otherwise DRUM_HIT part min(velocity, 127) is pushed (one ring slot stored, every other byte as before).
setDrumsEnabled completes in every state and changes the flag alone. Rests on the spec's decisions D33 and D37. That
the depth enters queueHighWater modulo 2^32 is the model's choice (log entry 23).
Derived from 46_scheduler_api.md R1022, 46_scheduler_api.md R1024. -/
def Obligations.DrumHitIsGatedByDrumsEnabled : Prop :=
  ∀ (s : State),
    (∀ part vel : Byte, s.ringOk → s.memoryWf →
      (s.drumsEnabled = false ∨ 7 < part.toNat → exec (.drumHit part vel) s = .next s) ∧
      (s.drumsEnabled = true → part.toNat ≤ 7 → ∃ t, exec (.drumHit part vel) s = .next t ∧
        PushOutcome ⟨0x03, part, BitVec.ofNat 8 (min vel.toNat 127)⟩ s t)) ∧
    ∀ b : Bool, exec (.setDrumsEnabled b) s = .next { s with drumsEnabled := b }

/-- O41. allDrumsOff completes with the indices in range, whether or not drums are enabled: the record 04 00 00 is pushed,
one ring slot stored and every other byte as before, or the drop of a full ring is counted, and nothing else changes.
Counting the drop is the spec's decision D44. That the depth enters queueHighWater modulo 2^32 is the model's choice
(log entry 23).
Derived from 46_scheduler_api.md R1023, 44_command_queue.md R801. -/
def Obligations.AllDrumsOffPushesItsCommand : Prop :=
  ∀ (s : State), s.ringOk → s.memoryWf → ∃ t, exec .allDrumsOff s = .next t ∧ PushOutcome ⟨0x04, 0x00, 0x00⟩ s t

/-- O42. triggerTestChord completes with the indices in range: its first note is one noteOn(n, TEST_VEL, durationMs) and
the rest is left to the calling context; a context with notes left plays exactly the next one in one step, and is done
after the last. An empty chord changes nothing. The contents of the chord are the spec's open parameters (D40); that
the first note is the call's own step is the model's reading (log entry 18).
Derived from 46_scheduler_api.md R1026, 20_memory.md R213. -/
def Obligations.TestChordIsASequenceOfNoteOns : Prop :=
  ∀ (ms : Word) (s : State), s.ringOk →
    (s.cfg.testChord = [] → exec (.triggerTestChord ms) s = .next s) ∧
    (∀ (n : Byte) (left : List Byte), s.cfg.testChord = n :: left → ∃ u, exec (.noteOn n s.cfg.testVel ms) s = .next u ∧
      exec (.triggerTestChord ms) s = .next { u with ongoing := s.ongoing ++ if left = [] then [] else [.chord left ms] }) ∧
    ∀ (j : Nat) (n : Byte) (left : List Byte), s.ongoing[j]? = some (.chord (n :: left) ms) →
      ∃ u, exec (.noteOn n s.cfg.testVel ms) s = .next u ∧ agentStep (.resume j) s = .next { u with
        ongoing := s.ongoing.take j ++ (if left = [] then [] else [.chord left ms]) ++ s.ongoing.drop (j + 1) }

/-- O43. service completes with the indices in range: with room for m more records, the first m due entries (all, if
fewer) each push NOTE_OFF note 0 in index order and stop being live, each further due entry is one counted drop and
stays live, every other entry is unchanged, queueHighWater becomes the greatest of its value and the depths after each
accepted push, and nothing but the ring, its counters and the table changes. Keeping a dropped entry is the spec's
decision D55. That each depth enters queueHighWater modulo 2^32 is the model's choice (log entry 23).
Derived from 46_scheduler_api.md R1034, 46_scheduler_api.md R1030, 44_command_queue.md R801. -/
def Obligations.ServiceReleasesDueGatesInOrder : Prop :=
  ∀ (now : Word) (s : State), s.ringOk → s.memoryWf →
    let due := dueEntries now s.sched
    let room := s.cfg.qcap - 1 - s.queueDepth
    ∃ t, exec (.service now) s = .next t ∧ t.sched = serveFirst now room s.sched ∧
      t.queued = s.queued ++ (due.take room).map (fun e => ⟨0x01, e.note, 0x00⟩) ∧
      t.counters.queueDrops = s.counters.queueDrops + BitVec.ofNat 32 (due.length - room) ∧
      t.counters.queueHighWater = (List.range (min due.length room)).foldl
        (fun high n => maxWord high (BitVec.ofNat 32 (s.queueDepth + n + 1))) s.counters.queueHighWater ∧
      t.counters = { s.counters with queueDrops := t.counters.queueDrops, queueHighWater := t.counters.queueHighWater } ∧
      t.queue.tail = s.queue.tail ∧ t = { s with queue := t.queue, sched := t.sched, counters := t.counters } ∧
      ∀ sp a, (sp = .ring → ∀ d, d < t.queueDepth - s.queueDepth →
        ¬ (3 * ((s.queue.head + d) % s.cfg.qcap) ≤ a ∧ a < 3 * ((s.queue.head + d) % s.cfg.qcap) + 3)) →
        t.readByte sp a = s.readByte sp a

/-- O44. isDue(t, due) holds exactly when (t − due) mod 2^32, read as s32, is not negative. For true times a and b taken
modulo 2^32 with less than 2^31 ms between them, it holds exactly when a is at or after b.
Formalises R1030: "This is correct while the true interval between the two times is less than 2^31 ms." -/
def Obligations.DueTimesCompareAcrossTheWrap : Prop :=
  (∀ t due : Word, isDue t due = true ↔ 0 ≤ (t - due).toInt) ∧
  ∀ a b : Nat, a < b + 2 ^ 31 → b < a + 2 ^ 31 → (isDue (BitVec.ofNat 32 a) (BitVec.ofNat 32 b) = true ↔ b ≤ a)

/-- O45. For a record whose Real fields are finite setParams completes: the inactive copy becomes the record with each
field clamped to its range, the feedback capped at 0.92 where R701 says and the master gain attenuated where R701
says, the selector flips, the old active copy and all other state are unchanged. In binary32 a presented number is
clamped first, whatever its size, and the result and the bounds are rounded to the arithmetic (log entry 15). The
correction constants are the spec's decision D42. setParams is refused with NonFiniteParam if and only if some Real
field of its record is a NaN or an infinity. The refusal is the spec's decision D43.
Derived from 43_parameter_store.md R700, 43_parameter_store.md R701, 43_parameter_store.md R703, 43_parameter_store.md
R702, 60_exceptions.md R1106. -/
def Obligations.SetParamsPublishesTheClampedRecord : Prop :=
  (∀ (p : SynthParams RealNum) (q : Params) (s : State), p = mapReals .fin q →
    let a := s.cfg.arith
    let real (x lo hi : Rat) : Rat := a.near (clamp x lo hi)
    let byte (x : Byte) (lo hi : Nat) : Byte := BitVec.ofNat 8 (max lo (min x.toNat hi))
    let feedback := real q.delayFeedback 0 (95 / 100)
    let gain := real q.masterGain 0 1
    let stored : Params := {
      osc1Wave := byte q.osc1Wave 0 3, osc2Wave := byte q.osc2Wave 0 3, oscMix := real q.oscMix 0 1, mono := q.mono
      maxVoices := clampByte q.maxVoices 1 s.cfg.maxVoices
      attack := real q.attack 0 5, decay := real q.decay 0 5, sustain := real q.sustain 0 1
      release := real q.release (1 / 100) 10, filterType := byte q.filterType 0 2, cutoff := real q.cutoff 20 18000
      resonance := real q.resonance (1 / 10) 10, reverb := real q.reverb 0 1, delayMs := real q.delayMs 0 800
      delayFeedback := if a.near (92 / 100) < feedback ∧ a.near s.cfg.mixHi ≤ real q.delayMix 0 1 then a.near (92 / 100) else feedback
      delayMix := real q.delayMix 0 1, drive := real q.drive 0 1
      masterGain := if a.near s.cfg.driveHi ≤ real q.drive 0 1 then a.near (gain * a.near s.cfg.driveGainAtten) else gain
      detune := real q.detune 0 8, gainTrim := real q.gainTrim (45 / 100) 1, drumKit := byte q.drumKit 0 2
      presetIndex := byte q.presetIndex 0 (s.cfg.presets.length - 1) }
    exec (.setParams p) s = .next { s with store :=
      if s.store.activeIdx = 0 then { params0 := s.store.params0, params1 := stored, activeIdx := 1 }
      else { params0 := stored, params1 := s.store.params1, activeIdx := 0 } }) ∧
  (∀ (p : SynthParams RealNum) (s : State), exec (.setParams p) s = .refused .nonFiniteParam ↔
    ∃ x ∈ realFields p, x = .nan ∨ ∃ negative, x = .inf negative)

/-- O46. getParams completes in every state: its result is params[activeIdx], one whole record, and nothing else changes.
For a record whose Real fields are finite setParams completes, and a getParams after it answers that record sanitized.
Formalises R704: "`return params[activeIdx]`, read whole in one atomic step." -/
def Obligations.GetParamsReturnsTheActiveRecord : Prop :=
  (∀ (s : State), exec .getParams s = .next { s with
    trace := .result (.params (if s.store.activeIdx = 0 then s.store.params0 else s.store.params1)) :: s.trace }) ∧
  ∀ (s : State) (p : Params), ∃ t, exec (.setParams (mapReals .fin p)) s = .next t ∧
    exec .getParams t = .next { t with trace := .result (.params (sanitize s.cfg p)) :: t.trace }

/-- O47. With a preset table of at least one row, loadPreset completes and is setParams of the row min(index, P − 1) with
its presetIndex set to that index; resetPreset completes and is loadPreset of the active record's presetIndex. Rests
on the spec's decision D41. With a preset table of at least one row, presetName answers the name of row min(index, P −
1), presetDefaults answers that row sanitized with its presetIndex set to the row, and nothing else changes. The index
clamp is the spec's decision D64.
Derived from 43_parameter_store.md R705, 43_parameter_store.md R706, 43_parameter_store.md R707, 43_parameter_store.md
R708. -/
def Obligations.PresetsLoadAndAnswer : Prop :=
  (∀ (s : State), s.cfg.presets ≠ [] →
    (∀ index : Word, ∃ p t, s.cfg.presets[min index.toNat (s.cfg.presets.length - 1)]? = some p ∧
      exec (.loadPreset index) s = .next t ∧
      exec (.setParams (mapReals .fin { p.params with
        presetIndex := BitVec.ofNat 8 (min index.toNat (s.cfg.presets.length - 1)) })) s = .next t) ∧
    ∃ t, exec .resetPreset s = .next t ∧ exec (.loadPreset (BitVec.ofNat 32 s.store.active.presetIndex.toNat)) s = .next t) ∧
  (∀ (index : Word) (s : State), s.cfg.presets ≠ [] →
    ∃ p, s.cfg.presets[min index.toNat (s.cfg.presets.length - 1)]? = some p ∧
      exec (.presetName index) s = .next { s with trace := .result (.name p.name) :: s.trace } ∧
      exec (.presetDefaults index) s = .next { s with trace := .result (.params { sanitize s.cfg p.params with
        presetIndex := BitVec.ofNat 8 (min index.toNat (s.cfg.presets.length - 1)) }) :: s.trace })

/-- O48. consumeUnderruns completes in every state: its result is underrunsPending, which becomes 0, and nothing else
changes, underrunsTotal included; a second call at once answers 0.
Formalises R1040: "c <- underrunsPending; underrunsPending <- 0; return c" -/
def Obligations.ConsumeUnderrunsExchangesThePendingCount : Prop :=
  ∀ (s : State),
    exec .consumeUnderruns s = .next { s with
      counters := { s.counters with underrunsPending := 0 }
      trace := .result (.count s.counters.underrunsPending) :: s.trace } ∧
    ∀ t, exec .consumeUnderruns s = .next t → ∃ u, exec .consumeUnderruns t = .next u ∧ u.trace = .result (.count 0) :: t.trace

/-- O49. getPerfSnapshot completes in every state: its record holds each counter of the same name, queueDepth = (head −
tail) mod QCAP, the floor of renderTimeSumUs / renderBlocks or 0 before any block, and renderTimeMaxUs; nothing else
changes. One atomic read is the spec's decision D50.
Derived from 46_scheduler_api.md R1041. -/
def Obligations.PerfSnapshotReportsTheCounters : Prop :=
  ∀ (s : State), exec .getPerfSnapshot s = .next { s with trace := .result (.perf {
      underrunsTotal := s.counters.underrunsTotal
      sinkWriteFailures := s.counters.sinkWriteFailures
      queueDepth := (s.queue.head + s.cfg.qcap - s.queue.tail) % s.cfg.qcap
      queueHighWater := s.counters.queueHighWater
      queueDrops := s.counters.queueDrops
      avgRenderTimeUs := if s.counters.renderBlocks = 0 then 0
        else BitVec.ofNat 32 (s.counters.renderTimeSumUs.toNat / s.counters.renderBlocks.toNat)
      maxRenderTimeUs := s.counters.renderTimeMaxUs }) :: s.trace }

/-- O50. env.noteOn sets state Attack and keeps the level; env.noteOff sets Release unless Off; env.active is state other
than Off; biquad.reset zeroes z1 and z2 and keeps every coefficient; dc.reset zeroes both memories.
Formalises R431, R432, R434, R452, R461: "`biquad.reset()` sets z1 ← 0 and z2 ← 0. It writes no coefficient" -/
def Obligations.EnvelopeGatesAndFilterResets : Prop :=
  (∀ e : Envelope, e.noteOn = { e with state := .attack }) ∧
  (∀ e : Envelope, e.noteOff = if e.state ≠ .off then { e with state := .release } else e) ∧
  (∀ e : Envelope, e.active = true ↔ e.state ≠ .off) ∧
  (∀ f : Biquad, f.reset = { f with z1 := .fin 0, z2 := .fin 0 }) ∧
  ∀ d : DcBlocker, d.reset = { xPrev := .fin 0, yPrev := .fin 0 }

/-- O51. In the reals, from Attack at any held level l with a positive increment, as after a retrigger (90_conflicts.md
C10): after n samples with l + n·inc < 1 the level is l + n·inc and the state is still Attack; on the first sample
with l + n·inc at least 1 the level is exactly 1 and the state is Decay; from level 0 that is after ceil(1/inc)
samples. From Decay with an increment that is not negative: while the level less n·inc is above the sustain level the
level has fallen by n·inc and the state is Decay; from the sample that reaches the sustain level on, the level is
exactly the sustain level and the state is Sustain. From Release with a positive increment: while n·inc is below the
level the level has fallen by n·inc and the state is Release; from the sample that reaches 0 on the level is exactly 0
and the state is Off. In Sustain and in Off no sample changes anything, in either arithmetic.
Derived from 40_dsp_primitives.md R433, 40_dsp_primitives.md R435, 95_test_vectors.md L1.1, 40_dsp_primitives.md R431. -/
def Obligations.EnvelopeSegmentsLastTheirSamples : Prop :=
  (∀ (bits n : Nat) (e : Envelope) (l r : Rat), e.state = .attack → e.level = .fin l → e.attackInc = .fin r → 0 < r →
    (l + n * r < 1 → (Envelope.process (.reals bits))^[n] e = { e with level := .fin (l + n * r) }) ∧
    (n = 0 ∨ l + n * r < 1 → 1 ≤ l + (n + 1) * r →
      (Envelope.process (.reals bits))^[n + 1] e = { e with level := .fin 1, state := .decay }) ∧
    (l = 0 → (Envelope.process (.reals bits))^[⌈1 / r⌉₊] e = { e with level := .fin 1, state := .decay })) ∧
  (∀ (bits n : Nat) (e : Envelope) (l r u : Rat), e.state = .decay → e.level = .fin l → e.decayInc = .fin r →
    e.sustainLevel = .fin u → 0 ≤ r → 1 ≤ n →
    (u < l - n * r → (Envelope.process (.reals bits))^[n] e = { e with level := .fin (l - n * r) }) ∧
    (l - n * r ≤ u → (Envelope.process (.reals bits))^[n] e = { e with level := .fin u, state := .sustain })) ∧
  (∀ (bits n : Nat) (e : Envelope) (l r : Rat), e.state = .release → e.level = .fin l → e.releaseInc = .fin r → 0 < l → 0 < r →
    (n * r < l → (Envelope.process (.reals bits))^[n] e = { e with level := .fin (l - n * r) }) ∧
    (l ≤ n * r → (Envelope.process (.reals bits))^[n] e = { e with level := .fin 0, state := .off })) ∧
  (∀ (a : Arith) (n : Nat) (e : Envelope), e.state = .sustain ∨ e.state = .off → (e.process a) = e ∧ (Envelope.process a)^[n] e = e)

/-- O52. In the reals: softClip(−x) = −softClip(x); |softClip(x)| is at most 1, with equality exactly when |x| is at least
3; softClip is non-decreasing; it is x(27 + x²)/(27 + 9x²) on [−3, 3]. The saturation is the spec's decision D19
(90_conflicts.md C2).
Derived from 40_dsp_primitives.md R402, 40_dsp_primitives.md R403. -/
def Obligations.SoftClipIsOddBoundedAndMonotonic : Prop :=
  ∀ bits : Nat, ∃ c : Rat → Rat, (∀ x, softClip (.reals bits) (.fin x) = .fin (c x)) ∧
    ∀ x y : Rat, c (-x) = -c x ∧ |c x| ≤ 1 ∧ (|c x| = 1 ↔ 3 ≤ |x|) ∧ (x ≤ y → c x ≤ c y) ∧
      (|x| ≤ 3 → c x = x * (27 + x ^ 2) / (27 + 9 * x ^ 2))

/-- O53. In the reals, for every rate and cutoff and any filter whose computed sine is not negative, the low-pass
coefficients satisfy b0 + b1 + b2 = 1 + a1 + a2 and those of the high-pass and the band-pass sum to 0; the coefficient
formulas are the cookbook's (D20), the angle is carried in turns (log entry 16). With 64 fractional bits or more, at
every admitted u32 rate and every cutoff, quality and type, that sine is not negative, the coefficients are numbers,
|a2| is below 1 and |a1| below 1 + a2, so both poles lie inside the unit circle and the DC gain (b0 + b1 + b2)/(1 + a1
+ a2) is 1 for the low-pass and 0 for the other two. That the build has 64 bits is the model's own bound (log entry
2), and that a type above 2, which R450 says cannot arise, reads as the band-pass is its choice (log entry 13). In the
reals, three successive samples from any memories satisfy y2 = b0·x2 + b1·x1 + b2·x0 − a1·y1 − a2·y0, which is what
the transposed form computes.
Derived from 40_dsp_primitives.md R450, 40_dsp_primitives.md R453, 40_dsp_primitives.md R451. -/
def Obligations.FilterEquationAndDcGains : Prop :=
  (∀ (bits fs : Nat) (cutoff q : Rat) (f : Biquad),
    let a := Arith.reals bits
    (RealNum.fin 0).le (a.sin (.fin (clamp cutoff 20 18000 / fs))) = true →
    let lp := f.configure a 0 fs cutoff q
    let hp := f.configure a 1 fs cutoff q
    let bp := f.configure a 2 fs cutoff q
    a.add (a.add lp.b0 lp.b1) lp.b2 = a.add (a.add (.fin 1) lp.a1) lp.a2 ∧
    a.add (a.add hp.b0 hp.b1) hp.b2 = .fin 0 ∧ a.add (a.add bp.b0 bp.b1) bp.b2 = .fin 0) ∧
  (∀ (bits fs : Nat) (type : Byte) (cutoff q : Rat) (f : Biquad), 64 ≤ bits → refusedRate < fs → fs < 2 ^ 32 →
    let a := Arith.reals bits
    (RealNum.fin 0).le (a.sin (.fin (clamp cutoff 20 18000 / fs))) = true ∧
    ∃ b0 b1 b2 a1 a2 : Rat,
      f.configure a type fs cutoff q =
        { f with b0 := .fin b0, b1 := .fin b1, b2 := .fin b2, a1 := .fin a1, a2 := .fin a2, configured := true } ∧
      |a2| < 1 ∧ |a1| < 1 + a2 ∧ (b0 + b1 + b2) / (1 + a1 + a2) = if type = 0 then 1 else 0) ∧
  (∀ (bits : Nat) (f : Biquad) (x0 x1 x2 b0 b1 b2 a1 a2 z1 z2 : Rat) (configured : Bool),
    f = { b0 := .fin b0, b1 := .fin b1, b2 := .fin b2, a1 := .fin a1, a2 := .fin a2, z1 := .fin z1, z2 := .fin z2, configured } →
    let a := Arith.reals bits
    let f1 := f.process a (.fin x0)
    let f2 := f1.process a (.fin x1)
    ∃ y0 y1 : Rat, f.output a (.fin x0) = .fin y0 ∧ f1.output a (.fin x1) = .fin y1 ∧
      f2.output a (.fin x2) = .fin (b0 * x2 + b1 * x1 + b2 * x0 - a1 * y1 - a2 * y0))

/-- O54. In the reals dc.process(x) outputs x − xPrev + 0.995·yPrev and keeps x and the output as its new memories; so
from the cleared state a constant input c gives c·0.995^n on sample n counted from 0.
Formalises R460: "y <- x − dc.xPrev + 0.995·dc.yPrev; dc.xPrev <- x; dc.yPrev <- y; return y" -/
def Obligations.DcBlockerRemovesAConstant : Prop :=
  ∀ (bits : Nat) (d : DcBlocker) (x c xPrev yPrev : Rat) (n : Nat), d = { xPrev := .fin xPrev, yPrev := .fin yPrev } →
    d.output (.reals bits) (.fin x) = .fin (x - xPrev + 995 / 1000 * yPrev) ∧
    d.process (.reals bits) (.fin x) = { xPrev := .fin x, yPrev := d.output (.reals bits) (.fin x) } ∧
    ((fun e => DcBlocker.process (.reals bits) e (.fin c))^[n] DcBlocker.initial).output (.reals bits) (.fin c) =
      .fin (c * (995 / 1000) ^ n)

/-- O55. In the reals, for a phase p in [0, 1): the sawtooth is 2p − 1, the square 1 below one half and −1 from it on, the
triangle 1 − 4|p − 1/2|, each in [−1, 1]; the mix of two waves is their linear crossfade; and the sine wave is within
2^(−bits) of sin(2π·p) for every p. In either arithmetic the sine wave is the arithmetic's sine of its 2π·p, which in
binary32 is the rounded product of a rounded number within 2^(−160) of 2π with p. By the operations of either
arithmetic: an inactive part does nothing and draws no noise; an active one draws the xorshift noise once, moves its
high-pass memory and, if it is a cymbal, its low-pass memory, gives softClip of its filtered tone and noise at its
drive, times the envelope level before the frame, times its gain, adds it to each channel at the pan gains, then
advances envelope, phase and pitch envelope, and loses its active bit if it is not attacking and its level is below
0.00015. The pan gains are those of the linear law or of the build's own law. The bank renders its parts in index
order, each with its recipe, from zero sums. The formulas are the spec's decisions D4, D5, D49 and D57. The model's
sine, its roundings of constants and the order of the angle's products are its own choices (log entries 2, 15 and 16),
and so is rounding the noise quotient in binary32, where the greatest values become 1 (log entry 25).
Derived from 42_voice_pool.md R621, 42_voice_pool.md R622, 42_voice_pool.md R623, 42_voice_pool.md R624,
42_voice_pool.md R625, 41_percussion.md R520, 41_percussion.md R521, 41_percussion.md R522, 41_percussion.md R523,
41_percussion.md R524, 40_dsp_primitives.md R470. -/
def Obligations.WavesAndPartsFollowTheirFormulas : Prop :=
  (∀ (bits : Nat) (p m w1 w2 : Rat), 0 ≤ p → p < 1 →
    wave (.reals bits) 0 (.fin p) = .fin (2 * p - 1) ∧
    wave (.reals bits) 1 (.fin p) = .fin (if p < 1 / 2 then 1 else -1) ∧
    wave (.reals bits) 2 (.fin p) = .fin (1 - 4 * |p - 1 / 2|) ∧
    (∀ code : Byte, code.toNat ≤ 2 → RealNum.between (-1) 1 (wave (.reals bits) code (.fin p)) = true) ∧
    oscMixed (.reals bits) (.fin m) (.fin w1) (.fin w2) = .fin ((1 - m) * w1 + m * w2)) ∧
  (∀ (bits : Nat) (p : Rat), ∃ x : Rat, wave (.reals bits) 3 (.fin p) = .fin x ∧
    |(x : ℝ) - Real.sin (2 * Real.pi * p)| ≤ (1 / 2) ^ bits) ∧
  (∀ (a : Arith) (p : RealNum), wave a 3 p = a.sin (a.twoPi p)) ∧
  (∃ q : Rat, |(q : ℝ) - 2 * Real.pi| ≤ (1 / 2) ^ 160 ∧
    ∀ p : RealNum, Arith.binary32.twoPi p = Arith.binary32.mul (roundBinary32 q) p) ∧
  (∀ (c : Cfg) (fs : Nat) (r : Recipe) (d : Drum) (acc : DrumFrame),
    let a := c.arith
    let k := a.const
    let s1 := acc.noise ^^^ (acc.noise <<< 13)
    let s2 := s1 ^^^ (s1 >>> 17)
    let noise := s2 ^^^ (s2 <<< 5)
    let n := a.sub (a.div (.fin (noise.toNat : Nat)) (.fin 2147483648)) (.fin 1)
    let overtone := fun ratio : RealNum => a.sin (a.mul (a.twoPi ratio) d.phase)
    let tone := a.add (a.add (overtone (.fin 1)) (a.mul (k c.partial2) (overtone (k c.ratio2))))
      (a.mul (k c.partial3) (overtone (k c.ratio3)))
    let hp := a.add d.hpState (a.mul (k c.drumHpCoef) (a.sub n d.hpState))
    let x := a.add (a.mul d.toneMix tone) (a.mul d.noiseMix (a.sub n hp))
    let lp := a.add d.lpState (a.mul (k r.lpCoef) (a.sub x d.lpState))
    let clipped := softClip a (a.mul (if r.cymbal = true then a.sub x lp else x) (a.add (.fin 1) d.drive))
    let y := a.mul (a.mul clipped d.envLevel) d.gain
    let up := a.add d.envLevel d.attackRate
    let attacking := d.attacking && !d.envTarget.le up
    let level := if d.attacking = true then (if d.envTarget.le up = true then d.envTarget else up) else a.mul d.envLevel d.decayCoef
    (d.active = false → renderDrum c fs r d acc = (d, acc)) ∧
    (d.active = true → renderDrum c fs r d acc =
      ({ d with
          active := attacking || !level.lt (k (15 / 100000))
          hpState := hp
          lpState := if r.cymbal = true then lp else d.lpState
          envLevel := level
          attacking := attacking
          phase := a.add d.phase (a.div (a.mul d.carrierHz (a.add (.fin 1) d.pitchEnv)) (k (fs : Nat)))
          pitchEnv := a.mul d.pitchEnv d.pitchDecay },
        { acc with
          noise := noise
          left := a.add acc.left (a.mul (panGains c d.pan).1 y)
          right := a.add acc.right (a.mul (panGains c d.pan).2 y) }))) ∧
  (∀ (c : Cfg) (pan : RealNum),
    let a := c.arith
    let linear := (a.div (a.sub (.fin 1) pan) (.fin 2), a.div (a.add (.fin 1) pan) (.fin 2))
    (c.panLaw = .linear → panGains c pan = linear) ∧
    ∀ rows, c.panLaw = .table rows → panGains c pan =
      ((rows.find? fun row => a.const row.pan == pan).map fun row => (a.const row.gainL, a.const row.gainR)).getD linear) ∧
  (∀ (c : Cfg) (fs : Nat) (ds : List Drum) (noise : Word), ds.length ≤ c.recipes.length →
    renderDrums c fs ds noise = .ok ((ds.zip c.recipes).foldl (fun acc x =>
        let y := renderDrum c fs x.2 x.1 acc
        { y.2 with drums := acc.drums ++ [y.1] })
      { drums := [], noise := noise, left := .fin 0, right := .fin 0 }))

/-- O56. An inactive voice is unchanged and silent. An active voice's envelope advances one sample; if it is then Off, or
in Release below RETIRE_EPS, the voice loses its active bit and is silent; otherwise it gives its mixed waves at the
phases before the advance times the new level times the velocity, and its phases advance by f1/fs and f2/fs, wrapped.
f1 is 440·2^((note − 69)/12), and f2 is f1·2^(cents/1200) with cents the detune times DETUNE_SCALE of the note and the
velocity byte roundHalfAway(127·velocity). Stated by the operations of either arithmetic: that 2^x is the model's
power is log entry 2, that fs, RETIRE_EPS and the detune scale are rounded before they enter an operation is log entry
15, both the model's choices. In the reals, from registers that hold numbers, the new phases are numbers in [0, 1).
The order is the spec's decision D8.
Derived from 42_voice_pool.md R640, 42_voice_pool.md R641, 42_voice_pool.md R642, 10_state.md R107,
40_dsp_primitives.md R401, 42_voice_pool.md R625, 42_voice_pool.md R626. -/
def Obligations.VoiceFrameSoundsOrRetires : Prop :=
  ∀ (c : Cfg) (fs : Nat) (p : Params) (v : Voice),
    let a := c.arith
    let rate := a.const (fs : Nat)
    let e := v.env.process a
    let f1 := a.mul (.fin 440) (a.exp2 (a.div (a.sub (.fin (v.note.toNat : Nat)) (.fin 69)) (.fin 12)))
    let cents := a.mul (.fin p.detune) (a.const (detuneScaleAt c.detuneScale v.note (a.mul (.fin 127) v.velocity).round))
    let f2 := a.mul f1 (a.exp2 (a.div cents (.fin 1200)))
    let done := e.state = .off ∨ (e.state = .release ∧ e.level.lt (a.const c.retireEps) = true)
    (v.active = false → v.sample c fs p = (v, none)) ∧
    (v.active = true → done → v.sample c fs p = ({ v with active := false, env := e }, none)) ∧
    (v.active = true → ¬ done →
      v.sample c fs p = ({ v with
          env := e
          phase1 := a.frac (a.add v.phase1 (a.div f1 rate))
          phase2 := a.frac (a.add v.phase2 (a.div f2 rate)) },
        some (a.mul (a.mul (oscMixed a (.fin p.oscMix) (wave a p.osc1Wave v.phase1) (wave a p.osc2Wave v.phase2)) e.level)
          v.velocity)) ∧
      (a ≠ .binary32 → v.numbers → ∃ x y : Rat, (v.sample c fs p).1.phase1 = .fin x ∧ (v.sample c fs p).1.phase2 = .fin y ∧
        0 ≤ x ∧ x < 1 ∧ 0 ≤ y ∧ y < 1))

/-- O57. In phase RENDER at any frame k below the block size, the last included, with every register written, the frames
before it in BLOCK and the arenas in range, the step completes. By the operations of either arithmetic: the
contributions of the voices are summed in index order and scaled by POLY_K/sqrt(n), 0 when there is none; the sum is
soft clipped at g = 1 + DRIVE_K·drive and divided by g; the filter's output is the mono signal; the parts' two sums
are added to it, one to each channel; the tap is the byte d cells behind the write index, d =
clamp(roundHalfAway(ms·fs/1000), 1, DELAY_LEN − 1), over 127; the cell at the write index gets the byte of
clamp(roundHalfAway(127·(in + feedback·tap)), −127, 127), in being half the sum of the channels; each channel is (1 −
mix)·dry + mix·tap; the two reverb states are the cross-fed smoothers of R925, from the states before the frame, and
are added at the reverb amount; master gain, gain trim, DC blocker, soft clip and the new fade level follow; the bytes
4k to 4k + 3 get roundHalfAway(32767·clamp(x, −1, 1)) of left and right, low byte first. Every other byte of every
space reads as before, and the write index moves one cell, modulo the buffer length. The next phase is RENDER at frame
k + 1, or WRITE after the last frame; that the block's whole byte image is observed at that moment, before WRITE, is
the model's choice (log entry 11). Only in binary32 may the step instead be refused as NaNOperand. The order within
the steps is the spec's decision D63, the forms its decisions D17, D18, D23 to D30. The model's square root and its
roundings of constants are its own choices (log entries 2 and 15).
Derived from 45_render_pipeline.md R900, 45_render_pipeline.md R902, 45_render_pipeline.md R903, 45_render_pipeline.md
R920, 45_render_pipeline.md R921, 45_render_pipeline.md R922, 45_render_pipeline.md R925, 45_render_pipeline.md R930,
45_render_pipeline.md R933, 45_render_pipeline.md R934, 20_memory.md R204, 46_scheduler_api.md R1003. -/
def Obligations.FrameFollowsThePipelineAndStoresItsBytes : Prop :=
  ∀ (s : State) (d : Draws) (rest : List Input) (k : Nat), s.inputs = ⟨.render, d⟩ :: rest → s.life.phase = .render k →
    k < s.life.blockSize → s.blockWritten (4 * k) → frameUnset s = none → s.drums.length ≤ s.cfg.recipes.length →
    s.delay.writeIdx < s.delay.len → 2 ≤ s.delay.len → s.memoryWf → s.numbersOk →
    let a := s.cfg.arith
    let c := a.const
    let p := s.snapshot.params
    let xs := s.pool.voices.filterMap fun v => (v.sample s.cfg s.life.fs p).2
    let mixed := if xs.length = 0 then .fin 0 else a.div (a.mul (xs.foldl a.add (.fin 0)) (c s.cfg.polyK)) (a.sqrt xs.length)
    let g := a.add (.fin 1) (a.mul (c s.cfg.driveK) (.fin p.drive))
    let shaped := a.div (softClip a (a.mul g mixed)) g
    let mono := s.filter.output a shaped
    (∃ (t : State) (f : DrumFrame) (tap : Nat) (b : Byte) (code codeL codeR : Int) (clipL clipR : Rat),
      let inL := a.add mono f.left
      let inR := a.add mono f.right
      let wet := a.div (.fin (b.toInt : Int)) (.fin 127)
      let blend := fun dry => a.add (a.mul (a.sub (.fin 1) (.fin p.delayMix)) dry) (a.mul (.fin p.delayMix) wet)
      let smooth := fun (al own input other : RealNum) =>
        a.add (a.mul (a.sub (.fin 1) al) own) (a.mul al (a.add input (a.mul (c s.cfg.revX) other)))
      let gained := fun x rev => a.mul (a.mul (a.add x (a.mul (.fin p.reverb) rev)) (.fin p.masterGain)) (.fin p.gainTrim)
      let goal := if s.fade.target = true then RealNum.fin 1 else .fin 0
      step s = .next t ∧
      t.pool = { s.pool with voices := s.pool.voices.map fun v => (v.sample s.cfg s.life.fs p).1 } ∧ t.filter = s.filter.process a shaped ∧
      renderDrums s.cfg s.life.fs s.drums s.noise = .ok f ∧ t.drums = f.drums ∧ t.noise = f.noise ∧
      clampSignal (a.div (a.mul (.fin p.delayMs) (c (s.life.fs : Nat))) (.fin 1000)).round 1 ((s.delay.len : Nat) - 1) = .ok (tap : Nat) ∧
      s.readByte .delay (((s.delay.writeIdx : Int) - tap) % s.delay.len).toNat = some b ∧
      clampSignal (a.mul (.fin 127) (a.add (a.div (a.add inL inR) (.fin 2)) (a.mul (.fin p.delayFeedback) wet))).round (-127) 127 = .ok code ∧
      t.readByte .delay s.delay.writeIdx = some (BitVec.ofInt 8 code) ∧
      t.delay.writeIdx = (s.delay.writeIdx + 1) % s.delay.len ∧ t.delay.len = s.delay.len ∧
      t.reverb.revL = smooth (c s.cfg.revAL) s.reverb.revL (blend inR) s.reverb.revR ∧
      t.reverb.revR = smooth (c s.cfg.revAR) s.reverb.revR (blend inL) s.reverb.revL ∧
      t.dcL = s.dcL.process a (gained (blend inL) t.reverb.revL) ∧ t.dcR = s.dcR.process a (gained (blend inR) t.reverb.revR) ∧
      t.fade = { s.fade with
        level := if s.fade.level.lt goal = true then goal.min (a.add s.fade.level s.fade.step)
          else if goal.lt s.fade.level = true then goal.max (a.sub s.fade.level s.fade.step) else s.fade.level } ∧
      clampSignal (a.mul (softClip a (s.dcL.output a (gained (blend inL) t.reverb.revL))) t.fade.level) (-1) 1 = .ok clipL ∧
      clampSignal (a.mul (softClip a (s.dcR.output a (gained (blend inR) t.reverb.revR))) t.fade.level) (-1) 1 = .ok clipR ∧
      codeL = roundHalfAway (a.near (32767 * clipL)) ∧ codeR = roundHalfAway (a.near (32767 * clipR)) ∧
      t.readByte .block (4 * k) = some (BitVec.ofInt 8 codeL) ∧ t.readByte .block (4 * k + 1) = some (BitVec.ofInt 8 (codeL / 256)) ∧
      t.readByte .block (4 * k + 2) = some (BitVec.ofInt 8 codeR) ∧ t.readByte .block (4 * k + 3) = some (BitVec.ofInt 8 (codeR / 256)) ∧
      (∀ sp i, ¬ (sp = .delay ∧ i = s.delay.writeIdx) → ¬ (sp = .block ∧ 4 * k ≤ i ∧ i < 4 * k + 4) →
        t.readByte sp i = s.readByte sp i) ∧
      (k + 1 < s.life.blockSize → t.life = { s.life with phase := .render (k + 1) } ∧ t.trace = s.trace) ∧
      (k + 1 = s.life.blockSize → t.life = { s.life with phase := .write } ∧ ∃ image : List Byte, t.trace = .block image :: s.trace ∧
        image.length = 4 * s.life.blockSize ∧ ∀ i b, image[i]? = some b → t.readByte .block i = some b)) ∨
    (s.cfg.arith = .binary32 ∧ step s = .refused .nanOperand)

/-- O58. With no active voice, no active part, a zero delay buffer, zero filter, DC and reverb states, numbers for filter
coefficients, a fade level in [0, 1], and a drive scale 1 + DRIVE_K·drive that is a number other than 0 (in the reals
it is at least 1 with both in range), a frame that completes writes four zero bytes, draws no noise, and leaves
voices, parts, delay contents and all those states as they were, in either arithmetic.
Derived from 45_render_pipeline.md R940, 41_percussion.md R525. -/
def Obligations.SilenceStaysSilent : Prop :=
  ∀ (k : Nat) (s t : State), (∀ v ∈ s.pool.voices, v.active = false) → (∀ d ∈ s.drums, d.active = false) →
    s.delay.cells = [] → s.filter.z1 = .fin 0 → s.filter.z2 = .fin 0 → s.filter.numbers → s.fadeOk →
    s.dcL = ⟨.fin 0, .fin 0⟩ → s.dcR = ⟨.fin 0, .fin 0⟩ → s.reverb = ⟨.fin 0, .fin 0⟩ → s.cfg.mixWf →
    (∃ g : Rat, g ≠ 0 ∧ s.cfg.arith.add (.fin 1) (s.cfg.arith.mul (s.cfg.arith.const s.cfg.driveK) (.fin s.snapshot.params.drive)) = .fin g) →
    s.memoryWf → frame k s = .ok t →
    t.pool = s.pool ∧ t.drums = s.drums ∧ t.noise = s.noise ∧ t.filter = s.filter ∧ t.dcL = s.dcL ∧ t.dcR = s.dcR ∧
    t.reverb = s.reverb ∧ t.delay.cells = [] ∧ ∀ a, 4 * k ≤ a → a < 4 * k + 4 → t.readByte .block a = some 0x00

/-- O59. For an integer m below 2^24 in magnitude and an exponent e of −149 to 104, rounding m·2^e gives m·2^e. A number
below 2^(e+1) in magnitude, for an exponent e of −126 to 127, that is also below the overflow bound 2^128 − 2^103, is
rounded to a number at most 2^(e−24) away, half a unit in the last place at that exponent. From the overflow bound on
the result is the infinity of its sign. In either arithmetic 2^x, the square root of a count, and b^e for b in [0, 1]
and e ≥ 0 are the rounding of a number within 2^(−bits) of the real function, and so are sin and cos of 2π·x in the
reals, where an angle is carried in turns, and of x in binary32, where bits is 160. That binary32 overflows to an
infinity and underflows gradually, as IEEE 754 says, is presumed (log entry 3). That an irrational result is not exact
in the reals is the model's choice (log entry 2), and so is the carrying of angles in turns (log entry 16).
Derived from 00_scope.md R13, 00_scope.md R14, 92_eei_decisions.md D1. -/
def Obligations.ArithmeticComesNearTheReals : Prop :=
  (∀ (m e : Int), |m| < 2 ^ 24 → -149 ≤ e → e ≤ 104 → roundBinary32 (m * (2 : Rat) ^ e) = .fin (m * (2 : Rat) ^ e)) ∧
  (∀ (q : Rat) (e : Int), -126 ≤ e → e ≤ 127 → |q| < (2 : Rat) ^ (e + 1) → |q| < 2 ^ 128 - 2 ^ 103 →
    ∃ x, roundBinary32 q = .fin x ∧ |x - q| ≤ (2 : Rat) ^ (e - 24)) ∧
  (∀ q : Rat, 2 ^ 128 - 2 ^ 103 ≤ |q| → roundBinary32 q = .inf (decide (q < 0))) ∧
  ∀ a : Arith,
    let near := fun (r : RealNum) (z : ℝ) => ∃ q : Rat, r = a.rnd q ∧ |(q : ℝ) - z| ≤ (1 / 2) ^ a.bits
    let turn : ℝ := if a = .binary32 then 1 else 2 * Real.pi
    (∀ x : Rat, near (a.exp2 (.fin x)) ((2 : ℝ) ^ (x : ℝ))) ∧
    (∀ n : Nat, near (a.sqrt n) (Real.sqrt n)) ∧
    (∀ b e : Rat, 0 ≤ b → b ≤ 1 → 0 ≤ e → near (a.pow b (.fin e)) ((b : ℝ) ^ (e : ℝ))) ∧
    ∀ x : Rat, near (a.sin (.fin x)) (Real.sin (turn * x)) ∧ near (a.cos (.fin x)) (Real.cos (turn * x))

/-- O60. In the reals, with build constants, recipe and kit in range and an admitted sample rate, a part triggered at any
velocity is inactive after finitely many rendered frames and stays so, whatever the noise and the other parts. The
decay coefficient is the model's power, which lies strictly between 0 and 1 (log entry 2).
Derived from 41_percussion.md R525, 41_percussion.md R510, 41_percussion.md R521, 41_percussion.md R523. -/
def Obligations.TriggeredPartsEnd : Prop :=
  ∀ (c : Cfg) (fs : Nat) (r : Recipe) (m : Kit) (vel : Byte) (d : Drum) (part : Nat → Drum) (acc : Nat → DrumFrame),
    c.wf → c.arith ≠ .binary32 → r.wf → m.wf → refusedRate < fs → legalVelocity vel = true →
    part 0 = d.trigger c fs r m vel → (∀ k, part (k + 1) = (renderDrum c fs r (part k) (acc k)).1) →
    ∃ n, ∀ k, n ≤ k → (part k).active = false
end

