-- ==== Sys2Proof/Laws/Numeric.lean ====
section
/-! SUPPORT. The laws of the arithmetic: the reals reference is exact and total on numbers, binary32 rounding is monotonic
and keeps a bound that is a power of two, and the clamps and roundings stay in range. -/

namespace Sys2Proof

/-! ## Numbers -/

@[simp] theorem RealNum.isFin_fin (q : Rat) : (RealNum.fin q).isFin = true := rfl
@[simp] theorem RealNum.isNan_fin (q : Rat) : (RealNum.fin q).isNan = false := rfl
@[simp] theorem RealNum.neg_fin (q : Rat) : (RealNum.fin q).neg = .fin (-q) := rfl
@[simp] theorem RealNum.round_fin (q : Rat) : (RealNum.fin q).round = .fin (Machine.roundHalfAway q) := rfl
@[simp] theorem RealNum.isNeg_fin (q : Rat) : (RealNum.fin q).isNeg = decide (q < 0) := rfl
@[simp] theorem RealNum.lt_fin (x y : Rat) : (RealNum.fin x).lt (.fin y) = decide (x < y) := rfl
@[simp] theorem RealNum.le_fin (x y : Rat) : (RealNum.fin x).le (.fin y) = decide (x ≤ y) := rfl

@[simp] theorem RealNum.max_fin (x y : Rat) : (RealNum.fin x).max (.fin y) = .fin (x ⊔ y) := by
  simp only [RealNum.max, RealNum.isNan_fin, Bool.or_self, Bool.false_eq_true, if_false, RealNum.lt_fin, decide_eq_true_eq]
  split
  · rw [max_eq_right (le_of_lt ‹_›)]
  · rw [max_eq_left (not_lt.mp ‹_›)]

@[simp] theorem RealNum.min_fin (x y : Rat) : (RealNum.fin x).min (.fin y) = .fin (x ⊓ y) := by
  simp only [RealNum.min, RealNum.isNan_fin, Bool.or_self, Bool.false_eq_true, if_false, RealNum.lt_fin, decide_eq_true_eq]
  split
  · rw [min_eq_right (le_of_lt ‹_›)]
  · rw [min_eq_left (not_lt.mp ‹_›)]

theorem RealNum.isFin_iff {x : RealNum} : x.isFin = true ↔ ∃ q, x = .fin q := by cases x <;> simp [RealNum.isFin]

/-! ## The operations in the reals -/

@[simp] theorem Arith.rnd_reals (n : Nat) (q : Rat) : (Arith.reals n).rnd q = .fin q := rfl
@[simp] theorem Arith.near_reals (n : Nat) (q : Rat) : (Arith.reals n).near q = q := rfl
@[simp] theorem Arith.const_reals (n : Nat) (q : Rat) : (Arith.reals n).const q = .fin q := rfl
@[simp] theorem Arith.add_reals (n : Nat) (x y : Rat) : (Arith.reals n).add (.fin x) (.fin y) = .fin (x + y) := rfl
@[simp] theorem Arith.sub_reals (n : Nat) (x y : Rat) : (Arith.reals n).sub (.fin x) (.fin y) = .fin (x - y) := rfl
@[simp] theorem Arith.mul_reals (n : Nat) (x y : Rat) : (Arith.reals n).mul (.fin x) (.fin y) = .fin (x * y) := rfl
@[simp] theorem Arith.div_reals (n : Nat) (x y : Rat) : (Arith.reals n).div (.fin x) (.fin y) = .fin (x / y) := rfl
@[simp] theorem Arith.frac_reals (n : Nat) (x : Rat) : (Arith.reals n).frac (.fin x) = .fin (x - (x.floor : Int)) := rfl

/-- The arithmetic is that of the reals. -/
theorem Arith.eq_reals {a : Arith} (ha : a ≠ .binary32) : ∃ bits, a = .reals bits := by
  cases a with
  | reals bits => exact ⟨bits, rfl⟩
  | binary32 => exact absurd rfl ha

/-! In the reals every operation on numbers gives a number. -/

section
variable {a : Arith} (ha : a ≠ .binary32) {x y : RealNum}
include ha

theorem Arith.const_isFin (q : Rat) : (a.const q).isFin = true := by
  obtain ⟨n, rfl⟩ := Arith.eq_reals ha; rfl

theorem Arith.add_isFin (hx : x.isFin = true) (hy : y.isFin = true) : (a.add x y).isFin = true := by
  obtain ⟨n, rfl⟩ := Arith.eq_reals ha
  obtain ⟨p, rfl⟩ := RealNum.isFin_iff.mp hx
  obtain ⟨q, rfl⟩ := RealNum.isFin_iff.mp hy
  rfl

theorem Arith.sub_isFin (hx : x.isFin = true) (hy : y.isFin = true) : (a.sub x y).isFin = true := by
  obtain ⟨n, rfl⟩ := Arith.eq_reals ha
  obtain ⟨p, rfl⟩ := RealNum.isFin_iff.mp hx
  obtain ⟨q, rfl⟩ := RealNum.isFin_iff.mp hy
  rfl

theorem Arith.mul_isFin (hx : x.isFin = true) (hy : y.isFin = true) : (a.mul x y).isFin = true := by
  obtain ⟨n, rfl⟩ := Arith.eq_reals ha
  obtain ⟨p, rfl⟩ := RealNum.isFin_iff.mp hx
  obtain ⟨q, rfl⟩ := RealNum.isFin_iff.mp hy
  rfl

theorem Arith.div_isFin (hx : x.isFin = true) (hy : y.isFin = true) : (a.div x y).isFin = true := by
  obtain ⟨n, rfl⟩ := Arith.eq_reals ha
  obtain ⟨p, rfl⟩ := RealNum.isFin_iff.mp hx
  obtain ⟨q, rfl⟩ := RealNum.isFin_iff.mp hy
  rfl

theorem Arith.frac_isFin (hx : x.isFin = true) : (a.frac x).isFin = true := by
  obtain ⟨n, rfl⟩ := Arith.eq_reals ha
  obtain ⟨p, rfl⟩ := RealNum.isFin_iff.mp hx
  rfl

theorem Arith.exp2_isFin (hx : x.isFin = true) : (a.exp2 x).isFin = true := by
  obtain ⟨n, rfl⟩ := Arith.eq_reals ha
  obtain ⟨p, rfl⟩ := RealNum.isFin_iff.mp hx
  rfl

theorem Arith.sqrt_isFin (n : Nat) : (a.sqrt n).isFin = true := by
  obtain ⟨n, rfl⟩ := Arith.eq_reals ha; rfl

theorem Arith.pow_isFin (b : Rat) (hx : x.isFin = true) : (a.pow b x).isFin = true := by
  obtain ⟨n, rfl⟩ := Arith.eq_reals ha
  obtain ⟨p, rfl⟩ := RealNum.isFin_iff.mp hx
  simp only [Arith.pow, Arith.power]
  split_ifs <;> rfl

theorem Arith.twoPi_isFin (hx : x.isFin = true) : (a.twoPi x).isFin = true := by
  obtain ⟨n, rfl⟩ := Arith.eq_reals ha; exact hx

theorem Arith.sin_isFin (hx : x.isFin = true) : (a.sin x).isFin = true := by
  obtain ⟨n, rfl⟩ := Arith.eq_reals ha
  obtain ⟨p, rfl⟩ := RealNum.isFin_iff.mp hx
  rfl

theorem Arith.cos_isFin (hx : x.isFin = true) : (a.cos x).isFin = true := by
  obtain ⟨n, rfl⟩ := Arith.eq_reals ha
  obtain ⟨p, rfl⟩ := RealNum.isFin_iff.mp hx
  rfl

end

theorem RealNum.neg_isFin {x : RealNum} (hx : x.isFin = true) : x.neg.isFin = true := by
  obtain ⟨p, rfl⟩ := RealNum.isFin_iff.mp hx; rfl

theorem RealNum.round_isFin {x : RealNum} (hx : x.isFin = true) : x.round.isFin = true := by
  obtain ⟨p, rfl⟩ := RealNum.isFin_iff.mp hx; rfl

theorem RealNum.max_isFin {x y : RealNum} (hx : x.isFin = true) (hy : y.isFin = true) : (x.max y).isFin = true := by
  obtain ⟨p, rfl⟩ := RealNum.isFin_iff.mp hx
  obtain ⟨q, rfl⟩ := RealNum.isFin_iff.mp hy
  simp

theorem RealNum.min_isFin {x y : RealNum} (hx : x.isFin = true) (hy : y.isFin = true) : (x.min y).isFin = true := by
  obtain ⟨p, rfl⟩ := RealNum.isFin_iff.mp hx
  obtain ⟨q, rfl⟩ := RealNum.isFin_iff.mp hy
  simp

namespace Machine

/-! ## Clamps and rounding to an integer -/

theorem clamp_bounds {lo hi : Rat} (h : lo ≤ hi) (x : Rat) : lo ≤ clamp x lo hi ∧ clamp x lo hi ≤ hi := by
  unfold clamp
  split_ifs <;> constructor <;> grind

theorem clampNat_bounds {lo hi : Nat} (h : lo ≤ hi) (x : Nat) : lo ≤ clampNat x lo hi ∧ clampNat x lo hi ≤ hi := by
  unfold clampNat
  split_ifs <;> omega

theorem clampInt_bounds {lo hi : Int} (h : lo ≤ hi) (x : Int) : lo ≤ clampInt x lo hi ∧ clampInt x lo hi ≤ hi := by
  unfold clampInt
  split_ifs <;> omega

theorem clampByte_bounds {lo hi : Nat} (h : lo ≤ hi) (hhi : hi < 256) (x : Byte) :
    lo ≤ (clampByte x lo hi).toNat ∧ (clampByte x lo hi).toNat ≤ hi := by
  have hb := clampNat_bounds h x.toNat
  unfold clampByte
  rw [BitVec.toNat_ofNat, Nat.mod_eq_of_lt (by omega)]
  exact hb

theorem floor_eq (x : Rat) : x.floor = ⌊x⌋ := rfl

/-- Rounding keeps an integer bound. -/
theorem roundHalfAway_le {x : Rat} {n : Int} (hn : 0 ≤ n) (h : x ≤ n) : roundHalfAway x ≤ n := by
  unfold roundHalfAway
  split
  · rw [floor_eq]
    exact Int.lt_add_one_iff.mp (Int.floor_lt.mpr (by push_cast; linarith))
  · have : (0 : Int) ≤ (-x + 1 / 2).floor := by rw [floor_eq]; exact Int.floor_nonneg.mpr (by linarith)
    omega

theorem le_roundHalfAway {x : Rat} {n : Int} (hn : 0 ≤ n) (h : -(n : Rat) ≤ x) : -n ≤ roundHalfAway x := by
  unfold roundHalfAway
  split
  · have : (0 : Int) ≤ (x + 1 / 2).floor := by rw [floor_eq]; exact Int.floor_nonneg.mpr (by linarith)
    omega
  · rw [floor_eq]
    have : ⌊-x + 1 / 2⌋ < n + 1 := Int.floor_lt.mpr (by push_cast; linarith)
    omega

/-! ## Powers of two and the leading exponent -/

theorem pow2_eq (e : Int) : pow2 e = (2 : Rat) ^ e := by
  unfold pow2
  split
  · obtain ⟨n, rfl⟩ := Int.eq_ofNat_of_zero_le (by assumption)
    simp
  · obtain ⟨n, hn⟩ := Int.eq_ofNat_of_zero_le (show 0 ≤ -e by omega)
    obtain rfl : e = -n := by omega
    simp

/-- `floorLog2` is the exponent of the leading bit. -/
theorem floorLog2_spec {n d : Nat} (hn : 0 < n) (hd : 0 < d) :
    (2 : Rat) ^ floorLog2 n d ≤ (n : Rat) / d ∧ (n : Rat) / d < (2 : Rat) ^ (floorLog2 n d + 1) := by
  have hd' : (0 : Rat) < d := by exact_mod_cast hd
  have h2 : (2 : Rat) ≠ 0 := by norm_num
  have hn1 : (2 : Rat) ^ (n.log2 : Int) ≤ n := by exact_mod_cast Nat.log2_self_le (by omega)
  have hn2 : (n : Rat) < 2 ^ ((n.log2 : Int) + 1) := by exact_mod_cast Nat.lt_log2_self (n := n)
  have hd1 : (2 : Rat) ^ (d.log2 : Int) ≤ d := by exact_mod_cast Nat.log2_self_le (by omega)
  have hd2 : (d : Rat) < 2 ^ ((d.log2 : Int) + 1) := by exact_mod_cast Nat.lt_log2_self (n := d)
  set k : Int := (n.log2 : Int) - (d.log2 : Int) with hk
  have hsplit : ∀ c : Int, c = k → (2 : Rat) ^ c * 2 ^ (d.log2 : Int) = 2 ^ (n.log2 : Int) := by
    rintro _ rfl; rw [← zpow_add₀ h2]; congr 1; omega
  have hlow : (2 : Rat) ^ (k - 1) ≤ (n : Rat) / d := by
    rw [le_div_iff₀ hd']
    have : (2 : Rat) ^ (k - 1) * 2 ^ ((d.log2 : Int) + 1) = 2 ^ (n.log2 : Int) := by
      rw [← zpow_add₀ h2]; congr 1; omega
    have := mul_le_mul_of_nonneg_left hd2.le (zpow_nonneg (show (0 : Rat) ≤ 2 by norm_num) (k - 1))
    linarith
  have hhigh : (n : Rat) / d < (2 : Rat) ^ (k + 1) := by
    rw [div_lt_iff₀ hd']
    have : (2 : Rat) ^ (k + 1) * 2 ^ (d.log2 : Int) = 2 ^ ((n.log2 : Int) + 1) := by
      rw [← zpow_add₀ h2]; congr 1; omega
    have := mul_le_mul_of_nonneg_left hd1 (zpow_nonneg (show (0 : Rat) ≤ 2 by norm_num) (k + 1))
    linarith
  have key : floorLog2 n d = if (2 : Rat) ^ k ≤ (n : Rat) / d then k else k - 1 := by
    unfold floorLog2
    simp only [← hk]
    by_cases hk0 : 0 ≤ k
    · rw [if_pos hk0]
      congr 1
      rw [le_div_iff₀ hd']
      obtain ⟨j, hj⟩ := Int.eq_ofNat_of_zero_le hk0
      rw [hj, eq_iff_iff]
      simp only [Int.toNat_natCast, zpow_natCast]
      rw [mul_comm]
      exact_mod_cast Iff.rfl
    · rw [if_neg hk0]
      congr 1
      obtain ⟨j, hj⟩ := Int.eq_ofNat_of_zero_le (show 0 ≤ -k by omega)
      rw [show k = -(j : Int) by omega, eq_iff_iff, zpow_neg, le_div_iff₀ hd', inv_mul_le_iff₀ (by positivity)]
      simp only [neg_neg, Int.toNat_natCast, zpow_natCast]
      rw [mul_comm]
      exact_mod_cast Iff.rfl
  rw [key]
  split
  · exact ⟨‹_›, hhigh⟩
  · exact ⟨hlow, by rw [sub_add_cancel]; exact not_le.mp ‹_›⟩

/-! ## binary32 rounding -/

theorem divHalfEven_le {n d m : Nat} (hd : 0 < d) (h : n ≤ m * d) : divHalfEven n d ≤ m := by
  have hq : n / d ≤ m := Nat.div_le_of_le_mul (by rwa [mul_comm])
  have hdiv := Nat.div_add_mod n d
  simp only [divHalfEven]
  rcases Nat.lt_or_eq_of_le hq with hlt | heq
  · split_ifs <;> omega
  · have : n % d = 0 := by rw [heq, mul_comm] at hdiv; omega
    rw [this, if_pos (by omega)]
    omega

theorem scaledHalfEven_le {n d m : Nat} {s : Int} (hd : 0 < d) (h : (n : Rat) / d * 2 ^ s ≤ m) :
    scaledHalfEven n d s ≤ m := by
  have hd' : (0 : Rat) < d := by exact_mod_cast hd
  unfold scaledHalfEven
  split
  · obtain ⟨j, rfl⟩ := Int.eq_ofNat_of_zero_le (by assumption)
    refine divHalfEven_le hd ?_
    simp only [Int.toNat_natCast, zpow_natCast] at h ⊢
    rw [div_mul_eq_mul_div, div_le_iff₀ hd'] at h
    exact_mod_cast h
  · obtain ⟨j, hj⟩ := Int.eq_ofNat_of_zero_le (show 0 ≤ -s by omega)
    obtain rfl : s = -(j : Int) := by omega
    refine divHalfEven_le (by positivity) ?_
    simp only [neg_neg, Int.toNat_natCast, zpow_neg, zpow_natCast] at h ⊢
    rw [← div_eq_mul_inv, div_div, div_le_iff₀ (by positivity)] at h
    exact_mod_cast h

theorem divHalfEven_error {n d : Nat} (hd : 0 < d) : 2 * (divHalfEven n d * d) ≤ 2 * n + d ∧ 2 * n ≤ 2 * (divHalfEven n d * d) + d := by
  have hdiv := Nat.div_add_mod n d
  have hmod := Nat.mod_lt n hd
  have hc : n / d * d = d * (n / d) := Nat.mul_comm _ _
  simp only [divHalfEven]
  have hs : (n / d + 1) * d = n / d * d + d := by rw [Nat.add_mul, Nat.one_mul]
  split_ifs <;> (try rw [hs]) <;> omega

/-- Rounding to an integer is off by at most one half. -/
theorem scaledHalfEven_error {n d : Nat} (s : Int) (hd : 0 < d) :
    |(scaledHalfEven n d s : Rat) - (n : Rat) / d * 2 ^ s| ≤ 1 / 2 := by
  have key : ∀ {n d : Nat}, 0 < d → |(divHalfEven n d : Rat) - (n : Rat) / d| ≤ 1 / 2 := by
    intro n d hd
    have hd' : (0 : Rat) < d := by exact_mod_cast hd
    obtain ⟨h1, h2⟩ := divHalfEven_error (n := n) hd
    have h1' : 2 * ((divHalfEven n d : Rat) * d) ≤ 2 * n + d := by exact_mod_cast h1
    have h2' : 2 * (n : Rat) ≤ 2 * ((divHalfEven n d : Rat) * d) + d := by exact_mod_cast h2
    rw [show (divHalfEven n d : Rat) - n / d = ((divHalfEven n d : Rat) * d - n) / d by field_simp, abs_div, abs_of_pos hd',
      div_le_iff₀ hd', abs_le]
    constructor <;> linarith
  unfold scaledHalfEven
  split
  · obtain ⟨j, rfl⟩ := Int.eq_ofNat_of_zero_le (by assumption)
    have := key (n := n * 2 ^ j) hd
    simp only [Int.toNat_natCast, zpow_natCast] at this ⊢
    rw [div_mul_eq_mul_div]
    exact_mod_cast this
  · obtain ⟨j, hj⟩ := Int.eq_ofNat_of_zero_le (show 0 ≤ -s by omega)
    obtain rfl : s = -(j : Int) := by omega
    have := key (n := n) (d := d * 2 ^ j) (by positivity)
    simp only [neg_neg, Int.toNat_natCast, zpow_neg, zpow_natCast] at this ⊢
    rw [← div_eq_mul_inv, div_div]
    exact_mod_cast this

/-- Rounding to an integer keeps an integer lower bound. -/
theorem le_scaledHalfEven {n d m : Nat} {s : Int} (hd : 0 < d) (h : (m : Rat) ≤ (n : Rat) / d * 2 ^ s) :
    m ≤ scaledHalfEven n d s := by
  have := (abs_le.mp (scaledHalfEven_error (n := n) s hd)).1
  have h2 : (m : Rat) < (scaledHalfEven n d s + 1 : Nat) := by push_cast; linarith
  exact Nat.lt_succ_iff.mp (by exact_mod_cast h2)

theorem divHalfEven_mono {n d n' d' : Nat} (hd : 0 < d) (hd' : 0 < d') (h : n * d' ≤ n' * d) : divHalfEven n d ≤ divHalfEven n' d' := by
  have hq : n / d ≤ n' / d' := by
    rw [Nat.le_div_iff_mul_le hd', ← Nat.mul_le_mul_right_iff hd]
    calc n / d * d' * d = n / d * d * d' := by ring
      _ ≤ n * d' := Nat.mul_le_mul_right _ (Nat.div_mul_le_self n d)
      _ ≤ n' * d := h
  have hup : divHalfEven n d ≤ n / d + 1 := by simp only [divHalfEven]; split_ifs <;> omega
  have hlo : n' / d' ≤ divHalfEven n' d' := by simp only [divHalfEven]; split_ifs <;> omega
  rcases Nat.lt_or_eq_of_le hq with hlt | heq
  · omega
  · have h1 := Nat.div_add_mod n d
    have h2 := Nat.div_add_mod n' d'
    rw [heq] at h1
    have hr : n % d * d' ≤ n' % d' * d := by
      have e1 : n * d' = d * (n' / d') * d' + n % d * d' := by rw [← Nat.add_mul, h1]
      have e2 : n' * d = d' * (n' / d') * d + n' % d' * d := by rw [← Nat.add_mul, h2]
      have e3 : d * (n' / d') * d' = d' * (n' / d') * d := by ring
      omega
    have hgt : d < 2 * (n % d) → d' < 2 * (n' % d') := fun hlt => by
      by_contra hc
      have a1 := Nat.mul_lt_mul_of_pos_right hlt hd'
      have a2 := Nat.mul_le_mul_right d (not_lt.mp hc)
      nlinarith
    have hge : d ≤ 2 * (n % d) → d' ≤ 2 * (n' % d') := fun hle => by
      by_contra hc
      have a1 := Nat.mul_le_mul_right d' hle
      have a2 := Nat.mul_lt_mul_of_pos_right (not_le.mp hc) hd
      nlinarith
    simp only [divHalfEven, heq]
    split_ifs <;> omega

/-- Rounding to an integer is monotonic. -/
theorem scaledHalfEven_mono {n d n' d' : Nat} (s : Int) (hd : 0 < d) (hd' : 0 < d') (h : n * d' ≤ n' * d) :
    scaledHalfEven n d s ≤ scaledHalfEven n' d' s := by
  unfold scaledHalfEven
  split
  · refine divHalfEven_mono hd hd' ?_
    calc n * 2 ^ s.toNat * d' = n * d' * 2 ^ s.toNat := by ring
      _ ≤ n' * d * 2 ^ s.toNat := Nat.mul_le_mul_right _ h
      _ = n' * 2 ^ s.toNat * d := by ring
  · refine divHalfEven_mono (by positivity) (by positivity) ?_
    calc n * (d' * 2 ^ (-s).toNat) = n * d' * 2 ^ (-s).toNat := by ring
      _ ≤ n' * d * 2 ^ (-s).toNat := Nat.mul_le_mul_right _ h
      _ = n' * (d * 2 ^ (-s).toNat) := by ring

theorem abs_eq_natAbs_div (q : Rat) : |q| = (q.num.natAbs : Rat) / q.den := by
  have hd : (0 : Rat) < q.den := by exact_mod_cast q.den_pos
  conv_lhs => rw [← Rat.num_div_den q]
  rw [abs_div, abs_of_pos hd, Nat.cast_natAbs, Int.cast_abs]

theorem magnitude32_nonneg (q : Rat) : 0 ≤ magnitude32 q := by
  unfold magnitude32
  dsimp only
  rw [pow2_eq]
  positivity

theorem natAbs_num_pos {q : Rat} (hq : q ≠ 0) : 0 < q.num.natAbs := Int.natAbs_pos.mpr (Rat.num_ne_zero.mpr hq)

/-- The rounded magnitude is off by at most half a unit in the last place. -/
theorem magnitude32_error (q : Rat) :
    |magnitude32 q - (|q|)| ≤ 2 ^ (max (floorLog2 q.num.natAbs q.den) (-126) - 24) := by
  have h2 : (2 : Rat) ≠ 0 := by norm_num
  rw [abs_eq_natAbs_div q]
  unfold magnitude32
  dsimp only
  set u : Int := max (floorLog2 q.num.natAbs q.den) (-126) - 23
  have he := scaledHalfEven_error (n := q.num.natAbs) (-u) q.den_pos
  have hp : (0 : Rat) < 2 ^ u := zpow_pos (by norm_num) u
  rw [pow2_eq, show max (floorLog2 q.num.natAbs q.den) (-126) - 24 = u - 1 by omega, zpow_sub_one₀ h2]
  have : (scaledHalfEven q.num.natAbs q.den (-u) : Rat) * 2 ^ u - q.num.natAbs / q.den =
      ((scaledHalfEven q.num.natAbs q.den (-u) : Rat) - q.num.natAbs / q.den * 2 ^ (-u)) * 2 ^ u := by
    rw [sub_mul, mul_assoc _ _ (2 ^ u), ← zpow_add₀ h2, neg_add_cancel, zpow_zero, mul_one]
  rw [this, abs_mul, abs_of_pos hp, mul_comm ((2 : Rat) ^ u)]
  exact mul_le_mul_of_nonneg_right (by simpa using he) hp.le

/-- The rounded magnitude keeps a bound `2^k`. -/
theorem magnitude32_le {q : Rat} {k : Int} (hq : q ≠ 0) (hk : -126 ≤ k) (h : |q| ≤ 2 ^ k) : magnitude32 q ≤ 2 ^ k := by
  have h2 : (2 : Rat) ≠ 0 := by norm_num
  rw [abs_eq_natAbs_div] at h
  have hspec := (floorLog2_spec (natAbs_num_pos hq) q.den_pos).1
  have he : floorLog2 q.num.natAbs q.den ≤ k :=
    (zpow_le_zpow_iff_right₀ (show (1 : Rat) < 2 by norm_num)).mp (hspec.trans h)
  unfold magnitude32
  dsimp only
  set u : Int := max (floorLog2 q.num.natAbs q.den) (-126) - 23
  have hu : u ≤ k := by omega
  obtain ⟨j, hj⟩ := Int.eq_ofNat_of_zero_le (show 0 ≤ k - u by omega)
  have hle : scaledHalfEven q.num.natAbs q.den (-u) ≤ 2 ^ j := by
    refine scaledHalfEven_le q.den_pos ?_
    have := mul_le_mul_of_nonneg_right h (zpow_nonneg (show (0 : Rat) ≤ 2 by norm_num) (-u))
    rw [← zpow_add₀ h2, show k + -u = j by omega] at this
    exact_mod_cast this
  rw [pow2_eq]
  calc (scaledHalfEven q.num.natAbs q.den (-u) : Rat) * 2 ^ u ≤ (2 ^ j : Nat) * 2 ^ u :=
        mul_le_mul_of_nonneg_right (by exact_mod_cast hle) (zpow_nonneg (by norm_num) u)
    _ = 2 ^ k := by push_cast; rw [← zpow_natCast, ← zpow_add₀ h2]; congr 1; omega

/-- The rounded magnitude keeps a lower bound `2^k`. -/
theorem le_magnitude32 {q : Rat} {k : Int} (hq : q ≠ 0) (hk : -126 ≤ k) (h : 2 ^ k ≤ |q|) : 2 ^ k ≤ magnitude32 q := by
  have h2 : (2 : Rat) ≠ 0 := by norm_num
  rw [abs_eq_natAbs_div] at h
  obtain ⟨hlow, hhigh⟩ := floorLog2_spec (natAbs_num_pos hq) q.den_pos
  have he : k < floorLog2 q.num.natAbs q.den + 1 :=
    (zpow_lt_zpow_iff_right₀ (show (1 : Rat) < 2 by norm_num)).mp (h.trans_lt hhigh)
  unfold magnitude32
  dsimp only
  set e : Int := floorLog2 q.num.natAbs q.den
  set u : Int := max e (-126) - 23
  obtain ⟨j, hj⟩ := Int.eq_ofNat_of_zero_le (show 0 ≤ e - u by omega)
  have hle : 2 ^ j ≤ scaledHalfEven q.num.natAbs q.den (-u) := by
    refine le_scaledHalfEven q.den_pos ?_
    have := mul_le_mul_of_nonneg_right hlow (zpow_nonneg (show (0 : Rat) ≤ 2 by norm_num) (-u))
    rw [← zpow_add₀ h2, show e + -u = j by omega] at this
    exact_mod_cast this
  rw [pow2_eq]
  calc (2 : Rat) ^ k ≤ 2 ^ e := (zpow_le_zpow_iff_right₀ (by norm_num)).mpr (by omega)
    _ = (2 ^ j : Nat) * 2 ^ u := by push_cast; rw [← zpow_natCast, ← zpow_add₀ h2]; congr 1; omega
    _ ≤ _ := mul_le_mul_of_nonneg_right (by exact_mod_cast hle) (zpow_nonneg (by norm_num) u)

/-- The rounded magnitude keeps an upper bound that is an integer below `2^24`. -/
theorem magnitude32_le_nat {q : Rat} {n : Nat} (hq : q ≠ 0) (hn : n < 2 ^ 24) (h : |q| ≤ n) : magnitude32 q ≤ n := by
  have h2 : (2 : Rat) ≠ 0 := by norm_num
  rw [abs_eq_natAbs_div] at h
  have he : floorLog2 q.num.natAbs q.den < 24 := by
    have h1 := (floorLog2_spec (natAbs_num_pos hq) q.den_pos).1.trans h
    have h3 : (n : Rat) < 2 ^ (24 : Int) := by exact_mod_cast hn
    exact (zpow_lt_zpow_iff_right₀ (show (1 : Rat) < 2 by norm_num)).mp (h1.trans_lt h3)
  unfold magnitude32
  dsimp only
  set u : Int := max (floorLog2 q.num.natAbs q.den) (-126) - 23
  obtain ⟨j, hj⟩ := Int.eq_ofNat_of_zero_le (show 0 ≤ -u by omega)
  have hle : scaledHalfEven q.num.natAbs q.den (-u) ≤ n * 2 ^ j := by
    refine scaledHalfEven_le q.den_pos ?_
    have := mul_le_mul_of_nonneg_right h (zpow_nonneg (show (0 : Rat) ≤ 2 by norm_num) (-u))
    rw [hj] at this ⊢
    exact_mod_cast this
  rw [pow2_eq]
  calc (scaledHalfEven q.num.natAbs q.den (-u) : Rat) * 2 ^ u ≤ (n * 2 ^ j : Nat) * 2 ^ u :=
        mul_le_mul_of_nonneg_right (by exact_mod_cast hle) (zpow_nonneg (by norm_num) u)
    _ = n := by
        push_cast
        rw [mul_assoc, ← zpow_natCast, ← zpow_add₀ h2, show (j : Int) + u = 0 by omega, zpow_zero, mul_one]

/-- The rounded magnitude is monotonic in the magnitude. -/
theorem magnitude32_mono {p q : Rat} (hp : p ≠ 0) (h : |p| ≤ |q|) : magnitude32 p ≤ magnitude32 q := by
  have hq : q ≠ 0 := by rintro rfl; rw [abs_zero] at h; exact hp (abs_nonpos_iff.mp h)
  have sp := floorLog2_spec (natAbs_num_pos hp) p.den_pos
  have sq := floorLog2_spec (natAbs_num_pos hq) q.den_pos
  rw [← abs_eq_natAbs_div] at sp sq
  have he : floorLog2 p.num.natAbs p.den < floorLog2 q.num.natAbs q.den + 1 :=
    (zpow_lt_zpow_iff_right₀ (show (1 : Rat) < 2 by norm_num)).mp (sp.1.trans_lt (h.trans_lt sq.2))
  by_cases hu : max (floorLog2 p.num.natAbs p.den) (-126) = max (floorLog2 q.num.natAbs q.den) (-126)
  · unfold magnitude32
    dsimp only
    rw [hu, pow2_eq]
    refine mul_le_mul_of_nonneg_right ?_ (zpow_nonneg (by norm_num) _)
    refine Nat.cast_le.mpr (scaledHalfEven_mono _ p.den_pos q.den_pos ?_)
    rw [abs_eq_natAbs_div, abs_eq_natAbs_div, div_le_div_iff₀ (by exact_mod_cast p.den_pos) (by exact_mod_cast q.den_pos)] at h
    exact_mod_cast h
  · have hk : -126 ≤ floorLog2 q.num.natAbs q.den := by omega
    refine (magnitude32_le hp hk (sp.2.le.trans ?_)).trans (le_magnitude32 hq hk sq.1)
    exact (zpow_le_zpow_iff_right₀ (by norm_num)).mpr (by omega)

/-! ## binary32 rounding of a number -/

@[simp] theorem nearest32_zero : nearest32 0 = 0 := if_pos rfl

theorem nearest32_of_pos {q : Rat} (h : 0 < q) : nearest32 q = magnitude32 q := by
  rw [nearest32, if_neg h.ne', if_neg (not_lt.mpr h.le)]

theorem nearest32_of_neg {q : Rat} (h : q < 0) : nearest32 q = -magnitude32 q := by
  rw [nearest32, if_neg h.ne, if_pos h]

theorem abs_nearest32 {q : Rat} (hq : q ≠ 0) : |nearest32 q| = magnitude32 q := by
  rcases lt_or_gt_of_ne hq with h | h
  · rw [nearest32_of_neg h, abs_neg, abs_of_nonneg (magnitude32_nonneg q)]
  · rw [nearest32_of_pos h, abs_of_nonneg (magnitude32_nonneg q)]

theorem nearest32_nonneg {q : Rat} (h : 0 ≤ q) : 0 ≤ nearest32 q := by
  rcases h.eq_or_lt with rfl | h
  · exact nearest32_zero.ge
  · rw [nearest32_of_pos h]; exact magnitude32_nonneg q

theorem nearest32_nonpos {q : Rat} (h : q ≤ 0) : nearest32 q ≤ 0 := by
  rcases h.eq_or_lt with rfl | h
  · exact nearest32_zero.le
  · rw [nearest32_of_neg h]; exact neg_nonpos.mpr (magnitude32_nonneg q)

/-- Rounding is monotonic. -/
theorem nearest32_mono {p q : Rat} (h : p ≤ q) : nearest32 p ≤ nearest32 q := by
  rcases le_or_gt p 0 with hp | hp
  · rcases le_or_gt 0 q with hq | hq
    · exact (nearest32_nonpos hp).trans (nearest32_nonneg hq)
    · rw [nearest32_of_neg (h.trans_lt hq), nearest32_of_neg hq, neg_le_neg_iff]
      exact magnitude32_mono hq.ne (by rw [abs_of_neg hq, abs_of_neg (h.trans_lt hq)]; linarith)
  · rw [nearest32_of_pos hp, nearest32_of_pos (hp.trans_le h)]
    exact magnitude32_mono hp.ne' (by rw [abs_of_pos hp, abs_of_pos (hp.trans_le h)]; exact h)

/-- Rounding is off by at most half a unit in the last place. -/
theorem nearest32_error (q : Rat) : |nearest32 q - q| ≤ 2 ^ (max (floorLog2 q.num.natAbs q.den) (-126) - 24) := by
  have he := magnitude32_error q
  rcases lt_trichotomy q 0 with h | rfl | h
  · rw [abs_of_neg h] at he
    rw [nearest32_of_neg h, ← abs_neg]
    exact le_of_eq_of_le (by congr 1; ring) he
  · rw [nearest32_zero, sub_zero, abs_zero]
    exact zpow_nonneg (by norm_num) _
  · rw [abs_of_pos h] at he
    rwa [nearest32_of_pos h]

/-- Rounding keeps a bound `2^k` of the magnitude. -/
theorem abs_nearest32_le {q : Rat} {k : Int} (hk : -126 ≤ k) (h : |q| ≤ 2 ^ k) : |nearest32 q| ≤ 2 ^ k := by
  by_cases hq : q = 0
  · subst hq
    rw [nearest32_zero, abs_zero]
    exact zpow_nonneg (by norm_num) k
  · rw [abs_nearest32 hq]
    exact magnitude32_le hq hk h

/-- Rounding keeps a bound that is an integer below `2^24`. -/
theorem abs_nearest32_le_nat {q : Rat} {n : Nat} (hn : n < 2 ^ 24) (h : |q| ≤ n) : |nearest32 q| ≤ n := by
  by_cases hq : q = 0
  · subst hq
    rw [nearest32_zero, abs_zero]
    exact Nat.cast_nonneg n
  · rw [abs_nearest32 hq]
    exact magnitude32_le_nat hq hn h

/-- Rounding keeps a lower bound `2^k` of a positive number. -/
theorem le_nearest32 {q : Rat} {k : Int} (hk : -126 ≤ k) (h : 2 ^ k ≤ q) : 2 ^ k ≤ nearest32 q := by
  have hpos : 0 < q := (zpow_pos (show (0 : Rat) < 2 by norm_num) k).trans_le h
  rw [nearest32_of_pos hpos]
  exact le_magnitude32 hpos.ne' hk (by rwa [abs_of_pos hpos])

/-- Up to `2^127` the rounded value is a number. -/
theorem roundBinary32_fin {q : Rat} (h : |q| ≤ 2 ^ (127 : Int)) : roundBinary32 q = .fin (nearest32 q) := by
  refine if_neg fun hc => ?_
  have := magnitude32_le hc.2 (by omega) h
  rw [pow2_eq] at hc
  exact absurd (hc.1.trans this) (not_le.mpr ((zpow_lt_zpow_iff_right₀ (by norm_num)).mpr (by norm_num)))

/-! ## Bounds that hold in either arithmetic -/

theorem between_fin {lo hi q : Rat} : RealNum.between lo hi (.fin q) = true ↔ lo ≤ q ∧ q ≤ hi := by simp [RealNum.between]

theorem between_iff {lo hi : Rat} {x : RealNum} : RealNum.between lo hi x = true ↔ ∃ q, x = .fin q ∧ lo ≤ q ∧ q ≤ hi := by
  cases x <;> simp [RealNum.between]

end Machine

open Machine

theorem Arith.near_mono (a : Arith) {x y : Rat} (h : x ≤ y) : a.near x ≤ a.near y := by
  cases a
  · exact h
  · exact nearest32_mono h

@[simp] theorem Arith.near_zero (a : Arith) : a.near 0 = 0 := by cases a <;> rfl

theorem Arith.near_nonneg (a : Arith) {x : Rat} (h : 0 ≤ x) : 0 ≤ a.near x := (a.near_zero).symm.le.trans (a.near_mono h)

/-- The rounding of a number of a size the arithmetic holds. -/
theorem Arith.rnd_eq (a : Arith) {x : Rat} (h : |x| ≤ 2 ^ (127 : Int)) : a.rnd x = .fin (a.near x) := by
  cases a
  · rfl
  · exact roundBinary32_fin h

/-- In either arithmetic rounding keeps a bound `2^k` of the magnitude. -/
theorem Arith.abs_near_le (a : Arith) {x : Rat} {k : Int} (hk : -126 ≤ k) (h : |x| ≤ 2 ^ k) : |a.near x| ≤ 2 ^ k := by
  cases a
  · exact h
  · exact abs_nearest32_le hk h

/-- In either arithmetic rounding keeps a lower bound `2^k`. -/
theorem Arith.le_near (a : Arith) {x : Rat} {k : Int} (hk : -126 ≤ k) (h : 2 ^ k ≤ x) : 2 ^ k ≤ a.near x := by
  cases a
  · exact h
  · exact le_nearest32 hk h

/-- In either arithmetic the rounding of a number of [0, 1] is a number of [0, 1]. -/
theorem Arith.rnd_unit (a : Arith) {x : Rat} (h0 : 0 ≤ x) (h1 : x ≤ 1) :
    a.rnd x = .fin (a.near x) ∧ 0 ≤ a.near x ∧ a.near x ≤ 1 := by
  have hx : |x| ≤ 2 ^ (0 : Int) := by rwa [abs_of_nonneg h0, zpow_zero]
  refine ⟨a.rnd_eq (hx.trans ((zpow_le_zpow_iff_right₀ (by norm_num)).mpr (by norm_num))), a.near_nonneg h0, ?_⟩
  have := a.abs_near_le (by omega) hx
  rw [zpow_zero] at this
  exact (le_abs_self _).trans this

end Sys2Proof
end

