-- ==== Sys2Proof/Laws/Accuracy.lean ====
section
/-! SUPPORT. How near the irrational functions of Machine/Numeric.lean come to the real functions (00_scope.md R13 and R14):
the partial sums against Mathlib's functions, and each operation of `Arith` within `2^(-bits)` before its rounding. -/

namespace Sys2Proof.Machine

open Finset

/-- A series by its terms. -/
theorem powerSeries_eq (x : Rat) (coef : Nat → Rat) (n m : Nat) (t acc : Rat) :
    powerSeries x coef n m t acc = acc + ∑ j ∈ range n, t * x ^ j * coef (m + j) := by
  induction n generalizing m t acc with
  | zero => simp [powerSeries]
  | succ n ih =>
    rw [powerSeries, ih, sum_range_succ', add_assoc, add_comm (t * coef m)]
    simp only [pow_zero, mul_one, add_zero, pow_succ', mul_assoc, Nat.add_assoc, Nat.add_comm 1]

theorem cast_expSum (n : Nat) (y : Rat) : (expSum n y : ℝ) = ∑ j ∈ range n, (y : ℝ) ^ j / j.factorial := by
  rw [expSum, powerSeries_eq]; push_cast; simp [div_eq_mul_inv]

theorem cast_logSum (n : Nat) (x : Rat) : (logSum n x : ℝ) = ∑ j ∈ range n, (x : ℝ) ^ (j + 1) / (j + 1) := by
  rw [logSum, powerSeries_eq]; push_cast; simp [div_eq_mul_inv, pow_succ']

theorem cast_arctanSum (n : Nat) (z : Rat) :
    (arctanSum n z : ℝ) = ∑ j ∈ range n, (-1) ^ j * (z : ℝ) ^ (2 * j + 1) / (2 * j + 1 : Nat) := by
  rw [arctanSum, powerSeries_eq]; push_cast
  rw [zero_add]
  refine sum_congr rfl fun j _ => ?_
  rw [zero_add, neg_pow, ← pow_two, ← pow_mul]; ring

theorem cast_sinSum (n : Nat) (y : Rat) :
    (sinSum n y : ℝ) = ∑ j ∈ range n, (-1) ^ j * (y : ℝ) ^ (2 * j + 1) / (2 * j + 1).factorial := by
  rw [sinSum, powerSeries_eq]; push_cast
  rw [zero_add]
  refine sum_congr rfl fun j _ => ?_
  rw [zero_add, neg_pow, ← pow_two, ← pow_mul]; ring

theorem cast_cosSum (n : Nat) (y : Rat) :
    (cosSum n y : ℝ) = ∑ j ∈ range n, (-1) ^ j * (y : ℝ) ^ (2 * j) / (2 * j).factorial := by
  rw [cosSum, powerSeries_eq]; push_cast
  rw [zero_add]
  refine sum_congr rfl fun j _ => ?_
  rw [zero_add, neg_pow, ← pow_two, ← pow_mul]; ring

/-- The partial sums of a series that a geometric series bounds. -/
theorem abs_sum_sub_le {f : ℕ → ℝ} {a r : ℝ} (c d : ℝ) (hr0 : 0 < r) (hr : r < 1) (hd : c / (1 - r) ≤ d)
    (hf : ∀ n, |f n| ≤ c * r ^ n) (ha : HasSum f a) (n : Nat) : |∑ j ∈ range n, f j - a| ≤ d * r ^ n := by
  refine (norm_sub_le_of_geometric_bound_of_hasSum hr hf ha n).trans ?_
  rw [mul_div_right_comm]
  gcongr

theorem eight_pow_le (m : Nat) : 8 ^ m ≤ 512 * m.factorial := by
  induction m with
  | zero => decide
  | succ m ih =>
    rcases Nat.lt_or_ge m 8 with h | h
    · interval_cases m <;> decide
    · rw [pow_succ, Nat.factorial_succ]; nlinarith [m.factorial_pos]

theorem four_pow_le (m : Nat) : 4 ^ m ≤ 11 * m.factorial := by
  induction m with
  | zero => decide
  | succ m ih =>
    rcases Nat.lt_or_ge m 4 with h | h
    · interval_cases m <;> decide
    · rw [pow_succ, Nat.factorial_succ]; nlinarith [m.factorial_pos]

theorem abs_pow_div_factorial_le {y : ℝ} (hy : |y| ≤ 4) (m : Nat) : |y ^ m / m.factorial| ≤ 512 * (1 / 2) ^ m := by
  have hm : (0 : ℝ) < m.factorial := by exact_mod_cast m.factorial_pos
  have h8 : ((8 : ℝ)) ^ m ≤ 512 * m.factorial := by exact_mod_cast eight_pow_le m
  rw [abs_div, abs_pow, abs_of_pos hm, div_le_iff₀ hm]
  calc |y| ^ m ≤ 4 ^ m := pow_le_pow_left₀ (abs_nonneg y) hy m
    _ = 8 ^ m * (1 / 2) ^ m := by rw [← mul_pow]; norm_num
    _ ≤ 512 * m.factorial * (1 / 2) ^ m := by gcongr
    _ = 512 * (1 / 2) ^ m * m.factorial := by ring

/-- `sin` of an angle about half a turn wide. -/
theorem sinSum_error {y : Rat} (hy : |(y : ℝ)| ≤ 4) (n : Nat) : |(sinSum n y : ℝ) - Real.sin y| ≤ 512 * (1 / 4) ^ n := by
  have h := abs_sum_sub_le (r := 1 / 4) 256 512 (by norm_num) (by norm_num) (by norm_num) (fun m => ?_) (Real.hasSum_sin y) n
  · rw [cast_sinSum]
    exact h
  · have := abs_pow_div_factorial_le hy (2 * m + 1)
    rw [mul_div_assoc, abs_mul, abs_pow, abs_neg, abs_one, one_pow, one_mul]
    refine this.trans (le_of_eq ?_)
    rw [pow_succ, pow_mul]; norm_num; ring

/-- `cos` of an angle about half a turn wide. -/
theorem cosSum_error {y : Rat} (hy : |(y : ℝ)| ≤ 4) (n : Nat) : |(cosSum n y : ℝ) - Real.cos y| ≤ 1024 * (1 / 4) ^ n := by
  have h := abs_sum_sub_le (r := 1 / 4) 512 1024 (by norm_num) (by norm_num) (by norm_num) (fun m => ?_) (Real.hasSum_cos y) n
  · rw [cast_cosSum]
    exact h
  · have := abs_pow_div_factorial_le hy (2 * m)
    rw [mul_div_assoc, abs_mul, abs_pow, abs_neg, abs_one, one_pow, one_mul]
    refine this.trans (le_of_eq ?_)
    rw [pow_mul]; norm_num

theorem expSum_error {y : Rat} (hy : |(y : ℝ)| ≤ 1) (n : Nat) : |(expSum n y : ℝ) - Real.exp y| ≤ 16 * (1 / 4) ^ n := by
  have hs : HasSum (fun m : ℕ => (y : ℝ) ^ m / m.factorial) (Real.exp y) := by
    rw [Real.exp_eq_exp_ℝ]
    exact NormedSpace.expSeries_div_hasSum_exp (y : ℝ)
  have h := abs_sum_sub_le (r := 1 / 4) 11 16 (by norm_num) (by norm_num) (by norm_num) (fun m => ?_) hs n
  · rw [cast_expSum]
    exact h
  · have hm : (0 : ℝ) < m.factorial := by exact_mod_cast m.factorial_pos
    have h4 : ((4 : ℝ)) ^ m ≤ 11 * m.factorial := by exact_mod_cast four_pow_le m
    rw [abs_div, abs_pow, abs_of_pos hm, div_le_iff₀ hm]
    calc |(y : ℝ)| ^ m ≤ 1 ^ m := pow_le_pow_left₀ (abs_nonneg _) hy m
      _ = 4 ^ m * (1 / 4) ^ m := by rw [← mul_pow]; norm_num
      _ ≤ 11 * m.factorial * (1 / 4) ^ m := by gcongr
      _ = 11 * (1 / 4) ^ m * m.factorial := by ring

/-- `-ln (1 - x)` for `x` up to one half. -/
theorem logSum_error {x : Rat} (h0 : 0 ≤ (x : ℝ)) (h1 : (x : ℝ) ≤ 1 / 2) (n : Nat) :
    |(logSum n x : ℝ) - -Real.log (1 - x)| ≤ (1 / 2) ^ n := by
  have h := abs_sum_sub_le (r := 1 / 2) (1 / 2) 1 (by norm_num) (by norm_num) (by norm_num) (fun m => ?_)
    (Real.hasSum_pow_div_log_of_abs_lt_one (x := x) (by rw [abs_of_nonneg h0]; linarith)) n
  · rw [cast_logSum]
    simpa using h
  · rw [abs_of_nonneg (by positivity)]
    calc (x : ℝ) ^ (m + 1) / (m + 1) ≤ (x : ℝ) ^ (m + 1) := div_le_self (by positivity) (by linarith [show (0 : ℝ) ≤ m by positivity])
      _ ≤ (1 / 2) ^ (m + 1) := by gcongr
      _ = 1 / 2 * (1 / 2) ^ m := by ring

theorem arctanSum_error {z : Rat} (h0 : 0 ≤ (z : ℝ)) (h1 : (z : ℝ) ≤ 1 / 5) (n : Nat) :
    |(arctanSum n z : ℝ) - Real.arctan z| ≤ 1 / 4 * (1 / 25) ^ n := by
  have h := abs_sum_sub_le (r := 1 / 25) (1 / 5) (1 / 4) (by norm_num) (by norm_num) (by norm_num) (fun m => ?_)
    (Real.hasSum_arctan (x := z) (by rw [Real.norm_eq_abs, abs_of_nonneg h0]; linarith)) n
  · rw [cast_arctanSum]
    exact h
  · rw [mul_div_assoc, abs_mul, abs_pow, abs_neg, abs_one, one_pow, one_mul, abs_of_nonneg (by positivity)]
    calc (z : ℝ) ^ (2 * m + 1) / (2 * m + 1 : Nat) ≤ (z : ℝ) ^ (2 * m + 1) :=
          div_le_self (by positivity) (by push_cast; linarith [show (0 : ℝ) ≤ m by positivity])
      _ ≤ (1 / 5) ^ (2 * m + 1) := by gcongr
      _ = 1 / 5 * (1 / 25) ^ m := by rw [pow_succ, pow_mul]; norm_num; ring

theorem cast_pow2 (e : Int) : (pow2 e : ℝ) = (2 : ℝ) ^ e := by rw [pow2_eq]; push_cast; rfl

theorem cast_pow2_neg (n : Nat) : (pow2 (-(n : Int)) : ℝ) = (1 / 2 : ℝ) ^ n := by
  rw [cast_pow2, zpow_neg, zpow_natCast, ← inv_pow, one_div]

/-- A rounding to `b` fractional bits is off by at most half the last one. -/
theorem roundToGrid_error (b : Nat) (q : Rat) : |(roundToGrid b q : ℝ) - q| ≤ 1 / 2 * (1 / 2) ^ b := by
  have h2 : (0 : Rat) < 2 ^ (b : Int) := by positivity
  have he := scaledHalfEven_error (n := q.num.natAbs) (b : Int) q.den_pos
  rw [← abs_eq_natAbs_div] at he
  have key : |roundToGrid b q - q| ≤ 1 / 2 * (2 ^ (b : Int))⁻¹ := by
    have hsign : roundToGrid b q - q =
        (if q < 0 then -1 else 1) * ((scaledHalfEven q.num.natAbs q.den b : Rat) - |q| * 2 ^ (b : Int)) * (2 ^ (b : Int))⁻¹ := by
      rw [roundToGrid, pow2_eq, zpow_neg]
      split_ifs with h
      · rw [abs_of_neg h]; field_simp; ring
      · rw [abs_of_nonneg (not_lt.mp h)]; field_simp
    rw [hsign, abs_mul, abs_mul, abs_of_pos (inv_pos.mpr h2)]
    have : |(if q < 0 then -1 else 1 : Rat)| = 1 := by split_ifs <;> simp
    rw [this, one_mul]
    gcongr
  calc |(roundToGrid b q : ℝ) - q| = ((|roundToGrid b q - q| : Rat) : ℝ) := by push_cast; rfl
    _ ≤ ((1 / 2 * (2 ^ (b : Int))⁻¹ : Rat) : ℝ) := by exact_mod_cast key
    _ = 1 / 2 * (1 / 2) ^ b := by push_cast; rw [zpow_natCast, ← inv_pow]; norm_num

theorem half_pow_le {m n : Nat} (h : m ≤ n) : (1 / 2 : ℝ) ^ n ≤ (1 / 2) ^ m := pow_le_pow_of_le_one (by norm_num) (by norm_num) h

/-- `π`. -/
theorem piApprox_error (w : Nat) : |(piApprox w : ℝ) - Real.pi| ≤ (1 / 2) ^ w := by
  set n := w / 4 + 4 with hn
  set s := 4 * (4 * arctanSum n (1 / 5) - arctanSum n (1 / 239)) with hs
  have h5 := arctanSum_error (z := 1 / 5) (by norm_num) (by norm_num) n
  have h239 := arctanSum_error (z := 1 / 239) (by norm_num) (by norm_num) n
  have hM := Real.four_mul_arctan_inv_5_sub_arctan_inv_239
  have hg := roundToGrid_error (w + 4) s
  have hp : (1 / 25 : ℝ) ^ n ≤ 1 / 64 * (1 / 2) ^ w := by
    calc (1 / 25 : ℝ) ^ n ≤ (1 / 16) ^ n := by gcongr; norm_num
      _ = (1 / 2) ^ (4 * n) := by rw [pow_mul]; norm_num
      _ ≤ (1 / 2) ^ (w + 6) := half_pow_le (by omega)
      _ = 1 / 64 * (1 / 2) ^ w := by rw [pow_add]; norm_num; ring
  rw [pow_add] at hg
  have hsr : (s : ℝ) = 4 * (4 * (arctanSum n (1 / 5) : ℝ) - arctanSum n (1 / 239)) := by rw [hs]; push_cast; rfl
  rw [show piApprox w = roundToGrid (w + 4) s from rfl]
  push_cast at h5 h239
  rw [← one_div, ← one_div] at hM
  rw [hsr] at hg
  have hw : (0 : ℝ) < (1 / 2) ^ w := by positivity
  grind [abs_le]

/-- `ln 2`, with a margin. -/
theorem ln2Approx_error (w : Nat) : |(ln2Approx w : ℝ) - Real.log 2| ≤ 3 / 8 * (1 / 2) ^ w := by
  have hl := logSum_error (x := 1 / 2) (by norm_num) (by norm_num) (w + 2)
  have hg := roundToGrid_error (w + 2) (logSum (w + 2) (1 / 2))
  have h2 : -Real.log (1 - ((1 / 2 : Rat) : ℝ)) = Real.log 2 := by
    rw [← Real.log_inv]; norm_num
  rw [h2] at hl
  rw [pow_add] at hl hg
  rw [show ln2Approx w = roundToGrid (w + 2) (logSum (w + 2) (1 / 2)) from rfl]
  grind [abs_le]

theorem leadingExponent_spec {b : Rat} (hb : 0 < b) :
    (2 : ℝ) ^ leadingExponent b ≤ b ∧ (b : ℝ) < 2 ^ (leadingExponent b + 1) := by
  have h := floorLog2_spec (natAbs_num_pos hb.ne') b.den_pos
  rw [← abs_eq_natAbs_div, abs_of_pos hb] at h
  have h1 := (Rat.cast_le (K := ℝ)).mpr h.1
  have h2 := (Rat.cast_lt (K := ℝ)).mpr h.2
  push_cast at h1 h2
  exact ⟨h1, h2⟩

/-- `ln b`. -/
theorem lnApprox_error (w : Nat) {b : Rat} (hb : 0 < b) : |(lnApprox w b : ℝ) - Real.log b| ≤ 1 / 2 * (1 / 2) ^ w := by
  obtain ⟨h1, h2⟩ := leadingExponent_spec hb
  set k := leadingExponent b with hk
  have hbr : (0 : ℝ) < b := by exact_mod_cast hb
  have hpk : (0 : ℝ) < 2 ^ k := by positivity
  have h2' : (b : ℝ) < 2 * 2 ^ k := by rwa [zpow_add_one₀ (by norm_num), mul_comm] at h2
  set m : Rat := b * pow2 (-k) with hm
  have hmr : (m : ℝ) = b / 2 ^ k := by rw [hm]; push_cast; rw [cast_pow2, zpow_neg]; rfl
  have hm1 : (1 : ℝ) ≤ m := by rw [hmr, le_div_iff₀ hpk]; linarith
  have hm2 : (m : ℝ) < 2 := by rw [hmr, div_lt_iff₀ hpk]; linarith
  have hx : ((1 - 1 / m : Rat) : ℝ) = 1 - 1 / m := by push_cast; rfl
  have hinv : (1 / 2 : ℝ) ≤ 1 / m ∧ 1 / (m : ℝ) ≤ 1 := by
    constructor
    · apply one_div_le_one_div_of_le <;> linarith
    · rw [div_le_one (by linarith)]; exact hm1
  have hl := logSum_error (x := 1 - 1 / m) (by rw [hx]; linarith) (by rw [hx]; linarith) (w + 2)
  have hlog : -Real.log (1 - ((1 - 1 / m : Rat) : ℝ)) = Real.log b - k * Real.log 2 := by
    rw [hx, sub_sub_cancel, one_div, Real.log_inv, neg_neg, hmr, Real.log_div hbr.ne' hpk.ne', Real.log_zpow]
  rw [hlog] at hl
  have h2a := ln2Approx_error (w + k.natAbs + 2)
  have hkm : |(k : ℝ)| * |(ln2Approx (w + k.natAbs + 2) : ℝ) - Real.log 2| ≤ 3 / 32 * (1 / 2) ^ w := by
    have hka : |(k : ℝ)| ≤ 2 ^ k.natAbs := by
      have : k.natAbs ≤ 2 ^ k.natAbs := Nat.lt_two_pow_self.le
      have h3 : |(k : ℝ)| = (k.natAbs : ℝ) := by rw [Nat.cast_natAbs]; push_cast; rfl
      rw [h3]; exact_mod_cast this
    calc |(k : ℝ)| * |(ln2Approx (w + k.natAbs + 2) : ℝ) - Real.log 2|
      _ ≤ 2 ^ k.natAbs * (3 / 8 * (1 / 2) ^ (w + k.natAbs + 2)) := by gcongr
      _ = 3 / 32 * (1 / 2) ^ w * (2 * (1 / 2)) ^ k.natAbs := by rw [pow_add, pow_add, mul_pow]; ring
      _ = 3 / 32 * (1 / 2) ^ w := by norm_num
  rw [← abs_mul, mul_sub] at hkm
  have heq : (lnApprox w b : ℝ) = k * ln2Approx (w + k.natAbs + 2) + logSum (w + 2) (1 - 1 / m) := by
    rw [lnApprox]; push_cast; rfl
  rw [heq]
  rw [pow_add] at hl
  have hw : (0 : ℝ) < (1 / 2) ^ w := by positivity
  grind [abs_le]

theorem abs_exp_sub_exp_le {a b : ℝ} (ha : a ≤ 1) (hb : b ≤ 1) : |Real.exp a - Real.exp b| ≤ 3 * |a - b| := by
  have key : ∀ {a b : ℝ}, a ≤ 1 → b ≤ a → |Real.exp a - Real.exp b| ≤ 3 * |a - b| := by
    intro a b ha hba
    have h3 : Real.exp a ≤ 3 := (Real.exp_le_exp.mpr ha).trans Real.exp_one_lt_three.le
    have h := Real.add_one_le_exp (b - a)
    have he : Real.exp b = Real.exp a * Real.exp (b - a) := by rw [← Real.exp_add]; congr 1; ring
    rw [abs_of_nonneg (sub_nonneg.mpr (Real.exp_le_exp.mpr hba)), abs_of_nonneg (sub_nonneg.mpr hba)]
    nlinarith [Real.exp_pos a]
  rcases le_total b a with h | h
  · exact key ha h
  · rw [abs_sub_comm, abs_sub_comm a]; exact key hb h

/-- The exponential scaled by a power of two. -/
theorem scaledExp_error {v : Nat} (hv : 1 ≤ v) {y : Rat} (hy : |(y : ℝ)| ≤ 3 / 4) (n : Int) :
    |(scaledExp v y n : ℝ) - Real.exp y * 2 ^ n| ≤ 2 * (1 / 2) ^ v * 2 ^ n := by
  have hg := roundToGrid_error v y
  have h1 : (1 / 2 : ℝ) ^ v ≤ 1 / 2 := by simpa using half_pow_le hv
  have hy' : |(roundToGrid v y : ℝ)| ≤ 1 := by grind [abs_le]
  have he := expSum_error hy' (v / 2 + 6)
  have hx := abs_exp_sub_exp_le (le_of_abs_le hy') (b := y) (by grind [abs_le])
  have hp : (1 / 4 : ℝ) ^ (v / 2 + 6) ≤ 1 / 1024 * (1 / 2) ^ v := by
    calc (1 / 4 : ℝ) ^ (v / 2 + 6) = (1 / 2) ^ (2 * (v / 2 + 6)) := by rw [pow_mul]; norm_num
      _ ≤ (1 / 2) ^ (v + 10) := half_pow_le (by omega)
      _ = 1 / 1024 * (1 / 2) ^ v := by rw [pow_add]; norm_num; ring
  have hn : (0 : ℝ) < 2 ^ n := by positivity
  rw [scaledExp]
  push_cast
  rw [cast_pow2, ← sub_mul, abs_mul, abs_of_pos hn]
  gcongr
  have hw : (0 : ℝ) < (1 / 2) ^ v := by positivity
  grind [abs_le]

theorem log_two_bounds : (0.69 : ℝ) < Real.log 2 ∧ Real.log 2 < 0.6932 := by
  have h1 := Real.log_two_gt_d9
  have h2 := Real.log_two_lt_d9
  constructor <;> linarith

/-- `2^x`. -/
theorem exp2Approx_error (w : Nat) (x : Rat) : |(exp2Approx w x : ℝ) - (2 : ℝ) ^ (x : ℝ)| ≤ 1 / 2 * (1 / 2) ^ w := by
  set n := x.floor with hn
  set v := w + n.toNat + 4 with hv
  have h0 : (n : Rat) ≤ x := Int.floor_le x
  have h1 : x < n + 1 := Int.lt_floor_add_one x
  set f : Rat := x - n with hf
  have f0 : (0 : ℝ) ≤ f := by rw [hf]; exact_mod_cast sub_nonneg.mpr h0
  have f1 : (f : ℝ) ≤ 1 := by
    have : f ≤ 1 := by rw [hf]; linarith
    exact_mod_cast this
  have hl := ln2Approx_error v
  have hvw : (1 / 2 : ℝ) ^ v ≤ 1 / 16 := by
    calc (1 / 2 : ℝ) ^ v ≤ (1 / 2) ^ 4 := half_pow_le (by omega)
      _ = 1 / 16 := by norm_num
  obtain ⟨hl1, hl2⟩ := log_two_bounds
  have hvp : (0 : ℝ) < (1 / 2) ^ v := by positivity
  set y : Rat := f * ln2Approx v with hy
  have hyr : (y : ℝ) = f * ln2Approx v := by rw [hy]; push_cast; rfl
  have hyd : |(y : ℝ) - f * Real.log 2| ≤ 3 / 8 * (1 / 2) ^ v := by
    rw [hyr, ← mul_sub, abs_mul, abs_of_nonneg f0]
    calc (f : ℝ) * |(ln2Approx v : ℝ) - Real.log 2| ≤ 1 * |(ln2Approx v : ℝ) - Real.log 2| := by gcongr
      _ ≤ 3 / 8 * (1 / 2) ^ v := by rw [one_mul]; exact hl
  have hfl : 0 ≤ (f : ℝ) * Real.log 2 ∧ (f : ℝ) * Real.log 2 ≤ 0.6932 := by constructor <;> nlinarith
  have hya : |(y : ℝ)| ≤ 3 / 4 := by
    rw [abs_le] at hyd ⊢
    constructor <;> linarith
  have hs := scaledExp_error (v := v) (by omega) hya n
  have hx := abs_exp_sub_exp_le (a := y) (b := f * Real.log 2) (by linarith [le_of_abs_le hya]) (by linarith)
  have hexp : (2 : ℝ) ^ (x : ℝ) = Real.exp (f * Real.log 2) * 2 ^ n := by
    rw [show (x : ℝ) = (f : ℝ) + (n : ℤ) by rw [hf]; push_cast; ring, Real.rpow_add_intCast (by norm_num),
      Real.rpow_def_of_pos (by norm_num), mul_comm (Real.log 2)]
  have hpn : (0 : ℝ) < 2 ^ n := by positivity
  have hpow : (1 / 2 : ℝ) ^ v * 2 ^ n ≤ 1 / 16 * (1 / 2) ^ w := by
    have : (2 : ℝ) ^ n ≤ 2 ^ n.toNat := by
      rw [← zpow_natCast]; exact zpow_le_zpow_right₀ (by norm_num) (by omega)
    calc (1 / 2 : ℝ) ^ v * 2 ^ n ≤ (1 / 2) ^ v * 2 ^ n.toNat := by gcongr
      _ = 1 / 16 * (1 / 2) ^ w * (1 / 2 * 2) ^ n.toNat := by rw [hv, pow_add, pow_add, mul_pow]; ring
      _ = 1 / 16 * (1 / 2) ^ w := by norm_num
  rw [show exp2Approx w x = scaledExp v y n from rfl, hexp]
  have htri : |(scaledExp v y n : ℝ) - Real.exp (f * Real.log 2) * 2 ^ n|
      ≤ |(scaledExp v y n : ℝ) - Real.exp y * 2 ^ n| + |Real.exp y - Real.exp (f * Real.log 2)| * 2 ^ n := by
    rw [← abs_of_pos hpn, ← abs_mul, abs_of_pos hpn, sub_mul]
    exact abs_sub_le _ _ _
  have hxn : |Real.exp y - Real.exp (f * Real.log 2)| * 2 ^ n ≤ 9 / 8 * (1 / 2) ^ v * 2 ^ n := by
    gcongr; linarith
  rw [mul_assoc] at hs hxn
  have hw : (0 : ℝ) < (1 / 2) ^ w := by positivity
  linarith

theorem isqrtDigits_spec : ∀ (fuel n : Nat), n < 4 ^ fuel → isqrtDigits fuel n ^ 2 ≤ n ∧ n < (isqrtDigits fuel n + 1) ^ 2
  | 0, n, h => by simp at h; subst h; simp [isqrtDigits]
  | fuel + 1, n, h => by
    have ih := isqrtDigits_spec fuel (n / 4) (by rw [pow_succ] at h; omega)
    rw [isqrtDigits]
    generalize isqrtDigits fuel (n / 4) = r at ih ⊢
    have h4 := Nat.div_add_mod n 4
    have h5 := Nat.mod_lt n (show 4 > 0 by decide)
    obtain ⟨i1, i2⟩ := ih
    generalize n / 4 = m at i1 i2 h4
    generalize n % 4 = t at h4 h5
    split_ifs with hc
    · exact ⟨by nlinarith, by nlinarith⟩
    · exact ⟨by nlinarith, by nlinarith⟩

theorem isqrt_spec (n : Nat) : isqrt n ^ 2 ≤ n ∧ n < (isqrt n + 1) ^ 2 := by
  refine isqrtDigits_spec _ n ?_
  calc n < 2 ^ (n.log2 + 1) := Nat.lt_log2_self
    _ ≤ 4 ^ (n.log2 + 1) := Nat.pow_le_pow_left (by decide) _

/-- The square root of a count. -/
theorem sqrtApprox_error (w n : Nat) : |(sqrtApprox w n : ℝ) - √n| ≤ (1 / 2) ^ w := by
  obtain ⟨h1, h2⟩ := isqrt_spec (n * 4 ^ w)
  set s := isqrt (n * 4 ^ w) with hs
  have hw : (0 : ℝ) < 2 ^ w := by positivity
  have h4 : (4 : ℝ) ^ w = (2 ^ w) ^ 2 := by rw [← pow_mul, mul_comm, pow_mul]; norm_num
  have h1' : (s : ℝ) ^ 2 ≤ n * (2 ^ w) ^ 2 := by rw [← h4]; exact_mod_cast h1
  have h2' : (n : ℝ) * (2 ^ w) ^ 2 < (s + 1) ^ 2 := by rw [← h4]; exact_mod_cast h2
  have hval : (sqrtApprox w n : ℝ) = s / 2 ^ w := by rw [sqrtApprox]; push_cast; rfl
  have hlo : (s : ℝ) / 2 ^ w ≤ √n := by
    apply Real.le_sqrt_of_sq_le
    rw [div_pow, div_le_iff₀ (by positivity)]; exact h1'
  have hhi : √n ≤ (s + 1) / 2 ^ w := by
    apply Real.sqrt_le_iff.mpr
    refine ⟨by positivity, ?_⟩
    rw [div_pow, le_div_iff₀ (by positivity)]; exact h2'.le
  rw [hval, abs_sub_comm, abs_of_nonneg (sub_nonneg.mpr hlo)]
  rw [add_div] at hhi
  rw [one_div, inv_pow, ← one_div]
  linarith

theorem abs_sub_roundHalfAway (x : Rat) : |x - roundHalfAway x| ≤ 1 / 2 := by
  unfold roundHalfAway
  rw [abs_le]
  split_ifs with h
  · have h1 : ((x + 1 / 2).floor : Rat) ≤ x + 1 / 2 := Int.floor_le _
    have h2 : x + 1 / 2 < ((x + 1 / 2).floor : Rat) + 1 := Int.lt_floor_add_one _
    constructor <;> linarith
  · have h1 : ((-x + 1 / 2).floor : Rat) ≤ -x + 1 / 2 := Int.floor_le _
    have h2 : -x + 1 / 2 < ((-x + 1 / 2).floor : Rat) + 1 := Int.lt_floor_add_one _
    push_cast
    constructor <;> linarith

theorem abs_roundHalfAway_le (x : Rat) : |(roundHalfAway x : Rat)| ≤ 2 * |x| := by
  have h := abs_sub_roundHalfAway x
  rcases eq_or_ne (roundHalfAway x) 0 with h0 | h0
  · rw [h0]; simp
  · have h1 : (1 : Rat) ≤ |(roundHalfAway x : Rat)| := by exact_mod_cast Int.one_le_abs h0
    have := abs_sub_abs_le_abs_sub (roundHalfAway x : Rat) x
    rw [abs_sub_comm] at this
    linarith

theorem pi_bounds : (3.14 : ℝ) < Real.pi ∧ Real.pi < 3.15 := ⟨Real.pi_gt_d2, Real.pi_lt_d2⟩

/-- The reduced angle of a number of turns. -/
theorem turnAngle_error (w : Nat) (t : Rat) :
    |(turnAngle w t : ℝ) - 2 * Real.pi * (t - roundHalfAway t)| ≤ 1 / 8 * (1 / 2) ^ w ∧ |(turnAngle w t : ℝ)| ≤ 4 := by
  set d : Rat := t - roundHalfAway t with hd
  have hdr : |(d : ℝ)| ≤ 1 / 2 := by
    have := (Rat.cast_le (K := ℝ)).mpr (abs_sub_roundHalfAway t)
    rw [← hd] at this; push_cast at this; exact this
  have hp := piApprox_error (w + 4)
  have hg := roundToGrid_error (w + 4) (2 * piApprox (w + 4) * d)
  have hm : |2 * (piApprox (w + 4) : ℝ) * d - 2 * Real.pi * d| ≤ (1 / 2) ^ (w + 4) := by
    rw [show 2 * (piApprox (w + 4) : ℝ) * d - 2 * Real.pi * d = 2 * d * (piApprox (w + 4) - Real.pi) by ring, abs_mul, abs_mul]
    have : |(2 : ℝ)| = 2 := by norm_num
    rw [this]
    nlinarith [abs_nonneg ((piApprox (w + 4) : ℝ) - Real.pi)]
  have hw1 : (1 / 2 : ℝ) ^ w ≤ 1 := pow_le_one₀ (by norm_num) (by norm_num)
  have hw0 : (0 : ℝ) < (1 / 2) ^ w := by positivity
  have hpi : |2 * Real.pi * d| ≤ 3.15 := by
    rw [abs_mul, abs_of_pos (by positivity)]
    nlinarith [pi_bounds.1, pi_bounds.2, abs_nonneg (d : ℝ)]
  have hc : ((2 * piApprox (w + 4) * d : Rat) : ℝ) = 2 * (piApprox (w + 4) : ℝ) * d := by push_cast; rfl
  rw [hc] at hg
  rw [pow_add] at hg hm
  have hdd : (t : ℝ) - (roundHalfAway t : ℤ) = d := by rw [hd]; push_cast; rfl
  rw [hdd]
  rw [show turnAngle w t = roundToGrid (w + 4) (2 * piApprox (w + 4) * d) from rfl]
  constructor <;> grind [abs_le]

/-- The reduced angle of a number of radians. -/
theorem radianAngle_error (w : Nat) (x : Rat) :
    ∃ k : ℤ, |(radianAngle w x : ℝ) - (x - k * (2 * Real.pi))| ≤ 1 / 8 * (1 / 2) ^ w ∧ |(radianAngle w x : ℝ)| ≤ 4 := by
  set L := x.num.natAbs.log2 with hL
  set p : Rat := 2 * piApprox (w + L + 6) with hp
  set k := roundHalfAway (x / p) with hk
  have hpe := piApprox_error (w + L + 6)
  have hw1 : (1 / 2 : ℝ) ^ w ≤ 1 := pow_le_one₀ (by norm_num) (by norm_num)
  have hw0 : (0 : ℝ) < (1 / 2) ^ w := by positivity
  have hLp : (1 / 2 : ℝ) ^ (w + L + 6) ≤ 1 / 64 := by
    calc (1 / 2 : ℝ) ^ (w + L + 6) ≤ (1 / 2) ^ 6 := half_pow_le (by omega)
      _ = 1 / 64 := by norm_num
  have hpr : (p : ℝ) = 2 * piApprox (w + L + 6) := by rw [hp]; push_cast; rfl
  have hp6 : (6 : ℝ) ≤ p ∧ (p : ℝ) ≤ 6.5 := by
    have := abs_le.mp hpe
    have h1 := pi_bounds
    constructor <;> linarith
  have hp6q : (6 : Rat) ≤ p := by exact_mod_cast hp6.1
  have hpd : |(p : ℝ) - 2 * Real.pi| ≤ 2 * (1 / 2) ^ (w + L + 6) := by
    rw [hpr, ← mul_sub, abs_mul, abs_of_pos (by norm_num : (0 : ℝ) < 2)]; linarith
  have hkx : |(k : Rat)| ≤ 2 ^ (L + 1) / 3 := by
    have h1 := abs_roundHalfAway_le (x / p)
    rw [abs_div, abs_of_pos (by linarith : (0 : Rat) < p)] at h1
    have h2 : |x| ≤ 2 ^ (L + 1) := by
      rw [abs_eq_natAbs_div]
      have hd : (1 : Rat) ≤ x.den := by exact_mod_cast x.den_pos
      refine (div_le_self (by positivity) hd).trans ?_
      have := Nat.lt_log2_self (n := x.num.natAbs)
      exact_mod_cast this.le
    have h3 : |x| / p ≤ 2 ^ (L + 1) / 6 := by gcongr
    linarith
  have hkr : |(k : ℝ)| ≤ 2 ^ (L + 1) / 3 := by
    have := (Rat.cast_le (K := ℝ)).mpr hkx
    push_cast at this; exact this
  have hkp : |(k : ℝ) * p - k * (2 * Real.pi)| ≤ 1 / 24 * (1 / 2) ^ w := by
    rw [← mul_sub, abs_mul]
    calc |(k : ℝ)| * |(p : ℝ) - 2 * Real.pi| ≤ 2 ^ (L + 1) / 3 * (2 * (1 / 2) ^ (w + L + 6)) := by gcongr
      _ = 1 / 48 * (1 / 2) ^ w * (2 * (1 / 2)) ^ L := by rw [pow_add, pow_add, pow_add, mul_pow]; ring
      _ ≤ 1 / 24 * (1 / 2) ^ w := by norm_num
  have hg := roundToGrid_error (w + 4) (x - k * p)
  have hc : ((x - k * p : Rat) : ℝ) = x - k * p := by push_cast; rfl
  rw [hc, pow_add] at hg
  have hred : |(x : ℝ) - k * p| ≤ 3.25 := by
    have h1 := abs_sub_roundHalfAway (x / p)
    rw [← hk] at h1
    have h2 : (x : ℝ) - k * p = (x / p - k) * p := by rw [sub_mul, div_mul_cancel₀]; linarith
    have h3 : |(x / p : ℝ) - k| ≤ 1 / 2 := by
      have := (Rat.cast_le (K := ℝ)).mpr h1
      push_cast at this; exact this
    rw [h2, abs_mul, abs_of_pos (by linarith : (0 : ℝ) < p)]
    nlinarith [abs_nonneg ((x / p : ℝ) - k)]
  refine ⟨k, ?_⟩
  rw [show radianAngle w x = roundToGrid (w + 4) (x - k * p) from rfl]
  constructor <;> grind [abs_le]

theorem floor_toNat_le {e : Rat} (he : 0 ≤ e) : (e : ℝ) < (e.floor.toNat : ℝ) + 1 := by
  have h1 : e < (e.floor : Rat) + 1 := Int.lt_floor_add_one e
  have h0 : 0 ≤ e.floor := Int.floor_nonneg.mpr he
  have h2 : ((e.floor.toNat : Int) : Rat) = e.floor := by rw [Int.toNat_of_nonneg h0]
  have h3 := (Rat.cast_lt (K := ℝ)).mpr (h2 ▸ h1)
  push_cast at h3; exact h3

/-- The exponent of the leading bit of a power, bounded by the operands. -/
theorem exponent_bound {e F K M l y lb : ℝ} (hK : 0 ≤ K) (hF : 0 ≤ F) (he : 0 ≤ e) (hE : e < F + 1)
    (hM : M = (F + 1) * (K + 2)) (hlb : -(K * 0.6932) ≤ lb) (hy : -(1 : ℝ) / 128 ≤ y - e * lb) (hl : 0.68 ≤ l) :
    -(2 * M - 1) * l ≤ y := by
  have h1 : -((F + 1) * (K * 0.6932)) ≤ e * lb := by
    have h2 : e * -(K * 0.6932) ≤ e * lb := mul_le_mul_of_nonneg_left hlb he
    have h3 : e * (K * 0.6932) ≤ (F + 1) * (K * 0.6932) := mul_le_mul_of_nonneg_right hE.le (by positivity)
    linarith
  have hP : 0 ≤ (F + 1) * K := by positivity
  have hM' : M = (F + 1) * K + 2 * (F + 1) := by rw [hM]; ring
  have h4 : (2 * M - 1) * 0.68 ≤ (2 * M - 1) * l := mul_le_mul_of_nonneg_left hl (by linarith)
  have h5 : (F + 1) * (K * 0.6932) = 0.6932 * ((F + 1) * K) := by ring
  rw [h5] at h1
  generalize (F + 1) * K = P at *
  linarith

/-- `b^e`. -/
theorem powApprox_error (w : Nat) {b e : Rat} (hb0 : 0 < b) (hb1 : b ≤ 1) (he : 0 ≤ e) :
    |(powApprox w b e : ℝ) - (b : ℝ) ^ (e : ℝ)| ≤ 1 / 4 * (1 / 2) ^ w := by
  obtain ⟨hk1, hk2⟩ := leadingExponent_spec hb0
  set k := leadingExponent b with hk
  set M := (e.floor.toNat + 1) * (k.natAbs + 2) with hM
  set v := w + M.log2 + 8 with hv
  set l := ln2Approx v with hl
  set L := lnApprox v b with hL
  set y := e * L with hy
  set n := (y / l).floor with hn
  have her : (0 : ℝ) ≤ e := by exact_mod_cast he
  have hbr0 : (0 : ℝ) < b := by exact_mod_cast hb0
  have hbr1 : (b : ℝ) ≤ 1 := by exact_mod_cast hb1
  have hE := floor_toNat_le he
  have hvp : (0 : ℝ) < (1 / 2) ^ v := by positivity
  have hwp : (0 : ℝ) < (1 / 2) ^ w := by positivity
  have hvs : (1 / 2 : ℝ) ^ v ≤ 1 / 256 := by
    calc (1 / 2 : ℝ) ^ v ≤ (1 / 2) ^ 8 := half_pow_le (by omega)
      _ = 1 / 256 := by norm_num
  have hvw : (1 / 2 : ℝ) ^ v ≤ 1 / 256 * (1 / 2) ^ w := by
    calc (1 / 2 : ℝ) ^ v ≤ (1 / 2) ^ (w + 8) := half_pow_le (by omega)
      _ = 1 / 256 * (1 / 2) ^ w := by rw [pow_add]; norm_num; ring
  have hMv : (M : ℝ) * (1 / 2) ^ v ≤ 1 / 128 * (1 / 2) ^ w := by
    have h := Nat.lt_log2_self (n := M)
    have h' : (M : ℝ) ≤ 2 ^ (M.log2 + 1) := by exact_mod_cast h.le
    calc (M : ℝ) * (1 / 2) ^ v ≤ 2 ^ (M.log2 + 1) * (1 / 2) ^ v := by gcongr
      _ = 1 / 128 * (1 / 2) ^ w * (2 * (1 / 2)) ^ M.log2 := by rw [hv, pow_add, pow_add, pow_add, mul_pow]; ring
      _ = 1 / 128 * (1 / 2) ^ w := by norm_num
  have hMr : (M : ℝ) = ((e.floor.toNat : ℝ) + 1) * ((k.natAbs : ℝ) + 2) := by rw [hM]; push_cast; rfl
  obtain ⟨hl1, hl2⟩ := log_two_bounds
  have hle := ln2Approx_error v
  rw [← hl] at hle
  have hl0 : 0.68 ≤ (l : ℝ) ∧ (l : ℝ) ≤ 3 / 4 := by
    have := abs_le.mp hle
    constructor <;> linarith
  have hlq : 0 < l := by
    have : (0 : ℝ) < l := by linarith
    exact_mod_cast this
  have hLe := lnApprox_error v hb0
  rw [← hL] at hLe
  have hlog0 : Real.log b ≤ 0 := Real.log_nonpos hbr0.le hbr1
  have hlogk : -((k.natAbs : ℝ) * Real.log 2) ≤ Real.log b := by
    have h1 := Real.log_le_log (by positivity) hk1
    rw [Real.log_zpow] at h1
    have h2 : -(k.natAbs : ℝ) ≤ k := by
      have : -(k.natAbs : ℤ) ≤ k := by omega
      exact_mod_cast this
    have h3 := mul_le_mul_of_nonneg_right h2 (show (0 : ℝ) ≤ Real.log 2 by linarith)
    linarith
  have hyr : (y : ℝ) = e * L := by rw [hy]; push_cast; rfl
  set K : ℝ := ((k.natAbs : ℕ) : ℝ) with hK
  set F : ℝ := ((e.floor.toNat : ℕ) : ℝ) with hF
  have hK0 : 0 ≤ K := by positivity
  have hF0 : 0 ≤ F := by positivity
  have heM : (e : ℝ) ≤ M / 2 := by
    have h1 := mul_nonneg (show 0 ≤ F + 1 by linarith) hK0
    have h2 : (M : ℝ) = (F + 1) * K + 2 * (F + 1) := by rw [hMr]; ring
    linarith
  have hyd : |(y : ℝ) - e * Real.log b| ≤ 1 / 4 * (M * (1 / 2) ^ v) := by
    rw [hyr, ← mul_sub, abs_mul, abs_of_nonneg her]
    calc (e : ℝ) * |(L : ℝ) - Real.log b| ≤ M / 2 * (1 / 2 * (1 / 2) ^ v) := by gcongr
      _ = 1 / 4 * (M * (1 / 2) ^ v) := by ring
  have hw1 : (1 / 2 : ℝ) ^ w ≤ 1 := pow_le_one₀ (by norm_num) (by norm_num)
  have hnl : (n : Rat) * l ≤ y := by
    have := Int.floor_le (y / l)
    rw [le_div_iff₀ hlq] at this; exact this
  have hnu : y < ((n : Rat) + 1) * l := by
    have := Int.lt_floor_add_one (y / l)
    rw [div_lt_iff₀ hlq] at this; exact this
  have hnlr : (n : ℝ) * l ≤ y := by exact_mod_cast hnl
  have hnur : (y : ℝ) < ((n : ℝ) + 1) * l := by exact_mod_cast hnu
  have helog : (e : ℝ) * Real.log b ≤ 0 := mul_nonpos_of_nonneg_of_nonpos her hlog0
  have hydd := abs_le.mp hyd
  have hn0 : n ≤ 0 := by
    by_contra hc
    have h1 : (1 : ℝ) ≤ n := by exact_mod_cast (show (1 : ℤ) ≤ n by omega)
    have h2 := le_mul_of_one_le_left (show (0 : ℝ) ≤ l by linarith) h1
    linarith
  have hnr0 : (n : ℝ) ≤ 0 := by exact_mod_cast hn0
  have hyl : -(2 * (M : ℝ) - 1) * l ≤ y := by
    refine exponent_bound (lb := Real.log b) hK0 hF0 her hE hMr ?_ ?_ hl0.1
    · have := mul_le_mul_of_nonneg_left hl2.le hK0
      linarith
    · linarith
  have hnM : -(2 * (M : ℝ)) ≤ n := by
    have : (-(2 * (M : ℝ) - 1)) < (n : ℝ) + 1 := lt_of_mul_lt_mul_right (by linarith) (by linarith : (0 : ℝ) ≤ l)
    linarith
  set r : Rat := y - n * l with hr
  have hrr : (r : ℝ) = y - n * l := by rw [hr]; push_cast; rfl
  have hra : |(r : ℝ)| ≤ 3 / 4 := by rw [hrr, abs_le]; constructor <;> linarith
  have hs := scaledExp_error (v := v) (by omega) hra n
  have hpn : (0 : ℝ) < 2 ^ n := by positivity
  have hpn1 : (2 : ℝ) ^ n ≤ 1 := zpow_le_one_of_nonpos₀ (by norm_num) hn0
  have hexp : Real.exp r * 2 ^ n = Real.exp (r + n * Real.log 2) := by
    rw [Real.exp_add, mul_comm (n : ℝ), Real.exp_mul, Real.exp_log (by norm_num), Real.rpow_intCast]
  have hpow : (b : ℝ) ^ (e : ℝ) = Real.exp (e * Real.log b) := by
    rw [Real.rpow_def_of_pos hbr0, mul_comm]
  have hd : |(r : ℝ) + n * Real.log 2 - e * Real.log b| ≤ M * (1 / 2) ^ v := by
    have h1 : (r : ℝ) + n * Real.log 2 - e * Real.log b = (y - e * Real.log b) + n * (Real.log 2 - l) := by rw [hrr]; ring
    have h2 : |(n : ℝ) * (Real.log 2 - l)| ≤ 3 / 4 * (M * (1 / 2) ^ v) := by
      rw [abs_mul, abs_of_nonpos hnr0, abs_sub_comm]
      calc -(n : ℝ) * |(l : ℝ) - Real.log 2| ≤ (2 * M) * (3 / 8 * (1 / 2) ^ v) := by gcongr; linarith
        _ = 3 / 4 * (M * (1 / 2) ^ v) := by ring
    rw [h1]
    exact (abs_add_le _ _).trans (by linarith)
  have hd' := abs_le.mp hd
  have hx := abs_exp_sub_exp_le (a := r + n * Real.log 2) (b := e * Real.log b) (by linarith) (by linarith)
  rw [show powApprox w b e = scaledExp v r n from rfl, hpow]
  rw [hexp] at hs
  have hs' : 2 * (1 / 2) ^ v * (2 : ℝ) ^ n ≤ 2 * (1 / 2) ^ v := mul_le_of_le_one_right (by positivity) hpn1
  refine (abs_sub_le _ (Real.exp (r + n * Real.log 2)) _).trans ?_
  linarith

end Sys2Proof.Machine

namespace Sys2Proof

open Machine

/-- An irrational result, before the rounding of binary32, is within `2^(-bits)` of the real value that the partial sums
come near to. -/
theorem Arith.irrational_error (a : Arith) {f : Nat → Rat} {z : ℝ} (h : ∀ w, |(f w : ℝ) - z| ≤ (1 / 2) ^ w) :
    ∃ q : Rat, a.irrational f = a.rnd q ∧ |(q : ℝ) - z| ≤ (1 / 2) ^ a.bits := by
  cases a with
  | binary32 => exact ⟨_, rfl, h _⟩
  | reals bits =>
    refine ⟨_, rfl, ?_⟩
    have h1 := roundToGrid_error bits (f (bits + 8))
    have h2 := h (bits + 8)
    rw [pow_add] at h2
    have h0 : (0 : ℝ) < (1 / 2) ^ bits := by positivity
    refine (abs_sub_le _ (f (bits + 8) : ℝ) _).trans ?_
    change _ ≤ (1 / 2 : ℝ) ^ bits
    linarith

/-- `2^x` (R401, R626). -/
theorem Arith.exp2_error (a : Arith) (x : Rat) :
    ∃ q : Rat, a.exp2 (.fin x) = a.rnd q ∧ |(q : ℝ) - (2 : ℝ) ^ (x : ℝ)| ≤ (1 / 2) ^ a.bits := by
  simp only [Arith.exp2]
  exact a.irrational_error fun w => (exp2Approx_error w x).trans (by linarith [show (0 : ℝ) < (1 / 2) ^ w by positivity])

/-- `√n` (R902). -/
theorem Arith.sqrt_error (a : Arith) (n : Nat) :
    ∃ q : Rat, a.sqrt n = a.rnd q ∧ |(q : ℝ) - √n| ≤ (1 / 2) ^ a.bits := by
  simp only [Arith.sqrt]
  exact a.irrational_error fun w => sqrtApprox_error w n

theorem sinSum_of_angle {w : Nat} {t : Rat} {z : ℝ} (h : |(t : ℝ) - z| ≤ 1 / 8 * (1 / 2) ^ w) (ht : |(t : ℝ)| ≤ 4) :
    |(sinSum (w / 2 + 10) t : ℝ) - Real.sin z| ≤ (1 / 2) ^ w := by
  have h1 := sinSum_error ht (w / 2 + 10)
  have h2 := Real.abs_sin_sub_sin_le t z
  have hp : (1 / 4 : ℝ) ^ (w / 2 + 10) ≤ 1 / 2048 * (1 / 2) ^ w := by
    calc (1 / 4 : ℝ) ^ (w / 2 + 10) = (1 / 2) ^ (2 * (w / 2 + 10)) := by rw [pow_mul]; norm_num
      _ ≤ (1 / 2) ^ (w + 11) := half_pow_le (by omega)
      _ = 1 / 2048 * (1 / 2) ^ w := by rw [pow_add]; norm_num; ring
  have h0 : (0 : ℝ) < (1 / 2) ^ w := by positivity
  exact (abs_sub_le _ (Real.sin t) _).trans (by linarith)

theorem cosSum_of_angle {w : Nat} {t : Rat} {z : ℝ} (h : |(t : ℝ) - z| ≤ 1 / 8 * (1 / 2) ^ w) (ht : |(t : ℝ)| ≤ 4) :
    |(cosSum (w / 2 + 10) t : ℝ) - Real.cos z| ≤ (1 / 2) ^ w := by
  have h1 := cosSum_error ht (w / 2 + 10)
  have h2 := Real.abs_cos_sub_cos_le t z
  have hp : (1 / 4 : ℝ) ^ (w / 2 + 10) ≤ 1 / 2048 * (1 / 2) ^ w := by
    calc (1 / 4 : ℝ) ^ (w / 2 + 10) = (1 / 2) ^ (2 * (w / 2 + 10)) := by rw [pow_mul]; norm_num
      _ ≤ (1 / 2) ^ (w + 11) := half_pow_le (by omega)
      _ = 1 / 2048 * (1 / 2) ^ w := by rw [pow_add]; norm_num; ring
  have h0 : (0 : ℝ) < (1 / 2) ^ w := by positivity
  exact (abs_sub_le _ (Real.cos t) _).trans (by linarith)

theorem turn_period (x : Rat) : (2 * Real.pi * (x - roundHalfAway x) : ℝ) = 2 * Real.pi * x - roundHalfAway x * (2 * Real.pi) := by
  ring

/-- In the reals an angle is a number of turns. -/
theorem Arith.sin_reals_error (n : Nat) (x : Rat) :
    ∃ q : Rat, (Arith.reals n).sin (.fin x) = .fin q ∧ |(q : ℝ) - Real.sin (2 * Real.pi * x)| ≤ (1 / 2) ^ n := by
  simp only [Arith.sin, Arith.angle]
  refine Arith.irrational_error (Arith.reals n) fun w => ?_
  obtain ⟨h, ht⟩ := turnAngle_error w x
  rw [turn_period] at h
  rw [← Real.sin_sub_int_mul_two_pi _ (roundHalfAway x)]
  exact sinSum_of_angle h ht

theorem Arith.cos_reals_error (n : Nat) (x : Rat) :
    ∃ q : Rat, (Arith.reals n).cos (.fin x) = .fin q ∧ |(q : ℝ) - Real.cos (2 * Real.pi * x)| ≤ (1 / 2) ^ n := by
  simp only [Arith.cos, Arith.angle]
  refine Arith.irrational_error (Arith.reals n) fun w => ?_
  obtain ⟨h, ht⟩ := turnAngle_error w x
  rw [turn_period] at h
  rw [← Real.cos_sub_int_mul_two_pi _ (roundHalfAway x)]
  exact cosSum_of_angle h ht

/-- In binary32 an angle is a number of radians. -/
theorem Arith.sin_binary32_error (x : Rat) :
    ∃ q : Rat, Arith.binary32.sin (.fin x) = roundBinary32 q ∧ |(q : ℝ) - Real.sin x| ≤ (1 / 2) ^ Arith.binary32.bits := by
  simp only [Arith.sin, Arith.angle]
  refine Arith.irrational_error Arith.binary32 fun w => ?_
  obtain ⟨k, h, ht⟩ := radianAngle_error w x
  rw [← Real.sin_sub_int_mul_two_pi _ k]
  exact sinSum_of_angle h ht

theorem Arith.cos_binary32_error (x : Rat) :
    ∃ q : Rat, Arith.binary32.cos (.fin x) = roundBinary32 q ∧ |(q : ℝ) - Real.cos x| ≤ (1 / 2) ^ Arith.binary32.bits := by
  simp only [Arith.cos, Arith.angle]
  refine Arith.irrational_error Arith.binary32 fun w => ?_
  obtain ⟨k, h, ht⟩ := radianAngle_error w x
  rw [← Real.cos_sub_int_mul_two_pi _ k]
  exact cosSum_of_angle h ht

/-- The rounded constant `2π` of binary32. -/
theorem Arith.twoPi_error (x : RealNum) :
    ∃ q : Rat, Arith.binary32.twoPi x = Arith.binary32.mul (roundBinary32 q) x ∧ |(q : ℝ) - 2 * Real.pi| ≤ (1 / 2) ^ Arith.binary32.bits := by
  refine ⟨_, rfl, ?_⟩
  generalize Arith.binary32.bits = n
  have h := piApprox_error (n + 1)
  rw [pow_succ] at h
  push_cast
  rw [← mul_sub, abs_mul, abs_of_pos (by norm_num : (0 : ℝ) < 2)]
  linarith

theorem realPower_error (bits : Nat) {b e : Rat} (hb0 : 0 < b) (hb1 : b < 1) (he : 0 < e) :
    |(realPower bits b e : ℝ) - (b : ℝ) ^ (e : ℝ)| ≤ (1 / 2) ^ bits := by
  set g := bits + (-leadingExponent e).toNat + 1 with hg
  set p := roundToGrid g (powApprox (g + 8) b e) with hp
  have h1 := powApprox_error (g + 8) hb0 hb1.le he.le
  have h2 := roundToGrid_error g (powApprox (g + 8) b e)
  rw [← hp] at h2
  rw [pow_add] at h1
  have hgp : (0 : ℝ) < (1 / 2) ^ g := by positivity
  have hgb : (1 / 2 : ℝ) ^ g ≤ (1 / 2) ^ bits := half_pow_le (by omega)
  have hpz : |(p : ℝ) - (b : ℝ) ^ (e : ℝ)| ≤ (1 / 2) ^ g := by
    refine (abs_sub_le _ (powApprox (g + 8) b e : ℝ) _).trans ?_
    linarith
  have hz0 : (0 : ℝ) < (b : ℝ) ^ (e : ℝ) := Real.rpow_pos_of_pos (by exact_mod_cast hb0) _
  have hz1 : (b : ℝ) ^ (e : ℝ) < 1 := Real.rpow_lt_one (by exact_mod_cast hb0.le) (by exact_mod_cast hb1) (by exact_mod_cast he)
  refine le_trans ?_ hgb
  have hlo := cast_pow2_neg g
  have hval : realPower bits b e = clamp p (pow2 (-(g : Int))) (1 - pow2 (-(g : Int))) := rfl
  rw [hval, clamp]
  rw [abs_le] at hpz ⊢
  split_ifs with ha hb
  · have ha' := (Rat.cast_lt (K := ℝ)).mpr ha
    rw [hlo] at ha' ⊢
    constructor <;> linarith
  · have hb' := (Rat.cast_lt (K := ℝ)).mpr hb
    push_cast at hb' ⊢
    rw [hlo] at hb' ⊢
    constructor <;> linarith
  · exact hpz

theorem Arith.rnd_zero (a : Arith) : a.rnd 0 = .fin 0 := by
  rw [(a.rnd_unit le_rfl zero_le_one).1, a.near_zero]

theorem Arith.rnd_one (a : Arith) : a.rnd 1 = .fin 1 := by
  obtain ⟨h, -, h1⟩ := a.rnd_unit zero_le_one le_rfl
  rw [h, le_antisymm h1 (by simpa using a.le_near (k := 0) (x := 1) (by decide) (by norm_num))]

/-- `b^e` (R510). -/
theorem Arith.power_error (a : Arith) {b e : Rat} (hb0 : 0 ≤ b) (hb1 : b ≤ 1) (he : 0 ≤ e) :
    ∃ q : Rat, a.power b e = a.rnd q ∧ |(q : ℝ) - (b : ℝ) ^ (e : ℝ)| ≤ (1 / 2) ^ a.bits := by
  have h0 : (0 : ℝ) < (1 / 2) ^ a.bits := by positivity
  unfold Arith.power
  split_ifs with h1 h2
  · refine ⟨1, a.rnd_one.symm, ?_⟩
    rcases h1 with rfl | rfl <;> simp
  · refine ⟨0, a.rnd_zero.symm, ?_⟩
    have : (e : ℝ) ≠ 0 := by exact_mod_cast fun h => h1 (.inl h)
    rw [h2]; simp [Real.zero_rpow this]
  · have hb0' : 0 < b := lt_of_le_of_ne hb0 (Ne.symm h2)
    have hb1' : b < 1 := lt_of_le_of_ne hb1 fun h => h1 (.inr h)
    have he' : 0 < e := lt_of_le_of_ne he fun h => h1 (.inl h.symm)
    cases a with
    | reals bits => exact ⟨_, rfl, realPower_error bits hb0' hb1' he'⟩
    | binary32 =>
      refine ⟨_, rfl, (powApprox_error _ hb0' hb1 he).trans ?_⟩
      linarith

end Sys2Proof
end

