-- ==== Sys2Proof/Laws/State.lean ====
section
/-! SUPPORT. What each named update of the state leaves in each field, one lemma a field, for simp.
Later proofs cite these and never unfold an update. -/

namespace Sys2Proof.Machine

/-! ## Updates of one field -/

@[simp] theorem emit_cfg (s : State) (e : Event) : (s.emit e).cfg = s.cfg := rfl
@[simp] theorem emit_life (s : State) (e : Event) : (s.emit e).life = s.life := rfl
@[simp] theorem emit_drumsEnabled (s : State) (e : Event) : (s.emit e).drumsEnabled = s.drumsEnabled := rfl
@[simp] theorem emit_store (s : State) (e : Event) : (s.emit e).store = s.store := rfl
@[simp] theorem emit_snapshot (s : State) (e : Event) : (s.emit e).snapshot = s.snapshot := rfl
@[simp] theorem emit_pool (s : State) (e : Event) : (s.emit e).pool = s.pool := rfl
@[simp] theorem emit_drums (s : State) (e : Event) : (s.emit e).drums = s.drums := rfl
@[simp] theorem emit_noise (s : State) (e : Event) : (s.emit e).noise = s.noise := rfl
@[simp] theorem emit_filter (s : State) (e : Event) : (s.emit e).filter = s.filter := rfl
@[simp] theorem emit_dcL (s : State) (e : Event) : (s.emit e).dcL = s.dcL := rfl
@[simp] theorem emit_dcR (s : State) (e : Event) : (s.emit e).dcR = s.dcR := rfl
@[simp] theorem emit_delay (s : State) (e : Event) : (s.emit e).delay = s.delay := rfl
@[simp] theorem emit_reverb (s : State) (e : Event) : (s.emit e).reverb = s.reverb := rfl
@[simp] theorem emit_fade (s : State) (e : Event) : (s.emit e).fade = s.fade := rfl
@[simp] theorem emit_block (s : State) (e : Event) : (s.emit e).block = s.block := rfl
@[simp] theorem emit_queue (s : State) (e : Event) : (s.emit e).queue = s.queue := rfl
@[simp] theorem emit_sched (s : State) (e : Event) : (s.emit e).sched = s.sched := rfl
@[simp] theorem emit_counters (s : State) (e : Event) : (s.emit e).counters = s.counters := rfl
@[simp] theorem emit_ongoing (s : State) (e : Event) : (s.emit e).ongoing = s.ongoing := rfl
@[simp] theorem emit_inputs (s : State) (e : Event) : (s.emit e).inputs = s.inputs := rfl
@[simp] theorem emit_draws (s : State) (e : Event) : (s.emit e).draws = s.draws := rfl

@[simp] theorem emit_trace (s : State) (e : Event) : (s.emit e).trace = e :: s.trace := rfl

@[simp] theorem answer_cfg (s : State) (r : HostResult) : (s.answer r).cfg = s.cfg := rfl
@[simp] theorem answer_life (s : State) (r : HostResult) : (s.answer r).life = s.life := rfl
@[simp] theorem answer_drumsEnabled (s : State) (r : HostResult) : (s.answer r).drumsEnabled = s.drumsEnabled := rfl
@[simp] theorem answer_store (s : State) (r : HostResult) : (s.answer r).store = s.store := rfl
@[simp] theorem answer_snapshot (s : State) (r : HostResult) : (s.answer r).snapshot = s.snapshot := rfl
@[simp] theorem answer_pool (s : State) (r : HostResult) : (s.answer r).pool = s.pool := rfl
@[simp] theorem answer_drums (s : State) (r : HostResult) : (s.answer r).drums = s.drums := rfl
@[simp] theorem answer_noise (s : State) (r : HostResult) : (s.answer r).noise = s.noise := rfl
@[simp] theorem answer_filter (s : State) (r : HostResult) : (s.answer r).filter = s.filter := rfl
@[simp] theorem answer_dcL (s : State) (r : HostResult) : (s.answer r).dcL = s.dcL := rfl
@[simp] theorem answer_dcR (s : State) (r : HostResult) : (s.answer r).dcR = s.dcR := rfl
@[simp] theorem answer_delay (s : State) (r : HostResult) : (s.answer r).delay = s.delay := rfl
@[simp] theorem answer_reverb (s : State) (r : HostResult) : (s.answer r).reverb = s.reverb := rfl
@[simp] theorem answer_fade (s : State) (r : HostResult) : (s.answer r).fade = s.fade := rfl
@[simp] theorem answer_block (s : State) (r : HostResult) : (s.answer r).block = s.block := rfl
@[simp] theorem answer_queue (s : State) (r : HostResult) : (s.answer r).queue = s.queue := rfl
@[simp] theorem answer_sched (s : State) (r : HostResult) : (s.answer r).sched = s.sched := rfl
@[simp] theorem answer_counters (s : State) (r : HostResult) : (s.answer r).counters = s.counters := rfl
@[simp] theorem answer_ongoing (s : State) (r : HostResult) : (s.answer r).ongoing = s.ongoing := rfl
@[simp] theorem answer_inputs (s : State) (r : HostResult) : (s.answer r).inputs = s.inputs := rfl
@[simp] theorem answer_draws (s : State) (r : HostResult) : (s.answer r).draws = s.draws := rfl

@[simp] theorem answer_trace (s : State) (r : HostResult) : (s.answer r).trace = .result r :: s.trace := rfl

@[simp] theorem setPhase_cfg (s : State) (p : Phase) : (s.setPhase p).cfg = s.cfg := rfl
@[simp] theorem setPhase_drumsEnabled (s : State) (p : Phase) : (s.setPhase p).drumsEnabled = s.drumsEnabled := rfl
@[simp] theorem setPhase_store (s : State) (p : Phase) : (s.setPhase p).store = s.store := rfl
@[simp] theorem setPhase_snapshot (s : State) (p : Phase) : (s.setPhase p).snapshot = s.snapshot := rfl
@[simp] theorem setPhase_pool (s : State) (p : Phase) : (s.setPhase p).pool = s.pool := rfl
@[simp] theorem setPhase_drums (s : State) (p : Phase) : (s.setPhase p).drums = s.drums := rfl
@[simp] theorem setPhase_noise (s : State) (p : Phase) : (s.setPhase p).noise = s.noise := rfl
@[simp] theorem setPhase_filter (s : State) (p : Phase) : (s.setPhase p).filter = s.filter := rfl
@[simp] theorem setPhase_dcL (s : State) (p : Phase) : (s.setPhase p).dcL = s.dcL := rfl
@[simp] theorem setPhase_dcR (s : State) (p : Phase) : (s.setPhase p).dcR = s.dcR := rfl
@[simp] theorem setPhase_delay (s : State) (p : Phase) : (s.setPhase p).delay = s.delay := rfl
@[simp] theorem setPhase_reverb (s : State) (p : Phase) : (s.setPhase p).reverb = s.reverb := rfl
@[simp] theorem setPhase_fade (s : State) (p : Phase) : (s.setPhase p).fade = s.fade := rfl
@[simp] theorem setPhase_block (s : State) (p : Phase) : (s.setPhase p).block = s.block := rfl
@[simp] theorem setPhase_queue (s : State) (p : Phase) : (s.setPhase p).queue = s.queue := rfl
@[simp] theorem setPhase_sched (s : State) (p : Phase) : (s.setPhase p).sched = s.sched := rfl
@[simp] theorem setPhase_counters (s : State) (p : Phase) : (s.setPhase p).counters = s.counters := rfl
@[simp] theorem setPhase_ongoing (s : State) (p : Phase) : (s.setPhase p).ongoing = s.ongoing := rfl
@[simp] theorem setPhase_inputs (s : State) (p : Phase) : (s.setPhase p).inputs = s.inputs := rfl
@[simp] theorem setPhase_draws (s : State) (p : Phase) : (s.setPhase p).draws = s.draws := rfl
@[simp] theorem setPhase_trace (s : State) (p : Phase) : (s.setPhase p).trace = s.trace := rfl

@[simp] theorem setPhase_life (s : State) (p : Phase) : (s.setPhase p).life = { s.life with phase := p } := rfl

@[simp] theorem endBlock_cfg (s : State) : s.endBlock.cfg = s.cfg := rfl
@[simp] theorem endBlock_drumsEnabled (s : State) : s.endBlock.drumsEnabled = s.drumsEnabled := rfl
@[simp] theorem endBlock_store (s : State) : s.endBlock.store = s.store := rfl
@[simp] theorem endBlock_snapshot (s : State) : s.endBlock.snapshot = s.snapshot := rfl
@[simp] theorem endBlock_pool (s : State) : s.endBlock.pool = s.pool := rfl
@[simp] theorem endBlock_drums (s : State) : s.endBlock.drums = s.drums := rfl
@[simp] theorem endBlock_noise (s : State) : s.endBlock.noise = s.noise := rfl
@[simp] theorem endBlock_filter (s : State) : s.endBlock.filter = s.filter := rfl
@[simp] theorem endBlock_dcL (s : State) : s.endBlock.dcL = s.dcL := rfl
@[simp] theorem endBlock_dcR (s : State) : s.endBlock.dcR = s.dcR := rfl
@[simp] theorem endBlock_delay (s : State) : s.endBlock.delay = s.delay := rfl
@[simp] theorem endBlock_reverb (s : State) : s.endBlock.reverb = s.reverb := rfl
@[simp] theorem endBlock_fade (s : State) : s.endBlock.fade = s.fade := rfl
@[simp] theorem endBlock_block (s : State) : s.endBlock.block = s.block := rfl
@[simp] theorem endBlock_queue (s : State) : s.endBlock.queue = s.queue := rfl
@[simp] theorem endBlock_sched (s : State) : s.endBlock.sched = s.sched := rfl
@[simp] theorem endBlock_counters (s : State) : s.endBlock.counters = s.counters := rfl
@[simp] theorem endBlock_ongoing (s : State) : s.endBlock.ongoing = s.ongoing := rfl
@[simp] theorem endBlock_inputs (s : State) : s.endBlock.inputs = s.inputs := rfl
@[simp] theorem endBlock_draws (s : State) : s.endBlock.draws = s.draws := rfl
@[simp] theorem endBlock_trace (s : State) : s.endBlock.trace = s.trace := rfl
@[simp] theorem endBlock_life (s : State) : s.endBlock.life = { s.life with phase := .loopTest, late := false } := rfl

@[simp] theorem storeParams_cfg (p : Params) (s : State) : (storeParams p s).cfg = s.cfg := rfl
@[simp] theorem storeParams_life (p : Params) (s : State) : (storeParams p s).life = s.life := rfl
@[simp] theorem storeParams_drumsEnabled (p : Params) (s : State) : (storeParams p s).drumsEnabled = s.drumsEnabled := rfl
@[simp] theorem storeParams_snapshot (p : Params) (s : State) : (storeParams p s).snapshot = s.snapshot := rfl
@[simp] theorem storeParams_pool (p : Params) (s : State) : (storeParams p s).pool = s.pool := rfl
@[simp] theorem storeParams_drums (p : Params) (s : State) : (storeParams p s).drums = s.drums := rfl
@[simp] theorem storeParams_noise (p : Params) (s : State) : (storeParams p s).noise = s.noise := rfl
@[simp] theorem storeParams_filter (p : Params) (s : State) : (storeParams p s).filter = s.filter := rfl
@[simp] theorem storeParams_dcL (p : Params) (s : State) : (storeParams p s).dcL = s.dcL := rfl
@[simp] theorem storeParams_dcR (p : Params) (s : State) : (storeParams p s).dcR = s.dcR := rfl
@[simp] theorem storeParams_delay (p : Params) (s : State) : (storeParams p s).delay = s.delay := rfl
@[simp] theorem storeParams_reverb (p : Params) (s : State) : (storeParams p s).reverb = s.reverb := rfl
@[simp] theorem storeParams_fade (p : Params) (s : State) : (storeParams p s).fade = s.fade := rfl
@[simp] theorem storeParams_block (p : Params) (s : State) : (storeParams p s).block = s.block := rfl
@[simp] theorem storeParams_queue (p : Params) (s : State) : (storeParams p s).queue = s.queue := rfl
@[simp] theorem storeParams_sched (p : Params) (s : State) : (storeParams p s).sched = s.sched := rfl
@[simp] theorem storeParams_counters (p : Params) (s : State) : (storeParams p s).counters = s.counters := rfl
@[simp] theorem storeParams_ongoing (p : Params) (s : State) : (storeParams p s).ongoing = s.ongoing := rfl
@[simp] theorem storeParams_inputs (p : Params) (s : State) : (storeParams p s).inputs = s.inputs := rfl
@[simp] theorem storeParams_draws (p : Params) (s : State) : (storeParams p s).draws = s.draws := rfl
@[simp] theorem storeParams_trace (p : Params) (s : State) : (storeParams p s).trace = s.trace := rfl

@[simp] theorem storeParams_store (p : Params) (s : State) :
    (storeParams p s).store = s.store.publish (sanitize s.cfg p) := rfl

@[simp] theorem fadeRequest_cfg (b : Bool) (ms : Word) (s : State) : (fadeRequest b ms s).cfg = s.cfg := rfl
@[simp] theorem fadeRequest_life (b : Bool) (ms : Word) (s : State) : (fadeRequest b ms s).life = s.life := rfl
@[simp] theorem fadeRequest_drumsEnabled (b : Bool) (ms : Word) (s : State) : (fadeRequest b ms s).drumsEnabled = s.drumsEnabled := rfl
@[simp] theorem fadeRequest_store (b : Bool) (ms : Word) (s : State) : (fadeRequest b ms s).store = s.store := rfl
@[simp] theorem fadeRequest_snapshot (b : Bool) (ms : Word) (s : State) : (fadeRequest b ms s).snapshot = s.snapshot := rfl
@[simp] theorem fadeRequest_pool (b : Bool) (ms : Word) (s : State) : (fadeRequest b ms s).pool = s.pool := rfl
@[simp] theorem fadeRequest_drums (b : Bool) (ms : Word) (s : State) : (fadeRequest b ms s).drums = s.drums := rfl
@[simp] theorem fadeRequest_noise (b : Bool) (ms : Word) (s : State) : (fadeRequest b ms s).noise = s.noise := rfl
@[simp] theorem fadeRequest_filter (b : Bool) (ms : Word) (s : State) : (fadeRequest b ms s).filter = s.filter := rfl
@[simp] theorem fadeRequest_dcL (b : Bool) (ms : Word) (s : State) : (fadeRequest b ms s).dcL = s.dcL := rfl
@[simp] theorem fadeRequest_dcR (b : Bool) (ms : Word) (s : State) : (fadeRequest b ms s).dcR = s.dcR := rfl
@[simp] theorem fadeRequest_delay (b : Bool) (ms : Word) (s : State) : (fadeRequest b ms s).delay = s.delay := rfl
@[simp] theorem fadeRequest_reverb (b : Bool) (ms : Word) (s : State) : (fadeRequest b ms s).reverb = s.reverb := rfl
@[simp] theorem fadeRequest_block (b : Bool) (ms : Word) (s : State) : (fadeRequest b ms s).block = s.block := rfl
@[simp] theorem fadeRequest_queue (b : Bool) (ms : Word) (s : State) : (fadeRequest b ms s).queue = s.queue := rfl
@[simp] theorem fadeRequest_sched (b : Bool) (ms : Word) (s : State) : (fadeRequest b ms s).sched = s.sched := rfl
@[simp] theorem fadeRequest_counters (b : Bool) (ms : Word) (s : State) : (fadeRequest b ms s).counters = s.counters := rfl
@[simp] theorem fadeRequest_ongoing (b : Bool) (ms : Word) (s : State) : (fadeRequest b ms s).ongoing = s.ongoing := rfl
@[simp] theorem fadeRequest_inputs (b : Bool) (ms : Word) (s : State) : (fadeRequest b ms s).inputs = s.inputs := rfl
@[simp] theorem fadeRequest_draws (b : Bool) (ms : Word) (s : State) : (fadeRequest b ms s).draws = s.draws := rfl
@[simp] theorem fadeRequest_trace (b : Bool) (ms : Word) (s : State) : (fadeRequest b ms s).trace = s.trace := rfl

@[simp] theorem replaceOngoing_cfg (s : State) (j : Nat) (os : List Ongoing) : (s.replaceOngoing j os).cfg = s.cfg := rfl
@[simp] theorem replaceOngoing_life (s : State) (j : Nat) (os : List Ongoing) : (s.replaceOngoing j os).life = s.life := rfl
@[simp] theorem replaceOngoing_drumsEnabled (s : State) (j : Nat) (os : List Ongoing) : (s.replaceOngoing j os).drumsEnabled = s.drumsEnabled := rfl
@[simp] theorem replaceOngoing_store (s : State) (j : Nat) (os : List Ongoing) : (s.replaceOngoing j os).store = s.store := rfl
@[simp] theorem replaceOngoing_snapshot (s : State) (j : Nat) (os : List Ongoing) : (s.replaceOngoing j os).snapshot = s.snapshot := rfl
@[simp] theorem replaceOngoing_pool (s : State) (j : Nat) (os : List Ongoing) : (s.replaceOngoing j os).pool = s.pool := rfl
@[simp] theorem replaceOngoing_drums (s : State) (j : Nat) (os : List Ongoing) : (s.replaceOngoing j os).drums = s.drums := rfl
@[simp] theorem replaceOngoing_noise (s : State) (j : Nat) (os : List Ongoing) : (s.replaceOngoing j os).noise = s.noise := rfl
@[simp] theorem replaceOngoing_filter (s : State) (j : Nat) (os : List Ongoing) : (s.replaceOngoing j os).filter = s.filter := rfl
@[simp] theorem replaceOngoing_dcL (s : State) (j : Nat) (os : List Ongoing) : (s.replaceOngoing j os).dcL = s.dcL := rfl
@[simp] theorem replaceOngoing_dcR (s : State) (j : Nat) (os : List Ongoing) : (s.replaceOngoing j os).dcR = s.dcR := rfl
@[simp] theorem replaceOngoing_delay (s : State) (j : Nat) (os : List Ongoing) : (s.replaceOngoing j os).delay = s.delay := rfl
@[simp] theorem replaceOngoing_reverb (s : State) (j : Nat) (os : List Ongoing) : (s.replaceOngoing j os).reverb = s.reverb := rfl
@[simp] theorem replaceOngoing_fade (s : State) (j : Nat) (os : List Ongoing) : (s.replaceOngoing j os).fade = s.fade := rfl
@[simp] theorem replaceOngoing_block (s : State) (j : Nat) (os : List Ongoing) : (s.replaceOngoing j os).block = s.block := rfl
@[simp] theorem replaceOngoing_queue (s : State) (j : Nat) (os : List Ongoing) : (s.replaceOngoing j os).queue = s.queue := rfl
@[simp] theorem replaceOngoing_sched (s : State) (j : Nat) (os : List Ongoing) : (s.replaceOngoing j os).sched = s.sched := rfl
@[simp] theorem replaceOngoing_counters (s : State) (j : Nat) (os : List Ongoing) : (s.replaceOngoing j os).counters = s.counters := rfl
@[simp] theorem replaceOngoing_inputs (s : State) (j : Nat) (os : List Ongoing) : (s.replaceOngoing j os).inputs = s.inputs := rfl
@[simp] theorem replaceOngoing_draws (s : State) (j : Nat) (os : List Ongoing) : (s.replaceOngoing j os).draws = s.draws := rfl
@[simp] theorem replaceOngoing_trace (s : State) (j : Nat) (os : List Ongoing) : (s.replaceOngoing j os).trace = s.trace := rfl

@[simp] theorem take_cfg (s : State) (i : Input) (rest : List Input) : (s.take i rest).cfg = s.cfg := rfl
@[simp] theorem take_life (s : State) (i : Input) (rest : List Input) : (s.take i rest).life = s.life := rfl
@[simp] theorem take_drumsEnabled (s : State) (i : Input) (rest : List Input) : (s.take i rest).drumsEnabled = s.drumsEnabled := rfl
@[simp] theorem take_store (s : State) (i : Input) (rest : List Input) : (s.take i rest).store = s.store := rfl
@[simp] theorem take_snapshot (s : State) (i : Input) (rest : List Input) : (s.take i rest).snapshot = s.snapshot := rfl
@[simp] theorem take_pool (s : State) (i : Input) (rest : List Input) : (s.take i rest).pool = s.pool := rfl
@[simp] theorem take_drums (s : State) (i : Input) (rest : List Input) : (s.take i rest).drums = s.drums := rfl
@[simp] theorem take_noise (s : State) (i : Input) (rest : List Input) : (s.take i rest).noise = s.noise := rfl
@[simp] theorem take_filter (s : State) (i : Input) (rest : List Input) : (s.take i rest).filter = s.filter := rfl
@[simp] theorem take_dcL (s : State) (i : Input) (rest : List Input) : (s.take i rest).dcL = s.dcL := rfl
@[simp] theorem take_dcR (s : State) (i : Input) (rest : List Input) : (s.take i rest).dcR = s.dcR := rfl
@[simp] theorem take_delay (s : State) (i : Input) (rest : List Input) : (s.take i rest).delay = s.delay := rfl
@[simp] theorem take_reverb (s : State) (i : Input) (rest : List Input) : (s.take i rest).reverb = s.reverb := rfl
@[simp] theorem take_fade (s : State) (i : Input) (rest : List Input) : (s.take i rest).fade = s.fade := rfl
@[simp] theorem take_block (s : State) (i : Input) (rest : List Input) : (s.take i rest).block = s.block := rfl
@[simp] theorem take_queue (s : State) (i : Input) (rest : List Input) : (s.take i rest).queue = s.queue := rfl
@[simp] theorem take_sched (s : State) (i : Input) (rest : List Input) : (s.take i rest).sched = s.sched := rfl
@[simp] theorem take_counters (s : State) (i : Input) (rest : List Input) : (s.take i rest).counters = s.counters := rfl
@[simp] theorem take_ongoing (s : State) (i : Input) (rest : List Input) : (s.take i rest).ongoing = s.ongoing := rfl
@[simp] theorem take_trace (s : State) (i : Input) (rest : List Input) : (s.take i rest).trace = s.trace := rfl

@[simp] theorem take_inputs (s : State) (i : Input) (rest : List Input) : (s.take i rest).inputs = rest := rfl
@[simp] theorem take_draws (s : State) (i : Input) (rest : List Input) : (s.take i rest).draws = i.draws := rfl

/-! ## Events and counters -/

@[simp] theorem raise_cfg (e : ErrorEvent) (s : State) : (raise e s).cfg = s.cfg := by cases e <;> rfl
@[simp] theorem raise_life (e : ErrorEvent) (s : State) : (raise e s).life = s.life := by cases e <;> rfl
@[simp] theorem raise_drumsEnabled (e : ErrorEvent) (s : State) : (raise e s).drumsEnabled = s.drumsEnabled := by cases e <;> rfl
@[simp] theorem raise_store (e : ErrorEvent) (s : State) : (raise e s).store = s.store := by cases e <;> rfl
@[simp] theorem raise_snapshot (e : ErrorEvent) (s : State) : (raise e s).snapshot = s.snapshot := by cases e <;> rfl
@[simp] theorem raise_pool (e : ErrorEvent) (s : State) : (raise e s).pool = s.pool := by cases e <;> rfl
@[simp] theorem raise_drums (e : ErrorEvent) (s : State) : (raise e s).drums = s.drums := by cases e <;> rfl
@[simp] theorem raise_noise (e : ErrorEvent) (s : State) : (raise e s).noise = s.noise := by cases e <;> rfl
@[simp] theorem raise_filter (e : ErrorEvent) (s : State) : (raise e s).filter = s.filter := by cases e <;> rfl
@[simp] theorem raise_dcL (e : ErrorEvent) (s : State) : (raise e s).dcL = s.dcL := by cases e <;> rfl
@[simp] theorem raise_dcR (e : ErrorEvent) (s : State) : (raise e s).dcR = s.dcR := by cases e <;> rfl
@[simp] theorem raise_delay (e : ErrorEvent) (s : State) : (raise e s).delay = s.delay := by cases e <;> rfl
@[simp] theorem raise_reverb (e : ErrorEvent) (s : State) : (raise e s).reverb = s.reverb := by cases e <;> rfl
@[simp] theorem raise_fade (e : ErrorEvent) (s : State) : (raise e s).fade = s.fade := by cases e <;> rfl
@[simp] theorem raise_block (e : ErrorEvent) (s : State) : (raise e s).block = s.block := by cases e <;> rfl
@[simp] theorem raise_queue (e : ErrorEvent) (s : State) : (raise e s).queue = s.queue := by cases e <;> rfl
@[simp] theorem raise_sched (e : ErrorEvent) (s : State) : (raise e s).sched = s.sched := by cases e <;> rfl
@[simp] theorem raise_ongoing (e : ErrorEvent) (s : State) : (raise e s).ongoing = s.ongoing := by cases e <;> rfl
@[simp] theorem raise_inputs (e : ErrorEvent) (s : State) : (raise e s).inputs = s.inputs := by cases e <;> rfl
@[simp] theorem raise_draws (e : ErrorEvent) (s : State) : (raise e s).draws = s.draws := by cases e <;> rfl
@[simp] theorem raise_trace (e : ErrorEvent) (s : State) : (raise e s).trace = s.trace := by cases e <;> rfl

@[simp] theorem recordRenderTime_cfg (s : State) : (recordRenderTime s).cfg = s.cfg := rfl
@[simp] theorem recordRenderTime_life (s : State) : (recordRenderTime s).life = s.life := rfl
@[simp] theorem recordRenderTime_drumsEnabled (s : State) : (recordRenderTime s).drumsEnabled = s.drumsEnabled := rfl
@[simp] theorem recordRenderTime_store (s : State) : (recordRenderTime s).store = s.store := rfl
@[simp] theorem recordRenderTime_snapshot (s : State) : (recordRenderTime s).snapshot = s.snapshot := rfl
@[simp] theorem recordRenderTime_pool (s : State) : (recordRenderTime s).pool = s.pool := rfl
@[simp] theorem recordRenderTime_drums (s : State) : (recordRenderTime s).drums = s.drums := rfl
@[simp] theorem recordRenderTime_noise (s : State) : (recordRenderTime s).noise = s.noise := rfl
@[simp] theorem recordRenderTime_filter (s : State) : (recordRenderTime s).filter = s.filter := rfl
@[simp] theorem recordRenderTime_dcL (s : State) : (recordRenderTime s).dcL = s.dcL := rfl
@[simp] theorem recordRenderTime_dcR (s : State) : (recordRenderTime s).dcR = s.dcR := rfl
@[simp] theorem recordRenderTime_delay (s : State) : (recordRenderTime s).delay = s.delay := rfl
@[simp] theorem recordRenderTime_reverb (s : State) : (recordRenderTime s).reverb = s.reverb := rfl
@[simp] theorem recordRenderTime_fade (s : State) : (recordRenderTime s).fade = s.fade := rfl
@[simp] theorem recordRenderTime_block (s : State) : (recordRenderTime s).block = s.block := rfl
@[simp] theorem recordRenderTime_queue (s : State) : (recordRenderTime s).queue = s.queue := rfl
@[simp] theorem recordRenderTime_sched (s : State) : (recordRenderTime s).sched = s.sched := rfl
@[simp] theorem recordRenderTime_ongoing (s : State) : (recordRenderTime s).ongoing = s.ongoing := rfl
@[simp] theorem recordRenderTime_inputs (s : State) : (recordRenderTime s).inputs = s.inputs := rfl
@[simp] theorem recordRenderTime_draws (s : State) : (recordRenderTime s).draws = s.draws := rfl
@[simp] theorem recordRenderTime_trace (s : State) : (recordRenderTime s).trace = s.trace := rfl

theorem account_eq (n : Nat) (ok : Bool) (s : State) : account n ok s = { s with counters := (account n ok s).counters } := by
  unfold account
  split
  · rfl
  · split <;> rfl

@[simp] theorem account_cfg (n : Nat) (ok : Bool) (s : State) : (account n ok s).cfg = s.cfg := by rw [account_eq]
@[simp] theorem account_life (n : Nat) (ok : Bool) (s : State) : (account n ok s).life = s.life := by rw [account_eq]
@[simp] theorem account_drumsEnabled (n : Nat) (ok : Bool) (s : State) : (account n ok s).drumsEnabled = s.drumsEnabled := by rw [account_eq]
@[simp] theorem account_store (n : Nat) (ok : Bool) (s : State) : (account n ok s).store = s.store := by rw [account_eq]
@[simp] theorem account_snapshot (n : Nat) (ok : Bool) (s : State) : (account n ok s).snapshot = s.snapshot := by rw [account_eq]
@[simp] theorem account_pool (n : Nat) (ok : Bool) (s : State) : (account n ok s).pool = s.pool := by rw [account_eq]
@[simp] theorem account_drums (n : Nat) (ok : Bool) (s : State) : (account n ok s).drums = s.drums := by rw [account_eq]
@[simp] theorem account_noise (n : Nat) (ok : Bool) (s : State) : (account n ok s).noise = s.noise := by rw [account_eq]
@[simp] theorem account_filter (n : Nat) (ok : Bool) (s : State) : (account n ok s).filter = s.filter := by rw [account_eq]
@[simp] theorem account_dcL (n : Nat) (ok : Bool) (s : State) : (account n ok s).dcL = s.dcL := by rw [account_eq]
@[simp] theorem account_dcR (n : Nat) (ok : Bool) (s : State) : (account n ok s).dcR = s.dcR := by rw [account_eq]
@[simp] theorem account_delay (n : Nat) (ok : Bool) (s : State) : (account n ok s).delay = s.delay := by rw [account_eq]
@[simp] theorem account_reverb (n : Nat) (ok : Bool) (s : State) : (account n ok s).reverb = s.reverb := by rw [account_eq]
@[simp] theorem account_fade (n : Nat) (ok : Bool) (s : State) : (account n ok s).fade = s.fade := by rw [account_eq]
@[simp] theorem account_block (n : Nat) (ok : Bool) (s : State) : (account n ok s).block = s.block := by rw [account_eq]
@[simp] theorem account_queue (n : Nat) (ok : Bool) (s : State) : (account n ok s).queue = s.queue := by rw [account_eq]
@[simp] theorem account_sched (n : Nat) (ok : Bool) (s : State) : (account n ok s).sched = s.sched := by rw [account_eq]
@[simp] theorem account_ongoing (n : Nat) (ok : Bool) (s : State) : (account n ok s).ongoing = s.ongoing := by rw [account_eq]
@[simp] theorem account_inputs (n : Nat) (ok : Bool) (s : State) : (account n ok s).inputs = s.inputs := by rw [account_eq]
@[simp] theorem account_draws (n : Nat) (ok : Bool) (s : State) : (account n ok s).draws = s.draws := by rw [account_eq]
@[simp] theorem account_trace (n : Nat) (ok : Bool) (s : State) : (account n ok s).trace = s.trace := by rw [account_eq]

/-! ## Arenas -/

@[simp] theorem setArena_cfg (s : State) (sp : Space) (m : Memory) : (s.setArena sp m).cfg = s.cfg := by cases sp <;> rfl
@[simp] theorem setArena_life (s : State) (sp : Space) (m : Memory) : (s.setArena sp m).life = s.life := by cases sp <;> rfl
@[simp] theorem setArena_drumsEnabled (s : State) (sp : Space) (m : Memory) : (s.setArena sp m).drumsEnabled = s.drumsEnabled := by cases sp <;> rfl
@[simp] theorem setArena_store (s : State) (sp : Space) (m : Memory) : (s.setArena sp m).store = s.store := by cases sp <;> rfl
@[simp] theorem setArena_snapshot (s : State) (sp : Space) (m : Memory) : (s.setArena sp m).snapshot = s.snapshot := by cases sp <;> rfl
@[simp] theorem setArena_pool (s : State) (sp : Space) (m : Memory) : (s.setArena sp m).pool = s.pool := by cases sp <;> rfl
@[simp] theorem setArena_drums (s : State) (sp : Space) (m : Memory) : (s.setArena sp m).drums = s.drums := by cases sp <;> rfl
@[simp] theorem setArena_noise (s : State) (sp : Space) (m : Memory) : (s.setArena sp m).noise = s.noise := by cases sp <;> rfl
@[simp] theorem setArena_filter (s : State) (sp : Space) (m : Memory) : (s.setArena sp m).filter = s.filter := by cases sp <;> rfl
@[simp] theorem setArena_dcL (s : State) (sp : Space) (m : Memory) : (s.setArena sp m).dcL = s.dcL := by cases sp <;> rfl
@[simp] theorem setArena_dcR (s : State) (sp : Space) (m : Memory) : (s.setArena sp m).dcR = s.dcR := by cases sp <;> rfl
@[simp] theorem setArena_reverb (s : State) (sp : Space) (m : Memory) : (s.setArena sp m).reverb = s.reverb := by cases sp <;> rfl
@[simp] theorem setArena_fade (s : State) (sp : Space) (m : Memory) : (s.setArena sp m).fade = s.fade := by cases sp <;> rfl
@[simp] theorem setArena_sched (s : State) (sp : Space) (m : Memory) : (s.setArena sp m).sched = s.sched := by cases sp <;> rfl
@[simp] theorem setArena_counters (s : State) (sp : Space) (m : Memory) : (s.setArena sp m).counters = s.counters := by cases sp <;> rfl
@[simp] theorem setArena_ongoing (s : State) (sp : Space) (m : Memory) : (s.setArena sp m).ongoing = s.ongoing := by cases sp <;> rfl
@[simp] theorem setArena_inputs (s : State) (sp : Space) (m : Memory) : (s.setArena sp m).inputs = s.inputs := by cases sp <;> rfl
@[simp] theorem setArena_draws (s : State) (sp : Space) (m : Memory) : (s.setArena sp m).draws = s.draws := by cases sp <;> rfl
@[simp] theorem setArena_trace (s : State) (sp : Space) (m : Memory) : (s.setArena sp m).trace = s.trace := by cases sp <;> rfl

@[simp] theorem setArena_delay_len (s : State) (sp : Space) (m : Memory) : (s.setArena sp m).delay.len = s.delay.len := by
  cases sp <;> rfl
@[simp] theorem setArena_delay_writeIdx (s : State) (sp : Space) (m : Memory) :
    (s.setArena sp m).delay.writeIdx = s.delay.writeIdx := by cases sp <;> rfl
@[simp] theorem setArena_queue_head (s : State) (sp : Space) (m : Memory) : (s.setArena sp m).queue.head = s.queue.head := by
  cases sp <;> rfl
@[simp] theorem setArena_queue_tail (s : State) (sp : Space) (m : Memory) : (s.setArena sp m).queue.tail = s.queue.tail := by
  cases sp <;> rfl
@[simp] theorem setArena_arena (s : State) (sp : Space) (m : Memory) : (s.setArena sp m).arena sp = m := by
  cases sp <;> rfl
theorem setArena_arena_ne (s : State) {sp sp' : Space} (m : Memory) (h : sp' ≠ sp) :
    (s.setArena sp m).arena sp' = s.arena sp' := by cases sp <;> cases sp' <;> first | rfl | exact absurd rfl h
@[simp] theorem setArena_arenaSize (s : State) (sp sp' : Space) (m : Memory) :
    (s.setArena sp m).arenaSize sp' = s.arenaSize sp' := by cases sp <;> cases sp' <;> rfl

/-! ## The ring head -/

@[simp] theorem advanceHead_cfg (s : State) : (s.advanceHead).cfg = s.cfg := rfl
@[simp] theorem advanceHead_life (s : State) : (s.advanceHead).life = s.life := rfl
@[simp] theorem advanceHead_drumsEnabled (s : State) : (s.advanceHead).drumsEnabled = s.drumsEnabled := rfl
@[simp] theorem advanceHead_store (s : State) : (s.advanceHead).store = s.store := rfl
@[simp] theorem advanceHead_snapshot (s : State) : (s.advanceHead).snapshot = s.snapshot := rfl
@[simp] theorem advanceHead_pool (s : State) : (s.advanceHead).pool = s.pool := rfl
@[simp] theorem advanceHead_drums (s : State) : (s.advanceHead).drums = s.drums := rfl
@[simp] theorem advanceHead_noise (s : State) : (s.advanceHead).noise = s.noise := rfl
@[simp] theorem advanceHead_filter (s : State) : (s.advanceHead).filter = s.filter := rfl
@[simp] theorem advanceHead_dcL (s : State) : (s.advanceHead).dcL = s.dcL := rfl
@[simp] theorem advanceHead_dcR (s : State) : (s.advanceHead).dcR = s.dcR := rfl
@[simp] theorem advanceHead_delay (s : State) : (s.advanceHead).delay = s.delay := rfl
@[simp] theorem advanceHead_reverb (s : State) : (s.advanceHead).reverb = s.reverb := rfl
@[simp] theorem advanceHead_fade (s : State) : (s.advanceHead).fade = s.fade := rfl
@[simp] theorem advanceHead_block (s : State) : (s.advanceHead).block = s.block := rfl
@[simp] theorem advanceHead_sched (s : State) : (s.advanceHead).sched = s.sched := rfl
@[simp] theorem advanceHead_ongoing (s : State) : (s.advanceHead).ongoing = s.ongoing := rfl
@[simp] theorem advanceHead_inputs (s : State) : (s.advanceHead).inputs = s.inputs := rfl
@[simp] theorem advanceHead_draws (s : State) : (s.advanceHead).draws = s.draws := rfl
@[simp] theorem advanceHead_trace (s : State) : (s.advanceHead).trace = s.trace := rfl

@[simp] theorem advanceHead_slots (s : State) : s.advanceHead.queue.slots = s.queue.slots := rfl
@[simp] theorem advanceHead_tail (s : State) : s.advanceHead.queue.tail = s.queue.tail := rfl
@[simp] theorem advanceHead_head (s : State) : s.advanceHead.queue.head = s.nextSlot s.queue.head := rfl

end Sys2Proof.Machine
end

