-- ==== Sys2Proof/Laws/Memory.lean ====
section
/-! SUPPORT. The laws of the byte arenas: what a cell reads after a store, and that every operation keeps the
canonical form. -/

namespace Sys2Proof.Machine

/-- Every listed address is at least `a`. -/
abbrev Memory.above (a : Nat) (m : Memory) : Prop := ∀ c ∈ m, a < c.1

theorem lookup_above {a b : Nat} {m : Memory} (hm : Memory.above a m) (hb : b ≤ a) : Memory.lookup m b = none := by
  cases m with
  | nil => rfl
  | cons c m =>
    have h := hm c (by simp)
    rw [Memory.lookup, if_neg (by omega), if_pos (by omega)]

theorem lookup_insert (a : Nat) (v : Byte) (m : Memory) (b : Nat) :
    Memory.lookup (Memory.insert a v m) b = if b = a then some v else Memory.lookup m b := by
  induction m with
  | nil => simp [Memory.insert, Memory.lookup]
  | cons c m ih =>
    obtain ⟨x, w⟩ := c
    simp only [Memory.insert]
    split
    · grind [Memory.lookup]
    · split
      · subst x; grind [Memory.lookup]
      · grind [Memory.lookup]

theorem lookup_erase {m : Memory} (hs : m.Pairwise fun x y => x.1 < y.1) (a b : Nat) :
    Memory.lookup (Memory.erase a m) b = if b = a then none else Memory.lookup m b := by
  induction m with
  | nil => simp [Memory.erase, Memory.lookup]
  | cons c m ih =>
    obtain ⟨x, w⟩ := c
    have hx : Memory.above x m := fun c hc => (List.pairwise_cons.mp hs).1 c hc
    have ih := ih (List.pairwise_cons.mp hs).2
    simp only [Memory.erase]
    split
    · split
      · subst b
        rw [Memory.lookup, if_neg (by omega), if_pos (by omega)]
      · rfl
    · split
      · subst x
        split
        · subst b; exact lookup_above hx (Nat.le_refl a)
        · rename_i _ hb
          simp only [Memory.lookup, if_neg hb]
          split
          · exact lookup_above hx (by omega)
          · rfl
      · grind [Memory.lookup]

theorem mem_insert {a : Nat} {v : Byte} {m : Memory} {c : Host.Cell} (h : c ∈ Memory.insert a v m) : c = (a, v) ∨ c ∈ m := by
  induction m with
  | nil => simpa [Memory.insert] using h
  | cons d m ih =>
    obtain ⟨x, w⟩ := d
    simp only [Memory.insert] at h
    split at h
    · simpa using h
    · split at h
      · rcases List.mem_cons.mp h with h | h
        · exact .inl h
        · exact .inr (List.mem_cons_of_mem _ h)
      · rcases List.mem_cons.mp h with h | h
        · exact .inr (h ▸ List.mem_cons_self)
        · rcases ih h with h | h
          · exact .inl h
          · exact .inr (List.mem_cons_of_mem _ h)

theorem mem_erase {a : Nat} {m : Memory} {c : Host.Cell} (h : c ∈ Memory.erase a m) : c ∈ m := by
  induction m with
  | nil => exact h
  | cons d m ih =>
    obtain ⟨x, w⟩ := d
    simp only [Memory.erase] at h
    split at h
    · exact h
    · split at h
      · exact List.mem_cons_of_mem _ h
      · rcases List.mem_cons.mp h with h | h
        · exact h ▸ List.mem_cons_self
        · exact List.mem_cons_of_mem _ (ih h)

theorem insert_sorted {m : Memory} (hs : m.Pairwise fun x y => x.1 < y.1) (a : Nat) (v : Byte) :
    (Memory.insert a v m).Pairwise fun x y => x.1 < y.1 := by
  induction m with
  | nil => simp [Memory.insert]
  | cons c m ih =>
    obtain ⟨x, w⟩ := c
    obtain ⟨hx, hm⟩ := List.pairwise_cons.mp hs
    simp only [Memory.insert]
    split
    · rename_i hax
      refine List.pairwise_cons.mpr ⟨fun c hc => ?_, hs⟩
      rcases List.mem_cons.mp hc with rfl | hc
      · exact hax
      · exact Nat.lt_trans hax (hx c hc)
    · split
      · rename_i hax
        exact List.pairwise_cons.mpr ⟨fun c hc => by have := hx c hc; simp only at this ⊢; omega, hm⟩
      · refine List.pairwise_cons.mpr ⟨fun c hc => ?_, ih hm⟩
        rcases mem_insert hc with rfl | hc
        · simp only; omega
        · exact hx c hc

theorem erase_sorted {m : Memory} (hs : m.Pairwise fun x y => x.1 < y.1) (a : Nat) :
    (Memory.erase a m).Pairwise fun x y => x.1 < y.1 := by
  induction m with
  | nil => exact hs
  | cons c m ih =>
    obtain ⟨x, w⟩ := c
    obtain ⟨hx, hm⟩ := List.pairwise_cons.mp hs
    simp only [Memory.erase]
    split
    · exact hs
    · split
      · exact hm
      · exact List.pairwise_cons.mpr ⟨fun c hc => hx c (mem_erase hc), ih hm⟩

/-- A store keeps the canonical form. -/
theorem put_wf {blank : Option Byte} {m : Memory} (h : Memory.wf blank m) (a : Nat) (v : Byte) :
    Memory.wf blank (Memory.put blank m a v) := by
  unfold Memory.put
  split
  · exact ⟨erase_sorted h.1 a, fun c hc => h.2 c (mem_erase hc)⟩
  · rename_i hv
    refine ⟨insert_sorted h.1 a v, fun c hc => ?_⟩
    rcases mem_insert hc with rfl | hc
    · exact hv
    · exact h.2 c hc

/-- A byte reads back as stored, and every other cell reads as before. -/
theorem get_put {blank : Option Byte} {m : Memory} (h : Memory.wf blank m) (a : Nat) (v : Byte) (b : Nat) :
    Memory.get blank (Memory.put blank m a v) b = if b = a then some v else Memory.get blank m b := by
  unfold Memory.put Memory.get
  by_cases hv : blank = some v
  · rw [if_pos hv, lookup_erase h.1]
    by_cases hb : b = a
    · rw [if_pos hb, if_pos hb]; exact hv
    · rw [if_neg hb, if_neg hb]
  · rw [if_neg hv, lookup_insert]
    by_cases hb : b = a
    · rw [if_pos hb, if_pos hb]
    · rw [if_neg hb, if_neg hb]

/-- The memory of a space is canonical. -/
theorem arena_wf {s : State} (h : s.memoryWf) (sp : Space) : Memory.wf sp.blank (s.arena sp) := by
  cases sp
  · exact h.1
  · exact h.2.1
  · exact h.2.2

/-- Replacing one arena by a canonical one keeps every arena canonical. -/
theorem setArena_memoryWf {s : State} (h : s.memoryWf) (sp : Space) {m : Memory} (hm : Memory.wf sp.blank m) :
    (s.setArena sp m).memoryWf := by
  cases sp
  · exact ⟨hm, h.2⟩
  · exact ⟨h.1, hm, h.2.2⟩
  · exact ⟨h.1, h.2.1, hm⟩

/-- What a one-byte store does: its index is in the space, and the byte is put there. -/
theorem memWrite_ok {sp : Space} {a : Nat} {v : Byte} {s t : State} (h : memWrite sp a v s = .ok t) :
    a < s.arenaSize sp ∧ t = s.setArena sp (Memory.put sp.blank (s.arena sp) a v) := by
  unfold memWrite at h
  split at h
  · exact ⟨‹_›, (Except.ok.inj h).symm⟩
  · cases h

/-- A store within the space completes. -/
theorem memWrite_of_lt {sp : Space} {a : Nat} (v : Byte) {s : State} (h : a < s.arenaSize sp) :
    memWrite sp a v s = .ok (s.setArena sp (Memory.put sp.blank (s.arena sp) a v)) := if_pos h

theorem setArena_readByte {s : State} (hs : s.memoryWf) (sp sp' : Space) (a b : Nat) (v : Byte) (ha : a < s.arenaSize sp) :
    (s.setArena sp (Memory.put sp.blank (s.arena sp) a v)).readByte sp' b =
      if sp' = sp ∧ b = a then some v else s.readByte sp' b := by
  unfold State.readByte
  rw [setArena_arenaSize]
  by_cases hsp : sp' = sp
  · subst hsp
    rw [setArena_arena, get_put (arena_wf hs sp')]
    by_cases hb : b = a
    · simp [hb, ha]
    · simp [hb]
  · rw [setArena_arena_ne _ _ hsp]
    simp [hsp]

/-- The bytes of one space stored one after another: what each address of each space reads afterwards. -/
theorem memWrites_ok {sp : Space} {a : Nat} {bs : List Byte} {s t : State}
    (h : memWrites sp a bs s = .ok t) :
    ∃ m, t = s.setArena sp m ∧ (s.memoryWf → Memory.wf sp.blank m) ∧ (bs ≠ [] → a + bs.length ≤ s.arenaSize sp) ∧
      (s.memoryWf → ∀ sp' b, t.readByte sp' b =
        if sp' = sp ∧ a ≤ b ∧ b < a + bs.length then bs[b - a]? else s.readByte sp' b) ∧
      (∀ c ∈ m, c ∈ s.arena sp ∨ (c.1 < s.arenaSize sp ∧ c.2 ∈ bs)) := by
  induction bs generalizing a s with
  | nil =>
    cases h
    refine ⟨t.arena sp, by cases sp <;> rfl, fun hw => arena_wf hw sp, by simp, fun _ sp' b => ?_, fun c hc => .inl hc⟩
    rw [if_neg (by simp only [List.length_nil]; omega)]
  | cons v bs ih =>
    simp only [memWrites, bind, Except.bind] at h
    split at h
    · cases h
    · rename_i s' hs'
      obtain ⟨ha, rfl⟩ := memWrite_ok hs'
      obtain ⟨m, rfl, hwf, hlen, hread, hmem⟩ := ih h
      refine ⟨m, by cases sp <;> rfl, fun hw => hwf (setArena_memoryWf hw sp (put_wf (arena_wf hw sp) a v)), fun _ => ?_,
        fun hw sp' b => ?_, fun c hc => ?_⟩
      · cases bs with
        | nil => simpa using ha
        | cons b bs => have := hlen (by simp); simp only [setArena_arenaSize] at this; simp only [List.length_cons] at this ⊢; omega
      · rw [hread (setArena_memoryWf hw sp (put_wf (arena_wf hw sp) a v)), setArena_readByte hw sp sp' a b v ha]
        by_cases hsp : sp' = sp
        · subst hsp
          simp only [true_and, List.length_cons]
          by_cases hb : b = a
          · subst hb; simp
          · by_cases hb2 : a + 1 ≤ b ∧ b < a + 1 + bs.length
            · rw [if_pos hb2, if_pos (by omega), show b - a = (b - (a + 1)) + 1 by omega]; simp
            · rw [if_neg hb2, if_neg hb, if_neg (by omega)]
        · simp [hsp]
      · rcases hmem c hc with hc | hc
        · rw [setArena_arena] at hc
          unfold Memory.put at hc
          split at hc
          · exact .inl (mem_erase hc)
          · rcases mem_insert hc with rfl | hc
            · exact .inr ⟨ha, by simp⟩
            · exact .inl hc
        · rw [setArena_arenaSize] at hc
          exact .inr ⟨hc.1, List.mem_cons_of_mem _ hc.2⟩

/-- Bytes that fit in the space can be stored. -/
theorem memWrites_of_le {sp : Space} {a : Nat} (bs : List Byte) {s : State} (h : a + bs.length ≤ s.arenaSize sp) :
    ∃ t, memWrites sp a bs s = .ok t := by
  induction bs generalizing a s with
  | nil => exact ⟨s, rfl⟩
  | cons v bs ih =>
    simp only [List.length_cons] at h
    simp only [memWrites, memWrite_of_lt v (show a < s.arenaSize sp by omega), bind, Except.bind]
    exact ih (by simp only [setArena_arenaSize]; omega)

/-- A read within a space whose unlisted cells read as a byte completes. -/
theorem memRead_of_lt {s : State} {sp : Space} {a : Nat} (h : a < s.arenaSize sp) (hsp : sp ≠ .block) :
    ∃ v, memRead s sp a = .ok v := by
  unfold memRead Memory.get
  rw [if_pos h]
  cases Memory.lookup (s.arena sp) a with
  | some v => exact ⟨v, rfl⟩
  | none => cases sp <;> first | exact ⟨_, rfl⟩ | exact absurd rfl hsp

/-- A read within a space gives the byte that stands there. -/
theorem memRead_ok {s : State} {sp : Space} {a : Nat} {v : Byte} (h : memRead s sp a = .ok v) :
    a < s.arenaSize sp ∧ s.readByte sp a = some v := by
  unfold memRead at h
  split at h
  · rename_i ha
    refine ⟨ha, ?_⟩
    unfold State.readByte
    rw [if_pos ha]
    split at h
    · rename_i hv; cases h; exact hv
    · cases h
  · cases h

/-- A run of BLOCK cells that have all been written can be read. -/
theorem memReads_block {s : State} {a n : Nat} (hlen : a + n ≤ s.arenaSize .block)
    (h : ∀ b, a ≤ b → b < a + n → (Memory.lookup s.block b).isSome = true) : ∃ bs, memReads s .block a n = .ok bs ∧ bs.length = n := by
  induction n generalizing a with
  | zero => exact ⟨[], rfl, rfl⟩
  | succ n ih =>
    obtain ⟨v, hv⟩ := Option.isSome_iff_exists.mp (h a (Nat.le_refl a) (by omega))
    obtain ⟨bs, hbs, hl⟩ := ih (a := a + 1) (by omega) fun b h1 h2 => h b (by omega) (by omega)
    refine ⟨v :: bs, ?_, by simp [hl]⟩
    have hr : memRead s .block a = .ok v := by
      unfold memRead Memory.get
      rw [if_pos (by omega)]
      show (match (match Memory.lookup s.block a with | some v => some v | none => none) with
        | some v => Except.ok v | none => Except.error (Stop.fault (.readBeforeWrite .block))) = _
      rw [hv]
    simp only [memReads, hr, hbs, bind, Except.bind]

end Sys2Proof.Machine
end

