-- ==== Sys2Proof/Laws/Voices.lean ====
section
/-! SUPPORT. The laws of the voice pool and the percussion bank: allocation, sizes, and what one frame of each can change. -/

namespace Sys2Proof.Machine

/-! ## Allocation -/

/-- `oldestFrom` gives a voice of the list with the least age, and the first such voice. -/
theorem oldestFrom_spec {k i age : Nat} {vs : List Voice} (h : oldestFrom k vs = some (i, age)) :
    ∃ v, k ≤ i ∧ vs[i - k]? = some v ∧ v.age = age ∧
      ∀ j (w : Voice), vs[j]? = some w → age ≤ w.age ∧ (w.age = age → i ≤ k + j) := by
  induction vs generalizing k i age with
  | nil => cases h
  | cons v vs ih =>
    simp only [oldestFrom] at h
    split at h
    · rename_i hn
      cases h
      have hnil : vs = [] := by
        cases vs with
        | nil => rfl
        | cons w ws => simp only [oldestFrom] at hn; split at hn <;> (try split at hn) <;> cases hn
      subst hnil
      refine ⟨v, Nat.le_refl _, by simp, rfl, fun j w hw => ?_⟩
      cases j with
      | zero => simp only [List.getElem?_cons_zero, Option.some.injEq] at hw; subst hw; exact ⟨Nat.le_refl _, fun _ => Nat.le_refl _⟩
      | succ j => simp at hw
    · rename_i j a hj
      obtain ⟨u, hk, hu, hua, hall⟩ := ih hj
      split at h
      · cases h
        rename_i hlt
        refine ⟨u, by omega, ?_, hua, fun m w hw => ?_⟩
        · rw [show i - k = (i - (k + 1)) + 1 by omega]; simpa using hu
        · cases m with
          | zero =>
            simp only [List.getElem?_cons_zero, Option.some.injEq] at hw
            subst hw
            exact ⟨by omega, by omega⟩
          | succ m =>
            have := hall m w (by simpa using hw)
            exact ⟨this.1, fun he => by have := this.2 he; omega⟩
      · cases h
        rename_i hge
        refine ⟨v, Nat.le_refl _, by simp, rfl, fun m w hw => ?_⟩
        cases m with
        | zero =>
          simp only [List.getElem?_cons_zero, Option.some.injEq] at hw
          subst hw
          exact ⟨Nat.le_refl _, fun _ => Nat.le_refl _⟩
        | succ m =>
          have := (hall m w (by simpa using hw)).1
          exact ⟨by omega, fun _ => by omega⟩

theorem oldestFrom_isSome {k : Nat} {vs : List Voice} (h : vs ≠ []) : (oldestFrom k vs).isSome = true := by
  cases vs with
  | nil => exact absurd rfl h
  | cons v vs => simp only [oldestFrom]; split <;> (try split) <;> rfl

/-- Poly allocation finds a voice of any window that is not empty. -/
theorem allocatePoly_isSome {w : Nat} {vs : List Voice} (hw : 0 < w) (hv : vs ≠ []) : (allocatePoly w vs).isSome = true := by
  unfold allocatePoly
  split
  · rfl
  · rw [Option.isSome_map]
    exact oldestFrom_isSome (by cases vs with | nil => exact absurd rfl hv | cons v vs => cases w with | zero => omega | succ w => simp)

/-- The voice poly allocation finds lies in the window. -/
theorem allocatePoly_lt {w i : Nat} {vs : List Voice} (h : allocatePoly w vs = some i) : i < w ∧ i < vs.length := by
  have hwin : i < (vs.take w).length := by
    unfold allocatePoly at h
    split at h
    · rename_i j hj
      cases h
      exact (List.findIdx?_eq_some_iff_getElem.mp hj).1
    · cases ho : oldestFrom 0 (vs.take w) with
      | none => rw [ho] at h; cases h
      | some p =>
        obtain ⟨j, age⟩ := p
        rw [ho] at h
        cases h
        obtain ⟨v, _, hv, _⟩ := oldestFrom_spec ho
        exact (List.getElem?_eq_some_iff.mp hv).1
  simp only [List.length_take] at hwin
  omega

/-! ## Sizes of the pool -/

@[simp] theorem cutOthers_length (vs : List Voice) : (cutOthers vs).length = vs.length := by
  cases vs <;> simp [cutOthers]

@[simp] theorem noteOn_length (a : Arith) (mono : Bool) (note vel : Byte) (i : Nat) (p : Pool) :
    (p.noteOn a mono note vel i).voices.length = p.voices.length := by
  unfold Pool.noteOn
  cases mono <;> simp

@[simp] theorem sampleVoices_length (c : Cfg) (fs : Nat) (p : Params) (vs : List Voice) :
    (sampleVoices c fs p vs).length = vs.length := by simp [sampleVoices]

/-! ## Which envelopes stay configured -/

@[simp] theorem env_noteOn_configured (e : Envelope) : e.noteOn.configured = e.configured := rfl

@[simp] theorem env_noteOff_configured (e : Envelope) : e.noteOff.configured = e.configured := by
  unfold Envelope.noteOff; split <;> rfl

@[simp] theorem env_process_configured (a : Arith) (e : Envelope) : (e.process a).configured = e.configured := by
  unfold Envelope.process; dsimp only; split <;> (try split) <;> rfl

@[simp] theorem sample_configured (c : Cfg) (fs : Nat) (p : Params) (v : Voice) :
    (v.sample c fs p).1.env.configured = v.env.configured := by
  unfold Voice.sample
  split
  · rfl
  · dsimp only; split <;> simp [Voice.deactivate, Voice.advance]

/-! ## The percussion bank -/

@[simp] theorem hitDrums_length (c : Cfg) (fs : Nat) (r : Recipe) (m : Kit) (p : Nat) (vel : Byte) (ds : List Drum) :
    (hitDrums c fs r m p vel ds).length = ds.length := by
  unfold hitDrums; split <;> simp

theorem renderDrum_drums (c : Cfg) (fs : Nat) (r : Recipe) (d : Drum) (acc : DrumFrame) :
    (renderDrum c fs r d acc).2.drums = acc.drums := by
  unfold renderDrum; split <;> rfl

/-- The bank renders when every part has a recipe, and keeps its size. -/
theorem renderDrumsFrom_ok {c : Cfg} {fs : Nat} {rs : List Recipe} {ds : List Drum} {acc : DrumFrame}
    (h : ds.length ≤ rs.length) :
    ∃ f, renderDrumsFrom c fs rs ds acc = .ok f ∧ f.drums.length = acc.drums.length + ds.length := by
  induction ds generalizing rs acc with
  | nil => exact ⟨acc, by cases rs <;> rfl, by simp⟩
  | cons d ds ih =>
    cases rs with
    | nil => simp at h
    | cons r rs =>
      obtain ⟨f, hf, hl⟩ := ih (rs := rs) (acc := { (renderDrum c fs r d acc).2 with
        drums := (renderDrum c fs r d acc).2.drums ++ [(renderDrum c fs r d acc).1] }) (by simpa using h)
      refine ⟨f, hf, ?_⟩
      simp only [renderDrum_drums, List.length_append, List.length_cons, List.length_nil] at hl ⊢
      omega

theorem renderDrums_ok {c : Cfg} (fs : Nat) {ds : List Drum} (noise : Word) (h : ds.length ≤ c.recipes.length) :
    ∃ f, renderDrums c fs ds noise = .ok f ∧ f.drums.length = ds.length := by
  obtain ⟨f, hf, hl⟩ := renderDrumsFrom_ok (c := c) (fs := fs) (acc := { drums := [], noise := noise, left := .fin 0, right := .fin 0 }) h
  exact ⟨f, hf, by simpa using hl⟩

theorem renderDrumsFrom_length {c : Cfg} {fs : Nat} {rs : List Recipe} {ds : List Drum} {acc f : DrumFrame}
    (h : renderDrumsFrom c fs rs ds acc = .ok f) : f.drums.length = acc.drums.length + ds.length := by
  induction ds generalizing rs acc with
  | nil => cases rs <;> (cases h; simp)
  | cons d ds ih =>
    cases rs with
    | nil => cases h
    | cons r rs =>
      have hl := ih h
      simp only [renderDrum_drums, List.length_append, List.length_cons, List.length_nil] at hl ⊢
      omega

theorem renderDrums_length {c : Cfg} {fs : Nat} {ds : List Drum} {noise : Word} {f : DrumFrame}
    (h : renderDrums c fs ds noise = .ok f) : f.drums.length = ds.length := by
  have := renderDrumsFrom_length h
  simpa using this

/-- A part is cut exactly when it is not attacking and its level is below the threshold (R523). -/
theorem settle_eq (a : Arith) (d : Drum) :
    d.settle a = { d with active := d.active && (d.attacking || !d.envLevel.lt (a.const drumCutThreshold)) } := by
  unfold Drum.settle drumDone
  cases h1 : d.attacking <;> cases h2 : d.envLevel.lt (a.const drumCutThreshold) <;> simp [Drum.deactivate] <;>
    (cases d; simp_all)

/-- The bank renders its parts in index order, each with its recipe (R520). -/
theorem renderDrumsFrom_eq {c : Cfg} (fs : Nat) {rs : List Recipe} {ds : List Drum} (acc : DrumFrame) (h : ds.length ≤ rs.length) :
    renderDrumsFrom c fs rs ds acc = .ok ((ds.zip rs).foldl (fun acc x =>
        let y := renderDrum c fs x.2 x.1 acc
        { y.2 with drums := acc.drums ++ [y.1] }) acc) := by
  induction ds generalizing rs acc with
  | nil => cases rs <;> rfl
  | cons d ds ih =>
    cases rs with
    | nil => simp at h
    | cons r rs =>
      rw [renderDrumsFrom, ih _ (by simpa using h)]
      simp only [List.zip_cons_cons, List.foldl_cons]
      have : (renderDrum c fs r d acc).2.drums = acc.drums := by unfold renderDrum; split <;> rfl
      rw [this]

end Sys2Proof.Machine
end

