-- ==== Sys2Proof/Laws/Pipeline.lean ====
section
/-! SUPPORT. What the stages of a frame can change, and when a frame completes. -/

namespace Sys2Proof.Machine

/-- A computation of two parts completes through the completion of the first. -/
theorem bind_ok {α β : Type} {x : Run α} {f : α → Run β} {b : β} (h : x.bind f = .ok b) :
    ∃ a, x = .ok a ∧ f a = .ok b := by
  cases x with
  | ok a => exact ⟨a, rfl, h⟩
  | error e => cases h

/-- `finish` answers a next state exactly for a completed computation. -/
theorem finish_next {x : Run State} {t : State} : finish x = .next t ↔ x = .ok t := by
  rcases x with (_ | _) | _ <;> simp [finish]

/-- A clamp of a signal gives a number between its bounds, or its operand is a NaN and it is refused (R400). -/
theorem clampSignal_cases {lo hi : Rat} (h : lo ≤ hi) (x : RealNum) :
    (∃ q, clampSignal x lo hi = .ok q ∧ lo ≤ q ∧ q ≤ hi) ∨
    (x = .nan ∧ clampSignal x lo hi = .error (.refusal .nanOperand)) := by
  cases x with
  | fin q => exact .inl ⟨_, rfl, clamp_bounds h q⟩
  | inf s => cases s <;> exact .inl ⟨_, rfl, by simp [h]⟩
  | nan => exact .inr ⟨rfl, rfl⟩

theorem clampSignal_ok {lo hi q : Rat} (h : lo ≤ hi) {x : RealNum} (hq : clampSignal x lo hi = .ok q) : lo ≤ q ∧ q ≤ hi := by
  rcases clampSignal_cases h x with ⟨r, hr, hb⟩ | ⟨_, hr⟩
  · rw [hr] at hq; cases hq; exact hb
  · rw [hr] at hq; cases hq

/-! ## Steps 1 to 7 -/

/-- Steps 1 to 6 move the voices and the filter memories, and nothing else. -/
theorem monoStage_frame (s : State) :
    (monoStage s).1 = { s with pool := (monoStage s).1.pool, filter := (monoStage s).1.filter } := rfl

theorem monoStage_ageCounter (s : State) : (monoStage s).1.pool.ageCounter = s.pool.ageCounter := rfl

theorem monoStage_voices (s : State) :
    (monoStage s).1.pool.voices = sampleVoices s.cfg s.life.fs s.snapshot.params s.pool.voices := rfl

theorem monoStage_configured (s : State) : (monoStage s).1.filter.configured = s.filter.configured := rfl

/-- Step 7 moves the bank and the noise state, and nothing else. -/
theorem drumStage_ok {s t : State} {y : RealNum} {x : Stereo} (h : drumStage s y = .ok (t, x)) :
    t = { s with drums := t.drums, noise := t.noise } ∧ t.drums.length = s.drums.length ∧
    ∃ f, renderDrums s.cfg s.life.fs s.drums s.noise = .ok f ∧ t.drums = f.drums ∧ t.noise = f.noise ∧
      x = { left := s.cfg.arith.add y f.left, right := s.cfg.arith.add y f.right } := by
  obtain ⟨f, hf, ht⟩ := bind_ok h
  cases ht
  exact ⟨rfl, renderDrums_length hf, f, hf, rfl, rfl, rfl⟩

/-- Step 7 completes when every part has a recipe. -/
theorem drumStage_completes {s : State} (y : RealNum) (h : s.drums.length ≤ s.cfg.recipes.length) :
    ∃ t x, drumStage s y = .ok (t, x) := by
  obtain ⟨f, hf, -⟩ := renderDrums_ok (c := s.cfg) s.life.fs s.noise h
  unfold drumStage
  simp only [hf, bind, Except.bind]
  exact ⟨_, _, rfl⟩

/-! ## Step 8 -/

theorem tapIndex_lt {len writeIdx d : Nat} (h : 0 < len) : tapIndex len writeIdx d < len := Nat.mod_lt _ h

/-- A stored delay value lies in [−127, 127], so the byte 0x80 is never written (20_memory.md R204). -/
theorem encodeSample_ne {a : Arith} {x : RealNum} {v : Byte} (h : encodeSample a x = .ok v) : v ≠ 0x80 := by
  obtain ⟨q, hq, hv⟩ := bind_ok h
  cases hv
  obtain ⟨h1, h2⟩ := clampSignal_ok (by norm_num) hq
  have f1 : -127 ≤ q.floor := by rw [floor_eq]; exact Int.le_floor.mpr (by exact_mod_cast h1)
  have f2 : q.floor ≤ 127 := by rw [floor_eq]; exact_mod_cast (Int.floor_le q).trans h2
  intro hv
  have := congrArg BitVec.toInt hv
  rw [BitVec.toInt_ofInt, show (0x80 : BitVec 8).toInt = -128 by decide, Int.bmod_eq_of_le (by omega) (by omega)] at this
  omega

/-- Step 8 writes one cell of the delay line and moves the write index. -/
theorem delayStage_ok {s t : State} {x y : Stereo} (h : delayStage s x = .ok (t, y)) :
    s.delay.writeIdx < s.delay.len ∧ ∃ v,
      t = { s with delay := { cells := Memory.put (some 0) s.delay.cells s.delay.writeIdx v, len := s.delay.len,
                              writeIdx := (s.delay.writeIdx + 1) % s.delay.len } } ∧ v ≠ 0x80 := by
  obtain ⟨d, _, h⟩ := bind_ok h
  obtain ⟨b, _, h⟩ := bind_ok h
  obtain ⟨v, hv, h⟩ := bind_ok h
  obtain ⟨s', hw, h⟩ := bind_ok h
  obtain ⟨hlt, rfl⟩ := memWrite_ok hw
  cases h
  exact ⟨hlt, v, rfl, encodeSample_ne hv⟩

/-- The tap distance is computed, or the arithmetic gives a NaN. -/
theorem delaySamples_cases (a : Arith) (fs : Nat) {len : Nat} (ms : Rat) (h : 2 ≤ len) :
    (∃ d, delaySamples a fs len ms = .ok d) ∨ delaySamples a fs len ms = .error (.refusal .nanOperand) := by
  have hlen : (1 : Rat) ≤ (len : Nat) - 1 := by
    have : (2 : Rat) ≤ len := by exact_mod_cast h
    linarith
  unfold delaySamples
  rcases clampSignal_cases hlen (a.div (a.mul (.fin ms) (a.const (fs : Nat))) (.fin 1000)).round with ⟨q, hq, _⟩ | ⟨_, hq⟩ <;>
    rw [hq]
  · exact .inl ⟨_, rfl⟩
  · exact .inr rfl

theorem encodeSample_cases (a : Arith) (x : RealNum) :
    (∃ v, encodeSample a x = .ok v) ∨ encodeSample a x = .error (.refusal .nanOperand) := by
  unfold encodeSample
  rcases clampSignal_cases (show (-127 : Rat) ≤ 127 by norm_num) (a.mul (.fin 127) x).round with ⟨q, hq, _⟩ | ⟨_, hq⟩ <;> rw [hq]
  · exact .inl ⟨_, rfl⟩
  · exact .inr rfl

/-- Step 8 completes when the write index lies in the buffer, unless a sample is a NaN. -/
theorem delayStage_cases {s : State} (x : Stereo) (h : s.delay.writeIdx < s.delay.len) (h2 : 2 ≤ s.delay.len) :
    (∃ t y, delayStage s x = .ok (t, y)) ∨ delayStage s x = .error (.refusal .nanOperand) := by
  unfold delayStage
  rcases delaySamples_cases s.cfg.arith s.life.fs s.snapshot.params.delayMs h2 with ⟨d, hd⟩ | hd
  · obtain ⟨b, hb⟩ := memRead_of_lt (s := s) (sp := .delay) (a := tapIndex s.delay.len s.delay.writeIdx d)
      (tapIndex_lt (by omega)) (by decide)
    simp only [hd, hb, bind, Except.bind]
    rcases encodeSample_cases s.cfg.arith (s.cfg.arith.add (s.cfg.arith.div (s.cfg.arith.add x.left x.right) (.fin 2))
      (s.cfg.arith.mul (.fin s.snapshot.params.delayFeedback) (decodeSample s.cfg.arith b))) with ⟨v, hv⟩ | hv
    · simp only [hv, memWrite_of_lt (sp := .delay) _ (show s.delay.writeIdx < s.arenaSize .delay from h)]
      exact .inl ⟨_, _, rfl⟩
    · simp only [hv]
      exact .inr trivial
  · simp only [hd, bind, Except.bind]
    exact .inr trivial

/-- The delay line stays well formed through step 8. -/
theorem put_delayOk {m : Memory} {len w : Nat} {v : Byte} (hm : ∀ c ∈ m, c.1 < len ∧ c.2 ≠ 0x80) (hw : w < len) (hv : v ≠ 0x80) :
    ∀ c ∈ Memory.put (some 0) m w v, c.1 < len ∧ c.2 ≠ 0x80 := by
  intro c hc
  unfold Memory.put at hc
  split at hc
  · exact hm c (mem_erase hc)
  · rcases mem_insert hc with rfl | hc
    · exact ⟨hw, hv⟩
    · exact hm c hc

/-! ## Steps 9 to 12 -/

/-- Steps 9 to 11 move the reverb, the DC blockers and the fade, and nothing else. -/
theorem outputStage_frame (s : State) (x : Stereo) : (outputStage s x).1 =
    { s with reverb := (outputStage s x).1.reverb, dcL := (outputStage s x).1.dcL, dcR := (outputStage s x).1.dcR,
             fade := s.fade.advance s.cfg.arith } := rfl

theorem lookup_put_block {m : Memory} {a b : Nat} {v : Byte} :
    (Memory.lookup m b).isSome = true → (Memory.lookup (Memory.put none m a v) b).isSome = true := by
  intro h
  rw [Memory.put, if_neg (by simp), lookup_insert]
  split
  · rfl
  · exact h

/-- Stores to BLOCK keep what was written, and write what they store. -/
theorem memWrites_block {a : Nat} {bs : List Byte} {s t : State} (h : memWrites .block a bs s = .ok t) (b : Nat)
    (hb : (Memory.lookup s.block b).isSome = true ∨ a ≤ b ∧ b < a + bs.length) : (Memory.lookup t.block b).isSome = true := by
  induction bs generalizing a s with
  | nil =>
    cases h
    rcases hb with hb | hb
    · exact hb
    · simp only [List.length_nil] at hb; omega
  | cons v bs ih =>
    obtain ⟨s', hs', h⟩ := bind_ok h
    obtain ⟨-, rfl⟩ := memWrite_ok hs'
    refine ih h ?_
    rcases hb with hb | hb
    · exact .inl (lookup_put_block hb)
    · by_cases hab : b = a
      · refine .inl ?_
        show (Memory.lookup (Memory.put none s.block a v) b).isSome = true
        rw [Memory.put, if_neg (by simp), lookup_insert, if_pos hab]
        rfl
      · exact .inr (by simp only [List.length_cons] at hb; omega)

/-- Stores to BLOCK keep its canonical form. -/
theorem memWrites_block_wf {a : Nat} {bs : List Byte} {s t : State} (h : memWrites .block a bs s = .ok t)
    (hs : Memory.wf none s.block) : Memory.wf none t.block := by
  induction bs generalizing a s with
  | nil => cases h; exact hs
  | cons v bs ih =>
    obtain ⟨s', hs', h⟩ := bind_ok h
    obtain ⟨-, rfl⟩ := memWrite_ok hs'
    exact ih h (put_wf hs a v)

@[simp] theorem s16Bytes_length (x : Int) : (s16Bytes x).length = 2 := rfl

/-- Step 12 stores the four bytes of frame `k`. -/
theorem blockStage_ok {s t : State} {k : Nat} {x : Stereo} (h : blockStage s k x = .ok t) :
    (∃ m, t = { s with block := m }) ∧ (Memory.wf none s.block → Memory.wf none t.block) ∧
    ∀ b, (Memory.lookup s.block b).isSome = true ∨ 4 * k ≤ b ∧ b < 4 * k + 4 → (Memory.lookup t.block b).isSome = true := by
  obtain ⟨l, _, h⟩ := bind_ok h
  obtain ⟨r, _, h⟩ := bind_ok h
  refine ⟨?_, memWrites_block_wf h, fun b hb => memWrites_block h b (by simpa using hb)⟩
  obtain ⟨m, rfl, -⟩ := memWrites_ok h
  exact ⟨m, rfl⟩

theorem q16_cases (a : Arith) (x : RealNum) : (∃ q, q16 a x = .ok q) ∨ q16 a x = .error (.refusal .nanOperand) := by
  unfold q16
  rcases clampSignal_cases (show (-1 : Rat) ≤ 1 by norm_num) x with ⟨q, hq, _⟩ | ⟨_, hq⟩ <;> rw [hq]
  · exact .inl ⟨_, rfl⟩
  · exact .inr rfl

/-- Step 12 completes within the block, unless a sample is a NaN. -/
theorem blockStage_cases {s : State} {k : Nat} (x : Stereo) (h : k < s.life.blockSize) :
    (∃ t, blockStage s k x = .ok t) ∨ blockStage s k x = .error (.refusal .nanOperand) := by
  unfold blockStage
  rcases q16_cases s.cfg.arith x.left with ⟨l, hl⟩ | hl
  · rcases q16_cases s.cfg.arith x.right with ⟨r, hr⟩ | hr
    · obtain ⟨t, ht⟩ := memWrites_of_le (sp := .block) (a := 4 * k) (s16Bytes l ++ s16Bytes r) (s := s)
        (by simp only [List.length_append, s16Bytes_length, State.arenaSize]; omega)
      simp only [hl, hr, bind, Except.bind]
      exact .inl ⟨t, ht⟩
    · simp only [hl, hr, bind, Except.bind]
      exact .inr trivial
  · simp only [hl, bind, Except.bind]
    exact .inr trivial

/-! ## The frame -/

/-- What a frame changes: the signal state and four bytes of BLOCK; and what it keeps of them. -/
theorem frame_ok {k : Nat} {s t : State} (h : frame k s = .ok t) :
    t = { s with pool := t.pool, filter := t.filter, drums := t.drums, noise := t.noise, delay := t.delay,
                 reverb := t.reverb, dcL := t.dcL, dcR := t.dcR, fade := s.fade.advance s.cfg.arith, block := t.block } ∧
    t.pool.ageCounter = s.pool.ageCounter ∧
    t.pool.voices = sampleVoices s.cfg s.life.fs s.snapshot.params s.pool.voices ∧
    t.filter.configured = s.filter.configured ∧ t.drums.length = s.drums.length ∧
    (∃ f, renderDrums s.cfg s.life.fs s.drums s.noise = .ok f ∧ t.drums = f.drums ∧ t.noise = f.noise) ∧
    s.delay.writeIdx < s.delay.len ∧
    (∃ v, v ≠ 0x80 ∧ t.delay = { cells := Memory.put (some 0) s.delay.cells s.delay.writeIdx v, len := s.delay.len,
                                 writeIdx := (s.delay.writeIdx + 1) % s.delay.len }) ∧
    (Memory.wf none s.block → Memory.wf none t.block) ∧
    ∀ b, (Memory.lookup s.block b).isSome = true ∨ 4 * k ≤ b ∧ b < 4 * k + 4 → (Memory.lookup t.block b).isSome = true := by
  unfold frame at h
  split at h
  · cases h
  · obtain ⟨⟨d, x⟩, hd, h⟩ := bind_ok h
    obtain ⟨⟨u, y⟩, hu, h⟩ := bind_ok h
    obtain ⟨hdf, hdl, f, hf, hfd, hfn, -⟩ := drumStage_ok hd
    obtain ⟨dr, no, rfl⟩ : ∃ dr no, d = { (monoStage s).1 with drums := dr, noise := no } := ⟨_, _, hdf⟩
    obtain ⟨hlt, v, rfl, hv⟩ := delayStage_ok hu
    obtain ⟨⟨m, rfl⟩, hwf, hb⟩ := blockStage_ok h
    exact ⟨rfl, rfl, rfl, rfl, hdl, ⟨f, hf, hfd, hfn⟩, hlt, ⟨v, hv, rfl⟩, hwf, hb⟩

/-- Every register the frame reads has been written, in a block whose SNAP has run. -/
theorem frameUnset_none {s : State} (hsnap : s.snapshot.taken = true) (hstart : s.life.started = true)
    (hv : ∀ v ∈ s.pool.voices, v.env.configured = true) (hf : s.filter.configured = true) : frameUnset s = none := by
  have hany : (s.pool.voices.any fun v => v.active && !v.env.configured) = false := by
    rw [List.any_eq_false]
    intro v hm
    simp [hv v hm]
  simp [frameUnset, hsnap, hstart, hany, hf]

/-- A frame of the block completes when its registers have been written and its indices are in range, unless a sample
is a NaN. -/
theorem frame_cases {k : Nat} {s : State} (hu : frameUnset s = none) (hr : s.drums.length ≤ s.cfg.recipes.length)
    (hd : s.delay.writeIdx < s.delay.len) (h2 : 2 ≤ s.delay.len) (hk : k < s.life.blockSize) :
    (∃ t, frame k s = .ok t) ∨ frame k s = .error (.refusal .nanOperand) := by
  obtain ⟨d, x, hdr⟩ := drumStage_completes (s := (monoStage s).1) (monoStage s).2 hr
  obtain ⟨dr, no, rfl⟩ : ∃ dr no, d = { (monoStage s).1 with drums := dr, noise := no } := ⟨_, _, (drumStage_ok hdr).1⟩
  unfold frame
  rw [hu]
  rcases delayStage_cases (s := { (monoStage s).1 with drums := dr, noise := no }) x hd h2 with ⟨u, y, hde⟩ | hde
  · obtain ⟨-, v, rfl, -⟩ := delayStage_ok hde
    simp only [hdr, hde, bind, Except.bind]
    exact blockStage_cases _ hk
  · simp only [hdr, hde, bind, Except.bind]
    exact .inr trivial

/-! ## What a frame computes -/

/-- A rounded value clamped between integers is an integer. -/
theorem clampSignal_round {x : RealNum} {lo hi : Int} {q : Rat} (h : clampSignal x.round lo hi = .ok q) : ∃ n : Int, q = n := by
  cases x with
  | fin v =>
    cases h
    unfold clamp
    split_ifs
    · exact ⟨lo, rfl⟩
    · exact ⟨hi, rfl⟩
    · exact ⟨_, rfl⟩
  | inf s => cases s <;> cases h <;> exact ⟨_, rfl⟩
  | nan => cases h

/-- The tap distance is the clamped rounding itself (R921). -/
theorem delaySamples_value {a : Arith} {fs len d : Nat} {ms : Rat} (h : delaySamples a fs len ms = .ok d) (hl : 2 ≤ len) :
    clampSignal (a.div (a.mul (.fin ms) (a.const (fs : Nat))) (.fin 1000)).round 1 ((len : Nat) - 1) = .ok (d : Nat) ∧
      1 ≤ d ∧ d + 1 ≤ len := by
  obtain ⟨q, hq, hd⟩ := bind_ok h
  have hq' : clampSignal (a.div (a.mul (.fin ms) (a.const (fs : Nat))) (.fin 1000)).round ((1 : Int) : Rat) (((len : Int) - 1 : Int) : Rat) = .ok q := by
    push_cast; exact hq
  obtain ⟨n, rfl⟩ := clampSignal_round hq'
  have h2 : (2 : Rat) ≤ len := by exact_mod_cast hl
  obtain ⟨h0, h1⟩ := clampSignal_ok (by linarith) hq
  have hn0 : 1 ≤ n := by exact_mod_cast h0
  have hn1 : n + 1 ≤ len := by
    have : (n : Rat) + 1 ≤ len := by linarith
    exact_mod_cast this
  cases hd
  rw [floor_eq, Int.floor_intCast] at *
  have : ((n.toNat : Nat) : Rat) = n := by
    have : ((n.toNat : Nat) : Int) = n := Int.toNat_of_nonneg (by omega)
    exact_mod_cast this
  exact ⟨by rw [hq, this], by omega, by omega⟩

/-- The stored byte is the clamped rounding as an s8 (20_memory.md R204). -/
theorem encodeSample_value {a : Arith} {x : RealNum} {v : Byte} (h : encodeSample a x = .ok v) :
    ∃ n : Int, clampSignal (a.mul (.fin 127) x).round (-127) 127 = .ok (n : Rat) ∧ v = BitVec.ofInt 8 n := by
  obtain ⟨q, hq, hv⟩ := bind_ok h
  have hq' : clampSignal (a.mul (.fin 127) x).round ((-127 : Int) : Rat) ((127 : Int) : Rat) = .ok q := by push_cast; exact hq
  obtain ⟨n, rfl⟩ := clampSignal_round hq'
  cases hv
  exact ⟨n, hq, by rw [floor_eq, Int.floor_intCast]⟩

/-- The tap index is the write index less the distance, modulo the length (R920). -/
theorem tapIndex_eq {len w d : Nat} (h : d + 1 ≤ len) : tapIndex len w d = (((w : Int) - d) % len).toNat := by
  have h1 : ((w : Int) - d) % len = ((w + len - d : Nat) : Int) % len := by
    rw [Nat.cast_sub (by omega)]
    push_cast
    rw [show (w : Int) + len - d = w - d + len by ring, Int.add_emod_right]
  rw [h1, tapIndex, ← Int.natCast_mod, Int.toNat_natCast]

/-- What step 8 reads, stores and gives (R920 to R922). -/
theorem delayStage_value {s t : State} {x y : Stereo} (h : delayStage s x = .ok (t, y)) (hl : 2 ≤ s.delay.len) :
    let a := s.cfg.arith
    let p := s.snapshot.params
    ∃ (d : Nat) (b : Byte) (code : Int),
      clampSignal (a.div (a.mul (.fin p.delayMs) (a.const (s.life.fs : Nat))) (.fin 1000)).round 1 ((s.delay.len : Nat) - 1) = .ok (d : Nat) ∧
      s.readByte .delay (((s.delay.writeIdx : Int) - d) % s.delay.len).toNat = some b ∧
      clampSignal (a.mul (.fin 127) (a.add (a.div (a.add x.left x.right) (.fin 2)) (a.mul (.fin p.delayFeedback) (decodeSample a b)))).round
        (-127) 127 = .ok code ∧
      t = { s with delay := { cells := Memory.put (some 0) s.delay.cells s.delay.writeIdx (BitVec.ofInt 8 code), len := s.delay.len,
                              writeIdx := (s.delay.writeIdx + 1) % s.delay.len } } ∧
      y = { left := wetDry a p.delayMix x.left (decodeSample a b), right := wetDry a p.delayMix x.right (decodeSample a b) } := by
  obtain ⟨d, hd, h⟩ := bind_ok h
  obtain ⟨b, hb, h⟩ := bind_ok h
  obtain ⟨v, hv, h⟩ := bind_ok h
  obtain ⟨s', hw, h⟩ := bind_ok h
  obtain ⟨hlt, rfl⟩ := memWrite_ok hw
  obtain ⟨hd1, hd2, hd3⟩ := delaySamples_value hd hl
  obtain ⟨n, hn, rfl⟩ := encodeSample_value hv
  cases h
  exact ⟨d, b, n, hd1, tapIndex_eq hd3 ▸ (memRead_ok hb).2, hn, rfl, rfl⟩

/-- The bytes of an s16: its value modulo 256, and the floor of a 256th of it. -/
theorem s16Bytes_eq (x : Int) : s16Bytes x = [BitVec.ofInt 8 x, BitVec.ofInt 8 (x / 256)] := by
  show [(BitVec.ofInt 16 x).extractLsb' 0 8, (BitVec.ofInt 16 x).extractLsb' 8 8] = _
  refine congrArg₂ (fun u v => [u, v]) ?_ ?_ <;> apply BitVec.eq_of_toNat_eq <;>
    simp only [BitVec.extractLsb'_toNat, BitVec.toNat_ofInt, Nat.shiftRight_eq_div_pow] <;> omega

/-- The code of step 12 is the rounding of the clamped and scaled sample (R934). -/
theorem q16_value {a : Arith} {x : RealNum} {n : Int} (h : q16 a x = .ok n) :
    ∃ c, clampSignal x (-1) 1 = .ok c ∧ n = roundHalfAway (a.near (32767 * c)) := by
  obtain ⟨c, hc, h⟩ := bind_ok h
  cases h
  exact ⟨c, hc, rfl⟩

/-- What step 12 stores (R934, 20_memory.md R205). -/
theorem blockStage_value {s t : State} {k : Nat} {x : Stereo} (h : blockStage s k x = .ok t) :
    ∃ (cl cr : Rat) (l r : Int) (m : Memory), clampSignal x.left (-1) 1 = .ok cl ∧ clampSignal x.right (-1) 1 = .ok cr ∧
      l = roundHalfAway (s.cfg.arith.near (32767 * cl)) ∧ r = roundHalfAway (s.cfg.arith.near (32767 * cr)) ∧
      t = { s with block := m } ∧
      (s.memoryWf → ∀ sp b, t.readByte sp b = if sp = .block ∧ 4 * k ≤ b ∧ b < 4 * k + 4 then
        [BitVec.ofInt 8 l, BitVec.ofInt 8 (l / 256), BitVec.ofInt 8 r, BitVec.ofInt 8 (r / 256)][b - 4 * k]? else s.readByte sp b) := by
  obtain ⟨l, hl, h⟩ := bind_ok h
  obtain ⟨r, hr, h⟩ := bind_ok h
  obtain ⟨cl, hcl, rfl⟩ := q16_value hl
  obtain ⟨cr, hcr, rfl⟩ := q16_value hr
  obtain ⟨m, rfl, -, -, hread, -⟩ := memWrites_ok h
  refine ⟨cl, cr, _, _, m, hcl, hcr, rfl, rfl, rfl, fun hw sp b => ?_⟩
  rw [hread hw sp b, s16Bytes_eq, s16Bytes_eq]
  rfl

/-- What a frame computes and stores: the values of R900's steps, the state after them, and every byte. -/
theorem frame_values {k : Nat} {s t : State} (h : frame k s = .ok t) (hl : 2 ≤ s.delay.len) (hw : s.memoryWf) :
    ∃ (f : DrumFrame) (y : Stereo) (d : Nat) (b : Byte) (code : Int) (cl cr : Rat) (l r : Int),
      let a := s.cfg.arith
      let p := s.snapshot.params
      let m := monoStage s
      let x : Stereo := { left := a.add m.2 f.left, right := a.add m.2 f.right }
      let o := outputStage s y
      renderDrums s.cfg s.life.fs s.drums s.noise = .ok f ∧
      clampSignal (a.div (a.mul (.fin p.delayMs) (a.const (s.life.fs : Nat))) (.fin 1000)).round 1 ((s.delay.len : Nat) - 1) = .ok (d : Nat) ∧
      s.readByte .delay (((s.delay.writeIdx : Int) - d) % s.delay.len).toNat = some b ∧
      clampSignal (a.mul (.fin 127) (a.add (a.div (a.add x.left x.right) (.fin 2)) (a.mul (.fin p.delayFeedback) (decodeSample a b)))).round
        (-127) 127 = .ok code ∧
      y = { left := wetDry a p.delayMix x.left (decodeSample a b), right := wetDry a p.delayMix x.right (decodeSample a b) } ∧
      clampSignal o.2.left (-1) 1 = .ok cl ∧ clampSignal o.2.right (-1) 1 = .ok cr ∧
      l = roundHalfAway (a.near (32767 * cl)) ∧ r = roundHalfAway (a.near (32767 * cr)) ∧
      t = { s with
        pool := m.1.pool, filter := m.1.filter, drums := f.drums, noise := f.noise
        delay := { cells := Memory.put (some 0) s.delay.cells s.delay.writeIdx (BitVec.ofInt 8 code), len := s.delay.len,
                   writeIdx := (s.delay.writeIdx + 1) % s.delay.len }
        reverb := o.1.reverb, dcL := o.1.dcL, dcR := o.1.dcR, fade := o.1.fade, block := t.block } ∧
      (∀ i, 4 * k ≤ i → i < 4 * k + 4 → t.readByte .block i =
        [BitVec.ofInt 8 l, BitVec.ofInt 8 (l / 256), BitVec.ofInt 8 r, BitVec.ofInt 8 (r / 256)][i - 4 * k]?) ∧
      t.readByte .delay s.delay.writeIdx = some (BitVec.ofInt 8 code) ∧
      ∀ sp i, ¬ (sp = .delay ∧ i = s.delay.writeIdx) → ¬ (sp = .block ∧ 4 * k ≤ i ∧ i < 4 * k + 4) → t.readByte sp i = s.readByte sp i := by
  unfold frame at h
  split at h
  · cases h
  · obtain ⟨⟨d, x⟩, hd, h⟩ := bind_ok h
    obtain ⟨⟨u, y⟩, hu, h⟩ := bind_ok h
    obtain ⟨hdf, -, f, hf, hfd, hfn, rfl⟩ := drumStage_ok hd
    have hd' : d = { (monoStage s).1 with drums := f.drums, noise := f.noise } := by rw [← hfd, ← hfn]; exact hdf
    subst hd'
    obtain ⟨hlt, -⟩ := delayStage_ok hu
    obtain ⟨n, b, code, h1, h2, h3, rfl, rfl⟩ := delayStage_value hu hl
    obtain ⟨cl, cr, l, r, m, h4, h5, h6, h7, rfl, h8⟩ := blockStage_value h
    have hp : Memory.wf (some 0) (Memory.put (some 0) s.delay.cells s.delay.writeIdx (BitVec.ofInt 8 code)) := put_wf hw.1 _ _
    have hread := h8 ⟨hp, hw.2⟩
    refine ⟨f, _, n, b, code, cl, cr, l, r, hf, h1, h2, h3, rfl, h4, h5, h6, h7, rfl, fun i h0 h1 => ?_, ?_, fun sp i n1 n2 => ?_⟩
    · rw [hread, if_pos ⟨rfl, h0, h1⟩]
    · rw [hread, if_neg (by simp)]
      exact (setArena_readByte hw .delay .delay s.delay.writeIdx _ _ hlt).trans (if_pos ⟨rfl, rfl⟩)
    · rw [hread, if_neg n2]
      have hset := (setArena_readByte hw .delay sp s.delay.writeIdx i (BitVec.ofInt 8 code) hlt).trans (if_neg n1)
      cases sp <;> exact hset

/-! ## The noise state -/

/-- A word that its left shift by at least one place cancels is zero. -/
theorem eq_zero_of_xor_shiftLeft {x : Word} {k : Nat} (hk : 0 < k) (h : x ^^^ (x <<< k) = 0) : x = 0 := by
  have hx : x = x <<< k := by
    have := congrArg (· ^^^ (x <<< k)) h
    simpa [BitVec.xor_assoc] using this
  have hbit : ∀ n, x.getLsbD n = false := by
    intro n
    induction n using Nat.strongRecOn with
    | ind n ih =>
      rw [hx, BitVec.getLsbD_shiftLeft]
      by_cases hn : n < k
      · simp [hn]
      · simp [ih (n - k) (by omega)]
  exact BitVec.eq_of_getLsbD_eq fun i _ => by simp [hbit i]

/-- A word that its right shift by at least one place cancels is zero. -/
theorem eq_zero_of_xor_ushiftRight {x : Word} {k : Nat} (hk : 0 < k) (h : x ^^^ (x >>> k) = 0) : x = 0 := by
  have hx : x = x >>> k := by
    have := congrArg (· ^^^ (x >>> k)) h
    simpa [BitVec.xor_assoc] using this
  have hbit : ∀ m n, 32 ≤ n + m → x.getLsbD n = false := by
    intro m
    induction m with
    | zero => intro n hn; exact BitVec.getLsbD_of_ge x n (by omega)
    | succ m ih =>
      intro n hn
      rw [hx, BitVec.getLsbD_ushiftRight]
      exact ih (k + n) (by omega)
  exact BitVec.eq_of_getLsbD_eq fun i _ => by simp [hbit 32 i (by omega)]

/-- A nonzero noise state never becomes 0 (40_dsp_primitives.md R470). -/
theorem noiseNext_ne_zero {w : Word} (h : w ≠ 0) : noiseNext w ≠ 0 := by
  intro h0
  refine h (eq_zero_of_xor_shiftLeft (k := 13) (by omega) (eq_zero_of_xor_ushiftRight (k := 17) (by omega) ?_))
  exact eq_zero_of_xor_shiftLeft (k := 5) (by omega) h0

theorem renderDrumsFrom_noise {c : Cfg} {fs : Nat} {rs : List Recipe} {ds : List Drum} {acc f : DrumFrame}
    (h : renderDrumsFrom c fs rs ds acc = .ok f) (h0 : acc.noise ≠ 0) : f.noise ≠ 0 := by
  induction ds generalizing rs acc with
  | nil => cases rs <;> (cases h; exact h0)
  | cons d ds ih =>
    cases rs with
    | nil => cases h
    | cons r rs =>
      refine ih h ?_
      show (renderDrum c fs r d acc).2.noise ≠ 0
      unfold renderDrum
      split
      · exact noiseNext_ne_zero h0
      · exact h0

/-- The bank leaves a nonzero noise state nonzero. -/
theorem renderDrums_noise {c : Cfg} {fs : Nat} {ds : List Drum} {noise : Word} {f : DrumFrame}
    (h : renderDrums c fs ds noise = .ok f) (h0 : noise ≠ 0) : f.noise ≠ 0 := renderDrumsFrom_noise h h0

end Sys2Proof.Machine
end

