-- ==== Sys2Proof/Laws/Queue.lean ====
section
/-! SUPPORT. What a push and a pop of the command ring can do, and when they complete. -/

namespace Sys2Proof.Machine

/-- What a push answers: a drop on a full ring, counted and nothing else; else the record stored in the head slot,
the head moved over it. -/
theorem push_cases {r : Record} {s t : State} {b : Bool} (h : push r s = .ok (t, b)) :
    (s.queueFull = true ∧ b = false ∧ t = raise .queueDrop s) ∨
    (s.queueFull = false ∧ b = true ∧
      ∃ s', memWrites .ring (3 * s.queue.head) (recordBytes r) s = .ok s' ∧ t = s'.advanceHead) := by
  unfold push at h
  cases hf : s.queueFull
  · simp only [hf, Bool.false_eq_true, if_false, bind, Except.bind] at h
    split at h
    · cases h
    · rename_i s' hs'
      cases h
      exact .inr ⟨rfl, rfl, s', hs', rfl⟩
  · simp only [hf, if_true] at h
    cases h
    exact .inl ⟨rfl, rfl, rfl⟩

/-- A push with the head in range completes. -/
theorem push_completes (r : Record) {s : State} (h : s.queue.head < s.cfg.qcap) :
    ∃ t, push r s = .ok (t, !s.queueFull) := by
  unfold push
  cases hf : s.queueFull
  · obtain ⟨t, ht⟩ := memWrites_of_le (sp := .ring) (a := 3 * s.queue.head) (recordBytes r) (s := s)
      (by simp only [recordBytes, List.length_cons, List.length_nil, State.arenaSize]; omega)
    exact ⟨t.advanceHead, by simp [ht, bind, Except.bind]⟩
  · exact ⟨raise .queueDrop s, by simp⟩

/-- A push changes the ring and the counters, and of the ring not the tail. -/
theorem push_frame {r : Record} {s t : State} {b : Bool} (h : push r s = .ok (t, b)) :
    t = { s with queue := t.queue, counters := t.counters } ∧ t.queue.tail = s.queue.tail := by
  rcases push_cases h with ⟨_, _, rfl⟩ | ⟨_, _, s', hs', rfl⟩
  · exact ⟨rfl, rfl⟩
  · obtain ⟨m, rfl, -⟩ := memWrites_ok hs'
    exact ⟨rfl, rfl⟩

/-- A push keeps every arena canonical. -/
theorem push_memoryWf {r : Record} {s t : State} {b : Bool} (h : push r s = .ok (t, b)) (hs : s.memoryWf) : t.memoryWf := by
  rcases push_cases h with ⟨_, _, rfl⟩ | ⟨_, _, s', hs', rfl⟩
  · exact hs
  · obtain ⟨m, rfl, hwf, -⟩ := memWrites_ok hs'
    exact ⟨hs.1, hs.2.1, hwf hs⟩

/-- The head and the tail after a push stay in range. -/
theorem push_ringOk {r : Record} {s t : State} {b : Bool} (h : push r s = .ok (t, b)) (hs : s.ringOk) : t.ringOk := by
  rcases push_cases h with ⟨_, _, rfl⟩ | ⟨_, _, s', hs', rfl⟩
  · exact hs
  · obtain ⟨m, rfl, -⟩ := memWrites_ok hs'
    exact ⟨Nat.mod_lt _ (Nat.lt_of_le_of_lt (Nat.zero_le _) hs.1), hs.2⟩

/-! ## The queued records -/

/-- The depth of a ring whose indices are in range, without the remainder. -/
theorem queueDepth_eq {s : State} (h : s.ringOk) : s.queueDepth =
    if s.queue.tail ≤ s.queue.head then s.queue.head - s.queue.tail else s.queue.head + s.cfg.qcap - s.queue.tail := by
  obtain ⟨h1, h2⟩ := h
  unfold State.queueDepth
  split
  · rw [show s.queue.head + s.cfg.qcap - s.queue.tail = (s.queue.head - s.queue.tail) + s.cfg.qcap by omega,
      Nat.add_mod_right, Nat.mod_eq_of_lt (by omega)]
  · exact Nat.mod_eq_of_lt (by omega)

theorem nextSlot_eq {s : State} {i : Nat} (h : i < s.cfg.qcap) : s.nextSlot i = if i + 1 = s.cfg.qcap then 0 else i + 1 := by
  unfold State.nextSlot
  split
  · rename_i h'; rw [h', Nat.mod_self]
  · exact Nat.mod_eq_of_lt (by omega)

theorem slotAt_eq {s : State} (h : s.ringOk) {d : Nat} (hd : d < s.cfg.qcap) : s.slotAt d =
    if s.queue.tail + d < s.cfg.qcap then s.queue.tail + d else s.queue.tail + d - s.cfg.qcap := by
  obtain ⟨h1, h2⟩ := h
  unfold State.slotAt
  split
  · exact Nat.mod_eq_of_lt ‹_›
  · rw [show s.queue.tail + d = (s.queue.tail + d - s.cfg.qcap) + s.cfg.qcap by omega, Nat.add_mod_right,
      Nat.mod_eq_of_lt (by omega)]
    omega

/-- A ring holds at most `QCAP − 1` records, and is full exactly then (R800). -/
theorem queueFull_iff {s : State} (h : s.ringOk) : s.queueFull = true ↔ s.queueDepth = s.cfg.qcap - 1 := by
  rw [queueDepth_eq h]
  unfold State.queueFull
  rw [decide_eq_true_iff, nextSlot_eq h.1]
  obtain ⟨h1, h2⟩ := h
  split_ifs <;> omega

/-- The slots that hold queued records are distinct and differ from the head slot. -/
theorem slotAt_ne_head {s : State} (h : s.ringOk) {d : Nat} (hd : d < s.queueDepth) : s.slotAt d ≠ s.queue.head := by
  have hq := queueDepth_eq h
  have hlt : d < s.cfg.qcap := by obtain ⟨h1, h2⟩ := h; split_ifs at hq <;> omega
  rw [slotAt_eq h hlt]
  obtain ⟨h1, h2⟩ := h
  split_ifs at hq ⊢ <;> omega

/-- What a push does to the depth and the high water mark (R801). -/
theorem push_depth {r : Record} {s t : State} {b : Bool} (h : push r s = .ok (t, b)) (hs : s.ringOk) :
    t.cfg = s.cfg ∧
    ((b = true ∧ s.queueDepth < s.cfg.qcap - 1 ∧ t.queueDepth = s.queueDepth + 1 ∧
      t.counters.queueHighWater = maxWord s.counters.queueHighWater (BitVec.ofNat 32 (s.queueDepth + 1))) ∨
     (b = false ∧ s.queueDepth = s.cfg.qcap - 1 ∧ t.queueDepth = s.queueDepth ∧
      t.counters.queueHighWater = s.counters.queueHighWater)) := by
  rcases push_cases h with ⟨hf, rfl, rfl⟩ | ⟨hf, rfl, s', hs', rfl⟩
  · exact ⟨rfl, .inr ⟨rfl, (queueFull_iff hs).mp hf, rfl, rfl⟩⟩
  · obtain ⟨m, rfl, -⟩ := memWrites_ok hs'
    have hne : s.queueDepth ≠ s.cfg.qcap - 1 := fun he => by rw [(queueFull_iff hs).mpr he] at hf; cases hf
    have hd : ((s.setArena .ring m).advanceHead).queueDepth = s.queueDepth + 1 := by
      rw [queueDepth_eq hs] at hne ⊢
      have hr : ((s.setArena .ring m).advanceHead).ringOk := push_ringOk h hs
      rw [queueDepth_eq hr]
      show (if s.queue.tail ≤ s.nextSlot s.queue.head then _ else _) = _
      rw [show (s.setArena .ring m).advanceHead.queue.head = s.nextSlot s.queue.head from rfl,
        show (s.setArena .ring m).advanceHead.queue.tail = s.queue.tail from rfl,
        show (s.setArena .ring m).advanceHead.cfg = s.cfg from rfl, nextSlot_eq hs.1]
      obtain ⟨h1, h2⟩ := hs
      split_ifs at hne ⊢ <;> omega
    have hlt : s.queueDepth < s.cfg.qcap := by
      rw [queueDepth_eq hs]; obtain ⟨h1, h2⟩ := hs; split_ifs <;> omega
    refine ⟨rfl, .inl ⟨rfl, by omega, hd, ?_⟩⟩
    rw [← hd]; rfl

end Sys2Proof.Machine
end

