-- ==== Sys2Proof/Laws/NoteOps.lean ====
section
/-! SUPPORT. The shared operations under the API notes and the note-off table: what they change and when they complete. -/

namespace Sys2Proof.Machine

/-! ## The note-off table -/

@[simp] theorem schedTake_length (note : Byte) (due : Word) (es : List SchedEntry) :
    (schedTake note due es).length = es.length := by
  induction es with
  | nil => rfl
  | cons e es ih => simp only [schedTake]; split <;> simp [ih]

@[simp] theorem schedInsert_length (note : Byte) (due : Word) (es : List SchedEntry) :
    (schedInsert note due es).length = es.length := by
  unfold schedInsert
  split <;> simp

@[simp] theorem schedRemove_length (note : Byte) (es : List SchedEntry) : (schedRemove note es).length = es.length := by
  simp [schedRemove]

@[simp] theorem schedClear_length (es : List SchedEntry) : (schedClear es).length = es.length := by simp [schedClear]

/-- An entry after a take is an old one, or the new one in a slot that was not live. -/
theorem mem_schedTake {note : Byte} {due : Word} {es : List SchedEntry} {e : SchedEntry} (h : e ∈ schedTake note due es) :
    e ∈ es ∨ e = ⟨true, note, due⟩ := by
  induction es with
  | nil => exact .inl h
  | cons x es ih =>
    simp only [schedTake] at h
    split at h
    · rcases List.mem_cons.mp h with rfl | h
      · exact .inl List.mem_cons_self
      · exact (ih h).imp_left (List.mem_cons_of_mem _)
    · rcases List.mem_cons.mp h with h | h
      · exact .inr h
      · exact .inl (List.mem_cons_of_mem _ h)

/-! ## Notes -/

/-- A push whose result is not used, by the push. -/
theorem pushOnly_ok {r : Record} {s t : State} (h : pushOnly r s = .ok t) : ∃ b, push r s = .ok (t, b) := by
  obtain ⟨⟨t', b⟩, hp, ht⟩ := bind_ok h
  cases ht
  exact ⟨b, hp⟩

/-- What `noteOn` can do: drop a note above 127; push without a gate; or push, be accepted, and schedule the gate. -/
theorem playNote_cases {note vel : Byte} {gate : Word} {s t : State} (h : playNote note vel gate s = .ok t) :
    (apiNote note = false ∧ t = s) ∨
    (apiNote note = true ∧ ∃ t' b, push (noteOnRecord note (apiVelocity vel)) s = .ok (t', b) ∧
      ((b = true ∧ gate ≠ 0 ∧ t = { t' with sched := schedInsert note (s.draws.nowMs + gate) s.sched }) ∨
       ((b = false ∨ gate = 0) ∧ t = t'))) := by
  unfold playNote at h
  split at h
  · rename_i hn
    obtain ⟨⟨t', b⟩, hp, ht⟩ := bind_ok h
    refine .inr ⟨hn, t', b, hp, ?_⟩
    have hf := (push_frame hp).1
    have hd : t'.draws = s.draws := by
      rw [hf]
    have hsc : t'.sched = s.sched := by
      rw [hf]
    by_cases hg : gate = 0
    · simp only [hg, ne_eq, not_true_eq_false, decide_false, Bool.and_false, Bool.false_eq_true, if_false] at ht
      exact .inr ⟨.inr hg, (Except.ok.inj ht).symm⟩
    · cases b
      · simp only [Bool.false_and, Bool.false_eq_true, if_false] at ht
        exact .inr ⟨.inl rfl, (Except.ok.inj ht).symm⟩
      · simp only [hg, ne_eq, not_false_eq_true, decide_true, Bool.and_self, if_true] at ht
        refine .inl ⟨rfl, hg, ?_⟩
        rw [← hd, ← hsc]
        exact (Except.ok.inj ht).symm
  · rename_i hn
    exact .inl ⟨by simpa using hn, (Except.ok.inj h).symm⟩

/-- `noteOn` changes the ring, the counters and the table. -/
theorem playNote_frame {note vel : Byte} {gate : Word} {s t : State} (h : playNote note vel gate s = .ok t) :
    t = { s with queue := t.queue, counters := t.counters, sched := t.sched } := by
  rcases playNote_cases h with ⟨_, rfl⟩ | ⟨_, t', b, hp, ⟨_, _, rfl⟩ | ⟨_, rfl⟩⟩
  · rfl
  · rw [(push_frame hp).1]
  · rw [(push_frame hp).1]

/-- `noteOn` completes with the head in range. -/
theorem playNote_completes (note vel : Byte) (gate : Word) {s : State} (h : s.queue.head < s.cfg.qcap) :
    ∃ t, playNote note vel gate s = .ok t := by
  unfold playNote
  split
  · obtain ⟨t, ht⟩ := push_completes (noteOnRecord note (apiVelocity vel)) h
    simp only [ht, bind, Except.bind]
    split <;> exact ⟨_, rfl⟩
  · exact ⟨s, rfl⟩

/-- What a chord step does: nothing is left to play, or one noteOn is played and the rest is left. -/
theorem playChord_cases {notes : List Byte} {ms : Word} {s t : State} {rest : List Byte}
    (h : playChord notes ms s = .ok (t, rest)) :
    (notes = [] ∧ rest = [] ∧ t = s) ∨ ∃ n, notes = n :: rest ∧ playNote n s.cfg.testVel ms s = .ok t := by
  cases notes with
  | nil => cases h; exact .inl ⟨rfl, rfl, rfl⟩
  | cons n ns =>
    obtain ⟨t', hp, ht⟩ := bind_ok h
    cases ht
    exact .inr ⟨n, rfl, hp⟩

/-! ## Service -/

/-- Serving entries changes the ring and the counters, keeps the head in range and the arenas canonical, and
leaves every entry as it was but for its `live` bit, which only a due entry may lose. -/
theorem serveEntries_ok {now : Word} {es es' : List SchedEntry} {s t : State} (h : serveEntries now es s = .ok (es', t)) :
    t = { s with queue := t.queue, counters := t.counters } ∧ t.queue.tail = s.queue.tail ∧
    es'.length = es.length ∧ (s.ringOk → t.ringOk) ∧ (s.memoryWf → t.memoryWf) ∧
    ∀ (j : Nat) (e e' : SchedEntry), es[j]? = some e → es'[j]? = some e' →
      e'.note = e.note ∧ e'.due = e.due ∧ (e'.live = true → e.live = true) ∧ (e'.live = e.live ∨ e.isServed now = true) := by
  induction es generalizing s es' with
  | nil => cases h; exact ⟨rfl, rfl, rfl, id, id, by simp⟩
  | cons e es ih =>
    unfold serveEntries at h
    split at h
    · rename_i hserved
      obtain ⟨⟨s1, b⟩, hp, h⟩ := bind_ok h
      obtain ⟨⟨es1, t1⟩, hr, h⟩ := bind_ok h
      cases h
      obtain ⟨hfr, htail, hlen, hring, hmem, hent⟩ := ih hr
      have hpf := push_frame hp
      refine ⟨by rw [hfr, hpf.1], by rw [htail, hpf.2], by simp [hlen], fun hs => hring (push_ringOk hp hs),
        fun hs => hmem (push_memoryWf hp hs), fun j x x' hx hx' => ?_⟩
      cases j with
      | zero =>
        simp only [List.getElem?_cons_zero, Option.some.injEq] at hx hx'
        subst hx hx'
        exact ⟨rfl, rfl, fun hl => by simp only [Bool.and_eq_true] at hl; exact hl.1, .inr hserved⟩
      | succ j => exact hent j x x' (by simpa using hx) (by simpa using hx')
    · obtain ⟨⟨es1, t1⟩, hr, h⟩ := bind_ok h
      cases h
      obtain ⟨hfr, htail, hlen, hring, hmem, hent⟩ := ih hr
      refine ⟨hfr, htail, by simp [hlen], hring, hmem, fun j x x' hx hx' => ?_⟩
      cases j with
      | zero =>
        simp only [List.getElem?_cons_zero, Option.some.injEq] at hx hx'
        subst hx hx'
        exact ⟨rfl, rfl, id, .inl rfl⟩
      | succ j => exact hent j x x' (by simpa using hx) (by simpa using hx')

/-- Serving entries completes with the indices in range. -/
theorem serveEntries_completes (now : Word) (es : List SchedEntry) {s : State} (h : s.ringOk) :
    ∃ r, serveEntries now es s = .ok r := by
  induction es generalizing s with
  | nil => exact ⟨_, rfl⟩
  | cons e es ih =>
    unfold serveEntries
    split
    · obtain ⟨t, ht⟩ := push_completes (noteOffRecord e.note) h.1
      obtain ⟨r, hr⟩ := ih (push_ringOk ht h)
      simp only [ht, hr, bind, Except.bind]
      exact ⟨_, rfl⟩
    · obtain ⟨r, hr⟩ := ih h
      simp only [hr, bind, Except.bind]
      exact ⟨_, rfl⟩

/-- The high water mark after a service: raised by each accepted push to the depth after it (R1034, R801). -/
theorem serveEntries_highWater {now : Word} {es es' : List SchedEntry} {s t : State} (h : serveEntries now es s = .ok (es', t))
    (hs : s.ringOk) : t.counters.queueHighWater = (List.range (min (dueEntries now es).length (s.cfg.qcap - 1 - s.queueDepth))).foldl
      (fun high n => maxWord high (BitVec.ofNat 32 (s.queueDepth + n + 1))) s.counters.queueHighWater := by
  induction es generalizing s es' with
  | nil => cases h; simp [dueEntries]
  | cons e es ih =>
    unfold serveEntries at h
    split at h
    · rename_i hserved
      obtain ⟨⟨s1, b⟩, hp, h⟩ := bind_ok h
      obtain ⟨⟨es1, t1⟩, hr, h⟩ := bind_ok h
      cases h
      have hdue : dueEntries now (e :: es) = e :: dueEntries now es := List.filter_cons_of_pos hserved
      rw [ih hr (push_ringOk hp hs), hdue]
      obtain ⟨hc, ⟨-, hlt, hd, hw⟩ | ⟨-, he, hd, hw⟩⟩ := push_depth hp hs
      · rw [hc, hd, hw, List.length_cons,
          show min ((dueEntries now es).length + 1) (s.cfg.qcap - 1 - s.queueDepth) =
            min (dueEntries now es).length (s.cfg.qcap - 1 - (s.queueDepth + 1)) + 1 by omega,
          List.range_succ_eq_map, List.foldl_cons, List.foldl_map]
        simp only [Nat.add_zero, Nat.succ_eq_add_one, Nat.add_assoc, Nat.add_comm 1]
      · simp [hc, hd, hw, he]
    · rename_i hserved
      obtain ⟨⟨es1, t1⟩, hr, h⟩ := bind_ok h
      cases h
      rw [ih hr hs, show dueEntries now (e :: es) = dueEntries now es from List.filter_cons_of_neg hserved]

end Sys2Proof.Machine
end

