-- ==== Sys2Proof/Laws/Scheduler.lean ====
section
/-! SUPPORT. What each step of the render context and each lifecycle step can do, and when it completes. -/

namespace Sys2Proof.Machine

/-! ## The render context -/

/-- The loop test goes to SNAP, or acknowledges and leaves the loop. -/
theorem loopTest_cases (s : State) :
    (s.life.enabled = true ∧ loopTest s = s.setPhase .snap) ∨
    (s.life.enabled = false ∧ loopTest s = { s with life := { s.life with ack := true, phase := .absent } }) := by
  unfold loopTest
  cases h : s.life.enabled
  · exact .inr ⟨rfl, by simp⟩
  · exact .inl ⟨rfl, by simp⟩

/-- SNAP copies the active record, configures every envelope and the filter, and goes to DRAIN. -/
theorem snapPhase_ok {s t : State} (h : snapPhase s = .ok t) : s.life.started = true ∧
    t = { s with
      snapshot := { params := s.store.active, taken := true }
      pool := { s.pool with voices := s.pool.voices.map (Voice.configureFrom s.cfg.arith s.life.fs s.store.active) }
      filter := s.filter.configure s.cfg.arith s.store.active.filterType s.life.fs s.store.active.cutoff s.store.active.resonance
      life := { s.life with phase := .drain } } := by
  unfold snapPhase at h
  split at h
  · exact ⟨‹_›, (Except.ok.inj h).symm⟩
  · cases h

theorem snapPhase_completes {s : State} (h : s.life.started = true) : ∃ t, snapPhase s = .ok t := by
  unfold snapPhase
  rw [if_pos h]
  exact ⟨_, rfl⟩

@[simp] theorem configureFrom_configured (a : Arith) (fs : Nat) (p : Params) (v : Voice) :
    (v.configureFrom a fs p).env.configured = true := rfl

@[simp] theorem filter_configure_configured (a : Arith) (type : Byte) (fs : Nat) (f q : Rat) (b : Biquad) :
    (b.configure a type fs f q).configured = true := rfl

/-- The end of RENDER observes the block image and goes to WRITE. -/
theorem finishBlock_ok {s t : State} (h : finishBlock s = .ok t) :
    ∃ image, blockImage s = .ok image ∧ t = (s.emit (.block image)).setPhase .write := by
  obtain ⟨image, hi, ht⟩ := bind_ok h
  exact ⟨image, hi, (Except.ok.inj ht).symm⟩

theorem blockImage_completes {s : State} (h : s.blockWritten (4 * s.life.blockSize)) :
    ∃ image, blockImage s = .ok image ∧ image.length = 4 * s.life.blockSize :=
  memReads_block (by simp [State.arenaSize]) fun b _ hb => h b (by omega)

theorem finishBlock_completes {s : State} (h : s.blockWritten (4 * s.life.blockSize)) : ∃ t, finishBlock s = .ok t := by
  obtain ⟨image, hi, -⟩ := blockImage_completes h
  unfold finishBlock
  simp only [hi, bind, Except.bind]
  exact ⟨_, rfl⟩

/-- RENDER computes one frame, or ends the block, or both. -/
theorem renderPhase_ok {k : Nat} {s t : State} (h : renderPhase k s = .ok t) :
    (k < s.life.blockSize ∧ ∃ s', frame k s = .ok s' ∧
      ((k + 1 < s'.life.blockSize ∧ t = s'.setPhase (.render (k + 1))) ∨
       (s'.life.blockSize ≤ k + 1 ∧ finishBlock s' = .ok t))) ∨
    (s.life.blockSize ≤ k ∧ finishBlock s = .ok t) := by
  unfold renderPhase at h
  split at h
  · rename_i hk
    obtain ⟨s', hf, h⟩ := bind_ok h
    refine .inl ⟨hk, s', hf, ?_⟩
    split at h
    · exact .inl ⟨‹_›, (Except.ok.inj h).symm⟩
    · exact .inr ⟨by omega, h⟩
  · exact .inr ⟨by omega, h⟩

/-- A run of bytes read gives the byte that stands at each address. -/
theorem memReads_get {s : State} {sp : Space} {a n : Nat} {bs : List Byte} (h : memReads s sp a n = .ok bs) (i : Nat) (b : Byte)
    (hb : bs[i]? = some b) : s.readByte sp (a + i) = some b := by
  induction n generalizing a bs i with
  | zero => cases h; simp at hb
  | succ n ih =>
    obtain ⟨v, hv, h⟩ := bind_ok h
    obtain ⟨vs, hvs, h⟩ := bind_ok h
    cases h
    cases i with
    | zero => cases hb; exact (memRead_ok hv).2
    | succ i => rw [show a + (i + 1) = a + 1 + i by omega]; exact ih hvs i hb

/-- A step of RENDER within the block: the frame, and the next phase with what is observed. -/
theorem renderPhase_frame {k : Nat} {u v : State} (hk : k < u.life.blockSize) (hv : frame k u = .ok v) (hvl : v.life = u.life)
    (htr : v.trace = u.trace) (hvw : v.blockWritten (4 * (k + 1))) :
    ∃ ph tr, renderPhase k u = .ok { v with life := { u.life with phase := ph }, trace := tr } ∧
       (k + 1 < u.life.blockSize → ph = .render (k + 1) ∧ tr = u.trace) ∧ (k + 1 = u.life.blockSize → ph = .write ∧ ∃ image : List Byte,
         tr = .block image :: u.trace ∧ image.length = 4 * u.life.blockSize ∧ ∀ i b, image[i]? = some b → v.readByte .block i = some b) := by
  unfold renderPhase
  rw [if_pos hk]
  simp only [hv, bind, Except.bind, hvl]
  by_cases hlt : k + 1 < u.life.blockSize
  · rw [if_pos hlt]
    refine ⟨_, u.trace, ?_, fun _ => ⟨rfl, rfl⟩, fun h => by omega⟩
    rw [← htr, ← hvl]; rfl
  · rw [if_neg hlt]
    have he : k + 1 = u.life.blockSize := by omega
    rw [he, ← hvl] at hvw
    obtain ⟨image, hi, hlen⟩ := blockImage_completes hvw
    refine ⟨.write, .block image :: u.trace, ?_, fun h => absurd h hlt, fun _ => ⟨rfl, image, rfl, by rw [hlen, hvl], ?_⟩⟩
    · unfold finishBlock; rw [hi, ← hvl, ← htr]; rfl
    · exact fun i b h => by simpa using memReads_get hi i b h

/-- WRITE accounts the write, records the render time and goes to the loop test. -/
theorem writePhase_ok {s t : State} (h : writePhase s = .ok t) :
    ∃ s', sinkWrite s = .ok s' ∧ t = (recordRenderTime s').endBlock := by
  obtain ⟨s', hs, ht⟩ := bind_ok h
  exact ⟨s', hs, (Except.ok.inj ht).symm⟩

/-- A write changes counters and adds at most one observation: with no sink, or for a late block, it fails without a
call; otherwise the whole block is offered. -/
theorem sinkWrite_ok {s t : State} (h : sinkWrite s = .ok t) :
    ((s.life.late = true ∨ s.life.sink = none) ∧ t = account 0 false s) ∨
    (s.life.late = false ∧ s.life.sink ≠ none ∧ ∃ image, blockImage s = .ok image ∧
      t = account (drawnBytes s image.length) s.draws.writeOk
        (s.emit (.sinkWrite image.length s.cfg.sinkTimeoutMs (image.take (drawnBytes s image.length)) s.draws.writeOk))) := by
  unfold sinkWrite at h
  split at h
  · rename_i hl; exact .inl ⟨.inl hl, (Except.ok.inj h).symm⟩
  · rename_i hs; exact .inl ⟨.inr hs, (Except.ok.inj h).symm⟩
  · rename_i k hl hs
    obtain ⟨image, hi, ht⟩ := bind_ok h
    exact .inr ⟨hl, by simp [hs], image, hi, (Except.ok.inj ht).symm⟩

theorem writePhase_frame {s t : State} (h : writePhase s = .ok t) :
    t = { s with life := { s.life with phase := .loopTest, late := false }, counters := t.counters, trace := t.trace } := by
  obtain ⟨s', hs, rfl⟩ := writePhase_ok h
  rcases sinkWrite_ok hs with ⟨_, rfl⟩ | ⟨_, _, image, _, rfl⟩
  · rw [account_eq]; rfl
  · rw [account_eq]; rfl

theorem sinkWrite_completes {s : State} (h : s.life.late = false → s.life.sink ≠ none → s.blockWritten (4 * s.life.blockSize)) :
    ∃ t, sinkWrite s = .ok t := by
  unfold sinkWrite
  split
  · exact ⟨_, rfl⟩
  · exact ⟨_, rfl⟩
  · rename_i k hl hs
    obtain ⟨image, hi, -⟩ := blockImage_completes (h hl (by simp [hs]))
    simp only [hi, bind, Except.bind]
    exact ⟨_, rfl⟩

theorem writePhase_completes {s : State} (h : s.life.late = false → s.life.sink ≠ none → s.blockWritten (4 * s.life.blockSize)) :
    ∃ t, writePhase s = .ok t := by
  obtain ⟨t, ht⟩ := sinkWrite_completes h
  unfold writePhase
  simp only [ht, bind, Except.bind]
  exact ⟨_, rfl⟩

/-! ## start and stop -/

@[simp] theorem sinkConfigure_cfg (k : SinkConfig) (s : State) : (sinkConfigure k s).cfg = s.cfg := rfl
@[simp] theorem sinkConfigure_life (k : SinkConfig) (s : State) : (sinkConfigure k s).life = s.life := rfl
@[simp] theorem sinkConfigure_drumsEnabled (k : SinkConfig) (s : State) : (sinkConfigure k s).drumsEnabled = s.drumsEnabled := rfl
@[simp] theorem sinkConfigure_store (k : SinkConfig) (s : State) : (sinkConfigure k s).store = s.store := rfl
@[simp] theorem sinkConfigure_snapshot (k : SinkConfig) (s : State) : (sinkConfigure k s).snapshot = s.snapshot := rfl
@[simp] theorem sinkConfigure_pool (k : SinkConfig) (s : State) : (sinkConfigure k s).pool = s.pool := rfl
@[simp] theorem sinkConfigure_drums (k : SinkConfig) (s : State) : (sinkConfigure k s).drums = s.drums := rfl
@[simp] theorem sinkConfigure_noise (k : SinkConfig) (s : State) : (sinkConfigure k s).noise = s.noise := rfl
@[simp] theorem sinkConfigure_filter (k : SinkConfig) (s : State) : (sinkConfigure k s).filter = s.filter := rfl
@[simp] theorem sinkConfigure_dcL (k : SinkConfig) (s : State) : (sinkConfigure k s).dcL = s.dcL := rfl
@[simp] theorem sinkConfigure_dcR (k : SinkConfig) (s : State) : (sinkConfigure k s).dcR = s.dcR := rfl
@[simp] theorem sinkConfigure_delay (k : SinkConfig) (s : State) : (sinkConfigure k s).delay = s.delay := rfl
@[simp] theorem sinkConfigure_reverb (k : SinkConfig) (s : State) : (sinkConfigure k s).reverb = s.reverb := rfl
@[simp] theorem sinkConfigure_fade (k : SinkConfig) (s : State) : (sinkConfigure k s).fade = s.fade := rfl
@[simp] theorem sinkConfigure_block (k : SinkConfig) (s : State) : (sinkConfigure k s).block = s.block := rfl
@[simp] theorem sinkConfigure_queue (k : SinkConfig) (s : State) : (sinkConfigure k s).queue = s.queue := rfl
@[simp] theorem sinkConfigure_sched (k : SinkConfig) (s : State) : (sinkConfigure k s).sched = s.sched := rfl
@[simp] theorem sinkConfigure_counters (k : SinkConfig) (s : State) : (sinkConfigure k s).counters = s.counters := rfl
@[simp] theorem sinkConfigure_ongoing (k : SinkConfig) (s : State) : (sinkConfigure k s).ongoing = s.ongoing := rfl
@[simp] theorem sinkConfigure_inputs (k : SinkConfig) (s : State) : (sinkConfigure k s).inputs = s.inputs := rfl
@[simp] theorem sinkConfigure_draws (k : SinkConfig) (s : State) : (sinkConfigure k s).draws = s.draws := rfl

@[simp] theorem startFailed_cfg (s : State) : (startFailed s).cfg = s.cfg := rfl
@[simp] theorem startFailed_drumsEnabled (s : State) : (startFailed s).drumsEnabled = s.drumsEnabled := rfl
@[simp] theorem startFailed_store (s : State) : (startFailed s).store = s.store := rfl
@[simp] theorem startFailed_snapshot (s : State) : (startFailed s).snapshot = s.snapshot := rfl
@[simp] theorem startFailed_pool (s : State) : (startFailed s).pool = s.pool := rfl
@[simp] theorem startFailed_drums (s : State) : (startFailed s).drums = s.drums := rfl
@[simp] theorem startFailed_noise (s : State) : (startFailed s).noise = s.noise := rfl
@[simp] theorem startFailed_filter (s : State) : (startFailed s).filter = s.filter := rfl
@[simp] theorem startFailed_dcL (s : State) : (startFailed s).dcL = s.dcL := rfl
@[simp] theorem startFailed_dcR (s : State) : (startFailed s).dcR = s.dcR := rfl
@[simp] theorem startFailed_delay (s : State) : (startFailed s).delay = s.delay := rfl
@[simp] theorem startFailed_reverb (s : State) : (startFailed s).reverb = s.reverb := rfl
@[simp] theorem startFailed_fade (s : State) : (startFailed s).fade = s.fade := rfl
@[simp] theorem startFailed_block (s : State) : (startFailed s).block = s.block := rfl
@[simp] theorem startFailed_queue (s : State) : (startFailed s).queue = s.queue := rfl
@[simp] theorem startFailed_sched (s : State) : (startFailed s).sched = s.sched := rfl
@[simp] theorem startFailed_counters (s : State) : (startFailed s).counters = s.counters := rfl
@[simp] theorem startFailed_ongoing (s : State) : (startFailed s).ongoing = s.ongoing := rfl
@[simp] theorem startFailed_inputs (s : State) : (startFailed s).inputs = s.inputs := rfl
@[simp] theorem startFailed_draws (s : State) : (startFailed s).draws = s.draws := rfl
@[simp] theorem startFailed_life (s : State) :
    (startFailed s).life = { s.life with sink := none, running := false, enabled := false } := rfl

@[simp] theorem startDone_cfg (k : SinkConfig) (s : State) : (startDone k s).cfg = s.cfg := rfl
@[simp] theorem startDone_life (k : SinkConfig) (s : State) :
    (startDone k s).life = { s.life with
      sink := some k, ack := false, enabled := true, running := true,
      started := true, phase := s.life.phase.launched, late := s.life.phase.inFlight } := rfl
@[simp] theorem startDone_drumsEnabled (k : SinkConfig) (s : State) :
    (startDone k s).drumsEnabled = s.drumsEnabled := rfl
@[simp] theorem startDone_store (k : SinkConfig) (s : State) : (startDone k s).store = s.store := rfl
@[simp] theorem startDone_snapshot (k : SinkConfig) (s : State) : (startDone k s).snapshot = s.snapshot := rfl
@[simp] theorem startDone_pool (k : SinkConfig) (s : State) : (startDone k s).pool =
    { voices := s.pool.voices.map (Voice.restart s.life.phase.inFlight), ageCounter := 0 } := rfl
@[simp] theorem startDone_drums (k : SinkConfig) (s : State) :
    (startDone k s).drums = List.replicate drumCount .initial := rfl
@[simp] theorem startDone_noise (k : SinkConfig) (s : State) : (startDone k s).noise = s.cfg.noiseSeed := rfl
@[simp] theorem startDone_filter (k : SinkConfig) (s : State) : (startDone k s).filter = s.filter.reset := rfl
@[simp] theorem startDone_dcL (k : SinkConfig) (s : State) : (startDone k s).dcL = s.dcL.reset := rfl
@[simp] theorem startDone_dcR (k : SinkConfig) (s : State) : (startDone k s).dcR = s.dcR.reset := rfl
@[simp] theorem startDone_delay (k : SinkConfig) (s : State) :
    (startDone k s).delay = { cells := [], len := delayLength s.life.fs, writeIdx := 0 } := rfl
@[simp] theorem startDone_reverb (k : SinkConfig) (s : State) :
    (startDone k s).reverb = { revL := .fin 0, revR := .fin 0 } := rfl
@[simp] theorem startDone_fade (k : SinkConfig) (s : State) : (startDone k s).fade = .initial := rfl
@[simp] theorem startDone_block (k : SinkConfig) (s : State) : (startDone k s).block =
    if s.life.phase.inFlight then s.block else [] := rfl
@[simp] theorem startDone_queue (k : SinkConfig) (s : State) :
    (startDone k s).queue = { s.queue with tail := s.queue.head } := rfl
@[simp] theorem startDone_sched (k : SinkConfig) (s : State) : (startDone k s).sched = s.sched := rfl
@[simp] theorem startDone_counters (k : SinkConfig) (s : State) : (startDone k s).counters = s.counters := rfl
@[simp] theorem startDone_ongoing (k : SinkConfig) (s : State) : (startDone k s).ongoing = s.ongoing := rfl
@[simp] theorem startDone_inputs (k : SinkConfig) (s : State) : (startDone k s).inputs = s.inputs := rfl
@[simp] theorem startDone_draws (k : SinkConfig) (s : State) : (startDone k s).draws = s.draws := rfl

/-- What start can do: nothing but answer true while running; fail and release; or reset and launch. -/
theorem execStart_cases {k : SinkConfig} {rate size : Word} {s t : State} (h : execStart k rate size s = .next t) :
    (s.life.running = true ∧ t = s.answer (.flag true)) ∨
    (s.life.running = false ∧ refusedRate < rate.toNat ∧ 1 ≤ size.toNat ∧
      ((s.draws.configureOk = true ∧ t = startDone k (sinkConfigure k { s with life := { s.life with
          fs := rate.toNat, blockSize := size.toNat } })) ∨
       (s.draws.configureOk = false ∧ t = startFailed (sinkConfigure k { s with life := { s.life with
          fs := rate.toNat, blockSize := size.toNat } })))) := by
  unfold execStart at h
  split at h
  · exact .inl ⟨‹_›, by cases h; rfl⟩
  · rename_i hr
    split at h
    · cases h
    · rename_i hc
      refine .inr ⟨by simpa using hr, by omega, by omega, ?_⟩
      cases hok : s.draws.configureOk
      · simp only [hok, Bool.false_eq_true, if_false] at h
        exact .inr ⟨rfl, by cases h; rfl⟩
      · simp only [hok, if_true] at h
        exact .inl ⟨rfl, by cases h; rfl⟩

/-- stop, step 4, changes the sink and `running`, and adds observations. -/
theorem tearDown_eq (s : State) : tearDown s =
    { s with life := { s.life with sink := none, running := false }, trace := (tearDown s).trace } := by
  unfold tearDown
  dsimp only
  split <;> rfl

end Sys2Proof.Machine
end

