-- ==== Sys2Proof/Laws/Step.lean ====
section
/-! SUPPORT. What one step of the machine can do: no input is left, or the agent of the next input takes its step. -/

namespace Sys2Proof.Machine

/-- A step with no input left changes nothing. -/
theorem step_nil {s : State} (h : s.inputs = []) : step s = .next s := by
  unfold step
  rw [h]

/-- A step takes the next input and is the step of its agent. -/
theorem step_cons {s : State} {i : Input} {rest : List Input} (h : s.inputs = i :: rest) :
    step s = agentStep i.move (s.take i rest) := by
  unfold step
  rw [h]

/-- What a step that answers a next state did. -/
theorem step_cases {s t : State} (h : step s = .next t) :
    (s.inputs = [] ∧ t = s) ∨ ∃ i rest, s.inputs = i :: rest ∧ agentStep i.move (s.take i rest) = .next t := by
  cases hi : s.inputs with
  | nil => rw [step_nil hi] at h; cases h; exact .inl ⟨rfl, rfl⟩
  | cons i rest => rw [step_cons hi] at h; exact .inr ⟨i, rest, rfl, h⟩

/-- An encoding that runs is one that decodes. -/
theorem runFetched_next {f : Fetched} {s t : State} (h : runFetched f s = .next t) :
    ∃ i, decode f = .ok i ∧ exec i s = .next t := by
  unfold runFetched at h
  split at h
  · rename_i i hi; exact ⟨i, hi, h⟩
  · cases h

/-- A pop from an empty ring gives nothing, and any other pop gives the record in the tail slot and moves the tail. -/
theorem pop_ok {s : State} {x : Option (Record × State)} (h : pop s = .ok x) :
    (s.queue.head = s.queue.tail ∧ x = none) ∨
    (s.queue.head ≠ s.queue.tail ∧ ∃ r, readSlot s s.queue.tail = .ok r ∧
      x = some (r, { s with queue := { s.queue with tail := s.nextSlot s.queue.tail } })) := by
  unfold pop at h
  split at h
  · exact .inl ⟨‹_›, (Except.ok.inj h).symm⟩
  · obtain ⟨r, hr, hx⟩ := bind_ok h
    exact .inr ⟨‹_›, r, hr, (Except.ok.inj hx).symm⟩

/-- A byte of a slot read by a pop is the byte the slot holds. -/
theorem memRead_ring {s : State} {a : Nat} {v : Byte} (h : memRead s .ring a = .ok v) :
    Memory.get Space.ring.blank s.queue.slots a = some v := by
  obtain ⟨hlt, hv⟩ := memRead_ok h
  unfold State.readByte at hv
  rwa [if_pos hlt] at hv

/-- The record a slot read gives is the one the slot holds. -/
theorem readSlot_ok {s : State} {i : Nat} {r : Record} (h : readSlot s i = .ok r) : r = s.slotRecord i := by
  obtain ⟨k, hk, h⟩ := bind_ok h
  obtain ⟨p, hp, h⟩ := bind_ok h
  obtain ⟨v, hv, h⟩ := bind_ok h
  cases h
  simp only [State.slotRecord, State.slotByte, Nat.add_zero, memRead_ring hk, memRead_ring hp, memRead_ring hv]

/-- A slot in range can be read. -/
theorem readSlot_completes {s : State} {i : Nat} (h : i < s.cfg.qcap) : ∃ r, readSlot s i = .ok r := by
  obtain ⟨k, hk⟩ := memRead_of_lt (s := s) (sp := .ring) (a := 3 * i) (by simp only [State.arenaSize]; omega) (by decide)
  obtain ⟨p, hp⟩ := memRead_of_lt (s := s) (sp := .ring) (a := 3 * i + 1) (by simp only [State.arenaSize]; omega) (by decide)
  obtain ⟨v, hv⟩ := memRead_of_lt (s := s) (sp := .ring) (a := 3 * i + 2) (by simp only [State.arenaSize]; omega) (by decide)
  unfold readSlot
  simp only [hk, hp, hv, bind, Except.bind]
  exact ⟨_, rfl⟩

/-- One step of DRAIN: the ring is empty and RENDER is next, or the oldest record is taken and its command applied. -/
theorem drainPhase_cases {s t : State} (h : drainPhase s = .next t) :
    (s.queue.head = s.queue.tail ∧ t = s.setPhase (.render 0)) ∨
    (s.queue.head ≠ s.queue.tail ∧ ∃ i, decodeRecord (s.slotRecord s.queue.tail) = .ok i ∧
      exec i { s with queue := { s.queue with tail := s.nextSlot s.queue.tail } } = .next t) := by
  unfold drainPhase at h
  split at h
  · cases finish_next.mp h
  · rename_i hp
    rcases pop_ok hp with ⟨he, _⟩ | ⟨_, r, _, hx⟩
    · exact .inl ⟨he, by cases h; rfl⟩
    · cases hx
  · rename_i r s' hp
    rcases pop_ok hp with ⟨_, hx⟩ | ⟨hne, r', hr, hx⟩
    · cases hx
    · cases hx
      obtain ⟨i, hi, hx⟩ := runFetched_next h
      rw [readSlot_ok hr] at hi
      exact .inr ⟨hne, i, hi, hx⟩

/-- What a resumed host operation can do. -/
theorem resumeStep_cases {j : Nat} {s t : State} (h : resumeStep j s = .ok t) :
    (s.ongoing[j]? = none ∧ t = s) ∨
    (s.ongoing[j]? = some .stopDisable ∧ t = stopDisableStep j s) ∨
    ((∃ b, s.ongoing[j]? = some (.stopAwait b)) ∧ t = stopAwaitStep j s) ∨
    (s.ongoing[j]? = some .stopTearDown ∧ t = tearDown (s.replaceOngoing j [])) ∨
    (∃ notes ms s' rest, s.ongoing[j]? = some (.chord notes ms) ∧ playChord notes ms s = .ok (s', rest) ∧
      t = s'.replaceOngoing j (chordLeft rest ms)) := by
  unfold resumeStep at h
  split at h <;> rename_i ho
  · exact .inl ⟨ho, (Except.ok.inj h).symm⟩
  · exact .inr (.inl ⟨ho, (Except.ok.inj h).symm⟩)
  · exact .inr (.inr (.inl ⟨⟨_, ho⟩, (Except.ok.inj h).symm⟩))
  · exact .inr (.inr (.inr (.inl ⟨ho, (Except.ok.inj h).symm⟩)))
  · obtain ⟨⟨s', rest⟩, hp, ht⟩ := bind_ok h
    exact .inr (.inr (.inr (.inr ⟨_, _, s', rest, ho, hp, (Except.ok.inj ht).symm⟩)))

end Sys2Proof.Machine
end

