-- ==== Sys2Proof/Laws/Exec.lean ====
section
/-! SUPPORT. What each instruction can do, one lemma an instruction whose meaning has cases, and the sanitized ranges. -/

namespace Sys2Proof.Machine

theorem eq_true_of_not_not {b : Bool} (h : ¬ (!b) = true) : b = true := by cases b <;> simp_all

/-! ## Ring commands -/

theorem execCmdNoteOn_ok {note vel : Byte} {s t : State} (h : execCmdNoteOn note vel s = .next t) :
    (legalNote note && legalVelocity vel) = true ∧ s.snapshot.taken = true ∧
    ∃ i, allocate s.snapshot.params s.pool.voices = some i ∧ i < s.pool.voices.length ∧
      t = { s with pool := s.pool.noteOn s.cfg.arith s.snapshot.params.mono note vel i } := by
  unfold execCmdNoteOn at h
  split at h
  · cases h
  · rename_i hl
    split at h
    · cases h
    · rename_i ht
      split at h
      · cases h
      · split at h
        · cases h
          exact ⟨eq_true_of_not_not hl, eq_true_of_not_not ht, _, ‹_›, ‹_›, rfl⟩
        · cases h

theorem execCmdNoteOff_ok {note : Byte} {s t : State} (h : execCmdNoteOff note s = .next t) :
    legalNote note = true ∧ t = { s with pool := { s.pool with voices := s.pool.voices.map (Voice.release note) } } := by
  unfold execCmdNoteOff at h
  split at h
  · cases h
  · rename_i hl; cases h; exact ⟨eq_true_of_not_not hl, rfl⟩

theorem tableRow_ok {α : Type} {a : Arena} {rows : List α} {i : Nat} {r : α} (h : tableRow a rows i = .ok r) : rows[i]? = some r := by
  unfold tableRow at h
  split at h
  · rename_i hr; cases h; exact hr
  · cases h

theorem tableRow_completes {α : Type} (a : Arena) {rows : List α} {i : Nat} (h : i < rows.length) :
    ∃ r, rows[i]? = some r ∧ tableRow a rows i = .ok r := by
  refine ⟨rows[i], List.getElem?_eq_getElem h, ?_⟩
  unfold tableRow
  rw [List.getElem?_eq_getElem h]

theorem execCmdDrumHit_ok {part vel : Byte} {s t : State} (h : execCmdDrumHit part vel s = .next t) :
    (legalPart part && legalVelocity vel) = true ∧ s.snapshot.taken = true ∧ s.life.started = true ∧
    ∃ r m, s.cfg.recipes[part.toNat]? = some r ∧ s.cfg.kits[s.snapshot.params.drumKit.toNat]? = some m ∧
      t = { s with drums := hitDrums s.cfg s.life.fs r m part.toNat vel s.drums } := by
  unfold execCmdDrumHit at h
  split at h
  · cases h
  · rename_i hl
    split at h
    · cases h
    · rename_i ht
      split at h
      · cases h
      · rename_i hs
        rw [finish_next] at h
        obtain ⟨r, hr, h⟩ := bind_ok h
        obtain ⟨m, hm, h⟩ := bind_ok h
        split at h
        · cases h
          exact ⟨eq_true_of_not_not hl, eq_true_of_not_not ht, eq_true_of_not_not hs, r, m, tableRow_ok hr, tableRow_ok hm, rfl⟩
        · cases h

/-! ## Note and drum operations -/

theorem execNoteOff_ok {note : Byte} {s t : State} (h : execNoteOff note s = .next t) :
    (apiNote note = false ∧ t = s) ∨
    (apiNote note = true ∧ ∃ s' b, push (noteOffRecord note) s = .ok (s', b) ∧ t = { s' with sched := schedRemove note s'.sched }) := by
  unfold execNoteOff at h
  split at h
  · rw [finish_next] at h
    obtain ⟨s', hs, ht⟩ := bind_ok h
    obtain ⟨b, hb⟩ := pushOnly_ok hs
    exact .inr ⟨‹_›, s', b, hb, (Except.ok.inj ht).symm⟩
  · rename_i hb; exact .inl ⟨(Bool.not_eq_true _).mp hb, by cases h; rfl⟩

theorem execAllNotesOff_ok {s t : State} (h : execAllNotesOff s = .next t) :
    ∃ s' b, push allNotesOffRecord s = .ok (s', b) ∧ t = { s' with sched := schedClear s'.sched } := by
  unfold execAllNotesOff at h
  rw [finish_next] at h
  obtain ⟨s', hs, ht⟩ := bind_ok h
  obtain ⟨b, hb⟩ := pushOnly_ok hs
  exact ⟨s', b, hb, (Except.ok.inj ht).symm⟩

theorem execDrumHit_ok {part vel : Byte} {s t : State} (h : execDrumHit part vel s = .next t) :
    ((s.drumsEnabled && apiPart part) = false ∧ t = s) ∨
    ((s.drumsEnabled && apiPart part) = true ∧ ∃ b, push (drumHitRecord part (apiVelocity vel)) s = .ok (t, b)) := by
  unfold execDrumHit at h
  split at h
  · rw [finish_next] at h
    exact .inr ⟨‹_›, pushOnly_ok h⟩
  · rename_i hb; exact .inl ⟨(Bool.not_eq_true _).mp hb, by cases h; rfl⟩

theorem execAllDrumsOff_ok {s t : State} (h : execAllDrumsOff s = .next t) : ∃ b, push allDrumsOffRecord s = .ok (t, b) := by
  unfold execAllDrumsOff at h
  rw [finish_next] at h
  exact pushOnly_ok h

theorem execTriggerTestChord_ok {ms : Word} {s t : State} (h : execTriggerTestChord ms s = .next t) :
    ∃ s' rest, playChord s.cfg.testChord ms s = .ok (s', rest) ∧ t = { s' with ongoing := s'.ongoing ++ chordLeft rest ms } := by
  unfold execTriggerTestChord at h
  rw [finish_next] at h
  obtain ⟨⟨s', rest⟩, hs, ht⟩ := bind_ok h
  exact ⟨s', rest, hs, (Except.ok.inj ht).symm⟩

theorem execService_ok {now : Word} {s t : State} (h : execService now s = .next t) :
    ∃ es s', serveEntries now s.sched s = .ok (es, s') ∧ t = { s' with sched := es } := by
  unfold execService at h
  rw [finish_next] at h
  obtain ⟨⟨es, s'⟩, hs, ht⟩ := bind_ok h
  exact ⟨es, s', hs, (Except.ok.inj ht).symm⟩

/-! ## Parameter store -/

theorem presetSlot_lt {c : Cfg} (h : 0 < c.presets.length) (index : Word) : presetSlot c index < c.presets.length := by
  have := clampNat_bounds (lo := 0) (hi := presetCount c - 1) (by omega) index.toNat
  unfold presetSlot
  unfold presetCount at this ⊢
  omega

theorem loadSlot_ok {i : Nat} {s t : State} (h : loadSlot i s = .ok t) :
    ∃ p, s.cfg.presets[i]? = some p ∧ t = storeParams (presetRecord i p) s := by
  obtain ⟨p, hp, ht⟩ := bind_ok h
  exact ⟨p, tableRow_ok hp, (Except.ok.inj ht).symm⟩

theorem loadSlot_completes {i : Nat} {s : State} (h : i < s.cfg.presets.length) :
    ∃ p, s.cfg.presets[i]? = some p ∧ loadSlot i s = .ok (storeParams (presetRecord i p) s) := by
  obtain ⟨p, hp, ht⟩ := tableRow_completes .preset h
  refine ⟨p, hp, ?_⟩
  unfold loadSlot
  simp only [ht, bind, Except.bind]

theorem execSetParams_ok {p : SynthParams RealNum} {s t : State} (h : execSetParams p s = .next t) :
    ∃ q, finiteParams p = some q ∧ t = storeParams q s := by
  unfold execSetParams at h
  split at h
  · cases h
  · rename_i q hq; exact ⟨q, hq, by cases h; rfl⟩

theorem execPresetName_ok {i : Word} {s t : State} (h : execPresetName i s = .next t) : ∃ r, t = s.answer r := by
  unfold execPresetName at h
  rw [finish_next] at h
  obtain ⟨p, _, ht⟩ := bind_ok h
  exact ⟨_, (Except.ok.inj ht).symm⟩

theorem execPresetDefaults_ok {i : Word} {s t : State} (h : execPresetDefaults i s = .next t) : ∃ r, t = s.answer r := by
  unfold execPresetDefaults at h
  rw [finish_next] at h
  obtain ⟨p, _, ht⟩ := bind_ok h
  exact ⟨_, (Except.ok.inj ht).symm⟩

/-! ## Sanitizing -/

/-- A clamped number, held in the arithmetic, lies between the bounds as the arithmetic holds them. -/
theorem near_clamp_within (a : Arith) {lo hi : Rat} (h : lo ≤ hi) (x : Rat) : within a lo hi (a.near (clamp x lo hi)) :=
  ⟨a.near_mono (clamp_bounds h x).1, a.near_mono (clamp_bounds h x).2⟩

/-- 1 is a number of either arithmetic. -/
@[simp] theorem near_one (a : Arith) : a.near 1 = 1 := by
  cases a
  · rfl
  · exact (by decide +kernel : nearest32 1 = 1)

/-- Every clamped field lies in its range. -/
theorem clampFields_inRange {c : Cfg} (h : c.sizesWf) (p : Params) : paramsInRange c (clampFields c p) := by
  obtain ⟨⟨hv1, hv2⟩, _, _, ⟨hp1, hp2⟩, _⟩ := h
  have hbyte := @clampByte_bounds
  have hreal {lo hi : Rat} (h : lo ≤ hi) (x : Rat) := near_clamp_within c.arith h x
  refine ⟨⟨(hbyte (by omega) (by omega) _).2, (hbyte (by omega) (by omega) _).2⟩, hreal (by norm_num) _, ?_,
    hreal (by norm_num) _, hreal (by norm_num) _, hreal (by norm_num) _, hreal (by norm_num) _, (hbyte (by omega) (by omega) _).2,
    hreal (by norm_num) _, hreal (by norm_num) _, hreal (by norm_num) _, hreal (by norm_num) _, hreal (by norm_num) _,
    hreal (by norm_num) _, hreal (by norm_num) _, hreal (by norm_num) _, hreal (by norm_num) _, hreal (by norm_num) _,
    (hbyte (by omega) (by omega) _).2, ?_⟩
  · exact hbyte (by omega) (by omega) _
  · have := (hbyte (lo := 0) (hi := c.presets.length - 1) (by omega) (by omega) p.presetIndex).2
    show (clampByte p.presetIndex 0 (c.presets.length - 1)).toNat < c.presets.length
    omega

/-- `sanitize` puts every field in its range (43_parameter_store.md R700, R701). -/
theorem sanitize_inRange {c : Cfg} (h : c.wf) (p : Params) : paramsInRange c (sanitize c p) := by
  have hq := clampFields_inRange h.1 p
  obtain ⟨hw, hm, hv, ha, hd, hs, hr, hf, hc, hres, hrev, hdel, hfb, hmix, hdr, hg, hdet, ht, hk, hi⟩ := hq
  refine ⟨hw, hm, hv, ha, hd, hs, hr, hf, hc, hres, hrev, hdel, ?_, hmix, hdr, ?_, hdet, ht, hk, hi⟩
  · show within c.arith 0 (95 / 100) (if _ then _ else _)
    split
    · exact ⟨c.arith.near_mono (by unfold fbCap; norm_num), c.arith.near_mono (by unfold fbCap; norm_num)⟩
    · exact hfb
  · show within c.arith 0 1 (if _ then _ else _)
    split
    · have hwf := h.2.2.1
      obtain ⟨h0, h1⟩ : 0 < c.driveGainAtten ∧ c.driveGainAtten < 1 := hwf.2.2.2.2.2.2.2.2.2.2.2
      obtain ⟨hg0, hg1⟩ := hg
      rw [Arith.near_zero] at hg0
      rw [near_one] at hg1
      obtain ⟨-, ha0, ha1⟩ := c.arith.rnd_unit h0.le h1.le
      exact ⟨c.arith.near_mono (mul_nonneg hg0 ha0), c.arith.near_mono (mul_le_one₀ hg1 ha0 ha1)⟩
    · exact hg

end Sys2Proof.Machine
end

