-- ==== Sys2Proof/Laws/Numbers.lean ====
section
/-! SUPPORT. In the exact reals every register of the signal path stays a number: one lemma for each stage, and the
completion of a frame that follows. -/

namespace Sys2Proof.Machine

/-- A pair of numbers. -/
abbrev Stereo.numbers (x : Stereo) : Prop := x.left.isFin = true ∧ x.right.isFin = true

section
variable {a : Arith} (ha : a ≠ .binary32)
include ha

/-! ## Primitives -/

theorem softClip_isFin {x : RealNum} (hx : x.isFin = true) : (softClip a x).isFin = true := by
  unfold softClip
  split
  · rfl
  · split
    · rfl
    · exact Arith.div_isFin ha (Arith.mul_isFin ha hx (Arith.add_isFin ha rfl (Arith.mul_isFin ha hx hx)))
        (Arith.add_isFin ha rfl (Arith.mul_isFin ha rfl (Arith.mul_isFin ha hx hx)))

theorem noteToFrequency_isFin (note : Byte) : (noteToFrequency a note).isFin = true :=
  Arith.mul_isFin ha rfl (Arith.exp2_isFin ha (Arith.div_isFin ha (Arith.sub_isFin ha rfl rfl) rfl))

theorem envelope_configure_numbers (fs : Nat) (x d s r : Rat) {e : Envelope} (he : e.numbers) :
    (e.configure a fs x d s r).numbers :=
  ⟨he.1, Arith.div_isFin ha rfl (Arith.mul_isFin ha rfl (Arith.const_isFin ha _)),
    Arith.div_isFin ha (Arith.sub_isFin ha rfl rfl) (Arith.mul_isFin ha rfl (Arith.const_isFin ha _)), rfl,
    Arith.div_isFin ha rfl (Arith.mul_isFin ha rfl (Arith.const_isFin ha _))⟩

theorem envelope_process_numbers {e : Envelope} (he : e.numbers) : (e.process a).numbers := by
  obtain ⟨hl, h1, h2, hs, h3⟩ := he
  unfold Envelope.process
  split
  · exact ⟨hl, h1, h2, hs, h3⟩
  · dsimp only; split
    · exact ⟨rfl, h1, h2, hs, h3⟩
    · exact ⟨Arith.add_isFin ha hl h1, h1, h2, hs, h3⟩
  · dsimp only; split
    · exact ⟨hs, h1, h2, hs, h3⟩
    · exact ⟨Arith.sub_isFin ha hl h2, h1, h2, hs, h3⟩
  · exact ⟨hl, h1, h2, hs, h3⟩
  · dsimp only; split
    · exact ⟨rfl, h1, h2, hs, h3⟩
    · exact ⟨Arith.sub_isFin ha hl h3, h1, h2, hs, h3⟩

theorem filter_configure_numbers (type : Byte) (fs : Nat) (cutoff q : Rat) {f : Biquad} (hf : f.numbers) :
    (f.configure a type fs cutoff q).numbers := by
  obtain ⟨-, -, -, -, -, z1, z2⟩ := hf
  have hw : ∀ x : Rat, (a.div (a.twoPi (.fin x)) (a.const (fs : Nat))).isFin = true := fun x =>
    Arith.div_isFin ha (Arith.twoPi_isFin ha rfl) (Arith.const_isFin ha _)
  have hc := Arith.cos_isFin ha (hw (clamp cutoff 20 18000))
  have hal : (a.div (a.sin (a.div (a.twoPi (.fin (clamp cutoff 20 18000))) (a.const (fs : Nat))))
      (a.mul (.fin 2) (.fin (clamp q (a.near (1 / 10)) 10)))).isFin = true :=
    Arith.div_isFin ha (Arith.sin_isFin ha (hw _)) (Arith.mul_isFin ha rfl rfl)
  have h0 := Arith.add_isFin ha (show (RealNum.fin 1).isFin = true from rfl) hal
  have hb : ∀ c alpha : RealNum, c.isFin = true → alpha.isFin = true → (filterNumerator a type c alpha).1.isFin = true ∧
      (filterNumerator a type c alpha).2.1.isFin = true ∧ (filterNumerator a type c alpha).2.2.isFin = true := by
    intro c alpha hc hal
    unfold filterNumerator
    split
    · exact ⟨Arith.div_isFin ha (Arith.sub_isFin ha rfl hc) rfl, Arith.sub_isFin ha rfl hc,
        Arith.div_isFin ha (Arith.sub_isFin ha rfl hc) rfl⟩
    · exact ⟨Arith.div_isFin ha (Arith.add_isFin ha rfl hc) rfl, RealNum.neg_isFin (Arith.add_isFin ha rfl hc),
        Arith.div_isFin ha (Arith.add_isFin ha rfl hc) rfl⟩
    · exact ⟨hal, rfl, RealNum.neg_isFin hal⟩
  obtain ⟨h1, h2, h3⟩ := hb _ _ hc hal
  exact ⟨Arith.div_isFin ha h1 h0, Arith.div_isFin ha h2 h0, Arith.div_isFin ha h3 h0,
    Arith.div_isFin ha (RealNum.neg_isFin (Arith.mul_isFin ha rfl hc)) h0, Arith.div_isFin ha (Arith.sub_isFin ha rfl hal) h0, z1, z2⟩

theorem filter_output_isFin {f : Biquad} (hf : f.numbers) {x : RealNum} (hx : x.isFin = true) : (f.output a x).isFin = true :=
  Arith.add_isFin ha (Arith.mul_isFin ha hf.1 hx) hf.2.2.2.2.2.1

theorem filter_process_numbers {f : Biquad} (hf : f.numbers) {x : RealNum} (hx : x.isFin = true) : (f.process a x).numbers := by
  have hy := filter_output_isFin ha hf hx
  obtain ⟨h0, h1, h2, h3, h4, -, z2⟩ := hf
  exact ⟨h0, h1, h2, h3, h4, Arith.add_isFin ha (Arith.sub_isFin ha (Arith.mul_isFin ha h1 hx) (Arith.mul_isFin ha h3 hy)) z2,
    Arith.sub_isFin ha (Arith.mul_isFin ha h2 hx) (Arith.mul_isFin ha h4 hy)⟩

theorem dc_output_isFin {d : DcBlocker} (hd : d.numbers) {x : RealNum} (hx : x.isFin = true) : (d.output a x).isFin = true :=
  Arith.add_isFin ha (Arith.sub_isFin ha hx hd.1) (Arith.mul_isFin ha (Arith.const_isFin ha _) hd.2)

theorem noiseValue_isFin (w : Word) : (noiseValue a w).isFin = true := Arith.sub_isFin ha (Arith.div_isFin ha rfl rfl) rfl

/-! ## Voices -/

theorem wave_isFin (code : Byte) {p : RealNum} (hp : p.isFin = true) : (wave a code p).isFin = true := by
  unfold wave
  split
  · exact Arith.sub_isFin ha (Arith.mul_isFin ha rfl hp) rfl
  · split <;> rfl
  · refine Arith.sub_isFin ha rfl (Arith.mul_isFin ha rfl ?_)
    have hm : (a.sub p (.fin (1 / 2))).isFin = true := Arith.sub_isFin ha hp rfl
    split
    · exact RealNum.neg_isFin hm
    · exact hm
  · exact Arith.sin_isFin ha (Arith.twoPi_isFin ha hp)

theorem voice_value_isFin (p : Params) {v : Voice} (hv : v.numbers) : (v.value a p).isFin = true := by
  obtain ⟨h1, h2, hvel, he⟩ := hv
  exact Arith.mul_isFin ha (Arith.mul_isFin ha (Arith.add_isFin ha
    (Arith.mul_isFin ha (Arith.sub_isFin ha rfl rfl) (wave_isFin ha _ h1)) (Arith.mul_isFin ha rfl (wave_isFin ha _ h2))) he.1) hvel

theorem voice_strike_numbers (note vel : Byte) (age : Nat) {v : Voice} (hv : v.numbers) : (v.strike a note vel age).numbers :=
  ⟨rfl, rfl, Arith.div_isFin ha (x := byteReal vel) (y := .fin 127) rfl rfl, hv.2.2.2⟩

end

theorem voice_advance_numbers {c : Cfg} (ha : c.arith ≠ .binary32) (fs : Nat) (detune : Rat) {v : Voice} (hv : v.numbers) :
    (v.advance c fs detune).numbers := by
  obtain ⟨h1, h2, hvel, he⟩ := hv
  have hf := noteToFrequency_isFin ha v.note
  refine ⟨Arith.frac_isFin ha (Arith.add_isFin ha h1 (Arith.div_isFin ha hf (Arith.const_isFin ha _))),
    Arith.frac_isFin ha (Arith.add_isFin ha h2 (Arith.div_isFin ha (Arith.mul_isFin ha hf (Arith.exp2_isFin ha
      (Arith.div_isFin ha (Arith.mul_isFin ha rfl (Arith.const_isFin ha _)) rfl))) (Arith.const_isFin ha _))), hvel, he⟩

/-- One frame of a voice gives a voice of numbers and a number. -/
theorem voice_sample_numbers {c : Cfg} (ha : c.arith ≠ .binary32) (fs : Nat) (p : Params) {v : Voice} (hv : v.numbers) :
    (v.sample c fs p).1.numbers ∧ ∀ x, (v.sample c fs p).2 = some x → x.isFin = true := by
  have hp : ({ v with env := v.env.process c.arith } : Voice).numbers :=
    ⟨hv.1, hv.2.1, hv.2.2.1, envelope_process_numbers ha hv.2.2.2⟩
  unfold Voice.sample
  split
  · exact ⟨hv, fun x hx => nomatch hx⟩
  · dsimp only
    split
    · exact ⟨hp, fun x hx => nomatch hx⟩
    · exact ⟨voice_advance_numbers ha fs _ hp, fun x hx => by cases hx; exact voice_value_isFin ha p hp⟩

theorem sampleVoices_numbers {c : Cfg} (ha : c.arith ≠ .binary32) (fs : Nat) (p : Params) {vs : List Voice}
    (hv : ∀ v ∈ vs, v.numbers) : ∀ v ∈ sampleVoices c fs p vs, v.numbers := by
  intro v hm
  obtain ⟨u, hu, rfl⟩ := List.mem_map.mp hm
  exact (voice_sample_numbers ha fs p (hv u hu)).1

theorem contributions_isFin {c : Cfg} (ha : c.arith ≠ .binary32) (fs : Nat) (p : Params) {vs : List Voice}
    (hv : ∀ v ∈ vs, v.numbers) : ∀ x ∈ voiceContributions c fs p vs, x.isFin = true := by
  intro x hm
  obtain ⟨u, hu, hx⟩ := List.mem_filterMap.mp hm
  exact (voice_sample_numbers ha fs p (hv u hu)).2 x hx

theorem sumContributions_isFin {a : Arith} (ha : a ≠ .binary32) {xs : List RealNum} (h : ∀ x ∈ xs, x.isFin = true) :
    (sumContributions a xs).isFin = true := by
  have key : ∀ (xs : List RealNum) (y : RealNum), y.isFin = true → (∀ x ∈ xs, x.isFin = true) → (xs.foldl a.add y).isFin = true := by
    intro xs
    induction xs with
    | nil => exact fun y hy _ => hy
    | cons x xs ih =>
      intro y hy h
      exact ih _ (Arith.add_isFin ha hy (h x List.mem_cons_self)) fun z hz => h z (List.mem_cons_of_mem _ hz)
  exact key xs _ rfl h

theorem polyMix_isFin {c : Cfg} (ha : c.arith ≠ .binary32) {xs : List RealNum} (h : ∀ x ∈ xs, x.isFin = true) :
    (polyMix c xs).isFin = true := by
  unfold polyMix
  split
  · rfl
  · exact Arith.div_isFin ha (Arith.mul_isFin ha (sumContributions_isFin ha h) (Arith.const_isFin ha _)) (Arith.sqrt_isFin ha _)

theorem driveStage_isFin {c : Cfg} (ha : c.arith ≠ .binary32) (drive : Rat) {x : RealNum} (hx : x.isFin = true) :
    (driveStage c drive x).isFin = true := by
  have hg : (c.arith.add (.fin 1) (c.arith.mul (c.arith.const c.driveK) (.fin drive))).isFin = true :=
    Arith.add_isFin ha rfl (Arith.mul_isFin ha (Arith.const_isFin ha _) rfl)
  exact Arith.div_isFin ha (softClip_isFin ha (Arith.mul_isFin ha hg hx)) hg

/-! ## Drums -/

theorem drumLevel_isFin {c : Cfg} (ha : c.arith ≠ .binary32) (vel : Byte) : (drumLevel c vel).isFin = true :=
  RealNum.max_isFin (Arith.const_isFin ha _) (Arith.div_isFin ha rfl rfl)

theorem drum_trigger_numbers {c : Cfg} (ha : c.arith ≠ .binary32) (fs : Nat) (r : Recipe) (m : Kit) (vel : Byte) {d : Drum}
    (hd : d.numbers) : (d.trigger c fs r m vel).numbers := by
  have k := fun q => Arith.const_isFin ha q
  have hv := drumLevel_isFin ha vel
  have mul2 := fun x y => Arith.mul_isFin ha (k x) (k y)
  refine ⟨⟨?_, hv, ?_, ?_, rfl, mul2 _ _, k _, ?_⟩, k _, mul2 _ _, k _, k _, mul2 _ _, rfl, rfl⟩
  · show (if c.drumLegacyDecay = true then drumLevel c vel else .fin 0).isFin = true
    split
    · exact hv
    · rfl
  · unfold Drum.trigger
    dsimp only
    split
    · exact hd.1.2.2.1
    · exact Arith.div_isFin ha hv (RealNum.max_isFin rfl (Arith.mul_isFin ha (mul2 _ _) (k _)))
  · exact Arith.pow_isFin ha _ (Arith.div_isFin ha rfl (Arith.mul_isFin ha (mul2 _ _) (k _)))
  · exact Arith.pow_isFin ha _ (Arith.div_isFin ha rfl (Arith.mul_isFin ha (k _) (k _)))

theorem hitDrums_numbers {c : Cfg} (ha : c.arith ≠ .binary32) (fs : Nat) (r : Recipe) (m : Kit) (p : Nat) (vel : Byte)
    {ds : List Drum} (hd : ∀ d ∈ ds, d.numbers) : ∀ d ∈ hitDrums c fs r m p vel ds, d.numbers := by
  have key : ∀ (i : Nat) (f : Drum → Drum) (ds : List Drum), (∀ d : Drum, d.numbers → (f d).numbers) → (∀ d ∈ ds, d.numbers) →
      ∀ d ∈ ds.modify i f, d.numbers := by
    intro i f ds hf hd d hm
    obtain ⟨j, hj⟩ := List.mem_iff_getElem?.mp hm
    rw [List.getElem?_modify] at hj
    cases hu : ds[j]? with
    | none => rw [hu] at hj; cases hj
    | some u =>
      have hu' := hd u (List.mem_iff_getElem?.mpr ⟨j, hu⟩)
      rw [hu] at hj
      cases hj
      dsimp only
      split
      · exact hf u hu'
      · exact hu'
  unfold hitDrums
  refine key _ _ _ (fun d h => drum_trigger_numbers ha fs r m vel h) ?_
  split
  · exact key _ _ _ (fun d h => ⟨⟨Arith.mul_isFin ha h.1.1 (Arith.const_isFin ha _), h.1.2⟩, h.2⟩) hd
  · exact hd

theorem drumTone_isFin {c : Cfg} (ha : c.arith ≠ .binary32) {t : RealNum} (ht : t.isFin = true) : (drumTone c t).isFin = true := by
  have hs : ∀ x : RealNum, x.isFin = true → (c.arith.sin (c.arith.mul (c.arith.twoPi x) t)).isFin = true := fun x hx =>
    Arith.sin_isFin ha (Arith.mul_isFin ha (Arith.twoPi_isFin ha hx) ht)
  exact Arith.add_isFin ha (Arith.add_isFin ha (hs _ rfl) (Arith.mul_isFin ha (Arith.const_isFin ha _) (hs _ (Arith.const_isFin ha _))))
    (Arith.mul_isFin ha (Arith.const_isFin ha _) (hs _ (Arith.const_isFin ha _)))

theorem drum_sample_numbers {c : Cfg} (ha : c.arith ≠ .binary32) (r : Recipe) {n : RealNum} (hn : n.isFin = true) {d : Drum}
    (hd : d.numbers) : (d.sample c r n).1.numbers ∧ (d.sample c r n).2.isFin = true := by
  obtain ⟨⟨hl, ht, hr, hdc, hph, hcz, hpe, hpd⟩, htm, hnm, hpan, hdr, hg, hlp, hhp⟩ := hd
  have hh : (c.arith.add d.hpState (c.arith.mul (c.arith.const c.drumHpCoef) (c.arith.sub n d.hpState))).isFin = true :=
    Arith.add_isFin ha hhp (Arith.mul_isFin ha (Arith.const_isFin ha _) (Arith.sub_isFin ha hn hhp))
  have hx : (c.arith.add (c.arith.mul d.toneMix (drumTone c d.phase)) (c.arith.mul d.noiseMix (c.arith.sub n
      (c.arith.add d.hpState (c.arith.mul (c.arith.const c.drumHpCoef) (c.arith.sub n d.hpState)))))).isFin = true :=
    Arith.add_isFin ha (Arith.mul_isFin ha htm (drumTone_isFin ha hph)) (Arith.mul_isFin ha hnm (Arith.sub_isFin ha hn hh))
  have hone : (c.arith.add (.fin 1) d.drive).isFin = true := Arith.add_isFin ha rfl hdr
  unfold Drum.sample
  dsimp only
  split
  · have hlp' := Arith.add_isFin ha hlp (Arith.mul_isFin ha (Arith.const_isFin ha r.lpCoef) (Arith.sub_isFin ha hx hlp))
    exact ⟨⟨⟨hl, ht, hr, hdc, hph, hcz, hpe, hpd⟩, htm, hnm, hpan, hdr, hg, hlp', hh⟩,
      Arith.mul_isFin ha (Arith.mul_isFin ha (softClip_isFin ha (Arith.mul_isFin ha (Arith.sub_isFin ha hx hlp') hone)) hl) hg⟩
  · exact ⟨⟨⟨hl, ht, hr, hdc, hph, hcz, hpe, hpd⟩, htm, hnm, hpan, hdr, hg, hlp, hh⟩,
      Arith.mul_isFin ha (Arith.mul_isFin ha (softClip_isFin ha (Arith.mul_isFin ha hx hone)) hl) hg⟩

theorem drum_advance_numbers {a : Arith} (ha : a ≠ .binary32) (fs : Nat) {d : Drum} (hd : d.numbers) : (d.advance a fs).numbers := by
  obtain ⟨⟨hl, ht, hr, hdc, hph, hcz, hpe, hpd⟩, hrest⟩ := hd
  refine ⟨⟨?_, ht, hr, hdc, ?_, hcz, Arith.mul_isFin ha hpe hpd, hpd⟩, hrest⟩
  · unfold Drum.advance
    dsimp only
    split
    · split
      · exact ht
      · exact Arith.add_isFin ha hl hr
    · exact Arith.mul_isFin ha hl hdc
  · exact Arith.add_isFin ha hph (Arith.div_isFin ha (Arith.mul_isFin ha hcz (Arith.add_isFin ha rfl hpe)) (Arith.const_isFin ha _))

theorem drum_settle_numbers {a : Arith} {d : Drum} (hd : d.numbers) : (d.settle a).numbers := by
  unfold Drum.settle
  split
  · exact hd
  · exact hd

theorem panGains_isFin {c : Cfg} (ha : c.arith ≠ .binary32) {pan : RealNum} (hp : pan.isFin = true) :
    (panGains c pan).1.isFin = true ∧ (panGains c pan).2.isFin = true := by
  have hl : (linearPan c.arith pan).1.isFin = true ∧ (linearPan c.arith pan).2.isFin = true :=
    ⟨Arith.div_isFin ha (Arith.sub_isFin ha rfl hp) rfl, Arith.div_isFin ha (Arith.add_isFin ha rfl hp) rfl⟩
  unfold panGains
  split
  · exact hl
  · split
    · exact ⟨Arith.const_isFin ha _, Arith.const_isFin ha _⟩
    · exact hl

/-- The running accumulator of the bank holds numbers. -/
abbrev DrumFrame.numbers (f : DrumFrame) : Prop := (∀ d ∈ f.drums, d.numbers) ∧ f.left.isFin = true ∧ f.right.isFin = true

theorem renderDrum_numbers {c : Cfg} (ha : c.arith ≠ .binary32) (fs : Nat) (r : Recipe) {d : Drum} (hd : d.numbers)
    {acc : DrumFrame} (h : acc.numbers) : (renderDrum c fs r d acc).1.numbers ∧ (renderDrum c fs r d acc).2.numbers := by
  unfold renderDrum
  split
  · obtain ⟨h1, h2⟩ := drum_sample_numbers ha r (noiseValue_isFin ha (noiseNext acc.noise)) hd
    obtain ⟨g1, g2⟩ := panGains_isFin ha hd.2.2.2.1
    exact ⟨drum_settle_numbers (drum_advance_numbers ha fs h1), h.1, Arith.add_isFin ha h.2.1 (Arith.mul_isFin ha g1 h2),
      Arith.add_isFin ha h.2.2 (Arith.mul_isFin ha g2 h2)⟩
  · exact ⟨hd, h⟩

theorem renderDrumsFrom_numbers {c : Cfg} (ha : c.arith ≠ .binary32) {fs : Nat} {rs : List Recipe} {ds : List Drum}
    {acc f : DrumFrame} (hr : renderDrumsFrom c fs rs ds acc = .ok f) (hd : ∀ d ∈ ds, d.numbers) (h : acc.numbers) : f.numbers := by
  induction ds generalizing rs acc with
  | nil => cases rs <;> (cases hr; exact h)
  | cons d ds ih =>
    cases rs with
    | nil => cases hr
    | cons r rs =>
      obtain ⟨h1, h2⟩ := renderDrum_numbers ha fs r (hd d List.mem_cons_self) h
      refine ih hr (fun x hx => hd x (List.mem_cons_of_mem _ hx)) ⟨fun x hx => ?_, h2.2⟩
      rcases List.mem_append.mp hx with hx | hx
      · exact h2.1 x hx
      · rw [List.mem_singleton.mp hx]; exact h1

theorem renderDrums_numbers {c : Cfg} (ha : c.arith ≠ .binary32) {fs : Nat} {ds : List Drum} {noise : Word} {f : DrumFrame}
    (hr : renderDrums c fs ds noise = .ok f) (hd : ∀ d ∈ ds, d.numbers) : f.numbers :=
  renderDrumsFrom_numbers ha hr hd ⟨by simp, rfl, rfl⟩

/-! ## The stages of a frame -/

theorem monoStage_numbers {s : State} (ha : s.cfg.arith ≠ .binary32) (hs : s.numbers) :
    (monoStage s).1.numbers ∧ (monoStage s).2.isFin = true := by
  obtain ⟨hv, hd, hf, hrest⟩ := hs
  have hx := driveStage_isFin ha s.snapshot.params.drive
    (polyMix_isFin ha (contributions_isFin ha s.life.fs s.snapshot.params hv))
  exact ⟨⟨sampleVoices_numbers ha _ _ hv, hd, filter_process_numbers ha hf hx, hrest⟩, filter_output_isFin ha hf hx⟩

theorem drumStage_numbers {s t : State} {y : RealNum} {x : Stereo} (h : drumStage s y = .ok (t, x)) (ha : s.cfg.arith ≠ .binary32)
    (hs : s.numbers) (hy : y.isFin = true) : t.numbers ∧ x.numbers := by
  obtain ⟨f, hf, ht⟩ := bind_ok h
  cases ht
  obtain ⟨hd, hl, hr⟩ := renderDrums_numbers ha hf hs.2.1
  exact ⟨⟨hs.1, hd, hs.2.2⟩, Arith.add_isFin ha hy hl, Arith.add_isFin ha hy hr⟩

theorem wetDry_isFin {a : Arith} (ha : a ≠ .binary32) (mix : Rat) {dry wet : RealNum} (hd : dry.isFin = true) (hw : wet.isFin = true) :
    (wetDry a mix dry wet).isFin = true :=
  Arith.add_isFin ha (Arith.mul_isFin ha (Arith.sub_isFin ha rfl rfl) hd) (Arith.mul_isFin ha rfl hw)

theorem delayStage_numbers {s t : State} {x y : Stereo} (h : delayStage s x = .ok (t, y)) (ha : s.cfg.arith ≠ .binary32)
    (hs : s.numbers) (hx : x.numbers) : t.numbers ∧ y.numbers := by
  obtain ⟨d, _, h⟩ := bind_ok h
  obtain ⟨b, _, h⟩ := bind_ok h
  obtain ⟨v, _, h⟩ := bind_ok h
  obtain ⟨s', hw, h⟩ := bind_ok h
  obtain ⟨-, rfl⟩ := memWrite_ok hw
  cases h
  have hb : (decodeSample s.cfg.arith b).isFin = true := Arith.div_isFin ha rfl rfl
  exact ⟨hs, wetDry_isFin ha _ hx.1 hb, wetDry_isFin ha _ hx.2 hb⟩

theorem fade_advance_numbers {a : Arith} (ha : a ≠ .binary32) {f : Fade} (hl : f.level.isFin = true) (hs : f.step.isFin = true) :
    (f.advance a).level.isFin = true ∧ (f.advance a).step.isFin = true := by
  have hg : (fadeGoal f.target).isFin = true := by unfold fadeGoal; split <;> rfl
  unfold Fade.advance
  dsimp only
  split
  · exact ⟨RealNum.min_isFin hg (Arith.add_isFin ha hl hs), hs⟩
  · split
    · exact ⟨RealNum.max_isFin hg (Arith.sub_isFin ha hl hs), hs⟩
    · exact ⟨hl, hs⟩

theorem outputStage_numbers {s : State} (ha : s.cfg.arith ≠ .binary32) (hs : s.numbers) {x : Stereo} (hx : x.numbers) :
    (outputStage s x).1.numbers ∧ (outputStage s x).2.numbers := by
  obtain ⟨hv, hd, hf, hdl, hdr, hrl, hrr, hfl, hfs⟩ := hs
  have k := fun q => Arith.const_isFin ha q
  have sm : ∀ (c : Rat) (u v w : RealNum), u.isFin = true → v.isFin = true → w.isFin = true →
      (s.cfg.arith.add (s.cfg.arith.mul (s.cfg.arith.sub (.fin 1) (s.cfg.arith.const c)) u)
        (s.cfg.arith.mul (s.cfg.arith.const c) (s.cfg.arith.add v (s.cfg.arith.mul (s.cfg.arith.const s.cfg.revX) w)))).isFin = true :=
    fun c u v w hu hv hw => Arith.add_isFin ha (Arith.mul_isFin ha (Arith.sub_isFin ha rfl (k c)) hu)
      (Arith.mul_isFin ha (k c) (Arith.add_isFin ha hv (Arith.mul_isFin ha (k _) hw)))
  have r1 := sm s.cfg.revAL s.reverb.revL x.right s.reverb.revR hrl hx.2 hrr
  have r2 := sm s.cfg.revAR s.reverb.revR x.left s.reverb.revL hrr hx.1 hrl
  have gain : ∀ u : RealNum, u.isFin = true → (outputGain s.cfg.arith s.snapshot.params u).isFin = true := fun u hu =>
    Arith.mul_isFin ha (Arith.mul_isFin ha hu rfl) rfl
  have gl := gain _ (Arith.add_isFin ha hx.1 (Arith.mul_isFin ha (show (RealNum.fin s.snapshot.params.reverb).isFin = true from rfl) r1))
  have gr := gain _ (Arith.add_isFin ha hx.2 (Arith.mul_isFin ha (show (RealNum.fin s.snapshot.params.reverb).isFin = true from rfl) r2))
  obtain ⟨f1, f2⟩ := fade_advance_numbers ha hfl hfs
  exact ⟨⟨hv, hd, hf, ⟨gl, dc_output_isFin ha hdl gl⟩, ⟨gr, dc_output_isFin ha hdr gr⟩, r1, r2, f1, f2⟩,
    Arith.mul_isFin ha (softClip_isFin ha (dc_output_isFin ha hdl gl)) f1,
    Arith.mul_isFin ha (softClip_isFin ha (dc_output_isFin ha hdr gr)) f1⟩

/-- In the reals a frame keeps every register a number. -/
theorem frame_numbers {k : Nat} {s t : State} (h : frame k s = .ok t) (ha : s.cfg.arith ≠ .binary32) (hs : s.numbers) : t.numbers := by
  unfold frame at h
  split at h
  · cases h
  · obtain ⟨⟨d, x⟩, hd, h⟩ := bind_ok h
    obtain ⟨⟨u, y⟩, hu, h⟩ := bind_ok h
    obtain ⟨hm, hmy⟩ := monoStage_numbers ha hs
    obtain ⟨hdn, hxn⟩ := drumStage_numbers hd ha hm hmy
    obtain ⟨dr, no, rfl⟩ : ∃ dr no, d = { (monoStage s).1 with drums := dr, noise := no } := ⟨_, _, (drumStage_ok hd).1⟩
    obtain ⟨hun, hyn⟩ := delayStage_numbers hu ha hdn hxn
    obtain ⟨-, v, rfl, -⟩ := delayStage_ok hu
    obtain ⟨hon, -⟩ := outputStage_numbers (s := { (monoStage s).1 with
      drums := dr, noise := no, delay := _ }) ha hun hyn
    obtain ⟨⟨m, rfl⟩, -⟩ := blockStage_ok h
    exact hon

/-! ## No NaN in the reals -/

theorem clampSignal_completes {x : RealNum} (lo hi : Rat) (h : x.isFin = true) : ∃ q, clampSignal x lo hi = .ok q := by
  obtain ⟨q, rfl⟩ := RealNum.isFin_iff.mp h
  exact ⟨_, rfl⟩

theorem delayStage_completes {s : State} {x : Stereo} (ha : s.cfg.arith ≠ .binary32) (hx : x.numbers)
    (h : s.delay.writeIdx < s.delay.len) (h2 : 2 ≤ s.delay.len) : ∃ t y, delayStage s x = .ok (t, y) := by
  obtain ⟨d, hd⟩ : ∃ d, delaySamples s.cfg.arith s.life.fs s.delay.len s.snapshot.params.delayMs = .ok d := by
    obtain ⟨q, hq⟩ := clampSignal_completes 1 ((s.delay.len : Nat) - 1) (RealNum.round_isFin (Arith.div_isFin ha (Arith.mul_isFin ha
      (show (RealNum.fin s.snapshot.params.delayMs).isFin = true from rfl) (Arith.const_isFin ha (s.life.fs : Nat)))
      (show (RealNum.fin 1000).isFin = true from rfl)))
    unfold delaySamples
    rw [hq]
    exact ⟨_, rfl⟩
  obtain ⟨b, hb⟩ := memRead_of_lt (s := s) (sp := .delay) (a := tapIndex s.delay.len s.delay.writeIdx d)
    (tapIndex_lt (by omega)) (by decide)
  have hwet : (decodeSample s.cfg.arith b).isFin = true := Arith.div_isFin ha rfl rfl
  obtain ⟨v, hv⟩ : ∃ v, encodeSample s.cfg.arith (s.cfg.arith.add (s.cfg.arith.div (s.cfg.arith.add x.left x.right) (.fin 2))
      (s.cfg.arith.mul (.fin s.snapshot.params.delayFeedback) (decodeSample s.cfg.arith b))) = .ok v := by
    have hin := Arith.add_isFin ha (Arith.div_isFin ha (Arith.add_isFin ha hx.1 hx.2) (show (RealNum.fin 2).isFin = true from rfl))
      (Arith.mul_isFin ha (show (RealNum.fin s.snapshot.params.delayFeedback).isFin = true from rfl) hwet)
    obtain ⟨q, hq⟩ := clampSignal_completes (-127) 127 (RealNum.round_isFin (Arith.mul_isFin ha
      (show (RealNum.fin 127).isFin = true from rfl) hin))
    unfold encodeSample
    rw [hq]
    exact ⟨_, rfl⟩
  unfold delayStage
  simp only [hd, hb, hv, memWrite_of_lt (sp := .delay) _ (show s.delay.writeIdx < s.arenaSize .delay from h), bind, Except.bind]
  exact ⟨_, _, rfl⟩

theorem blockStage_completes {s : State} {k : Nat} {x : Stereo} (hx : x.numbers) (h : k < s.life.blockSize) :
    ∃ t, blockStage s k x = .ok t := by
  have hq : ∀ y : RealNum, y.isFin = true → ∃ q, q16 s.cfg.arith y = .ok q := by
    intro y hy
    obtain ⟨c, hc⟩ := clampSignal_completes (-1) 1 hy
    unfold q16
    rw [hc]
    exact ⟨_, rfl⟩
  obtain ⟨l, hl⟩ := hq _ hx.1
  obtain ⟨r, hr⟩ := hq _ hx.2
  unfold blockStage
  simp only [hl, hr, bind, Except.bind]
  exact memWrites_of_le _ (by simp only [List.length_append, s16Bytes_length, State.arenaSize]; omega)

/-- In the reals a frame of the block completes when its registers have been written and its indices are in range. -/
theorem frame_completes {k : Nat} {s : State} (ha : s.cfg.arith ≠ .binary32) (hs : s.numbers) (hu : frameUnset s = none)
    (hr : s.drums.length ≤ s.cfg.recipes.length) (hd : s.delay.writeIdx < s.delay.len) (h2 : 2 ≤ s.delay.len)
    (hk : k < s.life.blockSize) : ∃ t, frame k s = .ok t := by
  obtain ⟨hm, hmy⟩ := monoStage_numbers ha hs
  obtain ⟨d, x, hdr⟩ := drumStage_completes (s := (monoStage s).1) (monoStage s).2 hr
  obtain ⟨hdn, hxn⟩ := drumStage_numbers hdr ha hm hmy
  obtain ⟨dr, no, rfl⟩ : ∃ dr no, d = { (monoStage s).1 with drums := dr, noise := no } := ⟨_, _, (drumStage_ok hdr).1⟩
  obtain ⟨u, y, hde⟩ := delayStage_completes (s := { (monoStage s).1 with drums := dr, noise := no }) ha hxn hd h2
  obtain ⟨hun, hyn⟩ := delayStage_numbers hde ha hdn hxn
  obtain ⟨-, v, rfl, -⟩ := delayStage_ok hde
  have hon := (outputStage_numbers (s := { (monoStage s).1 with drums := dr, noise := no, delay := _ }) ha hun hyn).2
  unfold frame
  rw [hu]
  simp only [hdr, hde, bind, Except.bind]
  exact blockStage_completes hon hk

end Sys2Proof.Machine
end

