-- ==== Sys2Proof/Laws/PerInstr.lean ====
section
/-! SUPPORT. Statements about every instruction as syntax, one lemma a constructor. -/

namespace Sys2Proof.Laws.EncodingSpace

/-- The instruction is encoded in the unreserved part of its space: a ring command under a kind of 0x00 to 0x04
(30_encoding.md R301), a host operation under a selector of 0x01 to 0x15 (R305). -/
def Statement (i : Instr) : Prop :=
  match encode i with
  | .record r => r.kind.toNat ≤ 0x04
  | .call c => 0x01 ≤ c.selector.toNat ∧ c.selector.toNat ≤ 0x15

theorem cmdNoteOn (note : Byte) (vel : Byte) : Statement (.cmdNoteOn note vel) := by
  simp [Statement, encode, recordOf]

theorem cmdNoteOff (note : Byte) : Statement (.cmdNoteOff note) := by
  simp [Statement, encode, recordOf]

theorem cmdAllNotesOff : Statement (.cmdAllNotesOff) := by
  simp [Statement, encode, recordOf]

theorem cmdDrumHit (part : Byte) (vel : Byte) : Statement (.cmdDrumHit part vel) := by
  simp [Statement, encode, recordOf]

theorem cmdAllDrumsOff : Statement (.cmdAllDrumsOff) := by
  simp [Statement, encode, recordOf]

theorem start (sink : SinkConfig) (rate : Word) (size : Word) : Statement (.start sink rate size) := by
  simp [Statement, encode]

theorem stop : Statement (.stop) := by
  simp [Statement, encode]

theorem running : Statement (.running) := by
  simp [Statement, encode]

theorem fadeIn (ms : Word) : Statement (.fadeIn ms) := by
  simp [Statement, encode]

theorem fadeOut (ms : Word) : Statement (.fadeOut ms) := by
  simp [Statement, encode]

theorem noteOn (note : Byte) (vel : Byte) (gate : Word) : Statement (.noteOn note vel gate) := by
  simp [Statement, encode]

theorem noteOff (note : Byte) : Statement (.noteOff note) := by
  simp [Statement, encode]

theorem allNotesOff : Statement (.allNotesOff) := by
  simp [Statement, encode]

theorem drumHit (part : Byte) (vel : Byte) : Statement (.drumHit part vel) := by
  simp [Statement, encode]

theorem allDrumsOff : Statement (.allDrumsOff) := by
  simp [Statement, encode]

theorem setDrumsEnabled (b : Bool) : Statement (.setDrumsEnabled b) := by
  simp [Statement, encode]

theorem setParams (p : SynthParams RealNum) : Statement (.setParams p) := by
  simp [Statement, encode]

theorem getParams : Statement (.getParams) := by
  simp [Statement, encode]

theorem loadPreset (index : Word) : Statement (.loadPreset index) := by
  simp [Statement, encode]

theorem resetPreset : Statement (.resetPreset) := by
  simp [Statement, encode]

theorem triggerTestChord (ms : Word) : Statement (.triggerTestChord ms) := by
  simp [Statement, encode]

theorem service (now : Word) : Statement (.service now) := by
  simp [Statement, encode]

theorem consumeUnderruns : Statement (.consumeUnderruns) := by
  simp [Statement, encode]

theorem getPerfSnapshot : Statement (.getPerfSnapshot) := by
  simp [Statement, encode]

theorem presetName (index : Word) : Statement (.presetName index) := by
  simp [Statement, encode]

theorem presetDefaults (index : Word) : Statement (.presetDefaults index) := by
  simp [Statement, encode]

end Sys2Proof.Laws.EncodingSpace
end

