-- ==== Sys2Proof/Laws/Stability.lean ====
section
/-! SUPPORT. The filter of an admitted configuration in the reals is stable (40_dsp_primitives.md R453): at 64 fractional
bits or more the computed sine of its angle is positive and the computed cosine is below 1 in magnitude. -/

namespace Sys2Proof.Machine

/-- The sine of `x` turns, up to half a turn, is at least four times the distance to the nearer end. -/
theorem sin_turn_lower {x : ℝ} (h0 : 0 ≤ x) (h1 : x ≤ 1 / 2) : min (4 * x) (4 * (1 / 2 - x)) ≤ Real.sin (2 * Real.pi * x) := by
  have hp := Real.pi_pos
  have key : ∀ y : ℝ, 0 ≤ y → y ≤ 1 / 4 → 4 * y ≤ Real.sin (2 * Real.pi * y) := by
    intro y hy0 hy1
    have h := Real.mul_le_sin (x := 2 * Real.pi * y) (by positivity) (by nlinarith)
    rwa [show 2 / Real.pi * (2 * Real.pi * y) = 4 * y by field_simp; ring] at h
  rcases le_total x (1 / 4) with hx | hx
  · exact (min_le_left _ _).trans (key x h0 hx)
  · have h := key (1 / 2 - x) (by linarith) (by linarith)
    rw [show 2 * Real.pi * (1 / 2 - x) = Real.pi - 2 * Real.pi * x by ring, Real.sin_pi_sub] at h
    exact (min_le_right _ _).trans h

/-- The cosine of `x` turns, up to half a turn, stays off 1 and −1 by eight times the squared distance to the end. -/
theorem cos_turn_bounds {x : ℝ} (h0 : 0 ≤ x) (h1 : x ≤ 1 / 2) :
    Real.cos (2 * Real.pi * x) ≤ 1 - 8 * x ^ 2 ∧ -1 + 8 * (1 / 2 - x) ^ 2 ≤ Real.cos (2 * Real.pi * x) := by
  have hp := Real.pi_pos
  have key : ∀ y : ℝ, 0 ≤ y → y ≤ 1 / 2 → Real.cos (2 * Real.pi * y) ≤ 1 - 8 * y ^ 2 := by
    intro y hy0 hy1
    have h := Real.cos_le_one_sub_mul_cos_sq (x := 2 * Real.pi * y) (by rw [abs_of_nonneg (by positivity)]; nlinarith)
    rwa [show 2 / Real.pi ^ 2 * (2 * Real.pi * y) ^ 2 = 8 * y ^ 2 by field_simp; ring] at h
  refine ⟨key x h0 h1, ?_⟩
  have h := key (1 / 2 - x) (by linarith) (by linarith)
  rw [show 2 * Real.pi * (1 / 2 - x) = Real.pi - 2 * Real.pi * x by ring, Real.cos_pi_sub] at h
  linarith

/-- A number of turns that an admitted rate and cutoff give: it keeps its distance from no turn and from half a turn. -/
theorem filterTurns_bounds {fs : Nat} (h : 36000 < fs) (h32 : fs < 2 ^ 32) (cutoff : Rat) :
    20 / 2 ^ 32 ≤ ((clamp cutoff 20 18000 / (fs : Nat) : Rat) : ℝ) ∧
    ((clamp cutoff 20 18000 / (fs : Nat) : Rat) : ℝ) ≤ 1 / 2 - 1 / 72002 := by
  obtain ⟨c0, c1⟩ := clamp_bounds (lo := 20) (hi := 18000) (by norm_num) cutoff
  have c0' : (20 : ℝ) ≤ clamp cutoff 20 18000 := by exact_mod_cast c0
  have c1' : (clamp cutoff 20 18000 : ℝ) ≤ 18000 := by exact_mod_cast c1
  have f0 : (36001 : ℝ) ≤ fs := by exact_mod_cast h
  have f1 : (fs : ℝ) ≤ 2 ^ 32 := by exact_mod_cast h32.le
  push_cast
  constructor
  · gcongr
  · rw [div_le_iff₀ (by linarith)]
    linarith

/-- The computed sine and cosine of the filter's angle (R450), at 64 fractional bits or more. -/
theorem filterAngle_values {bits fs : Nat} (hb : 64 ≤ bits) (h : 36000 < fs) (h32 : fs < 2 ^ 32) (cutoff : Rat) :
    ∃ s c : Rat, (Arith.reals bits).sin (.fin (clamp cutoff 20 18000 / (fs : Nat))) = .fin s ∧
      (Arith.reals bits).cos (.fin (clamp cutoff 20 18000 / (fs : Nat))) = .fin c ∧ 0 < s ∧ |c| < 1 := by
  obtain ⟨x0, x1⟩ := filterTurns_bounds h h32 cutoff
  obtain ⟨s, hs, es⟩ := Arith.sin_reals_error bits (clamp cutoff 20 18000 / (fs : Nat))
  obtain ⟨c, hc, ec⟩ := Arith.cos_reals_error bits (clamp cutoff 20 18000 / (fs : Nat))
  generalize ((clamp cutoff 20 18000 / (fs : Nat) : Rat) : ℝ) = x at x0 x1 es ec
  have xp : (0 : ℝ) ≤ x := le_trans (by norm_num) x0
  have ls := sin_turn_lower xp (by linarith)
  obtain ⟨lc, uc⟩ := cos_turn_bounds xp (by linarith)
  have hbits : (1 / 2 : ℝ) ^ bits ≤ 1 / 2 ^ 64 := (half_pow_le hb).trans (by norm_num)
  obtain ⟨es', -⟩ := abs_le.mp (es.trans hbits)
  obtain ⟨ec0, ec1⟩ := abs_le.mp (ec.trans hbits)
  refine ⟨s, c, hs, hc, ?_, ?_⟩
  · have hm : (1 : ℝ) / 2 ^ 28 ≤ min (4 * x) (4 * (1 / 2 - x)) := le_min (by linarith) (by linarith)
    have : (0 : ℝ) < s := by linarith
    exact_mod_cast this
  · have l2 : (20 / 2 ^ 32 : ℝ) ^ 2 ≤ x ^ 2 := pow_le_pow_left₀ (by norm_num) x0 2
    have u2 : (1 / 72002 : ℝ) ^ 2 ≤ (1 / 2 - x) ^ 2 := pow_le_pow_left₀ (by norm_num) (by linarith) 2
    have : |(c : ℝ)| < 1 := abs_lt.mpr ⟨by linarith, by linarith⟩
    exact_mod_cast this

/-- The poles of a filter with a positive `alpha` and a cosine below 1 in magnitude lie inside the unit circle (R453). -/
theorem poles_inside {alpha c : Rat} (ha : 0 < alpha) (hc : |c| < 1) :
    |(1 - alpha) / (1 + alpha)| < 1 ∧ |-(2 * c) / (1 + alpha)| < 1 + (1 - alpha) / (1 + alpha) := by
  obtain ⟨c0, c1⟩ := abs_lt.mp hc
  have h1 : 0 < 1 + alpha := by linarith
  have h2 : 1 + (1 - alpha) / (1 + alpha) = 2 / (1 + alpha) := by field_simp; ring
  rw [h2]
  refine ⟨abs_lt.mpr ⟨?_, ?_⟩, abs_lt.mpr ⟨?_, ?_⟩⟩
  · rw [lt_div_iff₀ h1]; linarith
  · rw [div_lt_iff₀ h1]; linarith
  · rw [← neg_div, div_lt_div_iff_of_pos_right h1]; linarith
  · rw [div_lt_div_iff_of_pos_right h1]; linarith

end Sys2Proof.Machine
end

