-- ==== Sys2Proof/Tests/Slice0.lean ====
section
/-! SUPPORT. Small tests of one step each, expected values from 95_test_vectors.md or by hand from the rules named;
the ill-formed instructions the checks refuse; a hand-written encoding for every constructor; and for every statement
with hypotheses a concrete state that meets them. -/

namespace Sys2Proof.Tests

open Machine

-- One kernel evaluation at a time: a backlog of them would hold one thread each.
set_option Elab.async false

/-! ## Helpers -/

/-- What `f` sees of the next state, if there is one. -/
def seen {α : Type} (o : Outcome) (f : State → α) : Option α :=
  match o with
  | .next t => some (f t)
  | .fault _ => none
  | .refused _ => none

/-- The refusal of an outcome, if it is one. -/
def refusal (o : Outcome) : Option Refusal :=
  match o with
  | .next _ => none
  | .fault _ => none
  | .refused r => some r

/-- A core after start(0, 48000, 2), its render context at its loop test. -/
def started : State :=
  { State.reset with
    life := { running := true, enabled := true, ack := false, started := true, fs := 48000, blockSize := 2,
              sink := some ⟨0⟩, phase := .loopTest, late := false }
    delay := { cells := [], len := 38401, writeIdx := 0 } }

/-- The record B of 95_test_vectors.md §3. -/
def recordB : Params :=
  { osc1Wave := 0, osc2Wave := 0, oscMix := 0, mono := false, maxVoices := 8, attack := 1 / 100, decay := 1 / 10
    sustain := 1 / 2, release := 1 / 10, filterType := 0, cutoff := 12000, resonance := 1 / 2, reverb := 0, delayMs := 0
    delayFeedback := 0, delayMix := 0, drive := 0, masterGain := 1, detune := 0, gainTrim := 1, drumKit := 0, presetIndex := 0 }

/-- That core inside a block at phase `p`, with record `q` taken and the low-pass of 12000 Hz at Q 0.5 configured. -/
def inBlock (q : Params) (p : Phase) : State :=
  { started with
    life := { started.life with phase := p }
    snapshot := { params := q, taken := true }
    filter := { b0 := .fin (1 / 4), b1 := .fin (1 / 2), b2 := .fin (1 / 4), a1 := .fin 0, a2 := .fin 0, z1 := .fin 0, z2 := .fin 0
                configured := true }
    pool := { started.pool with voices := started.pool.voices.map fun v => { v with env := { v.env with configured := true } } } }

/-- A voice sounding `note` since `age`, in Sustain at level 1. -/
def sounding (note : Byte) (age : Nat) : Voice :=
  { Voice.initial with active := true, note := note, age := age, velocity := .fin 1, phase1 := .fin (1 / 4), phase2 := .fin (1 / 4)
                       env := { Envelope.initial with state := .sustain, level := .fin 1, sustainLevel := .fin 1, configured := true } }

/-- A core inside a block with the given voices. -/
def withVoices (q : Params) (p : Phase) (vs : List Voice) : State :=
  { inBlock q p with pool := { voices := vs, ageCounter := 5 } }

/-- The state with one input: the render context moves, with draws `d`. -/
def renders (s : State) (d : Draws) : State := { s with inputs := [⟨.render, d⟩] }

/-- The state with the record `r` in the tail slot and nothing else queued. -/
def holding (r : Record) (s : State) : State :=
  { s with queue := { slots := Memory.put (some 0) (Memory.put (some 0) (Memory.put (some 0) [] 0 r.kind) 1 r.primary) 2 r.secondary
                      head := 1, tail := 0 } }

/-- The state with a full ring (QCAP 64). -/
def full (s : State) : State := { s with queue := { slots := [], head := 63, tail := 0 } }

/-- Draws in which every external operation answers ok. -/
def okDraws : Draws := { nowMs := 1000, configureOk := true, bytesWritten := 8, writeOk := true, renderTimeUs := 100, waitExpired := true }

/-! ## Ill-formed instructions (30_encoding.md R303) -/

theorem test_illformed_noteOn_note : (Instr.cmdNoteOn 0x80 0x40).wellFormed = false := by decide
theorem test_illformed_noteOn_velocity : (Instr.cmdNoteOn 0x3C 0x80).wellFormed = false := by decide
theorem test_illformed_noteOff_note : (Instr.cmdNoteOff 0x80).wellFormed = false := by decide
theorem test_illformed_drumHit_part : (Instr.cmdDrumHit 0x08 0x10).wellFormed = false := by decide
theorem test_illformed_drumHit_velocity : (Instr.cmdDrumHit 0x02 0x80).wellFormed = false := by decide
theorem test_wellformed_boundaries : (Instr.cmdNoteOn 0x7F 0x7F).wellFormed = true ∧ (Instr.cmdNoteOff 0x7F).wellFormed = true ∧
    (Instr.cmdDrumHit 0x07 0x7F).wellFormed = true ∧ (Instr.noteOn 200 200 0).wellFormed = true := by decide

/-! ## Decoding, words of 95_test_vectors.md §2.1 and selectors of 30_encoding.md R305 -/

theorem test_decode_records : [0x003C64, 0x000000, 0x007F7F, 0x013C00, 0x013C55, 0x020000, 0x021234, 0x03027F, 0x040000].map (decodeTableWord 24) =
    [some (.cmdNoteOn 60 100), some (.cmdNoteOn 0 0), some (.cmdNoteOn 127 127), some (.cmdNoteOff 60), some (.cmdNoteOff 60),
     some .cmdAllNotesOff, some .cmdAllNotesOff, some (.cmdDrumHit 2 127), some .cmdAllDrumsOff] := by decide
theorem test_decode_reserved_records :
    [0x008040, 0x003C80, 0x018000, 0x030810, 0x030280, 0x050000, 0xFFFFFF].map (decodeTableWord 24) =
      [none, none, none, none, none, none, none] := by decide
theorem test_decode_reserved_selectors : decodeCall ⟨0x00, []⟩ = .error .reservedHostOp ∧ decodeCall ⟨0x16, []⟩ = .error .reservedHostOp ∧
    decodeCall ⟨0xFF, [.u32 0]⟩ = .error .reservedHostOp ∧ decodeCall ⟨0x02, [.u8 0]⟩ = .error .badArguments := by decide
theorem test_decode_lifecycle : decodeCall ⟨0x01, [.sink ⟨7⟩, .u32 48000, .u32 64]⟩ = .ok (.start ⟨7⟩ 48000 64) ∧
    decodeCall ⟨0x02, []⟩ = .ok .stop ∧ decodeCall ⟨0x03, []⟩ = .ok .running ∧
    decodeCall ⟨0x04, [.u32 10]⟩ = .ok (.fadeIn 10) ∧ decodeCall ⟨0x05, [.u32 11]⟩ = .ok (.fadeOut 11) := by decide
theorem test_decode_notes : decodeCall ⟨0x06, [.u8 60, .u8 100, .u32 500]⟩ = .ok (.noteOn 60 100 500) ∧
    decodeCall ⟨0x07, [.u8 61]⟩ = .ok (.noteOff 61) ∧ decodeCall ⟨0x08, []⟩ = .ok .allNotesOff ∧
    decodeCall ⟨0x09, [.u8 2, .u8 127]⟩ = .ok (.drumHit 2 127) ∧ decodeCall ⟨0x0A, []⟩ = .ok .allDrumsOff ∧
    decodeCall ⟨0x0B, [.bool true]⟩ = .ok (.setDrumsEnabled true) := by decide
theorem test_decode_store : decodeCall ⟨0x0C, [.params (mapReals .fin recordB)]⟩ = .ok (.setParams (mapReals .fin recordB)) ∧
    decodeCall ⟨0x0D, []⟩ = .ok .getParams ∧ decodeCall ⟨0x0E, [.u32 99]⟩ = .ok (.loadPreset 99) ∧
    decodeCall ⟨0x0F, []⟩ = .ok .resetPreset := by decide +kernel
theorem test_decode_rest : decodeCall ⟨0x10, [.u32 500]⟩ = .ok (.triggerTestChord 500) ∧
    decodeCall ⟨0x11, [.u32 16]⟩ = .ok (.service 16) ∧ decodeCall ⟨0x12, []⟩ = .ok .consumeUnderruns ∧
    decodeCall ⟨0x13, []⟩ = .ok .getPerfSnapshot ∧ decodeCall ⟨0x14, [.u32 2]⟩ = .ok (.presetName 2) ∧
    decodeCall ⟨0x15, [.u32 3]⟩ = .ok (.presetDefaults 3) := by decide
theorem test_table_selectors : decodeTableWord 8 0x03 = some .running ∧ decodeTableWord 8 0x01 = some (.start ⟨0⟩ 0 0) ∧
    decodeTableWord 8 0x15 = some (.presetDefaults 0) ∧ decodeTableWord 8 0x16 = none := by decide

/-! ## Ring commands (95_test_vectors.md §2.3, §2.4) -/

theorem test_NOTE_ON_takes_first_inactive :
    seen (exec (.cmdNoteOn 72 90) (withVoices { recordB with maxVoices := 2 } .drain [sounding 60 5, Voice.initial])) (·.pool.voices[1]?) =
      some (some { Voice.initial with active := true, note := 72, age := 6, velocity := .fin (90 / 127)
                                      env := { Envelope.initial with state := .attack } }) := by decide +kernel
theorem test_NOTE_ON_steals_oldest_in_window :
    seen (exec (.cmdNoteOn 72 90) (withVoices { recordB with maxVoices := 2 } .drain [sounding 60 3, sounding 61 4, sounding 62 1]))
      (fun t => t.pool.voices.map fun v => (v.note, v.age, v.env.state, v.env.level)) =
      some [(72, 6, .attack, .fin 1), (61, 4, .sustain, .fin 1), (62, 1, .sustain, .fin 1)] := by decide +kernel
theorem test_NOTE_OFF_releases_all_on_the_note :
    seen (exec (.cmdNoteOff 60) (withVoices recordB .drain [sounding 60 1, sounding 61 2, sounding 60 3]))
      (fun t => t.pool.voices.map (·.env.state)) = some [.release, .sustain, .release] := by decide +kernel
theorem test_ALL_NOTES_OFF_releases_active :
    seen (exec .cmdAllNotesOff (withVoices recordB .drain [sounding 60 1, Voice.initial, sounding 61 2]))
      (fun t => t.pool.voices.map fun v => (v.active, v.env.state)) = some [(true, .release), (false, .off), (true, .release)] := by
  decide +kernel
theorem test_DRUM_HIT_starts_attacking :
    seen (exec (.cmdDrumHit 0 127) (inBlock recordB .drain)) (fun t => t.drums.head?.map fun (d : Drum) => (d.active, d.envTarget, d.envLevel, d.attacking)) =
      some (some (true, .fin 1, .fin 0, true)) := by decide +kernel
theorem test_DRUM_HIT_chokes_open_hat :
    let s := inBlock recordB .drain
    seen (exec (.cmdDrumHit 2 127) { s with drums := s.drums.modify 3 fun d => { d with active := true, envLevel := .fin (6 / 10) } })
      (fun t => (t.drums.drop 3).head?.map fun (d : Drum) => (d.active, d.envLevel)) = some (some (true, .fin (3 / 100))) := by decide +kernel
theorem test_ALL_DRUMS_OFF_cuts :
    let s := inBlock recordB .drain
    seen (exec .cmdAllDrumsOff { s with drums := s.drums.modify 3 fun d => { d with active := true, envLevel := .fin (6 / 10) } })
      (fun t => (t.drums.drop 3).head?.map fun (d : Drum) => (d.active, d.envLevel)) = some (some (false, .fin (6 / 10))) := by decide +kernel

/-! ## Lifecycle and fades (95_test_vectors.md §2.8, §2.7) -/

theorem test_start_succeeds : seen (exec (.start ⟨0⟩ 48000 64) { State.reset with draws := okDraws })
    (fun t => (t.life.running, t.delay.len, t.trace.head?)) = some (true, 38401, some (.result (.flag true))) := by decide +kernel
theorem test_start_refuses : refusal (exec (.start ⟨0⟩ 32000 64) State.reset) = some .badStartConfig ∧
    refusal (exec (.start ⟨0⟩ 48000 0) State.reset) = some .badStartConfig := by decide +kernel
theorem test_stop_when_not_running : seen (exec .stop State.reset) (fun t => (t.life, t.ongoing)) = some (State.reset.life, []) := by
  decide +kernel
theorem test_stop_fades_first : seen (exec .stop started) (fun t => (t.life.enabled, t.fade.target, t.ongoing)) =
    some (true, false, [.stopDisable]) := by decide +kernel
theorem test_running : seen (exec .running started) (·.trace) = some [.result (.flag true)] := by decide +kernel
theorem test_fadeIn_step : seen (exec (.fadeIn 10) { started with fade := { level := .fin 0, target := false, step := .fin 0 } }) (·.fade) =
    some { level := .fin 0, target := true, step := .fin (1 / 480) } := by decide +kernel
theorem test_fadeIn_before_start : seen (exec (.fadeIn 10) { State.reset with fade := { level := .fin 0, target := false, step := .fin 0 } }) (·.fade) =
    some { level := .fin 1, target := true, step := .fin 0 } := by decide +kernel
theorem test_fadeOut_at_once : seen (exec (.fadeOut 0) started) (·.fade) = some { level := .fin 0, target := false, step := .fin 0 } := by
  decide +kernel

/-! ## Notes, drums, table (95_test_vectors.md §2.8) -/

theorem test_noteOn_pushes_and_schedules : seen (exec (.noteOn 60 200 500) { started with draws := okDraws })
    (fun t => (t.queued, t.sched.head?)) = some ([⟨0x00, 0x3C, 0x7F⟩], some ⟨true, 60, 1500⟩) := by decide +kernel
theorem test_noteOn_dropped_schedules_nothing : seen (exec (.noteOn 60 100 500) (full started))
    (fun t => (t.queue.head, t.sched.head?, t.counters.queueDrops)) = some (63, some ⟨false, 0, 0⟩, 1) := by decide +kernel
theorem test_noteOff_pushes_and_removes :
    seen (exec (.noteOff 60) { started with sched := [⟨true, 61, 5⟩, ⟨true, 60, 9⟩] }) (fun t => (t.queued, t.sched.map (·.live))) =
      some ([⟨0x01, 0x3C, 0x00⟩], [true, false]) := by decide +kernel
theorem test_allNotesOff_on_full_ring :
    seen (exec .allNotesOff (full { started with sched := [⟨true, 61, 5⟩, ⟨true, 60, 9⟩] }))
      (fun t => (t.counters.queueDrops, t.sched.map (·.live))) = some (1, [false, false]) := by decide +kernel
theorem test_drumHit_pushes : seen (exec (.drumHit 2 127) started) (·.queued) = some [⟨0x03, 0x02, 0x7F⟩] := by decide +kernel
theorem test_drumHit_part_out_of_range : seen (exec (.drumHit 9 100) started) (·.queued) = some [] := by decide +kernel
theorem test_allDrumsOff_while_disabled : seen (exec .allDrumsOff { started with drumsEnabled := false }) (·.queued) =
    some [⟨0x04, 0x00, 0x00⟩] := by decide +kernel
theorem test_setDrumsEnabled : seen (exec (.setDrumsEnabled false) started) (·.drumsEnabled) = some false := by decide +kernel
theorem test_triggerTestChord_first_note : seen (exec (.triggerTestChord 500) { started with draws := okDraws })
    (fun t => (t.queued, t.sched.head?, t.ongoing)) =
      some ([⟨0x00, 60, 100⟩], some ⟨true, 60, 1500⟩, [.chord [64, 67] 500]) := by decide +kernel
theorem test_service_with_room_for_one :
    seen (exec (.service 10) { started with queue := { slots := [], head := 62, tail := 0 }, sched := [⟨true, 60, 10⟩, ⟨true, 64, 10⟩] })
      (fun t => (t.queued.getLast?, t.sched.map (·.live), t.counters.queueDrops)) =
      some (some ⟨0x01, 0x3C, 0x00⟩, [false, true], 1) := by decide +kernel
theorem test_isDue_table : [((0x10 : Word), (0x10 : Word)), (0x0F, 0x10), (0x80000000, 1), (0x80000010, 0x10), (5, 0xFFFFFFF0)].map
    (fun x => isDue x.1 x.2) = [true, false, true, false, true] := by decide

/-! ## Parameter store (95_test_vectors.md §2.5) -/

theorem test_setParams_feedback_cap :
    seen (exec (.setParams (mapReals .fin { recordB with delayFeedback := 99 / 100, delayMix := 9 / 10 })) started)
      (fun t => (t.store.activeIdx, t.store.params1.delayFeedback, t.store.params1.delayMix)) = some (1, 92 / 100, 9 / 10) := by
  decide +kernel
theorem test_setParams_nan : refusal (exec (.setParams { mapReals .fin recordB with cutoff := .nan }) started) = some .nonFiniteParam := by
  decide +kernel
theorem test_sanitize_reals : (fun p => [p.attack, p.release, p.cutoff, p.gainTrim, p.masterGain])
    (sanitize defaultCfg { recordB with attack := -1, release := 0, cutoff := 20000, gainTrim := 0, drive := 1 }) =
      [0, 1 / 100, 18000, 45 / 100, 9 / 10] := by decide +kernel
theorem test_sanitize_bytes : (fun p => [p.maxVoices, p.osc1Wave, p.filterType, p.drumKit, p.presetIndex])
    (sanitize defaultCfg { recordB with maxVoices := 200, osc1Wave := 9, filterType := 7, drumKit := 5, presetIndex := 99 }) =
      [8, 3, 2, 2, 15] := by decide +kernel
theorem test_getParams : seen (exec .getParams { started with store := { params0 := recordB, params1 := { recordB with drive := 1 }, activeIdx := 1 } })
    (·.trace) = some [.result (.params { recordB with drive := 1 })] := by decide +kernel
theorem test_loadPreset_last : seen (exec (.loadPreset 99) started) (fun t => (t.store.activeIdx, t.store.params1.presetIndex)) =
    some (1, 15) := by decide +kernel
theorem test_resetPreset : seen (exec .resetPreset { started with store := { params0 := { recordB with drive := 1 / 2, presetIndex := 3 }, params1 := recordB, activeIdx := 0 } })
    (fun t => (t.store.activeIdx, t.store.params1.presetIndex, t.store.params1.drive)) = some (1, 3, 0) := by decide +kernel
theorem test_presetName : seen (exec (.presetName 2) { started with cfg := { defaultCfg with presets := [⟨"a", recordB⟩, ⟨"b", recordB⟩] } })
    (·.trace) = some [.result (.name "b")] := by decide +kernel
theorem test_presetDefaults : seen (exec (.presetDefaults 7) { started with cfg := { defaultCfg with presets := [⟨"a", recordB⟩, ⟨"b", recordB⟩] } })
    (fun t => (t.trace, t.store.activeIdx)) = some ([.result (.params { recordB with presetIndex := 1 })], 0) := by decide +kernel

/-! ## Diagnostics (95_test_vectors.md §2.8) -/

theorem test_consumeUnderruns : seen (exec .consumeUnderruns { started with counters := { Counters.initial with underrunsPending := 2, underrunsTotal := 5 } })
    (fun t => (t.trace, t.counters.underrunsPending, t.counters.underrunsTotal)) = some ([.result (.count 2)], 0, 5) := by decide +kernel
theorem test_getPerfSnapshot_average :
    seen (exec .getPerfSnapshot { started with counters := { Counters.initial with renderTimeSumUs := 601, renderBlocks := 3, renderTimeMaxUs := 301 } })
      (·.trace) = some [.result (.perf ⟨0, 0, 0, 0, 0, 200, 301⟩)] := by decide +kernel

/-! ## The render context (95_test_vectors.md §2.2, §2.7) -/

theorem test_snap_configures : seen (snapPhase { started with store := { started.store with params0 := recordB } } |> finish)
    (fun t => t.pool.voices.head?.map fun v => (v.env.attackInc, v.env.decayInc, v.env.sustainLevel, v.env.releaseInc)) =
      some (some (.fin (1 / 480), .fin (1 / 9600), .fin (1 / 2), .fin (1 / 4800))) := by decide +kernel
theorem test_filter_coefficients :
    let f := Biquad.configure (.reals 64) 0 48000 12000 (1 / 2) .initial
    let g := Biquad.configure (.reals 64) 2 48000 12000 1 .initial
    (f.b0, f.b1, f.b2, f.a1, f.a2) = (.fin (1 / 4), .fin (1 / 2), .fin (1 / 4), .fin 0, .fin 0) ∧
      (g.b0, g.b1, g.b2, g.a1, g.a2) = (.fin (1 / 3), .fin 0, .fin (-1 / 3), .fin 0, .fin (1 / 3)) := by
  decide +kernel
theorem test_frame_0 :
    seen (step (renders (withVoices recordB (.render 0) [sounding 69 1]) .initial))
      (fun t => (t.delay.cells, t.block.map (·.2), t.life.phase, t.delay.writeIdx)) =
      some ([(0, 0xF1)], [0x27, 0xF1, 0x27, 0xF1], .render 1, 1) := by decide +kernel
theorem test_noise_states : noiseNext 1 = 270369 ∧ noiseNext 270369 = 67634689 ∧ noiseNext 67634689 = 2647435461 := by decide
/-- R470 and log entry 25: the largest state, exactly and in binary32. -/
theorem test_noise_value : noiseValue (.reals 64) 0xFFFFFFFF = .fin (1 - 1 / 2 ^ 31) ∧ noiseValue .binary32 0xFFFFFFFF = .fin 1 ∧
    noiseValue .binary32 0xFFFFFF7F = .fin (1 - 1 / 2 ^ 23) := by decide +kernel
/-- Log entry 26: a phase past the largest binary32 number, and a soft clip that rounds above 1. -/
theorem test_binary32_leaves_the_laws : Arith.binary32.frac (Arith.binary32.add (.fin 0) (roundBinary32 (2 ^ 128))) = .nan ∧
    softClip .binary32 (.fin (12512681 / 4194304)) = .fin (1 + 1 / 2 ^ 23) := by decide +kernel
theorem test_softClip_values : ([0, 1, 2, 3, 6, -4] : List Rat).map (fun x => softClip (.reals 64) (.fin x)) =
    ([0, 7 / 9, 62 / 63, 1, 1, -1] : List Rat).map RealNum.fin := by decide +kernel
theorem test_wave_values : ([0, 1, 2, 3] : List Byte).map (fun c => wave (.reals 64) c (.fin (1 / 4))) = ([-1 / 2, 1, 0, 1] : List Rat).map RealNum.fin ∧
    ([0, 1, 2, 3] : List Byte).map (fun c => wave (.reals 64) c (.fin (3 / 4))) = ([1 / 2, -1, 0, -1] : List Rat).map RealNum.fin := by decide +kernel
theorem test_q16_values : ([1, 1 / 2, 1 / 4, -1 / 2, -2] : List Rat).map (fun x => q16 (.reals 64) (.fin x)) =
    ([32767, 16384, 8192, -16384, -32767] : List Int).map Except.ok := by decide +kernel
theorem test_q16_of_no_number : [RealNum.inf false, .inf true, .nan].map (q16 .binary32) =
    [.ok 32767, .ok (-32767), .error (.refusal .nanOperand)] := by decide +kernel
theorem test_encodeSample_values : ([1 / 2, 1, -1, 2, -1 / 2] : List Rat).map (fun x => encodeSample (.reals 64) (.fin x)) =
    ([64, 127, 0x81, 127, 0xC0] : List Byte).map Except.ok := by decide +kernel
/-- R921: 250 ms at 48 kHz is 12000 samples, 0 ms one sample, 800 ms the whole line; R920: the tap wraps. -/
theorem test_delaySamples : ([250, 0, 800] : List Rat).map (fun ms => delaySamples (.reals 64) 48000 (delayLength 48000) ms) =
    ([12000, 1, 38400] : List Nat).map Except.ok ∧ tapIndex 38401 5 12000 = 26406 := by decide +kernel
/-- R902: four voices have the gain 1/2; R903: drive 1 takes 0.5 to 0.1. -/
theorem test_mix_and_drive : polyMix defaultCfg (List.replicate 4 (.fin 1)) = .fin 2 ∧ driveStage defaultCfg 1 (.fin (1 / 2)) = .fin (1 / 10) := by
  decide +kernel
/-- R453 at 10 MHz and the lowest cutoff: the sine is positive and the cosine below 1. -/
theorem test_lowest_filter_angle : (RealNum.fin 0).lt ((Arith.reals 64).sin (.fin (20 / 10000000))) = true ∧
    ((Arith.reals 64).cos (.fin (20 / 10000000))).lt (.fin 1) = true := by decide +kernel
theorem test_octave_is_exact : noteToFrequency (.reals 64) 69 = .fin 440 ∧ noteToFrequency (.reals 64) 81 = .fin 880 := by decide +kernel
theorem test_middle_c : |finiteValue (noteToFrequency (.reals 64) 60) - 2616255653 / 10000000| < 1 / 10000000 := by decide +kernel
theorem test_binary32_tenth : roundBinary32 (1 / 10) = .fin (13421773 / 134217728) := by decide +kernel
/-- IEEE 754: the largest finite binary32, the overflow bound above it, and the operations that have no number for a result. -/
theorem test_binary32_overflow : roundBinary32 (2 ^ 128 - 2 ^ 104) = .fin (2 ^ 128 - 2 ^ 104) ∧ roundBinary32 (-(2 ^ 128 - 2 ^ 103)) = .inf true ∧
    Arith.binary32.add (.inf false) (.inf true) = .nan ∧ Arith.binary32.mul (.fin 0) (.inf true) = .nan ∧
    Arith.binary32.div (.fin (-1)) (.fin 0) = .inf true ∧ Arith.binary32.div (.fin 0) (.fin 0) = .nan := by decide +kernel
/-- R525 law 1 on the recipe that the earlier grid rounded to 1: 0.25 s at 48 kHz with 64 bits. -/
theorem test_decay_below_one : (decayCoefficient { defaultCfg with arith := .reals 64 } (.fin 12000)).lt (.fin 1) = true := by decide +kernel
/-- R1001: a start while a block is in flight does not cancel it, and its WRITE is the failed one (D47). -/
theorem test_start_keeps_the_block_in_flight :
    let s := { inBlock recordB (.render 1) with life := { (inBlock recordB (.render 1)).life with running := false, sink := none }, draws := okDraws }
    seen (exec (.start ⟨0⟩ 48000 2) s) (fun t => (t.life.phase, t.life.late)) = some (.render 1, true) ∧
    seen (step (renders { s with life := { s.life with phase := .write, sink := some ⟨0⟩, late := true } } okDraws))
      (fun t => (t.counters.sinkWriteFailures, t.trace, t.life.phase, t.life.late)) = some (1, [], .loopTest, false) := by decide +kernel
theorem test_short_write_counts : seen (step (renders { inBlock recordB .write with block := (List.range 8).map fun a => (a, 1) } { okDraws with bytesWritten := 3 }))
    (fun t => (t.counters.sinkWriteFailures, t.counters.underrunsTotal, t.counters.underrunsPending, t.life.phase)) =
      some (0, 1, 1, .loopTest) := by decide +kernel

/-! ## Running from reset (log entry 5) -/

theorem test_reset_runs_a_record : seen (step (State.reset.withFetchWord 24 0x003C64)) (fun t => (t.queued, t.pool.ageCounter, t.life.phase)) =
    some ([], 1, .drain) := by decide +kernel
theorem test_reset_runs_a_call : seen (step (State.reset.withFetchWord 8 0x03)) (·.trace) = some [.result (.flag false)] := by decide +kernel

/-! ## Witnesses: for each statement with hypotheses, a state and operands that meet them, clause by clause -/

/-- A core inside a block whose registers are all in range, its ring holding one NOTE_ON. -/
def drainingOne : State := holding ⟨0x00, 60, 100⟩ (renders (inBlock recordB .drain) okDraws)

/-- A full block of two frames, ready to be written. -/
def writing : State := renders { inBlock recordB .write with block := (List.range 8).map fun a => (a, 1) } okDraws

theorem inRange_initial : paramsInRange defaultCfg (initialParams defaultCfg) := by
  repeat' apply And.intro
  all_goals decide +kernel

theorem inRange_recordB : paramsInRange defaultCfg recordB := by
  repeat' apply And.intro
  all_goals decide +kernel

/-- A core whose next input is the host call `c`. -/
def calling (c : HostCall) (s : State) : State := { s with inputs := [⟨.call c, okDraws⟩] }

theorem witness_EncodedInstructionsDecodeBack : (Instr.cmdDrumHit 7 127).wellFormed = true ∧ decode (.record ⟨0x01, 127, 255⟩) = .ok (.cmdNoteOff 127) ∧
    decode (.call ⟨0x15, [.u32 0]⟩) = .ok (.presetDefaults 0) := by decide
theorem witness_StepRunsTheHostCall : (calling ⟨0x03, []⟩ started).inputs = [⟨.call ⟨0x03, []⟩, okDraws⟩] ∧ decodeCall ⟨0x03, []⟩ = .ok .running := by
  decide
theorem witness_DrainPops_empty : (renders (inBlock recordB .drain) okDraws).life.phase = .drain ∧ (inBlock recordB .drain).ringOk ∧
    (inBlock recordB .drain).queue.head = (inBlock recordB .drain).queue.tail := by decide +kernel
theorem witness_DrainPops_one : drainingOne.life.phase = .drain ∧ drainingOne.ringOk ∧ drainingOne.queue.head ≠ drainingOne.queue.tail ∧
    decodeRecord (drainingOne.slotRecord drainingOne.queue.tail) = .ok (.cmdNoteOn 60 100) := by decide +kernel
theorem witness_ConstructionMeetsTheInvariants : defaultCfg.wf := by decide +kernel
theorem witness_StepKeepsTheInvariant : drainingOne.Inv ∧ seen (step drainingOne) (·.pool.ageCounter) = some 1 :=
  ⟨⟨by decide +kernel, by decide +kernel, by decide +kernel, by decide +kernel, by decide +kernel,
    ⟨inRange_initial, inRange_initial, fun _ => inRange_recordB⟩,
    by decide +kernel, by decide +kernel, by decide +kernel, trivial, fun _ => by decide +kernel⟩, by decide +kernel⟩
theorem witness_StepsNeverFault_render : writing.Inv ∧ writing.inputs = [⟨.render, okDraws⟩] :=
  ⟨⟨by decide +kernel, by decide +kernel, by decide +kernel, by decide +kernel, by decide +kernel,
    ⟨inRange_initial, inRange_initial, fun _ => inRange_recordB⟩,
    by decide +kernel, by decide +kernel, by decide +kernel,
    fun _ _ => by show ∀ a < 4 * 2, _; decide +kernel, fun _ => by decide +kernel⟩, rfl⟩
/-- The refusal that O8 allows is met: a NaN in the reverb reaches the delay-free output stage of a binary32 frame. -/
theorem witness_StepsNeverFault_nan :
    let s := renders { inBlock recordB (.render 0) with cfg := { defaultCfg with arith := .binary32 }, reverb := ⟨.nan, .nan⟩ } okDraws
    refusal (step s) = some .nanOperand ∧ s.cfg.arith = .binary32 ∧ s.life.phase = .render 0 := by decide +kernel
theorem witness_StepKeepsMemoryCanonical : writing.memoryWf ∧ seen (step writing) (·.life.phase) = some .loopTest := by decide +kernel
theorem witness_MemoryReadsBack : State.reset.memoryWf ∧ 189 + ([1, 2, 3] : List Byte).length ≤ State.reset.arenaSize .ring := by decide +kernel
theorem witness_StepKeepsParameterRanges : drainingOne.cfg.wf ∧ drainingOne.paramsOk ∧ feedbackCapped drainingOne.cfg drainingOne.store.params0 ∧
    feedbackCapped drainingOne.cfg drainingOne.store.params1 ∧ feedbackCapped drainingOne.cfg drainingOne.snapshot.params :=
  ⟨by decide +kernel, ⟨inRange_initial, inRange_initial, fun _ => inRange_recordB⟩, by decide +kernel⟩
theorem witness_StepKeepsSizes : drainingOne.ringOk ∧ drainingOne.counters.queueHighWater.toNat ≤ drainingOne.cfg.qcap - 1 ∧
    drainingOne.schedOk ∧ drainingOne.sizesOk := by decide +kernel
theorem witness_StoredSamples : (renders (inBlock recordB (.render 0)) okDraws).delayOk ∧
    seen (step (renders (inBlock recordB (.render 0)) okDraws)) (·.life.phase) = some (.render 1) := by decide +kernel
theorem witness_StoredSamples_block : ∀ j, ¬ (Memory.lookup State.reset.block (2 * j) = some 0x00 ∧ Memory.lookup State.reset.block (2 * j + 1) = some 0x80) := by
  intro j h
  cases h.1
theorem witness_SignalRegisters : drainingOne.cfg.noiseSeed ≠ 0 ∧ drainingOne.rateOk ∧ drainingOne.fadeOk ∧ drainingOne.noise ≠ 0 ∧
    ∀ v ∈ drainingOne.pool.voices, v.env.inRange := by decide +kernel
theorem witness_LoopTest : (renders started okDraws).life.phase = .loopTest ∧ started.life.enabled = true ∧
    ({ started.life with enabled := false }).enabled = false ∧ (renders State.reset okDraws).life.phase = .absent := by decide
theorem witness_Snap : (renders (started.setPhase .snap) okDraws).life.phase = .snap ∧ started.life.started = true ∧
    started.store.active.filterType = 0 := by decide +kernel
theorem witness_Snap_types : ({ params0 := { recordB with filterType := 1 }, params1 := recordB, activeIdx := 0 } : Store).active.filterType = 1 ∧
    ({ params0 := recordB, params1 := { recordB with filterType := 2 }, activeIdx := 1 } : Store).active.filterType = 2 := by decide
theorem witness_BlockPhases : seen (step writing) (·.life.phase) = some .loopTest ∧
    seen (step (calling ⟨0x01, [.sink ⟨0⟩, .u32 36001, .u32 1]⟩ State.reset)) (·.life.phase) = some .loopTest := by decide +kernel
theorem witness_ParameterChanges : seen (step (renders (started.setPhase .snap) okDraws)) (fun t => decide (t.snapshot ≠ started.snapshot)) = some true := by
  decide +kernel
theorem witness_ControlSteps : seen (step (calling ⟨0x08, []⟩ started)) (·.queue.head) = some 1 ∧
    seen (step { started with inputs := [⟨.resume 0, okDraws⟩], ongoing := [.stopDisable] }) (·.life.enabled) = some false := by decide +kernel
theorem witness_RenderSteps : writing.inputs = [⟨.render, okDraws⟩] ∧ seen (step writing) (·.counters.renderBlocks) = some 1 := by decide +kernel
theorem witness_SinkResults : SameSound writing (renders
      { writing with counters := { Counters.initial with queueDrops := 3 }, trace := [Event.sinkFlush] } .initial) ∧ seen (step writing) (·.life.phase) = some .loopTest :=
  ⟨⟨rfl, .cons ⟨rfl, fun h => absurd rfl h⟩ .nil, rfl⟩, by decide +kernel⟩
theorem witness_Write_sink : writing.life.phase = .write ∧ writing.life.late = false ∧ writing.life.sink ≠ none ∧
    writing.blockWritten (4 * writing.life.blockSize) :=
  ⟨rfl, rfl, by decide, by show ∀ a < 4 * 2, _; decide +kernel⟩
theorem witness_Write_none : ({ writing with life := { writing.life with sink := none } } : State).life.sink = none ∧
    ({ writing with life := { writing.life with late := true } } : State).life.late = true ∧ writing.life.phase = .write := by decide
theorem witness_StepMovesTheRing : drainingOne.ringOk ∧ drainingOne.memoryWf ∧ drainingOne.inputs = [⟨.render, okDraws⟩] ∧
    (calling ⟨0x08, []⟩ started).ringOk ∧ (calling ⟨0x08, []⟩ started).memoryWf := by decide +kernel
theorem witness_Push : started.ringOk ∧ started.memoryWf ∧ started.queueDepth < started.cfg.qcap - 1 ∧ (full started).ringOk ∧
    (full started).queueDepth = (full started).cfg.qcap - 1 := by decide +kernel
theorem witness_NoteOn_poly :
    let s := withVoices { recordB with maxVoices := 1 } .drain [sounding 60 3, sounding 61 1]
    legalNote 127 = true ∧ legalVelocity 127 = true ∧ s.snapshot.taken = true ∧ s.snapshot.params.mono = false ∧
      1 ≤ s.snapshot.params.maxVoices.toNat ∧ s.snapshot.params.maxVoices.toNat ≤ s.pool.voices.length := by decide +kernel
theorem witness_NoteOn_mono :
    let s := withVoices { recordB with mono := true } .drain [sounding 60 3, sounding 61 1]
    legalNote 0 = true ∧ legalVelocity 0 = true ∧ s.snapshot.taken = true ∧ s.snapshot.params.mono = true ∧
      s.pool.voices = sounding 60 3 :: [sounding 61 1] := by decide +kernel
theorem witness_NoteOff : legalNote 127 = true := by decide
theorem witness_DrumHit (part : Byte) (h : part = 0 ∨ part = 2 ∨ part = 7) :
    let s := inBlock recordB .drain
    legalPart part = true ∧ legalVelocity 127 = true ∧ s.snapshot.taken = true ∧ s.life.started = true ∧ s.drums.length = 8 ∧
      (∃ r, s.cfg.recipes[part.toNat]? = some r) ∧ s.cfg.kits[s.snapshot.params.drumKit.toNat]? = some defaultKit := by
  rcases h with rfl | rfl | rfl
  · exact ⟨by decide, by decide, rfl, rfl, rfl, ⟨defaultRecipe false, rfl⟩, rfl⟩
  · exact ⟨by decide, by decide, rfl, rfl, rfl, ⟨defaultRecipe true, rfl⟩, rfl⟩
  · exact ⟨by decide, by decide, rfl, rfl, rfl, ⟨defaultRecipe true, rfl⟩, rfl⟩
theorem witness_CommandsStoreNoByte : seen (exec .getParams started) (·.queue.head) = some 0 := by decide +kernel
theorem witness_Start_running_and_refused : started.life.running = true ∧ State.reset.life.running = false ∧ (36000#32).toNat ≤ 36000 ∧ (0#32).toNat < 1 := by decide
theorem witness_Start_admitted : State.reset.life.running = false ∧ 36000 < (36001#32).toNat ∧ 1 ≤ (1#32).toNat ∧
    State.reset.draws.configureOk = false ∧ ({ State.reset with draws := okDraws } : State).draws.configureOk = true := by decide
/-- The second and the fourth step of stop, the latter with a sink and without one. -/
theorem witness_Stop_resumed :
    ({ started with ongoing := [.stopDisable], inputs := [⟨.resume 0, okDraws⟩] } : State).ongoing[0]? = some .stopDisable ∧
    ({ started with ongoing := [.chord [67] 5, .stopTearDown], inputs := [⟨.resume 1, okDraws⟩] } : State).ongoing[1]? = some .stopTearDown ∧
    started.life.sink ≠ none ∧ State.reset.life.sink = none ∧ ({ started.life with ack := true } : Lifecycle).ack = true := by decide
theorem witness_Stop : State.reset.life.running = false ∧ started.life.running = true ∧ started.life.sink ≠ none ∧ okDraws.waitExpired = true ∧
    ({ started with ongoing := [.stopAwait 100] } : State).ongoing[0]? = some (.stopAwait 100) ∧ started.life.ack = false ∧
    Draws.initial.waitExpired = false := by decide
theorem witness_Fade : (0#32 : Word) = 0 ∧ State.reset.life.started = false ∧ (1#32 : Word) ≠ 0 ∧ started.life.started = true ∧
    Fade.initial.level = .fin 1 ∧ Fade.initial.step = .fin 0 := by decide +kernel
theorem witness_NoteOn_api : started.ringOk ∧ started.memoryWf ∧ 127 < (128#8).toNat ∧ (127#8).toNat ≤ 127 := by decide +kernel
theorem witness_Schedule_refresh : ∃ e ∈ [(⟨true, 60, 5⟩ : SchedEntry)], e.live = true ∧ e.note = 60 := ⟨_, List.mem_singleton.mpr rfl, rfl, rfl⟩
theorem witness_Schedule_take : (¬ ∃ e ∈ [(⟨true, 61, 5⟩ : SchedEntry), ⟨false, 60, 7⟩], e.live = true ∧ e.note = 60) ∧
    ([(⟨true, 61, 5⟩ : SchedEntry), ⟨false, 60, 7⟩][1]? = some ⟨false, 60, 7⟩) ∧ (∀ e ∈ [(⟨true, 61, 5⟩ : SchedEntry)], e.live = true) := by
  simp
theorem witness_DrumHit_api : started.drumsEnabled = true ∧ ({ started with drumsEnabled := false } : State).drumsEnabled = false ∧
    (7#8).toNat ≤ 7 ∧ 7 < (8#8).toNat := by decide
theorem witness_TestChord : started.cfg.testChord = 60 :: [64, 67] ∧ ({ defaultCfg with testChord := [] } : Cfg).testChord = [] ∧
    ({ started with ongoing := [.chord [67] 500] } : State).ongoing[0]? = some (.chord (67 :: []) 500) := by decide
theorem witness_Service : (full started).ringOk ∧ (full started).memoryWf ∧ started.ringOk ∧ started.memoryWf := by decide +kernel
theorem witness_DueTimes : (5 : Nat) < 6 + 2 ^ 31 ∧ 6 < 5 + 2 ^ 31 := by decide
theorem witness_SetParams : (mapReals .fin recordB : SynthParams RealNum) = mapReals .fin recordB ∧
    RealNum.inf true ∈ realFields { mapReals RealNum.fin recordB with gainTrim := .inf true } ∧
    RealNum.nan ∈ realFields { mapReals RealNum.fin recordB with oscMix := .nan } := by decide +kernel
theorem witness_Presets : started.cfg.presets ≠ [] := by decide +kernel
/-- From level 0 and from a held level; the last sample alone from level 1, where a retrigger finds a decaying voice. -/
theorem witness_Envelope_attack : (0 : Rat) < 1 / 4 ∧ (0 : Rat) + (3 : Nat) * (1 / 4) < 1 ∧ (1 : Rat) ≤ 0 + ((3 : Nat) + 1) * (1 / 4) ∧
    (1 / 2 : Rat) + (1 : Nat) * (1 / 4) < 1 ∧ (1 : Rat) ≤ 1 / 2 + ((1 : Nat) + 1) * (1 / 4) ∧ (1 : Rat) ≤ 1 + ((0 : Nat) + 1) * (1 / 4) := by
  decide +kernel
theorem witness_Envelope_decay : (0 : Rat) ≤ 1 / 4 ∧ 1 ≤ 1 ∧ (1 / 2 : Rat) < 1 - (1 : Nat) * (1 / 4) ∧ (1 : Rat) - (2 : Nat) * (1 / 4) ≤ 1 / 2 := by
  decide +kernel
theorem witness_Envelope_release : (0 : Rat) < 1 / 2 ∧ (0 : Rat) < 1 / 4 ∧ ((1 : Nat) : Rat) * (1 / 4) < 1 / 2 ∧ (1 / 2 : Rat) ≤ (2 : Nat) * (1 / 4) := by
  decide +kernel
theorem witness_Envelope_rest : (sounding 60 1).env.state = .sustain ∧ Envelope.initial.state = .off := by decide
theorem witness_SoftClip : (3 : Rat) ≤ |3| ∧ |(3 : Rat)| ≤ 3 ∧ (-3 : Rat) ≤ 3 := by decide +kernel
theorem witness_Filter_lowest : (RealNum.fin 0).le ((Arith.reals 64).sin (.fin (clamp 0 20 18000 / (48000 : Nat)))) = true := by decide +kernel
theorem witness_Filter_highest : (RealNum.fin 0).le ((Arith.reals 64).sin (.fin (clamp 30000 20 18000 / (36001 : Nat)))) = true := by decide +kernel
theorem witness_Filter_admitted : 64 ≤ 64 ∧ refusedRate < 36001 ∧ (36001 : Nat) < 2 ^ 32 ∧ refusedRate < 2 ^ 32 - 1 ∧ 2 ^ 32 - 1 < 2 ^ 32 := by decide
theorem witness_Waves : (0 : Rat) ≤ 0 ∧ (0 : Rat) < 1 ∧ (0 : Rat) ≤ 1 / 2 ∧ (1 / 2 : Rat) < 1 := by decide +kernel
theorem witness_Parts : Drum.initial.active = false ∧ ({ Drum.initial with active := true } : Drum).active = true ∧ defaultCfg.panLaw = .linear ∧
    ({ defaultCfg with panLaw := .table [⟨0, 1, 1⟩] } : Cfg).panLaw = .table [⟨0, 1, 1⟩] ∧ started.drums.length ≤ started.cfg.recipes.length := by
  decide +kernel
theorem witness_VoiceFrame : defaultCfg.arith ≠ .binary32 ∧ Voice.initial.active = false ∧ (sounding 60 1).active = true ∧ (sounding 60 1).numbers ∧
    ¬ ((sounding 60 1).env.process defaultCfg.arith).state = .off ∧ ¬ ((sounding 60 1).env.process defaultCfg.arith).state = .release ∧
    (({ (sounding 60 1).env with state := .release, level := .fin (1 / 960), releaseInc := .fin (1 / 480) } : Envelope).process
      defaultCfg.arith).state = .off := by decide +kernel
/-- The first frame of a block of two, and the last one. -/
theorem witness_Frame (k : Nat) (hk : k < 2) :
    let s := { inBlock recordB (.render k) with block := (List.range (4 * k)).map fun a => (a, 1) }
    s.life.phase = .render k ∧ k < s.life.blockSize ∧ s.blockWritten (4 * k) ∧ frameUnset s = none ∧ s.drums.length ≤ s.cfg.recipes.length ∧
      s.delay.writeIdx < s.delay.len ∧ 2 ≤ s.delay.len ∧ s.memoryWf ∧ s.numbersOk := by
  obtain rfl | rfl : k = 0 ∨ k = 1 := by omega
  · exact ⟨rfl, by decide, by intro a h; omega, by decide +kernel, by decide, by decide, by decide, by decide +kernel, fun _ => by decide +kernel⟩
  · exact ⟨rfl, by decide, by show ∀ a < 4, _; decide, by decide +kernel, by decide, by decide, by decide, by decide +kernel, fun _ => by decide +kernel⟩
theorem witness_Silence :
    let s := inBlock recordB (.render 0)
    (∀ v ∈ s.pool.voices, v.active = false) ∧ (∀ d ∈ s.drums, d.active = false) ∧ s.delay.cells = [] ∧ s.filter.z1 = .fin 0 ∧
      s.filter.z2 = .fin 0 ∧ s.filter.numbers ∧ s.fadeOk ∧ s.dcL = ⟨.fin 0, .fin 0⟩ ∧ s.dcR = ⟨.fin 0, .fin 0⟩ ∧ s.reverb = ⟨.fin 0, .fin 0⟩ ∧
      s.cfg.mixWf ∧ s.memoryWf ∧
      s.cfg.arith.add (.fin 1) (s.cfg.arith.mul (s.cfg.arith.const s.cfg.driveK) (.fin s.snapshot.params.drive)) = .fin 1 := by decide +kernel
theorem witness_Silence_completes : seen (finish (frame 0 (inBlock recordB (.render 0)))) (fun t => t.block.map (·.2)) = some [0, 0, 0, 0] := by decide +kernel
theorem witness_Arithmetic : |((2 : Int) ^ 24 - 1)| < 2 ^ 24 ∧ (-149 : Int) ≤ -149 ∧ (-149 : Int) ≤ 104 ∧ |(1 / 3 : Rat)| < 2 ^ (-1 : Int) ∧
    |(1 / 3 : Rat)| < 2 ^ 128 - 2 ^ 103 ∧ (2 ^ 128 - 2 ^ 103 : Rat) ≤ |-(2 ^ 128)| ∧
    (0 : Rat) ≤ 1 / 2 ∧ (1 / 2 : Rat) ≤ 1 ∧ (0 : Rat) ≤ 3 := by decide +kernel
/-- The frames of a part triggered in the default build exist: each is the one before it, rendered. -/
theorem witness_TriggeredPartsEnd :
    let acc : DrumFrame := { drums := [], noise := 1, left := .fin 0, right := .fin 0 }
    let part (k : Nat) : Drum := (fun d => (renderDrum defaultCfg 48000 (defaultRecipe false) d acc).1)^[k]
      (Drum.initial.trigger defaultCfg 48000 (defaultRecipe false) defaultKit 127)
    defaultCfg.wf ∧ defaultCfg.arith ≠ .binary32 ∧ (defaultRecipe false).wf ∧ defaultKit.wf ∧ refusedRate < 48000 ∧ legalVelocity 127 = true ∧
      part 0 = Drum.initial.trigger defaultCfg 48000 (defaultRecipe false) defaultKit 127 ∧
      ∀ k, part (k + 1) = (renderDrum defaultCfg 48000 (defaultRecipe false) (part k) acc).1 :=
  ⟨by decide +kernel, by decide, by decide +kernel, by decide +kernel, by decide, by decide, rfl,
    fun k => Function.iterate_succ_apply' _ k _⟩

end Sys2Proof.Tests
end

section
/-! PROOFS. The arithmetic against the reals and the byte spaces (00_scope.md R13, R14 and R15): binary32 rounding is exact on
the numbers of binary32, is off by half a unit in the last place at most below the overflow bound, and overflows from
there on; a run of bytes reads back as stored. -/

namespace Sys2Proof.Machine
/-! ## binary32: the numbers it holds, and the overflow bound (decision D1) -/

/-- A magnitude of fewer than 25 bits on the grid of `2^(-149)` is kept. -/
theorem magnitude32_of_significand {q : Rat} {m : Nat} {e : Int} (hq : q ≠ 0) (hm : m < 2 ^ 24) (he : -149 ≤ e)
    (h : |q| = m * 2 ^ e) : magnitude32 q = m * 2 ^ e := by
  have h2 : (2 : Rat) ≠ 0 := by norm_num
  have hlog : floorLog2 q.num.natAbs q.den < 24 + e := by
    have hlow := (floorLog2_spec (natAbs_num_pos hq) q.den_pos).1
    rw [← abs_eq_natAbs_div, h] at hlow
    have hm' : (m : Rat) < 2 ^ (24 : Int) := by exact_mod_cast hm
    have := mul_lt_mul_of_pos_right hm' (zpow_pos (show (0 : Rat) < 2 by norm_num) e)
    rw [← zpow_add₀ h2] at this
    exact (zpow_lt_zpow_iff_right₀ (by norm_num)).mp (hlow.trans_lt this)
  rw [abs_eq_natAbs_div] at h
  unfold magnitude32
  dsimp only
  set u : Int := max (floorLog2 q.num.natAbs q.den) (-126) - 23
  obtain ⟨j, hj⟩ := Int.eq_ofNat_of_zero_le (show 0 ≤ e - u by omega)
  have hscaled : (q.num.natAbs : Rat) / q.den * 2 ^ (-u) = (m * 2 ^ j : Nat) := by
    rw [h, mul_assoc, ← zpow_add₀ h2, show e + -u = j by omega]
    push_cast
    rw [zpow_natCast]
  rw [le_antisymm (scaledHalfEven_le q.den_pos hscaled.le) (le_scaledHalfEven q.den_pos hscaled.ge), pow2_eq]
  push_cast
  rw [mul_assoc, ← zpow_natCast, ← zpow_add₀ h2, show (j : Int) + u = e by omega]

/-- What rounds to a number: a magnitude that stays below `2^128`. -/
theorem roundBinary32_of_lt {q : Rat} (h : q ≠ 0 → magnitude32 q < 2 ^ (128 : Int)) : roundBinary32 q = .fin (nearest32 q) :=
  if_neg fun hc => absurd (h hc.2) (not_lt.mpr (pow2_eq 128 ▸ hc.1))

/-- Rounding is exact on the numbers of binary32. -/
theorem roundBinary32_exact {m e : Int} (hm : |m| < 2 ^ 24) (he : -149 ≤ e) (he' : e ≤ 104) :
    roundBinary32 (m * (2 : Rat) ^ e) = .fin (m * (2 : Rat) ^ e) := by
  have hp : (0 : Rat) < 2 ^ e := zpow_pos (by norm_num) e
  have hn : m.natAbs < 2 ^ 24 := by rw [Int.abs_eq_natAbs] at hm; omega
  have habs : |(m : Rat) * 2 ^ e| = m.natAbs * 2 ^ e := by
    rw [abs_mul, abs_of_pos hp, Nat.cast_natAbs, Int.cast_abs]
  have hmag (hq : (m : Rat) * 2 ^ e ≠ 0) : magnitude32 (m * 2 ^ e) = |(m : Rat) * 2 ^ e| :=
    (magnitude32_of_significand hq hn he habs).trans habs.symm
  have hnear : nearest32 (m * 2 ^ e) = m * 2 ^ e := by
    rcases lt_trichotomy ((m : Rat) * 2 ^ e) 0 with h | h | h
    · rw [nearest32_of_neg h, hmag h.ne, abs_of_neg h, neg_neg]
    · rw [h, nearest32_zero]
    · rw [nearest32_of_pos h, hmag h.ne', abs_of_pos h]
  rw [roundBinary32_of_lt, hnear]
  intro hq
  rw [hmag hq, habs]
  calc (m.natAbs : Rat) * 2 ^ e < 2 ^ (24 : Int) * 2 ^ e := mul_lt_mul_of_pos_right (by exact_mod_cast hn) hp
    _ = 2 ^ (24 + e) := (zpow_add₀ (by norm_num) _ _).symm
    _ ≤ 2 ^ (128 : Int) := (zpow_le_zpow_iff_right₀ (by norm_num)).mpr (by omega)

/-- At an exponent `e` rounding is off by at most `2^(e - 24)`, half a unit in the last place. -/
theorem nearest32_error_of_lt {q : Rat} {e : Int} (he : -126 ≤ e) (h : |q| < 2 ^ (e + 1)) : |nearest32 q - q| ≤ 2 ^ (e - 24) := by
  by_cases hq : q = 0
  · rw [hq, nearest32_zero, sub_zero, abs_zero]
    exact zpow_nonneg (by norm_num) _
  · have hlow := (floorLog2_spec (natAbs_num_pos hq) q.den_pos).1
    rw [← abs_eq_natAbs_div] at hlow
    have hlog := (zpow_lt_zpow_iff_right₀ (show (1 : Rat) < 2 by norm_num)).mp (hlow.trans_lt h)
    exact (nearest32_error q).trans ((zpow_le_zpow_iff_right₀ (by norm_num)).mpr (by omega))

/-- Below the overflow bound rounding gives a number. -/
theorem roundBinary32_of_abs_lt {q : Rat} (h : |q| < 2 ^ 128 - 2 ^ 103) : roundBinary32 q = .fin (nearest32 q) := by
  refine roundBinary32_of_lt fun hq => ?_
  have herr := nearest32_error_of_lt (q := q) (e := 127) (by norm_num) (h.trans (by norm_num))
  have habs := (abs_sub_abs_le_abs_sub _ _).trans herr
  rw [abs_nearest32 hq] at habs
  norm_num at habs h ⊢
  linarith

/-- The overflow bound is a tie, and rounds up to `2^128`. -/
theorem magnitude32_overflow_bound : magnitude32 (2 ^ 128 - 2 ^ 103) = pow2 128 := by decide +kernel

/-- From the overflow bound on rounding gives the infinity of the number's sign. -/
theorem roundBinary32_of_le_abs {q : Rat} (h : 2 ^ 128 - 2 ^ 103 ≤ |q|) : roundBinary32 q = .inf (decide (q < 0)) := by
  have hb : (0 : Rat) < 2 ^ 128 - 2 ^ 103 := by norm_num
  have hmag : pow2 128 ≤ magnitude32 q := by
    rw [← magnitude32_overflow_bound]
    exact magnitude32_mono hb.ne' (by rwa [abs_of_pos hb])
  exact if_pos ⟨hmag, abs_pos.mp (hb.trans_le h)⟩

end Sys2Proof.Machine

namespace Sys2Proof
open Machine

/-- Bytes that fit in a space are stored: the run reads back, and every other byte of every space is as before. -/
theorem memWrites_reads_back {s : State} {sp : Space} {a : Nat} {bs : List Byte} (hwf : s.memoryWf)
    (hfit : a + bs.length ≤ s.arenaSize sp) :
    ∃ t, memWrites sp a bs s = .ok t ∧ t.memoryWf ∧ ∀ sp' b, t.readByte sp' b =
      if sp' = sp ∧ a ≤ b ∧ b < a + bs.length then bs[b - a]? else s.readByte sp' b := by
  obtain ⟨t, ht⟩ := memWrites_of_le bs hfit
  obtain ⟨m, rfl, hm, -, hread, -⟩ := memWrites_ok ht
  exact ⟨_, ht, setArena_memoryWf hwf sp (hm hwf), hread hwf⟩

/-- Settles O10: both clauses are the two branches of what an address reads after the store. -/
theorem memoryReadsBackWhatWasStored : Obligations.MemoryReadsBackWhatWasStored := by
  intro s sp a bs hwf hfit
  obtain ⟨t, ht, htwf, hread⟩ := memWrites_reads_back hwf hfit
  refine ⟨t, ht, htwf, fun j b hj => ?_, fun sp' b hout => ?_⟩
  · have hlt : j < bs.length := (List.getElem?_eq_some_iff.mp hj).1
    rw [hread, if_pos ⟨rfl, by omega, by omega⟩, Nat.add_sub_cancel_left, hj]
  · rw [hread, if_neg hout]

/-- Settles O59: exactness, half a unit in the last place and overflow of binary32, and then the distance of each
irrational operation, in turns in the reals and in radians in binary32. -/
theorem arithmeticComesNearTheReals : Obligations.ArithmeticComesNearTheReals := by
  refine ⟨fun m e => roundBinary32_exact, fun q e he _ hq hfin => ?_, fun q => roundBinary32_of_le_abs, fun a => ?_⟩
  · exact ⟨_, roundBinary32_of_abs_lt hfin, nearest32_error_of_lt he hq⟩
  · refine ⟨a.exp2_error, a.sqrt_error, fun b e hb0 hb1 he => a.power_error hb0 hb1 he, fun x => ?_⟩
    cases a with
    | reals bits => exact ⟨Arith.sin_reals_error bits x, Arith.cos_reals_error bits x⟩
    | binary32 =>
      simp only [if_true, one_mul]
      exact ⟨Arith.sin_binary32_error x, Arith.cos_binary32_error x⟩

end Sys2Proof
end

section
/-! PROOFS. Who may change what (10_state.md R123): a step of the render context keeps what the control contexts own, a
step of a control context that is no start keeps what the render context owns, and only a push, a start and a frame
store a byte. -/

namespace Sys2Proof

/-! ## Three families of instructions -/

/-- The ring commands (30_encoding.md R301). -/
def Instr.isCommand : Instr → Bool
  | .cmdNoteOn _ _ | .cmdNoteOff _ | .cmdAllNotesOff | .cmdDrumHit _ _ | .cmdAllDrumsOff => true
  | _ => false

/-- The host operations that neither push a record nor start the engine. -/
def Instr.isQuiet : Instr → Bool
  | .stop | .running | .fadeIn _ | .fadeOut _ | .setDrumsEnabled _ | .setParams _ | .getParams | .loadPreset _
  | .resetPreset | .consumeUnderruns | .getPerfSnapshot | .presetName _ | .presetDefaults _ => true
  | _ => false

/-- A record stands for a ring command whose operands are not reserved (R303). -/
theorem decodeRecord_isCommand {r : Record} {i : Instr} (h : decodeRecord r = .ok i) :
    i.isCommand = true ∧ i.wellFormed = true := by
  unfold decodeRecord at h
  split at h
  · split at h
    · cases h; exact ⟨rfl, ‹_›⟩
    · cases h
  · split at h
    · cases h; exact ⟨rfl, ‹_›⟩
    · cases h
  · cases h; exact ⟨rfl, rfl⟩
  · split at h
    · cases h; exact ⟨rfl, ‹_›⟩
    · cases h
  · cases h; exact ⟨rfl, rfl⟩
  · cases h

/-- A host call stands for no ring command. -/
theorem decodeCall_not_isCommand {c : HostCall} {i : Instr} (h : decodeCall c = .ok i) : i.isCommand = false := by
  unfold decodeCall at h
  split at h <;> (try split at h) <;> cases h <;> rfl

namespace Machine

/-- A byte read depends on the arenas and on their sizes alone. -/
theorem readByte_congr {s t : State} (hc : t.cfg.qcap = s.cfg.qcap) (hb : t.life.blockSize = s.life.blockSize)
    (hd : t.delay = s.delay) (hbl : t.block = s.block) (hq : t.queue.slots = s.queue.slots) (sp : Space) (a : Nat) :
    t.readByte sp a = s.readByte sp a := by
  have hsize : t.arenaSize sp = s.arenaSize sp := by
    cases sp
    · exact congrArg DelayLine.len hd
    · exact congrArg (4 * ·) hb
    · exact congrArg (3 * ·) hc
  have harena : t.arena sp = s.arena sp := by
    cases sp
    · exact congrArg DelayLine.cells hd
    · exact hbl
    · exact hq
  unfold State.readByte
  rw [hsize, harena]

/-! ## The render context -/

/-- A ring command changes voices and parts alone. -/
theorem exec_command_frame {i : Instr} {s t : State} (hi : i.isCommand = true) (h : exec i s = .next t) :
    t = { s with pool := t.pool, drums := t.drums } := by
  cases i with
  | cmdNoteOn note vel => obtain ⟨-, -, k, -, -, rfl⟩ := execCmdNoteOn_ok h; rfl
  | cmdNoteOff note => obtain ⟨-, rfl⟩ := execCmdNoteOff_ok h; rfl
  | cmdAllNotesOff => cases h; rfl
  | cmdDrumHit part vel => obtain ⟨-, -, -, r, m, -, -, rfl⟩ := execCmdDrumHit_ok h; rfl
  | cmdAllDrumsOff => cases h; rfl
  | _ => cases hi

/-- Accounting a write moves the underrun and failure counters alone. -/
theorem account_counters (n : Nat) (ok : Bool) (s : State) : (account n ok s).counters = { s.counters with
    underrunsPending := (account n ok s).counters.underrunsPending
    underrunsTotal := (account n ok s).counters.underrunsTotal
    sinkWriteFailures := (account n ok s).counters.sinkWriteFailures } := by
  unfold account
  split
  · rfl
  · split <;> rfl

/-- `t` is `s` but for the loop position, the counters of the render context and the observations. -/
def Idles (s t : State) : Prop :=
  t = { s with
    life := { s.life with ack := t.life.ack, phase := t.life.phase, late := t.life.late }
    counters := { t.counters with
      queueDrops := s.counters.queueDrops
      queueHighWater := s.counters.queueHighWater }
    trace := t.trace }

/-- All that a step of the render context can do: move on in its loop with its accounts; take the snapshot; apply the
command it has popped; or compute a frame. -/
inductive RenderEffect (s : State) : State → Prop
  | idles {t : State} (h : Idles s t) : RenderEffect s t
  | snaps {t : State} (h : snapPhase s = .ok t) : RenderEffect s t
  | applies {i : Instr} {t : State} (hi : i.isCommand = true)
      (h : exec i { s with queue := { s.queue with tail := s.nextSlot s.queue.tail } } = .next t) : RenderEffect s t
  | frames {k : Nat} {s' t : State} (hf : frame k s = .ok s') (h : Idles s' t) : RenderEffect s t

theorem finishBlock_idles {s t : State} (h : finishBlock s = .ok t) : Idles s t := by
  obtain ⟨image, -, rfl⟩ := finishBlock_ok h
  rfl

theorem renderPhase_effect {k : Nat} {s t : State} (h : renderPhase k s = .ok t) : RenderEffect s t := by
  rcases renderPhase_ok h with ⟨-, s', hf, ⟨-, rfl⟩ | ⟨-, hb⟩⟩ | ⟨-, hb⟩
  · exact .frames hf rfl
  · exact .frames hf (finishBlock_idles hb)
  · exact .idles (finishBlock_idles hb)

theorem writePhase_idles {s t : State} (h : writePhase s = .ok t) : Idles s t := by
  obtain ⟨s', hs, rfl⟩ := writePhase_ok h
  rcases sinkWrite_ok hs with ⟨-, rfl⟩ | ⟨-, -, image, -, rfl⟩
  · rw [account_eq, account_counters]; rfl
  · rw [account_eq, account_counters]; rfl

theorem drainPhase_effect {s t : State} (h : drainPhase s = .next t) : RenderEffect s t := by
  rcases drainPhase_cases h with ⟨-, rfl⟩ | ⟨-, i, hi, hx⟩
  · exact .idles rfl
  · exact .applies (decodeRecord_isCommand hi).1 hx

theorem renderStep_effect {s t : State} (h : renderStep s = .next t) : RenderEffect s t := by
  unfold renderStep at h
  split at h
  · cases h; exact .idles rfl
  · cases h
    rcases loopTest_cases s with ⟨-, he⟩ | ⟨-, he⟩ <;> rw [he] <;> exact .idles rfl
  · exact .snaps (finish_next.mp h)
  · exact drainPhase_effect h
  · exact renderPhase_effect (finish_next.mp h)
  · exact .idles (writePhase_idles (finish_next.mp h))

/-- `t` is `s` but for what the render context owns (10_state.md R123). -/
def KeepsControlState (s t : State) : Prop :=
  t = { s with
    life := { s.life with ack := t.life.ack, phase := t.life.phase, late := t.life.late }
    snapshot := t.snapshot
    pool := t.pool, drums := t.drums, noise := t.noise
    filter := t.filter, dcL := t.dcL, dcR := t.dcR
    delay := t.delay, reverb := t.reverb
    fade := { s.fade with level := t.fade.level }
    block := t.block
    queue := { s.queue with tail := t.queue.tail }
    counters := { t.counters with
      queueDrops := s.counters.queueDrops
      queueHighWater := s.counters.queueHighWater }
    trace := t.trace }

theorem KeepsControlState.trans {s t u : State} (hst : KeepsControlState s t) (htu : KeepsControlState t u) :
    KeepsControlState s u := by
  unfold KeepsControlState at *
  rw [htu, hst]

theorem Idles.keepsControlState {s t : State} (h : Idles s t) : KeepsControlState s t := by
  unfold Idles at h
  unfold KeepsControlState
  rw [h]

/-- A frame moves the level of the fade alone (45_render_pipeline.md R933). -/
theorem fade_advance_frame (a : Arith) (f : Fade) : f.advance a = { f with level := (f.advance a).level } := by
  unfold Fade.advance
  dsimp only
  split
  · rfl
  · split <;> rfl

theorem frame_keepsControlState {k : Nat} {s t : State} (h : frame k s = .ok t) : KeepsControlState s t := by
  have hf := (frame_ok h).1
  rw [fade_advance_frame] at hf
  unfold KeepsControlState
  rw [hf]

/-- No step of the render context touches what the control contexts own. -/
theorem RenderEffect.keepsControlState {s t : State} (h : RenderEffect s t) : KeepsControlState s t := by
  cases h with
  | idles h => exact h.keepsControlState
  | snaps h => obtain ⟨-, rfl⟩ := snapPhase_ok h; rfl
  | applies hi h => unfold KeepsControlState; rw [exec_command_frame hi h]
  | frames hf h => exact (frame_keepsControlState hf).trans h.keepsControlState

/-! ## The control contexts -/

/-- `t` is `s` but for what the control contexts own (10_state.md R123). -/
def KeepsRenderState (s t : State) : Prop :=
  t = { s with
    life := { s.life with running := t.life.running, enabled := t.life.enabled, sink := t.life.sink }
    drumsEnabled := t.drumsEnabled
    store := t.store
    fade := t.fade
    queue := { t.queue with tail := s.queue.tail }
    sched := t.sched
    counters := { s.counters with
      queueDrops := t.counters.queueDrops
      queueHighWater := t.counters.queueHighWater
      underrunsPending := t.counters.underrunsPending }
    ongoing := t.ongoing
    trace := t.trace }

theorem KeepsRenderState.trans {s t u : State} (hst : KeepsRenderState s t) (htu : KeepsRenderState t u) :
    KeepsRenderState s u := by
  unfold KeepsRenderState at *
  rw [htu, hst]

/-- `t` is `s` after a host operation that neither pushes nor starts: the ring, the note-off table and the render
context's state are as before, and the fade is, or was set by a fade request. -/
structure Quiet (s t : State) : Prop where
  frame : t = { s with
    life := { s.life with running := t.life.running, enabled := t.life.enabled, sink := t.life.sink }
    drumsEnabled := t.drumsEnabled
    store := t.store
    fade := t.fade
    counters := { s.counters with underrunsPending := t.counters.underrunsPending }
    ongoing := t.ongoing
    trace := t.trace }
  fade : t.fade = s.fade ∨ ∃ target ms, t.fade = (fadeRequest target ms s).fade

theorem Quiet.refl (s : State) : Quiet s s := ⟨rfl, .inl rfl⟩

theorem Quiet.answer (s : State) (r : HostResult) : Quiet s (s.answer r) := ⟨rfl, .inl rfl⟩

theorem Quiet.storeParams (p : Params) (s : State) : Quiet s (storeParams p s) := ⟨rfl, .inl rfl⟩

theorem Quiet.fadeRequest (target : Bool) (ms : Word) (s : State) : Quiet s (fadeRequest target ms s) :=
  ⟨rfl, .inr ⟨target, ms, rfl⟩⟩

/-- stop begins with the fade to silence, and does nothing on an engine that is not running. -/
theorem execStop_quiet {s t : State} (h : execStop s = .next t) : Quiet s t := by
  unfold execStop at h
  split at h
  · cases h; exact ⟨rfl, .inr ⟨false, s.cfg.stopFadeMs, rfl⟩⟩
  · cases h; exact .refl s

theorem loadSlot_quiet {i : Nat} {s t : State} (h : loadSlot i s = .ok t) : Quiet s t := by
  obtain ⟨p, -, rfl⟩ := loadSlot_ok h
  exact .storeParams _ s

theorem exec_quiet {i : Instr} {s t : State} (hi : i.isQuiet = true) (h : exec i s = .next t) : Quiet s t := by
  cases i with
  | stop => exact execStop_quiet h
  | running => cases h; exact .answer s _
  | fadeIn ms => cases h; exact .fadeRequest true ms s
  | fadeOut ms => cases h; exact .fadeRequest false ms s
  | setDrumsEnabled b => cases h; exact ⟨rfl, .inl rfl⟩
  | setParams p => obtain ⟨q, -, rfl⟩ := execSetParams_ok h; exact .storeParams q s
  | getParams => cases h; exact .answer s _
  | loadPreset index => exact loadSlot_quiet (finish_next.mp h)
  | resetPreset => exact loadSlot_quiet (finish_next.mp h)
  | consumeUnderruns => cases h; exact ⟨rfl, .inl rfl⟩
  | getPerfSnapshot => cases h; exact .answer s _
  | presetName index => obtain ⟨r, rfl⟩ := execPresetName_ok h; exact .answer s r
  | presetDefaults index => obtain ⟨r, rfl⟩ := execPresetDefaults_ok h; exact .answer s r
  | _ => cases hi

/-- What an operation that pushes may do to the note-off table (46_scheduler_api.md R1031 to R1033). -/
inductive GateUpdate (es : List SchedEntry) : List SchedEntry → Prop
  | keep : GateUpdate es es
  | insert {note : Byte} (due : Word) (h : apiNote note = true) : GateUpdate es (schedInsert note due es)
  | remove (note : Byte) : GateUpdate es (schedRemove note es)
  | clear : GateUpdate es (schedClear es)

/-- All that a step of a control context can do, but for a start: it neither pushes nor stores; or it pushes one record
and may update the note-off table; or it serves the entries that are due. -/
inductive ControlEffect (s : State) : State → Prop
  | quiet {t : State} (h : Quiet s t) : ControlEffect s t
  | pushes {r : Record} {s' : State} {b : Bool} {es : List SchedEntry} (os : List Ongoing) (h : push r s = .ok (s', b))
      (hes : GateUpdate s.sched es) : ControlEffect s { s' with sched := es, ongoing := os }
  | serves {now : Word} {es : List SchedEntry} {s' : State} (h : serveEntries now s.sched s = .ok (es, s')) :
      ControlEffect s { s' with sched := es }

/-- A push leaves the table as it was. -/
theorem push_sched {r : Record} {s t : State} {b : Bool} (h : push r s = .ok (t, b)) : t.sched = s.sched := by
  rw [(push_frame h).1]

/-- An operation that only pushes. -/
theorem ControlEffect.ofPush {r : Record} {s t : State} {b : Bool} (h : push r s = .ok (t, b)) : ControlEffect s t := by
  have := ControlEffect.pushes t.ongoing h .keep
  rwa [← push_sched h] at this

/-- One noteOn of the API, whatever becomes of the operations under way. -/
theorem playNote_effect {note vel : Byte} {gate : Word} {s t : State} (os : List Ongoing) (h : playNote note vel gate s = .ok t) :
    ControlEffect s { t with ongoing := os } := by
  rcases playNote_cases h with ⟨-, rfl⟩ | ⟨hn, s', b, hp, ⟨-, -, rfl⟩ | ⟨-, rfl⟩⟩
  · exact .quiet ⟨rfl, .inl rfl⟩
  · exact .pushes (s' := s') os hp (.insert _ hn)
  · have := ControlEffect.pushes os hp .keep
    rwa [← push_sched hp] at this

theorem playChord_effect {notes rest : List Byte} {ms : Word} {s t : State} (os : List Ongoing)
    (h : playChord notes ms s = .ok (t, rest)) : ControlEffect s { t with ongoing := os } := by
  rcases playChord_cases h with ⟨-, -, rfl⟩ | ⟨n, -, hp⟩
  · exact .quiet ⟨rfl, .inl rfl⟩
  · exact playNote_effect os hp

/-- What a host operation other than start can do. -/
theorem exec_host_effect {i : Instr} {s t : State} (hc : i.isCommand = false) (hs : ∀ k rate size, i ≠ .start k rate size)
    (h : exec i s = .next t) : ControlEffect s t := by
  by_cases hq : i.isQuiet = true
  · exact .quiet (exec_quiet hq h)
  · cases i with
    | start k rate size => exact absurd rfl (hs k rate size)
    | noteOn note vel gate => exact playNote_effect t.ongoing (finish_next.mp h)
    | noteOff note =>
      rcases execNoteOff_ok h with ⟨-, rfl⟩ | ⟨-, s', b, hp, rfl⟩
      · exact .quiet (.refl t)
      · rw [push_sched hp]; exact .pushes _ hp (.remove note)
    | allNotesOff =>
      obtain ⟨s', b, hp, rfl⟩ := execAllNotesOff_ok h
      rw [push_sched hp]; exact .pushes _ hp .clear
    | drumHit part vel =>
      rcases execDrumHit_ok h with ⟨-, rfl⟩ | ⟨-, b, hp⟩
      · exact .quiet (.refl t)
      · exact .ofPush hp
    | allDrumsOff => obtain ⟨b, hp⟩ := execAllDrumsOff_ok h; exact .ofPush hp
    | triggerTestChord ms => obtain ⟨s', rest, hp, rfl⟩ := execTriggerTestChord_ok h; exact playChord_effect _ hp
    | service now => obtain ⟨es, s', hp, rfl⟩ := execService_ok h; exact .serves hp
    | cmdNoteOn _ _ | cmdNoteOff _ | cmdAllNotesOff | cmdDrumHit _ _ | cmdAllDrumsOff => cases hc
    | _ => exact absurd rfl hq

/-- What a further step of stop or of a test chord can do. -/
theorem resumeStep_effect {j : Nat} {s t : State} (h : resumeStep j s = .ok t) : ControlEffect s t := by
  rcases resumeStep_cases h with ⟨-, rfl⟩ | ⟨-, rfl⟩ | ⟨-, rfl⟩ | ⟨-, rfl⟩ | ⟨notes, ms, s', rest, -, hp, rfl⟩
  · exact .quiet (.refl t)
  · exact .quiet ⟨rfl, .inl rfl⟩
  · refine .quiet ?_
    unfold stopAwaitStep
    split
    · exact ⟨rfl, .inl rfl⟩
    · split
      · exact ⟨rfl, .inl rfl⟩
      · exact .refl s
  · rw [tearDown_eq]; exact .quiet ⟨rfl, .inl rfl⟩
  · exact playChord_effect _ hp

/-- What every push keeps, serving the entries keeps. -/
theorem serveEntries_keeps {P : State → Prop} (hpush : ∀ {r s t b}, P s → push r s = .ok (t, b) → P t) {now : Word}
    {es es' : List SchedEntry} {s t : State} (h : serveEntries now es s = .ok (es', t)) (hs : P s) : P t := by
  induction es generalizing s es' with
  | nil => cases h; exact hs
  | cons e es ih =>
    unfold serveEntries at h
    split at h
    · obtain ⟨⟨s1, b⟩, hp, h⟩ := bind_ok h
      obtain ⟨⟨es1, t1⟩, hr, h⟩ := bind_ok h
      cases h
      exact ih hr (hpush hs hp)
    · obtain ⟨⟨es1, t1⟩, hr, h⟩ := bind_ok h
      cases h
      exact ih hr hs

theorem push_keepsRenderState {r : Record} {s t : State} {b : Bool} (h : push r s = .ok (t, b)) : KeepsRenderState s t := by
  rcases push_cases h with ⟨-, -, rfl⟩ | ⟨-, -, s', hs', rfl⟩
  · rfl
  · obtain ⟨m, rfl, -⟩ := memWrites_ok hs'
    rfl

/-- No step of a control context but a start touches what the render context owns. -/
theorem ControlEffect.keepsRenderState {s t : State} (h : ControlEffect s t) : KeepsRenderState s t := by
  cases h with
  | quiet hq => unfold KeepsRenderState; rw [hq.frame]
  | pushes os hp _ => exact (push_keepsRenderState hp).trans rfl
  | @serves now es s' hp =>
    have hserved : KeepsRenderState s s' := serveEntries_keeps (fun hs hp => hs.trans (push_keepsRenderState hp)) hp rfl
    exact hserved.trans rfl

/-! ## One step -/

/-- What one step that answers a next state did: nothing; or the render context, a control context or a start moved. -/
theorem step_effect {s t : State} (h : step s = .next t) : t = s ∨ ∃ i rest, s.inputs = i :: rest ∧
    (RenderEffect (s.take i rest) t ∨ ControlEffect (s.take i rest) t ∨
      ∃ k rate size, execStart k rate size (s.take i rest) = .next t) := by
  rcases step_cases h with ⟨-, rfl⟩ | ⟨i, rest, hin, hx⟩
  · exact .inl rfl
  · refine .inr ⟨i, rest, hin, ?_⟩
    cases hm : i.move with
    | render => rw [hm] at hx; exact .inl (renderStep_effect hx)
    | resume j => rw [hm] at hx; exact .inr (.inl (resumeStep_effect (finish_next.mp hx)))
    | call c =>
      rw [hm] at hx
      obtain ⟨n, hn, hx⟩ := runFetched_next hx
      by_cases hs : ∃ k rate size, n = .start k rate size
      · obtain ⟨k, rate, size, rfl⟩ := hs
        exact .inr (.inr ⟨k, rate, size, hx⟩)
      · exact .inr (.inl (exec_host_effect (decodeCall_not_isCommand hn) (fun k rate size he => hs ⟨k, rate, size, he⟩) hx))

/-- A property that rests on no input and no draw is kept by every step when each kind of step keeps it. -/
theorem step_keeps {P : State → Prop} (htake : ∀ {s i rest}, P s → P (s.take i rest))
    (hrender : ∀ {s t}, P s → RenderEffect s t → P t) (hcontrol : ∀ {s t}, P s → ControlEffect s t → P t)
    (hstart : ∀ {s t k rate size}, P s → execStart k rate size s = .next t → P t) {s t : State} (hs : P s)
    (h : step s = .next t) : P t := by
  rcases step_effect h with rfl | ⟨i, rest, -, hr | hc | ⟨k, rate, size, hx⟩⟩
  · exact hs
  · exact hrender (htake hs) hr
  · exact hcontrol (htake hs) hc
  · exact hstart (htake hs) hx

end Machine

open Machine

/-- Settles O20: the frame of a render step, read field by field; a ring byte depends on the ring's bytes and on QCAP. -/
theorem renderStepsLeaveControlStateAlone : Obligations.RenderStepsLeaveControlStateAlone := by
  intro s t d rest hin h
  rw [step_cons hin] at h
  have hk : KeepsControlState (s.take ⟨.render, d⟩ rest) t := (renderStep_effect h).keepsControlState
  unfold KeepsControlState at hk
  rw [hk]
  exact ⟨rfl, rfl, fun a => rfl, rfl, rfl, rfl, rfl, rfl, rfl, rfl, rfl, rfl, rfl⟩

/-- Settles O19: each kind of control step is one of the effects that keep the render context's state. -/
theorem controlStepsLeaveRenderStateAlone : Obligations.ControlStepsLeaveRenderStateAlone := by
  intro s t i rest hin h hmove
  rw [step_cons hin] at h
  have hk : KeepsRenderState (s.take i rest) t := by
    rcases hmove with ⟨j, hj⟩ | ⟨c, n, hc, hn, hstart⟩
    · rw [hj] at h
      exact (resumeStep_effect (finish_next.mp h)).keepsRenderState
    · rw [hc] at h
      obtain ⟨n', hn', hx⟩ := runFetched_next h
      cases hn.symm.trans hn'
      exact (exec_host_effect (decodeCall_not_isCommand hn) hstart hx).keepsRenderState
  unfold KeepsRenderState at hk
  rw [hk]
  exact ⟨rfl, rfl, rfl, rfl, rfl, rfl, rfl, rfl, rfl, rfl, rfl, rfl, rfl, rfl, rfl, rfl, rfl, rfl, rfl⟩

/-- Settles O30: what is left is a ring command, whose frame is voices and parts, or a quiet host operation. -/
theorem commandsAndQueriesStoreNoByte : Obligations.CommandsAndQueriesStoreNoByte := by
  intro i s t hstart hon hoff hall hhit hdrums hchord hservice h sp a
  have hi : i.isCommand = true ∨ i.isQuiet = true := by
    cases i with
    | start k rate size => exact absurd rfl (hstart k rate size)
    | noteOn note vel gate => exact absurd rfl (hon note vel gate)
    | noteOff note => exact absurd rfl (hoff note)
    | allNotesOff => exact absurd rfl hall
    | drumHit part vel => exact absurd rfl (hhit part vel)
    | allDrumsOff => exact absurd rfl hdrums
    | triggerTestChord ms => exact absurd rfl (hchord ms)
    | service now => exact absurd rfl (hservice now)
    | cmdNoteOn _ _ | cmdNoteOff _ | cmdAllNotesOff | cmdDrumHit _ _ | cmdAllDrumsOff => exact .inl rfl
    | _ => exact .inr rfl
  rcases hi with hi | hi
  · rw [exec_command_frame hi h]
    exact readByte_congr rfl rfl rfl rfl rfl sp a
  · rw [(exec_quiet hi h).frame]
    exact readByte_congr rfl rfl rfl rfl rfl sp a

end Sys2Proof
end

section
/-! PROOFS. What every step keeps of sizes, indices and gates (10_state.md R117 and R118, 00_scope.md R9). -/

namespace Sys2Proof.Machine

/-! ## The note-off table -/

/-- A table whose live entries hold note numbers, no two of them the same (10_state.md R118). -/
abbrev tableOk (es : List SchedEntry) : Prop :=
  (∀ e ∈ es, e.live = true → legalNote e.note = true) ∧ es.Pairwise fun x y => x.live = true → y.live = true → x.note ≠ y.note

/-- A table of the same notes with no more live entries is as good. -/
theorem tableOk_of_fewer_live {es es' : List SchedEntry} (hlen : es'.length = es.length)
    (hent : ∀ (j : Nat) (e e' : SchedEntry), es[j]? = some e → es'[j]? = some e' → e'.note = e.note ∧ (e'.live = true → e.live = true))
    (h : tableOk es) : tableOk es' := by
  have hget (j : Nat) (hj : j < es'.length) : es'[j].note = es[j].note ∧ (es'[j].live = true → es[j].live = true) :=
    hent j _ _ (List.getElem?_eq_getElem (hlen ▸ hj)) (List.getElem?_eq_getElem hj)
  obtain ⟨hlegal, hpair⟩ := h
  refine ⟨fun e he hl => ?_, List.pairwise_iff_getElem.mpr fun j k hj hk hjk hlj hlk => ?_⟩
  · obtain ⟨j, hj, rfl⟩ := List.mem_iff_getElem.mp he
    obtain ⟨hn, hlive⟩ := hget j hj
    rw [hn]
    exact hlegal _ (List.getElem_mem _) (hlive hl)
  · obtain ⟨hnj, hlivej⟩ := hget j hj
    obtain ⟨hnk, hlivek⟩ := hget k hk
    rw [hnj, hnk]
    exact List.pairwise_iff_getElem.mp hpair j k _ _ hjk (hlivej hlj) (hlivek hlk)

theorem tableOk_map {f : SchedEntry → SchedEntry} (hf : ∀ e, (f e).note = e.note ∧ ((f e).live = true → e.live = true))
    {es : List SchedEntry} (h : tableOk es) : tableOk (es.map f) := by
  refine tableOk_of_fewer_live (List.length_map f) (fun j e e' he he' => ?_) h
  rw [List.getElem?_map, he] at he'
  cases he'
  exact hf e

/-- A note that no live entry holds may be put in the first free entry. -/
theorem tableOk_schedTake {note : Byte} (due : Word) (hn : legalNote note = true) {es : List SchedEntry}
    (hfree : ∀ e ∈ es, e.live = true → e.note ≠ note) (h : tableOk es) : tableOk (schedTake note due es) := by
  induction es with
  | nil => exact h
  | cons e es ih =>
    obtain ⟨hlegal, hpair⟩ := h
    obtain ⟨hhead, htail⟩ := List.pairwise_cons.mp hpair
    rw [schedTake]
    split
    · rename_i hlive
      obtain ⟨hlegal', hpair'⟩ := ih (fun x hx => hfree x (List.mem_cons_of_mem _ hx))
        ⟨fun x hx => hlegal x (List.mem_cons_of_mem _ hx), htail⟩
      refine ⟨List.forall_mem_cons.mpr ⟨hlegal e List.mem_cons_self, hlegal'⟩, List.pairwise_cons.mpr ⟨fun x hx _ hlx => ?_, hpair'⟩⟩
      rcases mem_schedTake hx with hx | rfl
      · exact hhead x hx hlive hlx
      · exact hfree e List.mem_cons_self hlive
    · exact ⟨List.forall_mem_cons.mpr ⟨fun _ => hn, fun x hx => hlegal x (List.mem_cons_of_mem _ hx)⟩,
        List.pairwise_cons.mpr ⟨fun x hx _ hlx => (hfree x (List.mem_cons_of_mem _ hx) hlx).symm, htail⟩⟩

theorem tableOk_schedInsert {note : Byte} (due : Word) (hn : legalNote note = true) {es : List SchedEntry} (h : tableOk es) :
    tableOk (schedInsert note due es) := by
  unfold schedInsert
  split
  · exact tableOk_map (fun e => by split <;> exact ⟨rfl, id⟩) h
  · rename_i hany
    refine tableOk_schedTake due hn (fun e he hl hnote => hany (List.any_eq_true.mpr ⟨e, he, ?_⟩)) h
    simp [SchedEntry.holds, hl, hnote]

/-- No update of the table by an operation breaks it. -/
theorem GateUpdate.tableOk {es es' : List SchedEntry} (hu : GateUpdate es es') (h : tableOk es) : Machine.tableOk es' := by
  cases hu with
  | keep => exact h
  | insert due hn => exact tableOk_schedInsert due (by simp only [apiNote, decide_eq_true_eq] at hn ⊢; omega) h
  | remove note => exact tableOk_map (fun e => by split <;> simp) h
  | clear => exact tableOk_map (fun e => by simp) h

theorem GateUpdate.length_eq {es es' : List SchedEntry} (hu : GateUpdate es es') : es'.length = es.length := by
  cases hu <;> simp

theorem ControlEffect.sched_ok {s t : State} (h : ControlEffect s t) :
    t.sched.length = s.sched.length ∧ (tableOk s.sched → tableOk t.sched) := by
  cases h with
  | quiet hq => rw [hq.frame]; exact ⟨rfl, id⟩
  | pushes os hp hu => exact ⟨hu.length_eq, hu.tableOk⟩
  | serves hp =>
    obtain ⟨-, -, hlen, -, -, hent⟩ := serveEntries_ok hp
    refine ⟨hlen, tableOk_of_fewer_live hlen fun j e e' he he' => ?_⟩
    obtain ⟨hnote, -, hlive, -⟩ := hent j e e' he he'
    exact ⟨hnote, hlive⟩

/-! ## The ring indices and the high water mark -/

/-- The ring indices lie in [0, QCAP) and the high water mark is a depth a ring can have (10_state.md R117, 44_command_queue.md
R805). -/
abbrev State.ringBounds (s : State) : Prop := s.ringOk ∧ s.counters.queueHighWater.toNat ≤ s.cfg.qcap - 1

theorem maxWord_le {a b : Word} {n : Nat} (ha : a.toNat ≤ n) (hb : b.toNat ≤ n) : (maxWord a b).toNat ≤ n := by
  unfold maxWord
  split
  · exact hb
  · exact ha

theorem push_ringBounds {r : Record} {s t : State} {b : Bool} (hs : s.ringBounds) (h : push r s = .ok (t, b)) : t.ringBounds := by
  obtain ⟨hring, hhigh⟩ := hs
  refine ⟨push_ringOk h hring, ?_⟩
  obtain ⟨hcfg, ⟨-, hlt, -, hmark⟩ | ⟨-, -, -, hmark⟩⟩ := push_depth h hring
  · rw [hmark, hcfg]
    refine maxWord_le hhigh ?_
    rw [BitVec.toNat_ofNat]
    exact (Nat.mod_le _ _).trans hlt
  · rw [hmark, hcfg]
    exact hhigh

theorem ControlEffect.ringBounds {s t : State} (h : ControlEffect s t) (hs : s.ringBounds) : t.ringBounds := by
  cases h with
  | quiet hq => rw [hq.frame]; exact hs
  | @pushes r s' b es os hp hu => exact (push_ringBounds hs hp : s'.ringBounds)
  | @serves now es s' hp => exact (serveEntries_keeps push_ringBounds hp hs : s'.ringBounds)

/-- A step of the render context moves the tail by one slot at most. -/
theorem RenderEffect.tail {s t : State} (h : RenderEffect s t) :
    t.queue.tail = s.queue.tail ∨ t.queue.tail = s.nextSlot s.queue.tail := by
  cases h with
  | idles h => rw [h]; exact .inl rfl
  | snaps h => obtain ⟨-, rfl⟩ := snapPhase_ok h; exact .inl rfl
  | applies hi h => rw [exec_command_frame hi h]; exact .inr rfl
  | frames hf h => rw [h, (frame_ok hf).1]; exact .inl rfl

theorem RenderEffect.ringBounds {s t : State} (h : RenderEffect s t) (hs : s.ringBounds) : t.ringBounds := by
  obtain ⟨⟨hhead, htail⟩, hhigh⟩ := hs
  have hlt : t.queue.tail < s.cfg.qcap := by
    rcases h.tail with he | he <;> rw [he]
    · exact htail
    · exact Nat.mod_lt _ (by omega)
  rw [h.keepsControlState]
  exact ⟨⟨hhead, hlt⟩, hhigh⟩

/-! ## The sizes of the arenas -/

/-- A ring command keeps the number of voices and of parts. -/
theorem exec_command_sizes {i : Instr} {s t : State} (hi : i.isCommand = true) (h : exec i s = .next t) :
    t.pool.voices.length = s.pool.voices.length ∧ t.drums.length = s.drums.length := by
  cases i with
  | cmdNoteOn note vel => obtain ⟨-, -, k, -, -, rfl⟩ := execCmdNoteOn_ok h; exact ⟨noteOn_length .., rfl⟩
  | cmdNoteOff note => obtain ⟨-, rfl⟩ := execCmdNoteOff_ok h; exact ⟨List.length_map _, rfl⟩
  | cmdAllNotesOff => cases h; exact ⟨List.length_map _, rfl⟩
  | cmdDrumHit part vel => obtain ⟨-, -, -, r, m, -, -, rfl⟩ := execCmdDrumHit_ok h; exact ⟨rfl, hitDrums_length ..⟩
  | cmdAllDrumsOff => cases h; exact ⟨rfl, List.length_map _⟩
  | _ => cases hi

theorem RenderEffect.sizes {s t : State} (h : RenderEffect s t) :
    t.pool.voices.length = s.pool.voices.length ∧ t.drums.length = s.drums.length := by
  cases h with
  | idles h => rw [h]; exact ⟨rfl, rfl⟩
  | snaps h => obtain ⟨-, rfl⟩ := snapPhase_ok h; exact ⟨List.length_map _, rfl⟩
  | applies hi h => exact (exec_command_sizes hi h :)
  | frames hf h =>
    obtain ⟨-, -, hv, -, hd, -⟩ := frame_ok hf
    rw [h]
    exact ⟨by rw [hv, sampleVoices_length], hd⟩

/-! ## A start -/

/-- A start leaves the build constants, the table, the counters and the head, and leaves the tail or sets it to the head. -/
theorem execStart_frame {k : SinkConfig} {rate size : Word} {s t : State} (h : execStart k rate size s = .next t) :
    t.cfg = s.cfg ∧ t.sched = s.sched ∧ t.counters = s.counters ∧ t.queue.head = s.queue.head ∧
    (t.queue.tail = s.queue.tail ∨ t.queue.tail = s.queue.head) := by
  rcases execStart_cases h with ⟨-, rfl⟩ | ⟨-, -, -, ⟨-, rfl⟩ | ⟨-, rfl⟩⟩
  · exact ⟨rfl, rfl, rfl, rfl, .inl rfl⟩
  · exact ⟨rfl, rfl, rfl, rfl, .inr rfl⟩
  · exact ⟨rfl, rfl, rfl, rfl, .inl rfl⟩

theorem execStart_sizesOk {k : SinkConfig} {rate size : Word} {s t : State} (h : execStart k rate size s = .next t)
    (hs : s.sizesOk) : t.sizesOk := by
  rcases execStart_cases h with ⟨-, rfl⟩ | ⟨-, -, -, ⟨-, rfl⟩ | ⟨-, rfl⟩⟩
  · exact hs
  · obtain ⟨hv, -, hsched⟩ := hs
    exact ⟨(List.length_map _).trans hv, List.length_replicate, hsched⟩
  · exact hs

end Sys2Proof.Machine

namespace Sys2Proof
open Machine

theorem step_keeps_ringBounds {s t : State} : s.ringBounds → step s = .next t → t.ringBounds := by
  refine step_keeps (P := State.ringBounds) id (fun hs hr => hr.ringBounds hs) (fun hs hc => hc.ringBounds hs) ?_
  rintro s t k rate size ⟨⟨hhead, htail⟩, hhigh⟩ h
  obtain ⟨hcfg, -, hcount, hh, ht⟩ := execStart_frame h
  rw [State.ringBounds, State.ringOk, hcfg, hcount, hh]
  refine ⟨⟨hhead, ?_⟩, hhigh⟩
  rcases ht with ht | ht <;> rw [ht]
  · exact htail
  · exact hhead

theorem step_keeps_table {s t : State} (hs : s.schedOk) (h : step s = .next t) : t.schedOk ∧ t.sched.length = s.sched.length := by
  refine step_keeps (P := fun u => u.schedOk ∧ u.sched.length = s.sched.length) id ?_ ?_ ?_ ⟨hs, rfl⟩ h
  · intro u v hu hr
    rw [hr.keepsControlState]
    exact hu
  · rintro u v ⟨hok, hlen⟩ hc
    obtain ⟨hlen', hok'⟩ := hc.sched_ok
    exact ⟨hok' hok, hlen'.trans hlen⟩
  · intro u v k rate size hu hx
    obtain ⟨-, hsched, -⟩ := execStart_frame hx
    rw [State.schedOk, hsched]
    exact hu

theorem step_keeps_cfg {s t : State} (h : step s = .next t) : t.cfg = s.cfg := by
  refine step_keeps (P := fun u => u.cfg = s.cfg) id ?_ ?_ ?_ rfl h
  · intro u v hu hr
    rw [hr.keepsControlState]
    exact hu
  · intro u v hu hc
    rw [hc.keepsRenderState]
    exact hu
  · intro u v k rate size hu hx
    exact (execStart_frame hx).1.trans hu

theorem step_keeps_sizes {s t : State} (hs : s.sizesOk) (h : step s = .next t) : t.sizesOk := by
  refine step_keeps (P := State.sizesOk) id ?_ ?_ ?_ hs h
  · rintro u v ⟨hv, hd, hs⟩ hr
    obtain ⟨hv', hd'⟩ := hr.sizes
    have hk := hr.keepsControlState
    have hcfg : v.cfg = u.cfg := by rw [hk]
    have hsched : v.sched = u.sched := by rw [hk]
    rw [State.sizesOk, hv', hd', hcfg, hsched]
    exact ⟨hv, hd, hs⟩
  · rintro u v ⟨hv, hd, hs⟩ hc
    have hlen := hc.sched_ok.1
    rw [hc.keepsRenderState]
    exact ⟨hv, hd, hlen.trans hs⟩
  · intro u v k rate size hu hx
    exact execStart_sizesOk hx hu

/-- Settles O12: each clause is a property that every kind of step keeps. -/
theorem stepKeepsSizesIndicesAndGates : Obligations.StepKeepsSizesIndicesAndGates :=
  ⟨fun _ _ hring hhigh h => step_keeps_ringBounds ⟨hring, hhigh⟩ h, fun _ _ hs h => step_keeps_table hs h,
    fun _ _ h => ⟨step_keeps_cfg h, fun hs => step_keeps_sizes hs h⟩⟩

end Sys2Proof
end

section
/-! PROOFS. The signal registers with a stated range (10_state.md §4): envelope levels and increments, the fade, and the
noise state, in either arithmetic. -/

namespace Sys2Proof.Machine

/-! ## Operations on numbers of [0, 1] -/

/-- A sum of two numbers of [0, 1] is a number, and not negative. -/
theorem add_unit (a : Arith) {x y : RealNum} (hx : RealNum.between 0 1 x = true) (hy : RealNum.between 0 1 y = true) :
    ∃ r, a.add x y = .fin r ∧ 0 ≤ r := by
  obtain ⟨p, rfl, hp0, hp1⟩ := between_iff.mp hx
  obtain ⟨q, rfl, hq0, hq1⟩ := between_iff.mp hy
  have hsum : |p + q| ≤ 2 ^ (127 : Int) := by rw [abs_of_nonneg (by linarith)]; exact le_trans (show p + q ≤ 2 by linarith) (by norm_num)
  exact ⟨_, a.rnd_eq hsum, a.near_nonneg (by linarith)⟩

/-- A difference of two numbers of [0, 1] is a number, and at most 1. -/
theorem sub_unit (a : Arith) {x y : RealNum} (hx : RealNum.between 0 1 x = true) (hy : RealNum.between 0 1 y = true) :
    ∃ r, a.sub x y = .fin r ∧ r ≤ 1 := by
  obtain ⟨p, rfl, hp0, hp1⟩ := between_iff.mp hx
  obtain ⟨q, rfl, hq0, hq1⟩ := between_iff.mp hy
  have hdiff : |p - q| ≤ 2 ^ (0 : Int) := by rw [zpow_zero, abs_le]; constructor <;> linarith
  refine ⟨_, a.rnd_eq (hdiff.trans (by norm_num)), ?_⟩
  have := (le_abs_self _).trans (a.abs_near_le (by omega) hdiff)
  rwa [zpow_zero] at this

/-- A quotient of a number by one that is at least as large lies in [0, 1]. -/
theorem div_unit (a : Arith) {p d : Rat} (hp : 0 ≤ p) (hd : 0 < d) (h : p ≤ d) :
    RealNum.between 0 1 (a.div (.fin p) (.fin d)) = true := by
  have h0 : 0 ≤ p / d := div_nonneg hp hd.le
  have h1 : p / d ≤ 1 := div_le_one_of_le₀ h hd.le
  have hq : a.div (.fin p) (.fin d) = a.rnd (p / d) := by
    cases a with
    | reals bits => rfl
    | binary32 => exact if_neg hd.ne'
  obtain ⟨hr, hr0, hr1⟩ := a.rnd_unit h0 h1
  rw [hq, hr]
  exact between_fin.mpr ⟨hr0, hr1⟩

/-- A product that lies between two powers of two is a number, and keeps the lower bound. -/
theorem mul_lower (a : Arith) {x y : Rat} {k : Int} (hk : -126 ≤ k) (h : 2 ^ k ≤ x * y) (h' : x * y ≤ 2 ^ (127 : Int)) :
    ∃ r, a.mul (.fin x) (.fin y) = .fin r ∧ 2 ^ k ≤ r := by
  have hpos : 0 ≤ x * y := le_trans (zpow_nonneg (by norm_num) k) h
  exact ⟨_, a.rnd_eq (by rwa [abs_of_nonneg hpos]), a.le_near hk h⟩

/-- A count of 32 bits as a value of the arithmetic, with a power of two it keeps as a lower bound. -/
theorem const_count (a : Arith) {n : Nat} (k : Nat) (h : 2 ^ k ≤ n) (h32 : n < 2 ^ 32) :
    ∃ r, a.const (n : Nat) = .fin r ∧ (2 : Rat) ^ k ≤ r ∧ r ≤ 2 ^ 32 := by
  have hn : |((n : Nat) : Rat)| ≤ 2 ^ (32 : Int) := by
    rw [abs_of_nonneg (Nat.cast_nonneg n)]
    exact_mod_cast h32.le
  refine ⟨_, a.rnd_eq (hn.trans (by norm_num)), ?_, ?_⟩
  · exact_mod_cast a.le_near (k := k) (by omega) (by exact_mod_cast h)
  · exact_mod_cast (le_abs_self _).trans (a.abs_near_le (by omega) hn)

/-! ## Envelopes (40_dsp_primitives.md §3) -/

/-- The next level of a segment stays in [0, 1]. -/
theorem process_inRange (a : Arith) {e : Envelope} (he : e.inRange) : (e.process a).inRange := by
  obtain ⟨hl, hatt, hdec, hsus, hrel⟩ := he
  unfold Envelope.process
  split
  · exact ⟨hl, hatt, hdec, hsus, hrel⟩
  · obtain ⟨r, hr, h0⟩ := add_unit a hl hatt
    dsimp only
    rw [hr]
    split
    · exact ⟨rfl, hatt, hdec, hsus, hrel⟩
    · rename_i h1
      rw [RealNum.le_fin, decide_eq_true_eq, not_le] at h1
      exact ⟨between_fin.mpr ⟨h0, h1.le⟩, hatt, hdec, hsus, hrel⟩
  · obtain ⟨r, hr, h1⟩ := sub_unit a hl hdec
    obtain ⟨q, hq, hq0, -⟩ := between_iff.mp hsus
    dsimp only
    rw [hr]
    split
    · exact ⟨hsus, hatt, hdec, hsus, hrel⟩
    · rename_i h0
      rw [hq, RealNum.le_fin, decide_eq_true_eq, not_le] at h0
      exact ⟨between_fin.mpr ⟨hq0.trans h0.le, h1⟩, hatt, hdec, hsus, hrel⟩
  · exact ⟨hl, hatt, hdec, hsus, hrel⟩
  · obtain ⟨r, hr, h1⟩ := sub_unit a hl hrel
    dsimp only
    rw [hr]
    split
    · exact ⟨rfl, hatt, hdec, hsus, hrel⟩
    · rename_i h0
      rw [RealNum.le_fin, decide_eq_true_eq, not_le] at h0
      exact ⟨between_fin.mpr ⟨h0.le, h1⟩, hatt, hdec, hsus, hrel⟩

/-- A segment of a clamped duration lasts one sample at least. -/
theorem segment_samples (a : Arith) {fs : Nat} (hfs : refusedRate < fs) (h32 : fs < 2 ^ 32) {lo hi : Rat} (hlo : 1 / 1024 ≤ lo)
    (hlo1 : lo ≤ 1) (hhi : 1 ≤ hi) (hhi16 : hi ≤ 16) (x : Rat) :
    ∃ d, a.mul (.fin (clamp x (a.near lo) hi)) (a.const (fs : Nat)) = .fin d ∧ 1 ≤ d := by
  have hn0 : (2 : Rat) ^ (-10 : Int) ≤ a.near lo := a.le_near (by omega) (by norm_num; exact hlo)
  have hn1 : a.near lo ≤ 1 := (a.rnd_unit (by linarith) hlo1).2.2
  obtain ⟨hc0, hc1⟩ := clamp_bounds (hn1.trans hhi) x
  obtain ⟨r, hr, hr0, hr1⟩ := const_count a 15 (show 2 ^ 15 ≤ fs by unfold refusedRate at hfs; omega) h32
  norm_num at hn0 hr0 hr1
  have hlow : (2 : Rat) ^ (0 : Int) ≤ clamp x (a.near lo) hi * r := by
    have := mul_le_mul (hn0.trans hc0) hr0 (by norm_num) (by linarith)
    norm_num at this ⊢
    linarith
  have hhigh : clamp x (a.near lo) hi * r ≤ 2 ^ (127 : Int) := by
    have := mul_le_mul (hc1.trans hhi16) hr1 (by linarith) (by norm_num)
    exact this.trans (by norm_num)
  rw [hr]
  simpa using mul_lower a (by omega) hlow hhigh

/-- At an admitted rate every increment of a configured envelope lies in [0, 1] (R430). -/
theorem configure_inRange (a : Arith) {fs : Nat} (hfs : refusedRate < fs) (h32 : fs < 2 ^ 32) (att dec sus rel : Rat)
    {e : Envelope} (he : e.inRange) : (e.configure a fs att dec sus rel).inRange := by
  obtain ⟨datt, hatt, hatt1⟩ := segment_samples a hfs h32 (lo := 1 / 1000) (hi := 5) (by norm_num) (by norm_num) (by norm_num) (by norm_num) att
  obtain ⟨ddec, hdec, hdec1⟩ := segment_samples a hfs h32 (lo := 1 / 1000) (hi := 5) (by norm_num) (by norm_num) (by norm_num) (by norm_num) dec
  obtain ⟨drel, hrel, hrel1⟩ := segment_samples a hfs h32 (lo := 1 / 100) (hi := 10) (by norm_num) (by norm_num) (by norm_num) (by norm_num) rel
  obtain ⟨hs0, hs1⟩ := clamp_bounds (show (0 : Rat) ≤ 1 by norm_num) sus
  obtain ⟨hsub, hsub0, hsub1⟩ := a.rnd_unit (x := 1 - clamp sus 0 1) (by linarith) (by linarith)
  refine ⟨he.1, ?_, ?_, between_fin.mpr ⟨hs0, hs1⟩, ?_⟩
  · show RealNum.between 0 1 (a.div (.fin 1) (a.mul _ _)) = true
    rw [hatt]
    exact div_unit a (by norm_num) (by linarith) hatt1
  · show RealNum.between 0 1 (a.div (a.rnd (1 - clamp sus 0 1)) (a.mul _ _)) = true
    rw [hdec, hsub]
    exact div_unit a hsub0 (by linarith) (by linarith)
  · show RealNum.between 0 1 (a.div (.fin 1) (a.mul _ _)) = true
    rw [hrel]
    exact div_unit a (by norm_num) (by linarith) hrel1

theorem noteOff_inRange {e : Envelope} (he : e.inRange) : e.noteOff.inRange := by
  unfold Envelope.noteOff
  split
  · exact he
  · exact he

/-- Every envelope of the pool is in range. -/
abbrev envelopesInRange (vs : List Voice) : Prop := ∀ v ∈ vs, v.env.inRange

theorem envelopesInRange_map {f : Voice → Voice} {vs : List Voice} (hf : ∀ v, v.env.inRange → (f v).env.inRange)
    (h : envelopesInRange vs) : envelopesInRange (vs.map f) :=
  List.forall_mem_map.mpr fun v hv => hf v (h v hv)

theorem envelopesInRange_modify {f : Voice → Voice} {vs : List Voice} (i : Nat) (hf : ∀ v, v.env.inRange → (f v).env.inRange)
    (h : envelopesInRange vs) : envelopesInRange (vs.modify i f) := by
  intro v hv
  obtain ⟨j, hj, rfl⟩ := List.mem_iff_getElem.mp hv
  rw [List.getElem_modify]
  split
  · exact hf _ (h _ (List.getElem_mem _))
  · exact h _ (List.getElem_mem _)

theorem noteOn_envelopesInRange (a : Arith) (mono : Bool) (note vel : Byte) (i : Nat) {p : Pool} (h : envelopesInRange p.voices) :
    envelopesInRange (p.noteOn a mono note vel i).voices := by
  have hstruck : envelopesInRange (p.voices.modify i (Voice.strike a note vel (p.ageCounter + 1))) :=
    envelopesInRange_modify i (fun v hv => hv) h
  unfold Pool.noteOn
  dsimp only
  split
  · unfold cutOthers
    split
    · exact fun v hv => absurd hv List.not_mem_nil
    · rename_i v vs hvs
      rw [hvs] at hstruck
      obtain ⟨hv, hvs⟩ := List.forall_mem_cons.mp hstruck
      exact List.forall_mem_cons.mpr ⟨hv, envelopesInRange_map (fun u hu => hu) hvs⟩
  · exact hstruck

/-- A ring command moves no level and no increment. -/
theorem exec_command_envelopes {i : Instr} {s t : State} (hi : i.isCommand = true) (h : exec i s = .next t)
    (hs : envelopesInRange s.pool.voices) : envelopesInRange t.pool.voices := by
  cases i with
  | cmdNoteOn note vel => obtain ⟨-, -, k, -, -, rfl⟩ := execCmdNoteOn_ok h; exact noteOn_envelopesInRange _ _ _ _ _ hs
  | cmdNoteOff note =>
    obtain ⟨-, rfl⟩ := execCmdNoteOff_ok h
    refine envelopesInRange_map (fun v hv => ?_) hs
    unfold Voice.release
    split
    · exact noteOff_inRange hv
    · exact hv
  | cmdAllNotesOff =>
    cases h
    refine envelopesInRange_map (fun v hv => ?_) hs
    unfold Voice.releaseAny
    split
    · exact noteOff_inRange hv
    · exact hv
  | cmdDrumHit part vel => obtain ⟨-, -, -, r, m, -, -, rfl⟩ := execCmdDrumHit_ok h; exact hs
  | cmdAllDrumsOff => cases h; exact hs
  | _ => cases hi

theorem sample_inRange (c : Cfg) (fs : Nat) (p : Params) {v : Voice} (hv : v.env.inRange) : (v.sample c fs p).1.env.inRange := by
  unfold Voice.sample
  split
  · exact hv
  · dsimp only
    split
    · exact process_inRange c.arith hv
    · exact process_inRange c.arith hv

/-! ## The fade (45_render_pipeline.md R933, 46_scheduler_api.md R1013) -/

theorem fadeGoal_unit (target : Bool) : RealNum.between 0 1 (fadeGoal target) = true := by cases target <;> rfl

/-- The level moves towards its goal and not past it. -/
theorem fade_advance_unit (a : Arith) {f : Fade} (hl : RealNum.between 0 1 f.level = true) (hs : RealNum.between 0 1 f.step = true) :
    RealNum.between 0 1 (f.advance a).level = true := by
  obtain ⟨g, hg, hg0, hg1⟩ := between_iff.mp (fadeGoal_unit f.target)
  unfold Fade.advance
  dsimp only
  rw [hg]
  split
  · obtain ⟨r, hr, h0⟩ := add_unit a hl hs
    rw [hr, RealNum.min_fin]
    exact between_fin.mpr ⟨le_min hg0 h0, (min_le_left _ _).trans hg1⟩
  · split
    · obtain ⟨r, hr, h1⟩ := sub_unit a hl hs
      rw [hr, RealNum.max_fin]
      exact between_fin.mpr ⟨hg0.trans (le_max_left _ _), max_le hg1 h1⟩
    · exact hl

/-- A ramp of one millisecond or more at an admitted rate has a step of at most full scale. -/
theorem fadeStep_unit (a : Arith) {ms : Word} (hms : ms ≠ 0) {fs : Nat} (hfs : refusedRate < fs) (h32 : fs < 2 ^ 32) :
    RealNum.between 0 1 (a.div (.fin 1000) (a.mul (a.const (wordReal ms)) (a.const (fs : Nat)))) = true := by
  have hpos : 2 ^ 0 ≤ ms.toNat := Nat.one_le_iff_ne_zero.mpr fun h => hms (BitVec.eq_of_toNat_eq h)
  obtain ⟨m, hm, hm0, hm1⟩ := const_count a 0 hpos ms.isLt
  obtain ⟨r, hr, hr0, hr1⟩ := const_count a 15 (show 2 ^ 15 ≤ fs by unfold refusedRate at hfs; omega) h32
  norm_num at hm0 hm1 hr0 hr1
  have hlow : (2 : Rat) ^ (15 : Int) ≤ m * r := by
    have := mul_le_mul hm0 hr0 (by norm_num) (by linarith)
    norm_num at this ⊢
    linarith
  have hhigh : m * r ≤ 2 ^ (127 : Int) := (mul_le_mul hm1 hr1 (by linarith) (by norm_num)).trans (by norm_num)
  obtain ⟨d, hd, hd0⟩ := mul_lower a (by omega) hlow hhigh
  norm_num at hd0
  unfold wordReal
  rw [hm, hr, hd]
  exact div_unit a (by norm_num) (by linarith) (by linarith)

theorem fadeRequest_fadeOk (target : Bool) (ms : Word) {s : State} (hr : s.rateOk) (hs : s.fadeOk) : (fadeRequest target ms s).fadeOk := by
  unfold fadeRequest
  dsimp only
  split
  · exact ⟨fadeGoal_unit target, rfl⟩
  · rename_i hc
    obtain ⟨hms, hstarted⟩ := not_or.mp hc
    obtain ⟨hfs, h32, -⟩ := hr (by simpa using hstarted)
    exact ⟨hs.1, fadeStep_unit s.cfg.arith hms hfs h32⟩

/-! ## One step -/

/-- The rate, the fade, the noise state and the envelopes are in range. -/
structure State.SignalOk (s : State) : Prop where
  seed : s.cfg.noiseSeed ≠ 0
  rate : s.rateOk
  fade : s.fadeOk
  noise : s.noise ≠ 0
  envelopes : envelopesInRange s.pool.voices

theorem RenderEffect.fade_level {s t : State} (h : RenderEffect s t) (hs : s.fadeOk) : RealNum.between 0 1 t.fade.level = true := by
  cases h with
  | idles h => rw [h]; exact hs.1
  | snaps h => obtain ⟨-, rfl⟩ := snapPhase_ok h; exact hs.1
  | applies hi h => rw [exec_command_frame hi h]; exact hs.1
  | frames hf h => rw [h, (frame_ok hf).1]; exact fade_advance_unit _ hs.1 hs.2

theorem RenderEffect.noise_ne_zero {s t : State} (h : RenderEffect s t) (hs : s.noise ≠ 0) : t.noise ≠ 0 := by
  cases h with
  | idles h => rw [h]; exact hs
  | snaps h => obtain ⟨-, rfl⟩ := snapPhase_ok h; exact hs
  | applies hi h => rw [exec_command_frame hi h]; exact hs
  | frames hf h =>
    obtain ⟨-, -, -, -, -, ⟨f, hr, -, hn⟩, -⟩ := frame_ok hf
    rw [h]
    exact hn ▸ renderDrums_noise hr hs

theorem RenderEffect.envelopes {s t : State} (h : RenderEffect s t) (hr : s.rateOk) (hs : envelopesInRange s.pool.voices) :
    envelopesInRange t.pool.voices := by
  cases h with
  | idles h => rw [h]; exact hs
  | snaps h =>
    obtain ⟨hstarted, rfl⟩ := snapPhase_ok h
    obtain ⟨hfs, h32, -⟩ := hr hstarted
    exact envelopesInRange_map (fun v hv => configure_inRange _ hfs h32 _ _ _ _ hv) hs
  | applies hi h => exact exec_command_envelopes hi h hs
  | frames hf h =>
    obtain ⟨-, -, hv, -⟩ := frame_ok hf
    rw [h]
    exact hv ▸ envelopesInRange_map (fun v hv => sample_inRange _ _ _ hv) hs

theorem RenderEffect.signalOk {s t : State} (h : RenderEffect s t) (hs : s.SignalOk) : t.SignalOk := by
  have hlevel := h.fade_level hs.fade
  have hnoise := h.noise_ne_zero hs.noise
  have henv := h.envelopes hs.rate hs.envelopes
  have hk := h.keepsControlState
  have hcfg : t.cfg = s.cfg := by rw [hk]
  have hstep : t.fade.step = s.fade.step := by rw [hk]
  have hrate : t.rateOk := by rw [hk]; exact hs.rate
  exact ⟨hcfg ▸ hs.seed, hrate, ⟨hlevel, hstep ▸ hs.fade.2⟩, hnoise, henv⟩

theorem ControlEffect.fade {s t : State} (h : ControlEffect s t) :
    t.fade = s.fade ∨ ∃ target ms, t.fade = (fadeRequest target ms s).fade := by
  cases h with
  | quiet hq => exact hq.fade
  | pushes os hp _ => rw [(push_frame hp).1]; exact .inl rfl
  | serves hp => rw [(serveEntries_ok hp).1]; exact .inl rfl

theorem ControlEffect.signalOk {s t : State} (h : ControlEffect s t) (hs : s.SignalOk) : t.SignalOk := by
  have hfade : t.fadeOk := by
    rcases h.fade with he | ⟨target, ms, he⟩ <;> rw [State.fadeOk, he]
    · exact hs.fade
    · exact fadeRequest_fadeOk target ms hs.rate hs.fade
  have hk := h.keepsRenderState
  have hrest : t.cfg.noiseSeed ≠ 0 ∧ t.rateOk ∧ t.noise ≠ 0 ∧ envelopesInRange t.pool.voices := by
    rw [hk]; exact ⟨hs.seed, hs.rate, hs.noise, hs.envelopes⟩
  obtain ⟨hseed, hrate, hnoise, henv⟩ := hrest
  exact ⟨hseed, hrate, hfade, hnoise, henv⟩

theorem execStart_signalOk {k : SinkConfig} {rate size : Word} {s t : State} (h : execStart k rate size s = .next t)
    (hs : s.SignalOk) : t.SignalOk := by
  rcases execStart_cases h with ⟨-, rfl⟩ | ⟨-, hrate, hsize, ⟨-, rfl⟩ | ⟨-, rfl⟩⟩
  · exact ⟨hs.seed, hs.rate, hs.fade, hs.noise, hs.envelopes⟩
  · refine ⟨hs.seed, fun _ => ⟨hrate, rate.isLt, hsize⟩, ⟨rfl, rfl⟩, hs.seed, envelopesInRange_map (fun v hv => ?_) hs.envelopes⟩
    obtain ⟨-, hinc⟩ := hv
    exact ⟨rfl, hinc⟩
  · exact ⟨hs.seed, fun _ => ⟨hrate, rate.isLt, hsize⟩, hs.fade, hs.noise, hs.envelopes⟩

end Sys2Proof.Machine

namespace Sys2Proof
open Machine

/-- Settles O14: the ranges together are kept by each kind of step. -/
theorem stepKeepsSignalRegistersInRange : Obligations.StepKeepsSignalRegistersInRange := by
  intro s t hseed hrate hfade hnoise henv h
  obtain ⟨-, hrate', hfade', hnoise', henv'⟩ := step_keeps (P := State.SignalOk) (fun hs => ⟨hs.seed, hs.rate, hs.fade, hs.noise, hs.envelopes⟩)
    (fun hs hr => hr.signalOk hs) (fun hs hc => hc.signalOk hs) (fun hs hx => execStart_signalOk hx hs)
    ⟨hseed, hrate, hfade, hnoise, henv⟩ h
  exact ⟨hrate', hfade', hnoise', henv'⟩

end Sys2Proof
end

section
/-! PROOFS. From the invariant no step faults, and every step of the render context and of an operation between its steps
completes, but for a frame of binary32 that meets a NaN (10_state.md R124, 20_memory.md R212 and R218, 46_scheduler_api.md
R1000). -/

namespace Sys2Proof.Machine

/-- The invariant rests on no input and no draw. -/
theorem take_inv {s : State} (h : s.Inv) (i : Input) (rest : List Input) : (s.take i rest).Inv :=
  ⟨h.cfgWf, h.sizes, h.ring, h.memory, h.delay, h.params, h.legal, h.sched, h.phase, h.block, h.numbers⟩

/-! ## Control contexts -/

/-- A computation whose first part completes has the outcome of the rest. -/
theorem finish_bind {α : Type} {x : Run α} {a : α} {f : α → Run State} (h : x = .ok a) : finish (x >>= f) = finish (f a) := by
  rw [h]
  rfl

theorem pushOnly_completes (r : Record) {s : State} (h : s.queue.head < s.cfg.qcap) : ∃ t, pushOnly r s = .ok t := by
  obtain ⟨t, ht⟩ := push_completes r h
  exact ⟨t, by simp [pushOnly, ht, bind, Except.bind]⟩

theorem playChord_completes (notes : List Byte) (ms : Word) {s : State} (h : s.queue.head < s.cfg.qcap) :
    ∃ x, playChord notes ms s = .ok x := by
  cases notes with
  | nil => exact ⟨_, rfl⟩
  | cons n rest =>
    obtain ⟨t, ht⟩ := playNote_completes n s.cfg.testVel ms h
    exact ⟨(t, rest), by simp [playChord, ht, bind, Except.bind]⟩

/-- A start answers a next state, or is refused for its operating point. -/
theorem execStart_outcome (k : SinkConfig) (rate size : Word) (s : State) :
    (∃ t, execStart k rate size s = .next t) ∨ ∃ r, execStart k rate size s = .refused r := by
  unfold execStart
  split
  · exact .inl ⟨_, rfl⟩
  · split
    · exact .inr ⟨_, rfl⟩
    · refine .inl ?_
      dsimp only
      split
      · exact ⟨_, rfl⟩
      · exact ⟨_, rfl⟩

theorem execStop_completes (s : State) : ∃ t, execStop s = .next t := by
  unfold execStop
  split
  · exact ⟨_, rfl⟩
  · exact ⟨s, rfl⟩

/-- setParams publishes the record, or is refused for a field that is no number. -/
theorem execSetParams_outcome (p : SynthParams RealNum) (s : State) :
    (∃ t, execSetParams p s = .next t) ∨ ∃ r, execSetParams p s = .refused r := by
  unfold execSetParams
  split
  · exact .inr ⟨_, rfl⟩
  · exact .inl ⟨_, rfl⟩

theorem execNoteOff_completes (note : Byte) {s : State} (h : s.queue.head < s.cfg.qcap) : ∃ t, execNoteOff note s = .next t := by
  obtain ⟨t, ht⟩ := pushOnly_completes (noteOffRecord note) h
  unfold execNoteOff
  split
  · exact ⟨_, finish_bind ht⟩
  · exact ⟨s, rfl⟩

theorem execDrumHit_completes (part vel : Byte) {s : State} (h : s.queue.head < s.cfg.qcap) : ∃ t, execDrumHit part vel s = .next t := by
  obtain ⟨t, ht⟩ := pushOnly_completes (drumHitRecord part (apiVelocity vel)) h
  unfold execDrumHit
  split
  · exact ⟨t, finish_next.mpr ht⟩
  · exact ⟨s, rfl⟩

/-- A host operation answers a next state or is refused: it meets no fault. -/
theorem exec_host_outcome {i : Instr} {s : State} (hi : i.isCommand = false) (hs : s.Inv) :
    (∃ t, exec i s = .next t) ∨ ∃ r, exec i s = .refused r := by
  have hhead := hs.ring.1
  obtain ⟨-, -, -, ⟨hpresets, -⟩, -, -⟩ := hs.cfgWf.1
  have hslot (index : Word) : presetSlot s.cfg index < s.cfg.presets.length := presetSlot_lt (by omega) index
  cases i with
  | start k rate size => exact execStart_outcome k rate size s
  | stop => exact .inl (execStop_completes s)
  | setParams p => exact execSetParams_outcome p s
  | noteOn note vel gate =>
    obtain ⟨t, ht⟩ := playNote_completes note vel gate hhead
    exact .inl ⟨t, finish_next.mpr ht⟩
  | noteOff note => exact .inl (execNoteOff_completes note hhead)
  | allNotesOff =>
    obtain ⟨t, ht⟩ := pushOnly_completes allNotesOffRecord hhead
    exact .inl ⟨_, finish_bind ht⟩
  | drumHit part vel => exact .inl (execDrumHit_completes part vel hhead)
  | allDrumsOff =>
    obtain ⟨t, ht⟩ := pushOnly_completes allDrumsOffRecord hhead
    exact .inl ⟨t, finish_next.mpr ht⟩
  | triggerTestChord ms =>
    obtain ⟨x, hx⟩ := playChord_completes s.cfg.testChord ms hhead
    exact .inl ⟨_, finish_bind hx⟩
  | service now =>
    obtain ⟨x, hx⟩ := serveEntries_completes now s.sched hs.ring
    exact .inl ⟨_, finish_bind hx⟩
  | loadPreset index =>
    obtain ⟨p, -, hp⟩ := loadSlot_completes (hslot index)
    exact .inl ⟨_, finish_next.mpr hp⟩
  | resetPreset =>
    obtain ⟨p, -, hp⟩ := loadSlot_completes (hslot (s.store.active.presetIndex.setWidth 32))
    exact .inl ⟨_, finish_next.mpr hp⟩
  | presetName index =>
    obtain ⟨p, -, hp⟩ := tableRow_completes .preset (hslot index)
    exact .inl ⟨_, finish_bind hp⟩
  | presetDefaults index =>
    obtain ⟨p, -, hp⟩ := tableRow_completes .preset (hslot index)
    exact .inl ⟨_, finish_bind hp⟩
  | running | fadeIn _ | fadeOut _ | setDrumsEnabled _ | getParams | consumeUnderruns | getPerfSnapshot => exact .inl ⟨_, rfl⟩
  | cmdNoteOn _ _ | cmdNoteOff _ | cmdAllNotesOff | cmdDrumHit _ _ | cmdAllDrumsOff => cases hi

/-- A further step of stop or of a test chord completes. -/
theorem resumeStep_completes (j : Nat) {s : State} (h : s.queue.head < s.cfg.qcap) : ∃ t, resumeStep j s = .ok t := by
  unfold resumeStep
  split
  · exact ⟨_, rfl⟩
  · exact ⟨_, rfl⟩
  · exact ⟨_, rfl⟩
  · exact ⟨_, rfl⟩
  · rename_i notes ms _
    obtain ⟨x, hx⟩ := playChord_completes notes ms h
    exact ⟨_, by simp only [hx, bind, Except.bind]; rfl⟩

/-! ## DRAIN -/

/-- What the ring commands read has been written and is in range. -/
structure State.CommandReady (s : State) : Prop where
  cfgWf : s.cfg.wf
  sizes : s.sizesOk
  started : s.life.started = true
  taken : s.snapshot.taken = true
  params : paramsInRange s.cfg s.snapshot.params

/-- Inside a block the commands are ready to run, wherever the tail of the ring is. -/
theorem inv_commandReady {s : State} (hs : s.Inv) (hb : s.life.phase.inBlock = true) (tail : Nat) :
    ({ s with queue := { s.queue with tail := tail } } : State).CommandReady := by
  obtain ⟨hstarted, hwritten⟩ := hs.phase
  obtain ⟨htaken, -⟩ := hwritten hb
  have hpresent : s.life.phase ≠ .absent := by rintro he; rw [he] at hb; cases hb
  exact ⟨hs.cfgWf, hs.sizes, hstarted hpresent, htaken, hs.params.2.2 htaken⟩

/-- A NOTE_ON finds a voice of the pool. -/
theorem allocate_completes {s : State} (hs : s.CommandReady) :
    ∃ i, allocate s.snapshot.params s.pool.voices = some i ∧ i < s.pool.voices.length := by
  obtain ⟨⟨hmin, -⟩, -⟩ := hs.cfgWf.1
  obtain ⟨hsize, -⟩ := hs.sizes
  have hpos : 0 < s.pool.voices.length := by omega
  unfold allocate
  split
  · exact ⟨0, rfl, hpos⟩
  · obtain ⟨-, -, ⟨hone, -⟩, -⟩ := hs.params
    obtain ⟨i, hi⟩ := Option.isSome_iff_exists.mp (allocatePoly_isSome (w := s.snapshot.params.maxVoices.toNat) hone
      (List.ne_nil_of_length_pos hpos))
    exact ⟨i, hi, (allocatePoly_lt hi).2⟩

theorem execCmdNoteOn_completes {note vel : Byte} {s : State} (hw : (legalNote note && legalVelocity vel) = true)
    (hs : s.CommandReady) : ∃ t, execCmdNoteOn note vel s = .next t := by
  obtain ⟨i, hi, hlt⟩ := allocate_completes hs
  refine ⟨{ s with pool := s.pool.noteOn s.cfg.arith s.snapshot.params.mono note vel i }, ?_⟩
  simp only [execCmdNoteOn, hw, hs.taken, hi, hlt, Bool.not_true, Bool.false_eq_true, if_false, if_true]

theorem execCmdDrumHit_completes {part vel : Byte} {s : State} (hw : (legalPart part && legalVelocity vel) = true)
    (hs : s.CommandReady) : ∃ t, execCmdDrumHit part vel s = .next t := by
  obtain ⟨-, -, -, -, hrecipes, hkits⟩ := hs.cfgWf.1
  obtain ⟨-, -, -, -, -, -, -, -, -, -, -, -, -, -, -, -, -, -, hkit, -⟩ := hs.params
  have hpart : part.toNat < 8 := by simpa using (Bool.and_eq_true_iff.mp hw).1
  obtain ⟨r, -, hr⟩ := tableRow_completes .recipe (rows := s.cfg.recipes) (i := part.toNat) (by omega)
  obtain ⟨m, -, hm⟩ := tableRow_completes .kit (rows := s.cfg.kits) (i := s.snapshot.params.drumKit.toNat) (by omega)
  have hdrums : s.drums.length = 8 := hs.sizes.2.1
  have hin : part.toNat < s.drums.length ∧ (part.toNat = closedHat → openHat < s.drums.length) := by
    rw [hdrums]; exact ⟨hpart, fun _ => by decide⟩
  refine ⟨{ s with drums := hitDrums s.cfg s.life.fs r m part.toNat vel s.drums }, ?_⟩
  simp only [execCmdDrumHit, hw, hs.taken, hs.started, Bool.not_true, Bool.false_eq_true, if_false, hr, hm, bind, Except.bind,
    if_pos hin, finish]

/-- A ring command with unreserved operands completes. -/
theorem exec_command_completes {i : Instr} {s : State} (hi : i.isCommand = true) (hw : i.wellFormed = true) (hs : s.CommandReady) :
    ∃ t, exec i s = .next t := by
  cases i with
  | cmdNoteOn note vel => exact execCmdNoteOn_completes hw hs
  | cmdNoteOff note => exact ⟨_, if_neg (by simpa [Instr.wellFormed] using hw)⟩
  | cmdAllNotesOff => exact ⟨_, rfl⟩
  | cmdDrumHit part vel => exact execCmdDrumHit_completes hw hs
  | cmdAllDrumsOff => exact ⟨_, rfl⟩
  | _ => cases hi

/-- A pop with the indices in range completes. -/
theorem pop_completes {s : State} (h : s.ringOk) :
    pop s = .ok (if s.queue.head = s.queue.tail then none
      else some (s.slotRecord s.queue.tail, { s with queue := { s.queue with tail := s.nextSlot s.queue.tail } })) := by
  obtain ⟨r, hr⟩ := readSlot_completes h.2
  obtain rfl := readSlot_ok hr
  unfold pop
  split
  · rfl
  · simp only [hr, bind, Except.bind]

/-- The record in the tail slot of a ring that is not empty is a queued one. -/
theorem slotRecord_tail_mem {s : State} (h : s.ringOk) (hne : s.queue.head ≠ s.queue.tail) : s.slotRecord s.queue.tail ∈ s.queued := by
  have hdepth : 0 < s.queueDepth := by
    rw [queueDepth_eq h]
    obtain ⟨hhead, htail⟩ := h
    split <;> omega
  have hslot : s.slotAt 0 = s.queue.tail := Nat.mod_eq_of_lt h.2
  exact List.mem_map.mpr ⟨0, List.mem_range.mpr hdepth, by rw [hslot]⟩

theorem recordLegal_iff {r : Record} : recordLegal r = true ↔ ∃ i, decodeRecord r = .ok i := by
  unfold recordLegal
  split <;> simp_all

theorem drainPhase_completes {s : State} (hs : s.Inv) (hb : s.life.phase.inBlock = true) : ∃ t, drainPhase s = .next t := by
  unfold drainPhase
  rw [pop_completes hs.ring]
  by_cases he : s.queue.head = s.queue.tail
  · rw [if_pos he]; exact ⟨_, rfl⟩
  · rw [if_neg he]
    obtain ⟨i, hi⟩ := recordLegal_iff.mp (hs.legal _ (slotRecord_tail_mem hs.ring he))
    obtain ⟨hc, hw⟩ := decodeRecord_isCommand hi
    obtain ⟨t, ht⟩ := exec_command_completes hc hw (inv_commandReady hs hb (s.nextSlot s.queue.tail))
    refine ⟨t, ?_⟩
    simp only [runFetched, decode, hi]
    exact ht

/-! ## RENDER and WRITE -/

/-- A frame of the block completes, or meets a NaN in binary32. -/
theorem inv_frame_cases {k : Nat} {s : State} (hs : s.Inv) (hphase : s.life.phase = .render k) (hk : k < s.life.blockSize) :
    (∃ t, frame k s = .ok t) ∨ (frame k s = .error (.refusal .nanOperand) ∧ s.cfg.arith = .binary32) := by
  obtain ⟨hpresent, hwritten⟩ := hs.phase
  have hstarted := hpresent (by rw [hphase]; simp)
  obtain ⟨htaken, henv, hfilter⟩ := hwritten (by rw [hphase]; rfl)
  obtain ⟨hlen, hidx⟩ := hs.delay.1 hstarted
  obtain ⟨-, -, -, -, hrecipes, -⟩ := hs.cfgWf.1
  have hdrums : s.drums.length ≤ s.cfg.recipes.length := by rw [hs.sizes.2.1, hrecipes]; decide
  have hset := frameUnset_none htaken hstarted henv hfilter
  by_cases ha : s.cfg.arith = .binary32
  · exact (frame_cases hset hdrums hidx hlen hk).imp_right fun h => ⟨h, ha⟩
  · exact .inl (frame_completes ha (hs.numbers ha) hset hdrums hidx hlen hk)

/-- RENDER completes, or meets a NaN in binary32. -/
theorem renderPhase_cases {k : Nat} {s : State} (hs : s.Inv) (hphase : s.life.phase = .render k) :
    (∃ t, renderPhase k s = .ok t) ∨ (renderPhase k s = .error (.refusal .nanOperand) ∧ s.cfg.arith = .binary32) := by
  have hbelow : s.blockWritten (4 * k) := by have := hs.block; rw [State.blockOk, hphase] at this; exact this
  unfold renderPhase
  by_cases hk : k < s.life.blockSize
  · rw [if_pos hk]
    rcases inv_frame_cases hs hphase hk with ⟨u, hu⟩ | ⟨hnan, ha⟩
    · obtain ⟨hframe, -, -, -, -, -, -, -, -, hblock⟩ := frame_ok hu
      have hsize : u.life.blockSize = s.life.blockSize := by rw [hframe]
      simp only [hu, bind, Except.bind]
      split
      · exact .inl ⟨_, rfl⟩
      · refine .inl (finishBlock_completes fun a ha => hblock a ?_)
        by_cases hak : a < 4 * k
        · exact .inl (hbelow a hak)
        · exact .inr (by omega)
    · exact .inr ⟨by simp only [hnan, bind, Except.bind], ha⟩
  · rw [if_neg hk]
    exact .inl (finishBlock_completes fun a ha => hbelow a (by omega))

/-- A step of the render context completes; only a frame of binary32 may be refused, for a NaN (40_dsp_primitives.md R400). -/
theorem renderStep_outcome {s : State} (hs : s.Inv) : (∃ t, renderStep s = .next t) ∨
    (renderStep s = .refused .nanOperand ∧ s.cfg.arith = .binary32 ∧ ∃ k, s.life.phase = .render k) := by
  unfold renderStep
  split
  · exact .inl ⟨_, rfl⟩
  · exact .inl ⟨_, rfl⟩
  · rename_i hphase
    obtain ⟨t, ht⟩ := snapPhase_completes (hs.phase.1 (by rw [hphase]; simp))
    exact .inl ⟨t, finish_next.mpr ht⟩
  · rename_i hphase
    exact .inl (drainPhase_completes hs (by rw [hphase]; rfl))
  · rename_i k hphase
    rcases renderPhase_cases hs hphase with ⟨t, ht⟩ | ⟨hnan, ha⟩
    · exact .inl ⟨t, finish_next.mpr ht⟩
    · exact .inr ⟨by rw [hnan]; rfl, ha, k, hphase⟩
  · rename_i hphase
    have hwritten := hs.block
    rw [State.blockOk, hphase] at hwritten
    obtain ⟨t, ht⟩ := writePhase_completes hwritten
    exact .inl ⟨t, finish_next.mpr ht⟩

/-- A host call answers a next state or is refused. -/
theorem runFetched_call_outcome (c : HostCall) {s : State} (hs : s.Inv) :
    (∃ t, runFetched (.call c) s = .next t) ∨ ∃ r, runFetched (.call c) s = .refused r := by
  unfold runFetched
  split
  · rename_i i hi
    exact exec_host_outcome (decodeCall_not_isCommand hi) hs
  · exact .inr ⟨_, rfl⟩

theorem step_render_outcome {s : State} {i : Input} {rest : List Input} (hs : s.Inv) (hin : s.inputs = i :: rest)
    (hm : i.move = .render) : (∃ t, step s = .next t) ∨
    (step s = .refused .nanOperand ∧ s.cfg.arith = .binary32 ∧ ∃ k, s.life.phase = .render k) := by
  rw [step_cons hin, hm]
  exact renderStep_outcome (take_inv hs i rest)

theorem step_resume_completes {s : State} {i : Input} {rest : List Input} (hs : s.Inv) (hin : s.inputs = i :: rest) {j : Nat}
    (hm : i.move = .resume j) : ∃ t, step s = .next t := by
  obtain ⟨t, ht⟩ := resumeStep_completes j (s := s.take i rest) hs.ring.1
  rw [step_cons hin, hm]
  exact ⟨t, finish_next.mpr ht⟩

/-- A step answers a next state or is refused: it meets no fault. -/
theorem step_outcome {s : State} (hs : s.Inv) : (∃ t, step s = .next t) ∨ ∃ r, step s = .refused r := by
  cases hin : s.inputs with
  | nil => exact .inl ⟨s, step_nil hin⟩
  | cons i rest =>
    cases hm : i.move with
    | call c =>
      rw [step_cons hin, hm]
      exact runFetched_call_outcome c (take_inv hs i rest)
    | resume j => exact .inl (step_resume_completes hs hin hm)
    | render => exact (step_render_outcome hs hin hm).imp_right fun ⟨h, _⟩ => ⟨_, h⟩

end Sys2Proof.Machine

namespace Sys2Proof
open Machine

/-- Settles O8: the outcome of a step by the agent that moves. -/
theorem stepsNeverFaultAndRenderStepsComplete : Obligations.StepsNeverFaultAndRenderStepsComplete := by
  refine ⟨fun s hs f hf => ?_, fun s i rest hs hin hmove => ?_⟩
  · rcases step_outcome hs with ⟨t, ht⟩ | ⟨r, hr⟩
    · cases ht.symm.trans hf
    · cases hr.symm.trans hf
  · rcases hmove with hm | ⟨j, hm⟩
    · exact (step_render_outcome hs hin hm).imp_right fun ⟨h, ha, hk⟩ => ⟨h, ha, hm, hk⟩
    · exact .inl (step_resume_completes hs hin hm)

end Sys2Proof
end

section
/-! PROOFS. The samples in memory (20_memory.md R204 and R205), that no delay cell holds 0x80 and no s16 of BLOCK is −32768; and
the copy of the parameters that a block reads (R214), which SNAP alone changes. -/

namespace Sys2Proof.Machine

/-! ## The delay line (20_memory.md R204) -/

/-- A step of the render context leaves the delay line alone, or stores one sample at the write index and moves on. -/
theorem RenderEffect.delay {s t : State} (h : RenderEffect s t) : t.delay = s.delay ∨
    (s.delay.writeIdx < s.delay.len ∧ ∃ v, v ≠ 0x80 ∧ t.delay =
      { cells := Memory.put (some 0) s.delay.cells s.delay.writeIdx v, len := s.delay.len,
        writeIdx := (s.delay.writeIdx + 1) % s.delay.len }) := by
  cases h with
  | idles h => rw [h]; exact .inl rfl
  | snaps h => obtain ⟨-, rfl⟩ := snapPhase_ok h; exact .inl rfl
  | applies hi h => rw [exec_command_frame hi h]; exact .inl rfl
  | frames hf h =>
    obtain ⟨-, -, -, -, -, -, hlt, hstore, -⟩ := frame_ok hf
    rw [h]
    exact .inr ⟨hlt, hstore⟩

theorem RenderEffect.delayOk {s t : State} (h : RenderEffect s t) (hs : s.delayOk) : t.delayOk := by
  have hstarted : t.life.started = s.life.started := by rw [h.keepsControlState]
  rw [State.delayOk, hstarted]
  rcases h.delay with hd | ⟨hlt, v, hv, hd⟩ <;> rw [hd]
  · exact hs
  · obtain ⟨hindex, hcells⟩ := hs
    exact ⟨fun h => ⟨(hindex h).1, Nat.mod_lt _ (Nat.zero_lt_of_lt hlt)⟩, put_delayOk hcells hlt hv⟩

/-- A start clears the line, and an admitted rate gives it at least two cells (R201). -/
theorem execStart_delayOk {k : SinkConfig} {rate size : Word} {s t : State} (h : execStart k rate size s = .next t)
    (hs : s.delayOk) : t.delayOk := by
  rcases execStart_cases h with ⟨-, rfl⟩ | ⟨-, hrate, -, ⟨-, rfl⟩ | ⟨-, rfl⟩⟩
  · exact hs
  · have hlen : 2 ≤ delayLength rate.toNat := by unfold refusedRate at hrate; unfold delayLength; omega
    exact ⟨fun _ => ⟨hlen, Nat.zero_lt_of_lt hlen⟩, fun c hc => nomatch hc⟩
  · exact hs

/-! ## The block (20_memory.md R205, 45_render_pipeline.md R934) -/

/-- No s16 element of a BLOCK image is the code −32768, whose bytes are 0x00 and 0x80. -/
abbrev noLowestCode (m : Memory) : Prop :=
  ∀ j, ¬ (Memory.lookup m (2 * j) = some 0x00 ∧ Memory.lookup m (2 * j + 1) = some 0x80)

/-- Stores to BLOCK list the stored bytes and leave every other cell. -/
theorem memWrites_block_lookup {a : Nat} {bs : List Byte} {s t : State} (h : memWrites .block a bs s = .ok t) (b : Nat) :
    Memory.lookup t.block b = if a ≤ b ∧ b < a + bs.length then bs[b - a]? else Memory.lookup s.block b := by
  induction bs generalizing a s with
  | nil => cases h; rw [if_neg (by simp only [List.length_nil]; omega)]
  | cons v bs ih =>
    obtain ⟨s', hs', h⟩ := bind_ok h
    obtain ⟨-, rfl⟩ := memWrite_ok hs'
    have hput : Memory.lookup (s.setArena .block (Memory.put Space.block.blank s.block a v)).block b =
        if b = a then some v else Memory.lookup s.block b := lookup_insert a v s.block b
    rw [ih h, State.arena, hput, List.length_cons]
    by_cases hb : b = a
    · subst hb
      rw [if_neg (by omega), if_pos rfl, if_pos (by omega), Nat.sub_self]
      rfl
    · by_cases hin : a + 1 ≤ b ∧ b < a + 1 + bs.length
      · rw [if_pos hin, if_pos (by omega), show b - a = b - (a + 1) + 1 by omega, List.getElem?_cons_succ]
      · rw [if_neg hin, if_neg hb, if_neg (by omega)]

/-- A code of step 12 lies in [−32767, 32767], in either arithmetic. -/
theorem q16_bounds {a : Arith} {x : RealNum} {n : Int} (h : q16 a x = .ok n) : -32767 ≤ n ∧ n ≤ 32767 := by
  obtain ⟨c, hc, rfl⟩ := q16_value h
  obtain ⟨hlo, hhi⟩ := clampSignal_ok (by norm_num) hc
  have hscaled : |32767 * c| ≤ ((32767 : Nat) : Rat) := abs_le.mpr ⟨by push_cast; linarith, by push_cast; linarith⟩
  have hnear : |a.near (32767 * c)| ≤ ((32767 : Nat) : Rat) := by
    cases a
    · exact hscaled
    · exact abs_nearest32_le_nat (by norm_num) hscaled
  obtain ⟨hnlo, hnhi⟩ := abs_le.mp hnear
  exact ⟨le_roundHalfAway (by norm_num) hnlo, roundHalfAway_le (by norm_num) hnhi⟩

/-- The only s16 with the bytes 0x00 and 0x80 is −32768. -/
theorem s16Bytes_ne_lowest {n : Int} (h : -32767 ≤ n ∧ n ≤ 32767)
    : ¬ ((s16Bytes n)[0]? = some 0x00 ∧ (s16Bytes n)[1]? = some 0x80) := by
  rw [s16Bytes_eq]
  rintro ⟨hlow, hhigh⟩
  have hlow := congrArg BitVec.toNat (Option.some.inj hlow)
  have hhigh := congrArg BitVec.toNat (Option.some.inj hhigh)
  simp only [BitVec.toNat_ofInt, BitVec.ofNat_eq_ofNat, BitVec.toNat_ofNat] at hlow hhigh
  omega

/-- Step 12 stores two whole elements, neither of them −32768. -/
theorem blockStage_noLowestCode {s t : State} {k : Nat} {x : Stereo} (h : blockStage s k x = .ok t) (hs : noLowestCode s.block) :
    noLowestCode t.block := by
  obtain ⟨l, hl, h⟩ := bind_ok h
  obtain ⟨r, hr, h⟩ := bind_ok h
  intro j
  rw [memWrites_block_lookup h, memWrites_block_lookup h, List.length_append, s16Bytes_length, s16Bytes_length]
  by_cases hleft : j = 2 * k
  · subst hleft
    rw [if_pos (by omega), if_pos (by omega), show 2 * (2 * k) - 4 * k = 0 by omega, show 2 * (2 * k) + 1 - 4 * k = 1 by omega]
    exact s16Bytes_ne_lowest (q16_bounds hl)
  · by_cases hright : j = 2 * k + 1
    · subst hright
      rw [if_pos (by omega), if_pos (by omega), show 2 * (2 * k + 1) - 4 * k = 2 by omega,
        show 2 * (2 * k + 1) + 1 - 4 * k = 3 by omega]
      exact s16Bytes_ne_lowest (q16_bounds hr)
    · rw [if_neg (by omega), if_neg (by omega)]
      exact hs j

/-- The steps of a frame before the last store no byte of BLOCK, and move the filter by its process alone (R451). -/
theorem frame_blockStage {k : Nat} {s t : State} (h : frame k s = .ok t) : ∃ (u : State) (y : Stereo),
    blockStage u k y = .ok t ∧ u.block = s.block ∧ ∃ x, u.filter = s.filter.process s.cfg.arith x := by
  unfold frame at h
  split at h
  · cases h
  · obtain ⟨⟨d, x⟩, hd, h⟩ := bind_ok h
    obtain ⟨⟨u, y⟩, hu, h⟩ := bind_ok h
    obtain ⟨hdf, -⟩ := drumStage_ok hd
    obtain ⟨-, v, rfl, -⟩ := delayStage_ok hu
    refine ⟨_, _, h, ?_⟩
    rw [outputStage_frame, hdf]
    exact ⟨rfl, _, rfl⟩

theorem RenderEffect.noLowestCode {s t : State} (h : RenderEffect s t) (hs : noLowestCode s.block) : Machine.noLowestCode t.block := by
  cases h with
  | idles h => rw [h]; exact hs
  | snaps h => obtain ⟨-, rfl⟩ := snapPhase_ok h; exact hs
  | applies hi h => rw [exec_command_frame hi h]; exact hs
  | frames hf h =>
    obtain ⟨u, y, hu, hblock, -⟩ := frame_blockStage hf
    rw [h]
    exact (blockStage_noLowestCode hu (hblock ▸ hs) :)

/-- A start keeps the block of a render context in flight and empties any other (10_state.md R121). -/
theorem execStart_noLowestCode {k : SinkConfig} {rate size : Word} {s t : State} (h : execStart k rate size s = .next t)
    (hs : noLowestCode s.block) : noLowestCode t.block := by
  rcases execStart_cases h with ⟨-, rfl⟩ | ⟨-, -, -, ⟨-, rfl⟩ | ⟨-, rfl⟩⟩
  · exact hs
  · rw [startDone_block]
    split
    · exact hs
    · exact fun j hj => nomatch hj.1
  · exact hs

/-! ## The parameters a block reads (20_memory.md R214) -/

/-- The coefficients of the filter (10_state.md R112). -/
def Biquad.coefficients (f : Biquad) : RealNum × RealNum × RealNum × RealNum × RealNum := (f.b0, f.b1, f.b2, f.a1, f.a2)

@[simp] theorem process_coefficients (a : Arith) (f : Biquad) (x : RealNum) : (f.process a x).coefficients = f.coefficients := rfl
@[simp] theorem reset_coefficients (f : Biquad) : f.reset.coefficients = f.coefficients := rfl

/-- `t` has the snapshot and the filter coefficients of `s`. -/
def KeepsParameters (s t : State) : Prop := t.snapshot = s.snapshot ∧ t.filter.coefficients = s.filter.coefficients

theorem KeepsParameters.trans {s t u : State} (hst : KeepsParameters s t) (htu : KeepsParameters t u) : KeepsParameters s u :=
  ⟨htu.1.trans hst.1, htu.2.trans hst.2⟩

theorem Idles.keepsParameters {s t : State} (h : Idles s t) : KeepsParameters s t := by
  rw [h]
  exact ⟨rfl, rfl⟩

theorem drainPhase_keepsParameters {s t : State} (h : drainPhase s = .next t) : KeepsParameters s t := by
  rcases drainPhase_cases h with ⟨-, rfl⟩ | ⟨-, i, hi, hx⟩
  · exact ⟨rfl, rfl⟩
  · rw [exec_command_frame (decodeRecord_isCommand hi).1 hx]
    exact ⟨rfl, rfl⟩

theorem frame_keepsParameters {k : Nat} {s t : State} (h : frame k s = .ok t) : KeepsParameters s t := by
  obtain ⟨u, y, hu, -, x, hfilter⟩ := frame_blockStage h
  obtain ⟨⟨m, rfl⟩, -⟩ := blockStage_ok hu
  refine ⟨by rw [(frame_ok h).1], ?_⟩
  rw [hfilter, process_coefficients]

theorem renderPhase_keepsParameters {k : Nat} {s t : State} (h : renderPhase k s = .ok t) : KeepsParameters s t := by
  rcases renderPhase_ok h with ⟨-, s', hf, ⟨-, rfl⟩ | ⟨-, hb⟩⟩ | ⟨-, hb⟩
  · exact (frame_keepsParameters hf :)
  · exact (frame_keepsParameters hf).trans (finishBlock_idles hb).keepsParameters
  · exact (finishBlock_idles hb).keepsParameters

/-- No phase but SNAP changes the parameters of a block (45_render_pipeline.md R904). -/
theorem renderStep_keepsParameters {s t : State} (hsnap : s.life.phase ≠ .snap) (h : renderStep s = .next t) : KeepsParameters s t := by
  unfold renderStep at h
  split at h
  · cases h; exact ⟨rfl, rfl⟩
  · cases h
    rcases loopTest_cases s with ⟨-, he⟩ | ⟨-, he⟩ <;> rw [he] <;> exact ⟨rfl, rfl⟩
  · exact absurd ‹_› hsnap
  · exact drainPhase_keepsParameters h
  · exact renderPhase_keepsParameters (finish_next.mp h)
  · exact (writePhase_idles (finish_next.mp h)).keepsParameters

theorem ControlEffect.keepsParameters {s t : State} (h : ControlEffect s t) : KeepsParameters s t := by
  rw [h.keepsRenderState]
  exact ⟨rfl, rfl⟩

/-- A start resets the state of the filter alone (40_dsp_primitives.md R452). -/
theorem execStart_keepsParameters {k : SinkConfig} {rate size : Word} {s t : State} (h : execStart k rate size s = .next t) :
    KeepsParameters s t := by
  rcases execStart_cases h with ⟨-, rfl⟩ | ⟨-, -, -, ⟨-, rfl⟩ | ⟨-, rfl⟩⟩
  · exact ⟨rfl, rfl⟩
  · exact ⟨rfl, reset_coefficients _⟩
  · exact ⟨rfl, rfl⟩

/-- A host call that answers a next state is a start, or has the effect of a control context. -/
theorem runFetched_call_effect {c : HostCall} {s t : State} (h : runFetched (.call c) s = .next t) :
    ControlEffect s t ∨ ∃ k rate size, execStart k rate size s = .next t := by
  obtain ⟨i, hi, hx⟩ := runFetched_next h
  by_cases hs : ∃ k rate size, i = .start k rate size
  · obtain ⟨k, rate, size, rfl⟩ := hs
    exact .inr ⟨k, rate, size, hx⟩
  · exact .inl (exec_host_effect (decodeCall_not_isCommand hi) (fun k rate size he => hs ⟨k, rate, size, he⟩) hx)

/-- An agent that changes the snapshot or a coefficient is the render context in phase SNAP. -/
theorem agentStep_keepsParameters {m : Move} {s t : State} (hm : m = .render → s.life.phase ≠ .snap)
    (h : agentStep m s = .next t) : KeepsParameters s t := by
  cases m with
  | render => exact renderStep_keepsParameters (hm rfl) h
  | resume j => exact (resumeStep_effect (finish_next.mp h)).keepsParameters
  | call c =>
    rcases runFetched_call_effect h with hc | ⟨k, rate, size, hx⟩
    · exact hc.keepsParameters
    · exact execStart_keepsParameters hx

/-- In phase SNAP the render context copies the active record. -/
theorem renderStep_snapshot {s t : State} (hsnap : s.life.phase = .snap) (h : renderStep s = .next t) :
    t.snapshot.params = s.store.active := by
  rw [renderStep, hsnap] at h
  obtain ⟨-, rfl⟩ := snapPhase_ok (finish_next.mp h)
  rfl

end Sys2Proof.Machine

namespace Sys2Proof
open Machine

/-- Settles O13: each clause is a property that every kind of step keeps. -/
theorem storedSamplesAvoidTheForbiddenCodes : Obligations.StoredSamplesAvoidTheForbiddenCodes := by
  refine ⟨fun s t hs h => ?_, fun s t hs h => ?_⟩
  · refine step_keeps (P := State.delayOk) id (fun hs hr => hr.delayOk hs) (fun hs hc => ?_) (fun hs hx => execStart_delayOk hx hs) hs h
    rw [hc.keepsRenderState]
    exact hs
  · refine step_keeps (P := fun u => noLowestCode u.block) id (fun hs hr => hr.noLowestCode hs) (fun hs hc => ?_)
      (fun hs hx => execStart_noLowestCode hx hs) hs h
    rw [hc.keepsRenderState]
    exact hs

/-- Settles O18: every step but a SNAP of the render context keeps the parameters, and SNAP copies the active record. -/
theorem parameterChangesWaitForSnap : Obligations.ParameterChangesWaitForSnap := by
  intro s t h hchange
  have hnot : ¬ KeepsParameters s t := fun ⟨hsnapshot, hfilter⟩ => hchange.elim (· hsnapshot) (· hfilter)
  rcases step_cases h with ⟨-, rfl⟩ | ⟨⟨m, d⟩, rest, hin, hx⟩
  · exact absurd ⟨rfl, rfl⟩ hnot
  · obtain ⟨rfl, hsnap⟩ : m = .render ∧ s.life.phase = .snap := by
      by_contra hother
      exact hnot (agentStep_keepsParameters (s := s.take ⟨m, d⟩ rest) (fun hm hp => hother ⟨hm, hp⟩) hx)
    exact ⟨hsnap, ⟨d, rest, hin⟩, renderStep_snapshot (s := s.take ⟨.render, d⟩ rest) hsnap hx⟩

end Sys2Proof
end

section
/-! PROOFS. The DSP primitives in exact arithmetic (40_dsp_primitives.md): the segments of an envelope, the soft clip, the
coefficients and the recurrence of the filter, and the recurrence of the DC blocker. -/

namespace Sys2Proof.Machine

/-! ## Linear segments that stop at a bound -/

section
variable {α : Type} {f : α → α} {seg : Rat → α} {rest : α} {d : Rat} {done : Rat → Prop} [DecidablePred done]
  (hf : ∀ x, f (seg x) = if done (x + d) then rest else seg (x + d)) (hdone : ∀ x, done x → done (x + d))
include hf

/-- The step that first reaches the bound ends the segment. -/
theorem iterate_segment_arrives {l : Rat} {n : Nat} (hbefore : f^[n] (seg l) = seg (l + n * d)) (h : done (l + (n + 1) * d)) :
    f^[n + 1] (seg l) = rest := by
  have hnext : l + n * d + d = l + (n + 1) * d := by ring
  rw [Function.iterate_succ_apply', hbefore, hf, hnext, if_pos h]

include hdone

/-- Before the bound is reached, `n` steps move the level by `n · d`. -/
theorem iterate_segment {l : Rat} {n : Nat} (h : n = 0 ∨ ¬ done (l + n * d)) : f^[n] (seg l) = seg (l + n * d) := by
  induction n with
  | zero => simp
  | succ n ih =>
    have hnext : l + n * d + d = l + (n + 1 : Nat) * d := by push_cast; ring
    have hnot : ¬ done (l + n * d + d) := hnext ▸ h.resolve_left n.succ_ne_zero
    rw [Function.iterate_succ_apply', ih (.inr fun hn => hnot (hdone _ hn)), hf, if_neg hnot, hnext]

/-- From the step that reaches the bound on, the segment rests. -/
theorem iterate_segment_rests (hrest : f rest = rest) {l : Rat} {n : Nat} (hn : 1 ≤ n) (h : done (l + n * d)) :
    f^[n] (seg l) = rest := by
  induction n, hn using Nat.le_induction with
  | base => exact iterate_segment_arrives hf (n := 0) (by simp) (by simpa using h)
  | succ n hn ih =>
    by_cases hearlier : done (l + n * d)
    · rw [Function.iterate_succ_apply', ih hearlier, hrest]
    · exact iterate_segment_arrives hf (iterate_segment hf hdone (.inr hearlier)) (by exact_mod_cast h)

end

/-! ## Envelope segments (R433, R435) -/

/-- The envelope with its level at `x`. -/
def Envelope.atLevel (e : Envelope) (x : Rat) : Envelope := { e with level := .fin x }

theorem Envelope.atLevel_self {e : Envelope} {l : Rat} (h : e.level = .fin l) : e.atLevel l = e := by rw [atLevel, ← h]

section
variable {bits : Nat} {e : Envelope} {r : Rat}

theorem process_attack_reals (hs : e.state = .attack) (hr : e.attackInc = .fin r) (x : Rat) :
    (e.atLevel x).process (.reals bits) = if 1 ≤ x + r then { e with level := .fin 1, state := .decay } else e.atLevel (x + r) := by
  simp [Envelope.process, Envelope.atLevel, hs, hr]

theorem process_decay_reals {u : Rat} (hs : e.state = .decay) (hr : e.decayInc = .fin r) (hu : e.sustainLevel = .fin u) (x : Rat) :
    (e.atLevel x).process (.reals bits) =
      if x + -r ≤ u then { e with level := .fin u, state := .sustain } else e.atLevel (x + -r) := by
  simp [Envelope.process, Envelope.atLevel, hs, hr, hu, ← sub_eq_add_neg]

theorem process_release_reals (hs : e.state = .release) (hr : e.releaseInc = .fin r) (x : Rat) :
    (e.atLevel x).process (.reals bits) = if x + -r ≤ 0 then { e with level := .fin 0, state := .off } else e.atLevel (x + -r) := by
  simp [Envelope.process, Envelope.atLevel, hs, hr, ← sub_eq_add_neg]

end

/-- An envelope in Sustain or in Off does not move (R433). -/
theorem process_at_rest (a : Arith) {e : Envelope} (h : e.state = .sustain ∨ e.state = .off) : e.process a = e := by
  rcases h with h | h <;> simp [Envelope.process, h]

/-! ## The soft clip (R402, R403) -/

/-- The rational function of R402, before it saturates. -/
def clipCurve (x : Rat) : Rat := x * (27 + x ^ 2) / (27 + 9 * x ^ 2)

theorem clipCurve_neg (x : Rat) : clipCurve (-x) = -clipCurve x := by unfold clipCurve; ring

theorem clipCurve_three : clipCurve 3 = 1 := by norm_num [clipCurve]

theorem clipCurve_strictMono : StrictMono clipCurve := by
  intro x y hxy
  have hgap : y * (27 + y ^ 2) * (27 + 9 * x ^ 2) - x * (27 + x ^ 2) * (27 + 9 * y ^ 2) =
      9 * (y - x) * ((9 - x * y) ^ 2 + 3 * (y - x) ^ 2) := by ring
  have hpos : 0 < 9 * (y - x) * ((9 - x * y) ^ 2 + 3 * (y - x) ^ 2) := by
    have := sub_pos.mpr hxy
    positivity
  unfold clipCurve
  rw [div_lt_div_iff₀ (by positivity) (by positivity)]
  linarith

theorem clamp_mono {lo hi : Rat} (h : lo ≤ hi) : Monotone (clamp · lo hi) := by
  intro x y hxy
  dsimp only [clamp]
  split_ifs <;> linarith

theorem clamp_neg_symm {b : Rat} (h : 0 ≤ b) (x : Rat) : clamp (-x) (-b) b = -clamp x (-b) b := by
  unfold clamp
  split_ifs <;> linarith

theorem clamp_abs_symm {b : Rat} (h : 0 ≤ b) (x : Rat) : |clamp x (-b) b| = min |x| b := by
  unfold clamp
  split_ifs with hlow hhigh
  · rw [abs_neg, abs_of_nonneg h, min_eq_right ((lt_neg_of_lt_neg hlow).le.trans (neg_le_abs x))]
  · rw [abs_of_nonneg h, min_eq_right (hhigh.le.trans (le_abs_self x))]
  · rw [min_eq_left (abs_le.mpr ⟨not_lt.mp hlow, not_lt.mp hhigh⟩)]

/-- In the reals the soft clip is the curve at its argument held to [−3, 3], where the curve runs from −1 to 1. -/
theorem softClip_reals (bits : Nat) (x : Rat) : softClip (.reals bits) (.fin x) = .fin (clipCurve (clamp x (-3) 3)) := by
  by_cases habove : 3 < x
  · simp [softClip, clamp, habove, (show ¬ x < -3 by linarith), clipCurve_three]
  · by_cases hbelow : x < -3
    · simp [softClip, clamp, habove, hbelow, clipCurve_neg, clipCurve_three]
    · simp [softClip, clamp, habove, hbelow, clipCurve, pow_two]

theorem abs_clipCurve (x : Rat) : |clipCurve x| = clipCurve |x| := by
  have hnonneg : 0 ≤ clipCurve |x| := by unfold clipCurve; positivity
  rcases abs_choice x with h | h
  · rw [h] at hnonneg ⊢
    exact abs_of_nonneg hnonneg
  · rw [h, clipCurve_neg] at hnonneg ⊢
    exact abs_of_nonpos (neg_nonneg.mp hnonneg)

/-! ## The filter (R450, R451, R453) -/

/-- In the reals the numerator of R450 is three numbers, whose sum is the numerator at DC (R453). -/
theorem filterNumerator_reals (bits : Nat) (type : Byte) (c alpha : Rat) :
    ∃ n0 n1 n2 : Rat, filterNumerator (.reals bits) type (.fin c) (.fin alpha) = (.fin n0, .fin n1, .fin n2) ∧
      n0 + n1 + n2 = if type = 0 then 2 - 2 * c else 0 := by
  have hlow : type = 0 ↔ type.toNat = 0 := by rw [← BitVec.toNat_inj]; rfl
  simp only [filterNumerator, hlow]
  split
  · exact ⟨_, _, _, rfl, by rw [if_pos ‹_›]; ring⟩
  · exact ⟨_, _, _, rfl, by rw [if_neg (by omega)]; ring⟩
  · exact ⟨_, _, _, rfl, by rw [if_neg ‹_›]; ring⟩

/-- The `Q` of R450 is at least 1/10. -/
theorem quality_pos (q : Rat) : 0 < 2 * clamp q (1 / 10) 10 := by
  linarith [(clamp_bounds (show (1 / 10 : Rat) ≤ 10 by norm_num) q).1]

/-- The sum of the denominator's coefficients. -/
theorem denominator_sum {alpha : Rat} (h : 0 ≤ alpha) (c : Rat) :
    1 + -(2 * c) / (1 + alpha) + (1 - alpha) / (1 + alpha) = (2 - 2 * c) / (1 + alpha) := by
  have : 1 + alpha ≠ 0 := by positivity
  field_simp
  ring

section
variable {bits fs : Nat} {cutoff q s c alpha : Rat} (hs : (Arith.reals bits).sin (.fin (clamp cutoff 20 18000 / fs)) = .fin s)
  (hc : (Arith.reals bits).cos (.fin (clamp cutoff 20 18000 / fs)) = .fin c) (halpha : s / (2 * clamp q (1 / 10) 10) = alpha)
  (type : Byte) (f : Biquad)
include hs hc halpha

/-- In the reals `configure` writes the cookbook's coefficients, of the computed sine and cosine of the angle in turns. -/
theorem configure_reals : ∃ n0 n1 n2 : Rat, n0 + n1 + n2 = (if type = 0 then 2 - 2 * c else 0) ∧
    f.configure (.reals bits) type fs cutoff q = { f with
      b0 := .fin (n0 / (1 + alpha))
      b1 := .fin (n1 / (1 + alpha))
      b2 := .fin (n2 / (1 + alpha))
      a1 := .fin (-(2 * c) / (1 + alpha))
      a2 := .fin ((1 - alpha) / (1 + alpha))
      configured := true } := by
  obtain ⟨n0, n1, n2, hn, hsum⟩ := filterNumerator_reals bits type c alpha
  refine ⟨n0, n1, n2, hsum, ?_⟩
  simp only [Biquad.configure, Arith.twoPi, Arith.const_reals, Arith.near_reals, Arith.add_reals, Arith.sub_reals, Arith.mul_reals,
    Arith.div_reals, RealNum.neg_fin, hs, hc, halpha, hn]

theorem configure_numerator_sum :
    (Arith.reals bits).add ((Arith.reals bits).add (f.configure (.reals bits) type fs cutoff q).b0
      (f.configure (.reals bits) type fs cutoff q).b1) (f.configure (.reals bits) type fs cutoff q).b2 =
      .fin ((if type = 0 then 2 - 2 * c else 0) / (1 + alpha)) := by
  obtain ⟨n0, n1, n2, hsum, hf⟩ := configure_reals hs hc halpha type f
  rw [hf, ← hsum, add_div, add_div]
  rfl

theorem configure_denominator_sum (h : 0 ≤ alpha) :
    (Arith.reals bits).add ((Arith.reals bits).add (.fin 1) (f.configure (.reals bits) type fs cutoff q).a1)
      (f.configure (.reals bits) type fs cutoff q).a2 = .fin ((2 - 2 * c) / (1 + alpha)) := by
  obtain ⟨n0, n1, n2, -, hf⟩ := configure_reals hs hc halpha type f
  rw [hf, ← denominator_sum h c]
  rfl

end

/-! ## The DC blocker (R460) -/

theorem dc_output_reals (bits : Nat) (x xPrev yPrev : Rat) :
    DcBlocker.output (.reals bits) { xPrev := .fin xPrev, yPrev := .fin yPrev } (.fin x) = .fin (x - xPrev + 995 / 1000 * yPrev) := rfl

/-- On a constant input the output shrinks by the pole each sample. -/
theorem dc_output_constant (bits : Nat) (c : Rat) (n : Nat) :
    ((fun e => DcBlocker.process (.reals bits) e (.fin c))^[n] DcBlocker.initial).output (.reals bits) (.fin c) =
      .fin (c * (995 / 1000) ^ n) := by
  induction n with
  | zero => exact (dc_output_reals bits c 0 0).trans (by simp)
  | succ n ih =>
    rw [Function.iterate_succ_apply', DcBlocker.process, ih, dc_output_reals]
    congr 1
    ring

end Sys2Proof.Machine

namespace Sys2Proof
open Machine

/-- Settles O51: each segment is a linear segment that stops at its bound, and Sustain and Off do not move. -/
theorem envelopeSegmentsLastTheirSamples : Obligations.EnvelopeSegmentsLastTheirSamples := by
  refine ⟨fun bits n e l r hs hl hr hr0 => ?_, fun bits n e l r u hs hl hr hu hr0 hn => ?_,
    fun bits n e l r hs hl hr hl0 hr0 => ?_, fun a n e h => ?_⟩
  · have hf := process_attack_reals (bits := bits) hs hr
    have hdone : ∀ x, 1 ≤ x → 1 ≤ x + r := fun x h => by linarith
    rw [← Envelope.atLevel_self hl]
    have hmoves {k : Nat} (h : k = 0 ∨ l + k * r < 1) := iterate_segment hf hdone (h.imp_right not_le.mpr)
    have harrives {k : Nat} (h : k = 0 ∨ l + k * r < 1) := iterate_segment_arrives hf (hmoves h)
    refine ⟨fun h => hmoves (.inr h), harrives, fun h0 => ?_⟩
    obtain ⟨k, hk⟩ := Nat.exists_eq_succ_of_ne_zero (Nat.ceil_pos.mpr (one_div_pos.mpr hr0)).ne'
    obtain ⟨hbefore, hreached⟩ := (Nat.ceil_eq_iff k.succ_ne_zero).mp hk
    rw [hk]
    rw [Nat.succ_sub_one, lt_div_iff₀ hr0] at hbefore
    rw [div_le_iff₀ hr0] at hreached
    push_cast at hreached
    exact harrives (.inr (by linarith)) (by linarith)
  · have hf := process_decay_reals (bits := bits) hs hr hu
    have hdone : ∀ x, x ≤ u → x + -r ≤ u := fun x h => by linarith
    have hlevel : l - n * r = l + n * -r := by ring
    rw [hlevel, ← Envelope.atLevel_self hl]
    exact ⟨fun h => iterate_segment hf hdone (.inr (not_le.mpr h)),
      iterate_segment_rests hf hdone (process_at_rest _ (.inl rfl)) hn⟩
  · have hf := process_release_reals (bits := bits) hs hr
    have hdone : ∀ x, x ≤ 0 → x + -r ≤ 0 := fun x h => by linarith
    have hlevel : l - n * r = l + n * -r := by ring
    rw [hlevel, ← Envelope.atLevel_self hl]
    refine ⟨fun h => iterate_segment hf hdone (.inr (by linarith)), fun h => ?_⟩
    have hn : 1 ≤ n := Nat.one_le_iff_ne_zero.mpr fun h0 => by
      rw [h0, Nat.cast_zero, zero_mul] at h
      linarith
    exact iterate_segment_rests hf hdone (process_at_rest _ (.inr rfl)) hn (by linarith)
  · exact ⟨process_at_rest a h, Function.iterate_fixed (process_at_rest a h) n⟩

/-- Settles O52: softClip is an odd, strictly increasing curve at an argument held to [−3, 3], and the curve at 3 is 1. -/
theorem softClipIsOddBoundedAndMonotonic : Obligations.SoftClipIsOddBoundedAndMonotonic := by
  intro bits
  refine ⟨fun x => clipCurve (clamp x (-3) 3), softClip_reals bits, fun x y => ?_⟩
  have habs : |clipCurve (clamp x (-3) 3)| = clipCurve (min |x| 3) := by rw [abs_clipCurve, clamp_abs_symm (by norm_num)]
  refine ⟨?_, ?_, ?_, fun h => ?_, fun h => ?_⟩
  · exact (congrArg clipCurve (clamp_neg_symm (by norm_num) x)).trans (clipCurve_neg _)
  · rw [habs, ← clipCurve_three]
    exact clipCurve_strictMono.monotone (min_le_right _ _)
  · rw [habs, ← clipCurve_three, clipCurve_strictMono.injective.eq_iff, min_eq_right_iff]
  · exact clipCurve_strictMono.monotone (clamp_mono (by norm_num) h)
  · obtain ⟨hlow, hhigh⟩ := abs_le.mp h
    simp only [clamp, if_neg hlow.not_gt, if_neg hhigh.not_gt, clipCurve]

/-- Settles O53: the coefficients are the cookbook's, of an `alpha` that is not negative and, at an admitted rate, of a
positive one and a cosine below 1 in magnitude. -/
theorem filterEquationAndDcGains : Obligations.FilterEquationAndDcGains := by
  refine ⟨fun bits fs cutoff q f => ?_, fun bits fs type cutoff q f hbits hfs hfs32 => ?_, ?_⟩
  · intro a hsin lp hp bp
    obtain ⟨s, hs, -⟩ := Arith.sin_reals_error bits (clamp cutoff 20 18000 / fs)
    obtain ⟨c, hc, -⟩ := Arith.cos_reals_error bits (clamp cutoff 20 18000 / fs)
    rw [hs, RealNum.le_fin, decide_eq_true_eq] at hsin
    have hnumerator (type : Byte) := configure_numerator_sum (q := q) hs hc rfl type f
    have hdenominator := configure_denominator_sum hs hc rfl 0 f (div_nonneg hsin (quality_pos q).le)
    exact ⟨(hnumerator 0).trans hdenominator.symm, (hnumerator 1).trans (congrArg RealNum.fin (zero_div _)),
      (hnumerator 2).trans (congrArg RealNum.fin (zero_div _))⟩
  · obtain ⟨s, c, hs, hc, hs0, hc1⟩ := filterAngle_values hbits hfs hfs32 cutoff
    have halpha := div_pos hs0 (quality_pos q)
    obtain ⟨ha2, ha1⟩ := poles_inside halpha hc1
    obtain ⟨n0, n1, n2, hsum, hf⟩ := configure_reals hs hc rfl type f
    refine ⟨by rw [hs, RealNum.le_fin]; exact decide_eq_true hs0.le, _, _, _, _, _, hf, ha2, ha1, ?_⟩
    have hdc : 0 < 2 - 2 * c := by linarith [(abs_lt.mp hc1).2]
    rw [denominator_sum halpha.le, ← add_div, ← add_div, hsum, div_div_div_cancel_right₀ (by positivity), ite_div, zero_div, div_self hdc.ne']
  · rintro bits f x0 x1 x2 b0 b1 b2 a1 a2 z1 z2 configured rfl a f1 f2
    refine ⟨_, _, rfl, rfl, ?_⟩
    show RealNum.fin (b0 * x2 + (b1 * x1 - a1 * _ + (b2 * x0 - a2 * _))) = _
    congr 1
    ring

/-- Settles O54: the recurrence is the definition's, and the constant's decay follows by induction on the samples. -/
theorem dcBlockerRemovesAConstant : Obligations.DcBlockerRemovesAConstant := by
  rintro bits d x c xPrev yPrev n rfl
  exact ⟨dc_output_reals bits x xPrev yPrev, rfl, dc_output_constant bits c n⟩

/-- Settles O50: each operation is its one-line rule; the test of noteOff and of active is whether the state is Off. -/
theorem envelopeGatesAndFilterResets : Obligations.EnvelopeGatesAndFilterResets := by
  refine ⟨fun _ => rfl, fun e => ?_, fun e => ?_, fun _ => rfl, fun _ => rfl⟩
  · rw [Envelope.noteOff, ite_not]
  · rw [Envelope.active, decide_eq_true_eq]

end Sys2Proof
end

section
/-! PROOFS. The percussion bank (41_percussion.md): what a hit does to every part of the bank, and that in exact arithmetic
every triggered part falls silent, whatever the noise and the other parts of its frames. -/

namespace Sys2Proof
open Machine

/-! ## The power of R510 in the reals -/

/-- The power lies strictly between 0 and 1, whatever its operands (41_percussion.md R525). -/
theorem realPower_bounds (bits : Nat) (b e : Rat) : 0 < realPower bits b e ∧ realPower bits b e < 1 := by
  set g := bits + (-leadingExponent e).toNat + 1 with hg
  have hpos : 0 < pow2 (-(g : Int)) := by rw [pow2_eq]; positivity
  have hhalf : pow2 (-(g : Int)) ≤ 1 / 2 := by
    rw [pow2_eq, one_div, ← zpow_neg_one]
    exact zpow_le_zpow_right₀ one_le_two (by omega)
  obtain ⟨hlow, hhigh⟩ := clamp_bounds (lo := pow2 (-(g : Int))) (hi := 1 - pow2 (-(g : Int))) (by linarith)
    (roundToGrid g (powApprox (g + 8) b e))
  exact ⟨hpos.trans_le hlow, hhigh.trans_lt (by linarith)⟩

namespace Machine

/-- The coefficient of a decay over a positive number of samples lies strictly between 0 and 1. -/
theorem decayCoefficient_reals {c : Cfg} {bits : Nat} (hc : c.arith = .reals bits) (h0 : 0 < c.drumDecayThr)
    (h1 : c.drumDecayThr < 1) {x : Rat} (hx : 0 < x) :
    ∃ q, decayCoefficient c (.fin x) = .fin q ∧ 0 < q ∧ q < 1 := by
  have hexp : 1 / x ≠ 0 := (one_div_pos.mpr hx).ne'
  refine ⟨realPower bits c.drumDecayThr (1 / x), ?_, realPower_bounds bits _ _⟩
  rw [decayCoefficient, hc, Arith.near_reals, Arith.div_reals, Arith.pow, Arith.power, if_neg (not_or.mpr ⟨hexp, h1.ne⟩), if_neg h0.ne']

/-! ## The level of a velocity (R510) -/

/-- A legal velocity is not clamped. -/
theorem drumLevel_legal (c : Cfg) {vel : Byte} (h : legalVelocity vel = true) :
    drumLevel c vel = (c.arith.const c.drumVelFloor).max (c.arith.div (.fin (vel.toNat : Nat)) (.fin 127)) := by
  have hlt : vel.toNat < 0x80 := of_decide_eq_true h
  rw [drumLevel, clampNat, if_neg (Nat.not_lt_zero _), if_neg (by omega)]

theorem drumLevel_reals {c : Cfg} {bits : Nat} (hc : c.arith = .reals bits) (vel : Byte) :
    ∃ v, drumLevel c vel = .fin v ∧ 0 ≤ v := by
  have hquot : 0 ≤ ((clampNat vel.toNat 0 127 : Nat) : Rat) / 127 := by positivity
  refine ⟨max c.drumVelFloor _, ?_, le_max_of_le_right hquot⟩
  rw [drumLevel, hc, Arith.const_reals, Arith.div_reals, RealNum.max_fin]

/-! ## DRUM_HIT (R510, R511) -/

/-- What a hit makes of each part: the trigger, the choke of the open hat by the closed hat, or nothing. -/
theorem hitDrums_getElem? (c : Cfg) (fs : Nat) (r : Recipe) (m : Kit) (p : Nat) (vel : Byte) (ds : List Drum) (i : Nat) :
    (hitDrums c fs r m p vel ds)[i]? = ds[i]?.map fun d =>
      if i = p then d.trigger c fs r m vel else if p = closedHat ∧ i = openHat then d.choke c else d := by
  unfold hitDrums
  by_cases hp : p = closedHat
  · subst hp
    rw [if_pos rfl, List.getElem?_modify, List.getElem?_modify]
    rcases eq_or_ne i closedHat with rfl | hi
    · simp [closedHat, openHat]
    · rcases eq_or_ne i openHat with rfl | ho
      · simp [closedHat, openHat]
      · simp [hi, ho, hi.symm, ho.symm]
  · rw [if_neg hp, List.getElem?_modify]
    simp [hp, eq_comm]

/-- With its operands legal and everything it reads in place, DRUM_HIT changes the bank alone. -/
theorem execCmdDrumHit_next {part vel : Byte} {s : State} {r : Recipe} {m : Kit} (hp : legalPart part = true)
    (hv : legalVelocity vel = true) (ht : s.snapshot.taken = true) (hs : s.life.started = true) (hd : s.drums.length = 8)
    (hr : s.cfg.recipes[part.toNat]? = some r) (hm : s.cfg.kits[s.snapshot.params.drumKit.toNat]? = some m) :
    execCmdDrumHit part vel s = .next { s with drums := hitDrums s.cfg s.life.fs r m part.toNat vel s.drums } := by
  have hpart : part.toNat < 8 := of_decide_eq_true hp
  have hin : part.toNat < s.drums.length ∧ (part.toNat = closedHat → openHat < s.drums.length) := by
    rw [hd]; exact ⟨hpart, fun _ => by decide⟩
  simp only [execCmdDrumHit, tableRow, hp, hv, ht, hs, hr, hm, if_pos hin, finish, bind, Except.bind, Bool.and_self, Bool.not_true,
    Bool.false_eq_true, if_false]

/-! ## The envelope of a part over its frames (R520, R521, R523) -/

/-- An inactive part is left as it is. -/
theorem renderDrum_inactive {d : Drum} (h : d.active = false) (c : Cfg) (fs : Nat) (r : Recipe) (acc : DrumFrame) :
    (renderDrum c fs r d acc).1 = d := by
  rw [renderDrum, h]; rfl

/-- An active part has its filter memories moved, its envelope advanced and its level tested. -/
theorem renderDrum_active {d : Drum} (h : d.active = true) (c : Cfg) (fs : Nat) (r : Recipe) (acc : DrumFrame) :
    ∃ hp lp, (renderDrum c fs r d acc).1 = (({ d with hpState := hp, lpState := lp } : Drum).advance c.arith fs).settle c.arith := by
  rw [renderDrum, if_pos h]
  exact ⟨_, _, rfl⟩

/-- The part is past its attack, at level `l` with decay coefficient `q`. -/
structure Drum.Decays (d : Drum) (l q : Rat) : Prop where
  attacking : d.attacking = false
  level : d.envLevel = .fin l
  coef : d.decayCoef = .fin q

/-- The part attacks from level `l` towards `v` at rate `r`, and will decay with coefficient `q`. -/
structure Drum.Rises (d : Drum) (l v r q : Rat) : Prop where
  attacking : d.attacking = true
  level : d.envLevel = .fin l
  target : d.envTarget = .fin v
  rate : d.attackRate = .fin r
  coef : d.decayCoef = .fin q

section
variable {c : Cfg} {bits fs : Nat} {r : Recipe} {d : Drum} {l v rate q : Rat} (hc : c.arith = .reals bits) (ha : d.active = true)
  (acc : DrumFrame)
include hc ha

/-- A frame of a decaying part multiplies its level, and cuts the part below the threshold. -/
theorem renderDrum_decays (h : d.Decays l q) : (renderDrum c fs r d acc).1.Decays (l * q) q ∧
    (l * q < drumCutThreshold → (renderDrum c fs r d acc).1.active = false) := by
  obtain ⟨hp, lp, he⟩ := renderDrum_active ha c fs r acc
  obtain ⟨hatt, hl, hq⟩ := h
  rw [he, settle_eq, hc]
  refine ⟨⟨?_, ?_, hq⟩, fun hcut => ?_⟩
  · simp [Drum.advance, hatt]
  · simp [Drum.advance, hatt, hl, hq]
  · simp [Drum.advance, hatt, hl, hq, hcut]

/-- A frame that leaves the level below the target adds the rate. -/
theorem renderDrum_rises (h : d.Rises l v rate q) (hlt : l + rate < v) : (renderDrum c fs r d acc).1.Rises (l + rate) v rate q := by
  obtain ⟨hp, lp, he⟩ := renderDrum_active ha c fs r acc
  obtain ⟨hatt, hl, hv, hr, hq⟩ := h
  rw [he, settle_eq, hc]
  refine ⟨?_, ?_, hv, hr, hq⟩
  · simp [Drum.advance, hatt, hl, hv, hr, hlt]
  · simp [Drum.advance, hatt, hl, hv, hr, hlt]

/-- The frame that reaches the target stops there and ends the attack. -/
theorem renderDrum_reaches (h : d.Rises l v rate q) (hle : v ≤ l + rate) : (renderDrum c fs r d acc).1.Decays v q := by
  obtain ⟨hp, lp, he⟩ := renderDrum_active ha c fs r acc
  obtain ⟨hatt, hl, hv, hr, hq⟩ := h
  rw [he, settle_eq, hc]
  refine ⟨?_, ?_, hq⟩
  · simp [Drum.advance, hl, hv, hr, hle]
  · simp [Drum.advance, hatt, hl, hv, hr, hle]

end

/-! ## Parts that end (R525) -/

/-- However its frames find the noise and the accumulator, the part falls silent. -/
inductive Drum.Ends (c : Cfg) (fs : Nat) (r : Recipe) : Drum → Prop
  | silent {d : Drum} (h : d.active = false) : Ends c fs r d
  | frame {d : Drum} (h : ∀ acc, Ends c fs r (renderDrum c fs r d acc).1) : Ends c fs r d

/-- A part ends if, were it active, it would end from its next frame. -/
theorem Drum.Ends.of_active {c : Cfg} {fs : Nat} {r : Recipe} {d : Drum}
    (h : d.active = true → ∀ acc, (renderDrum c fs r d acc).1.Ends c fs r) : d.Ends c fs r := by
  cases ha : d.active with
  | false => exact .silent ha
  | true => exact .frame (h ha)

/-- Any sequence of frames of a part that ends comes to an inactive part. -/
theorem Drum.Ends.exists_inactive {c : Cfg} {fs : Nat} {r : Recipe} {d : Drum} (h : d.Ends c fs r) {part : Nat → Drum}
    {acc : Nat → DrumFrame} (h0 : part 0 = d) (hstep : ∀ k, part (k + 1) = (renderDrum c fs r (part k) (acc k)).1) :
    ∃ n, (part n).active = false := by
  induction h generalizing part acc with
  | silent h => exact ⟨0, h0 ▸ h⟩
  | frame _ ih =>
    obtain ⟨n, hn⟩ := ih (acc 0) (part := fun k => part (k + 1)) (h0 ▸ hstep 0) fun k => hstep (k + 1)
    exact ⟨n + 1, hn⟩

/-- An inactive part stays inactive. -/
theorem inactive_stays {c : Cfg} {fs : Nat} {r : Recipe} {part : Nat → Drum} {acc : Nat → DrumFrame}
    (hstep : ∀ k, part (k + 1) = (renderDrum c fs r (part k) (acc k)).1) {n k : Nat} (hn : (part n).active = false) (hk : n ≤ k) :
    (part k).active = false := by
  induction k, hk using Nat.le_induction with
  | base => exact hn
  | succ k _ ih => rwa [hstep, renderDrum_inactive ih]

section
variable {c : Cfg} {bits fs : Nat} {r : Recipe} {d : Drum} {l v rate q : Rat} (hc : c.arith = .reals bits)
include hc

/-- A decay whose level comes below the threshold ends. -/
theorem Drum.Decays.ends_of_lt (n : Nat) (h : d.Decays l q) (hn : l * q ^ (n + 1) < drumCutThreshold) : d.Ends c fs r := by
  induction n generalizing d l with
  | zero => exact .of_active fun ha acc => .silent ((renderDrum_decays hc ha acc h).2 (by simpa using hn))
  | succ n ih => exact .of_active fun ha acc => ih (renderDrum_decays hc ha acc h).1 (by rwa [mul_assoc, ← pow_succ'])

/-- A decay from any level ends, its coefficient being below 1. -/
theorem Drum.Decays.ends (h : d.Decays l q) (hl : 0 ≤ l) (hq0 : 0 ≤ q) (hq1 : q < 1) : d.Ends c fs r := by
  have hthr : 0 < drumCutThreshold := by unfold drumCutThreshold; norm_num
  have hl1 : 0 < l + 1 := by linarith
  obtain ⟨n, hn⟩ := exists_pow_lt_of_lt_one (div_pos hthr hl1) hq1
  refine h.ends_of_lt hc n ?_
  calc l * q ^ (n + 1) ≤ (l + 1) * q ^ n :=
        mul_le_mul (by linarith) (pow_le_pow_of_le_one hq0 hq1.le n.le_succ) (pow_nonneg hq0 _) hl1.le
    _ < drumCutThreshold := (lt_div_iff₀' hl1).mp hn

/-- An attack that reaches its target within `n + 1` frames turns into a decay from there, which ends. -/
theorem Drum.Rises.ends (n : Nat) (h : d.Rises l v rate q) (hn : v ≤ l + (n + 1) * rate) (hv : 0 ≤ v) (hq0 : 0 ≤ q) (hq1 : q < 1) :
    d.Ends c fs r := by
  induction n generalizing d l with
  | zero => exact .of_active fun ha acc => (renderDrum_reaches hc ha acc h (by simpa using hn)).ends hc hv hq0 hq1
  | succ n ih =>
    refine .of_active fun ha acc => ?_
    rcases lt_or_ge (l + rate) v with hlt | hle
    · exact ih (renderDrum_rises hc ha acc h hlt) (by push_cast at hn; linarith)
    · exact (renderDrum_reaches hc ha acc h hle).ends hc hv hq0 hq1

end

/-- In the reals a trigger starts a decay in the legacy variant, and otherwise an attack whose rate reaches the target after
`samples` frames; the coefficient lies strictly between 0 and 1. -/
theorem trigger_reals {c : Cfg} {bits fs : Nat} {r : Recipe} {m : Kit} (hc : c.arith = .reals bits) (hwf : c.drumsWf) (hr : r.wf)
    (hm : m.wf) (hfs : 0 < fs) (vel : Byte) (d : Drum) : ∃ v q samples : Rat, 0 ≤ v ∧ 0 < q ∧ q < 1 ∧ 1 ≤ samples ∧
      ((d.trigger c fs r m vel).Decays v q ∨ (d.trigger c fs r m vel).Rises 0 v (v / samples) q) := by
  obtain ⟨-, -, -, -, -, -, ⟨hthr0, hthr1⟩, -⟩ := hwf
  obtain ⟨-, -, -, -, -, hdecay, -⟩ := hr
  obtain ⟨hmul, -⟩ := hm
  have hpos : 0 < r.decayS * m.decayMul * fs := by positivity
  obtain ⟨v, hv, hv0⟩ := drumLevel_reals hc vel
  obtain ⟨q, hq, hq0, hq1⟩ := decayCoefficient_reals hc hthr0 hthr1 hpos
  have hcoef : (d.trigger c fs r m vel).decayCoef = .fin q := by simp [Drum.trigger, hc, hq]
  refine ⟨v, q, max 1 (r.attackS * m.attackMul * fs), hv0, hq0, hq1, le_max_left _ _, ?_⟩
  cases hleg : c.drumLegacyDecay with
  | true => exact .inl ⟨by simp [Drum.trigger, hleg], by simp [Drum.trigger, hleg, hv], hcoef⟩
  | false => exact .inr ⟨by simp [Drum.trigger, hleg], by simp [Drum.trigger, hleg], hv, by simp [Drum.trigger, hleg, hc, hv], hcoef⟩

/-- A triggered part ends, from its decay or from its attack. -/
theorem trigger_ends {c : Cfg} {bits fs : Nat} {r : Recipe} {m : Kit} (hc : c.arith = .reals bits) (hwf : c.drumsWf) (hr : r.wf)
    (hm : m.wf) (hfs : 0 < fs) (vel : Byte) (d : Drum) : (d.trigger c fs r m vel).Ends c fs r := by
  obtain ⟨v, q, samples, hv, hq0, hq1, hone, h | h⟩ := trigger_reals hc hwf hr hm hfs vel d
  · exact h.ends hc hv hq0.le hq1
  · have hpos : 0 < samples := one_pos.trans_le hone
    obtain ⟨n, hn⟩ := exists_nat_ge samples
    refine h.ends hc n ?_ hv hq0.le hq1
    calc v = samples * (v / samples) := (mul_div_cancel₀ v hpos.ne').symm
      _ ≤ (n + 1) * (v / samples) := mul_le_mul_of_nonneg_right (by linarith) (by positivity)
      _ = 0 + (n + 1) * (v / samples) := (zero_add _).symm

end Machine

/-- Settles O29: the command changes the bank alone, and each part of the bank by what `hitDrums` makes of it. -/
theorem drumHitInitialisesItsPart : Obligations.DrumHitInitialisesItsPart := by
  intro part vel s r m hp hv ht hs hd hr hm a rate v
  refine ⟨_, execCmdDrumHit_next hp hv ht hs hd hr hm, (hitDrums_length ..).trans hd, fun p d hne hi => ?_, fun d hi => ?_⟩
  · have hpart : part.toNat = closedHat ↔ part = 2 := BitVec.toNat_inj (y := 2)
    rw [hitDrums_getElem?, hi, Option.map_some, if_neg hne]
    exact congrArg some (if_congr (and_congr_left' hpart) rfl rfl)
  · rw [hitDrums_getElem?, hi, Option.map_some, if_pos rfl, Drum.trigger, drumLevel_legal s.cfg hv]
    rfl

/-- Settles O60: the trigger ends, a sequence of its frames comes to an inactive part, and that part stays inactive. -/
theorem triggeredPartsEnd : Obligations.TriggeredPartsEnd := by
  intro c fs r m vel d part acc hwf hc hr hm hfs _ h0 hstep
  obtain ⟨bits, hc⟩ := Arith.eq_reals hc
  obtain ⟨-, hdrums, -⟩ := hwf
  have hends := trigger_ends hc hdrums hr hm ((Nat.zero_le _).trans_lt hfs) vel d
  obtain ⟨n, hn⟩ := hends.exists_inactive h0 hstep
  exact ⟨n, fun k hk => inactive_stays hstep hn hk⟩

end Sys2Proof
end

section
/-! PROOFS. The voice pool and the sound sources (42_voice_pool.md, 41_percussion.md): which voice a NOTE_ON takes and what
it makes of the pool, what the release commands do to each voice, and what one frame of a voice and of a part gives. -/

namespace Sys2Proof.Machine

/-! ## Which voice a NOTE_ON takes (R610, R611) -/

/-- Poly allocation takes the first inactive voice of the window or, all of it being active, the first of least age. -/
theorem allocatePoly_spec {w i : Nat} {vs : List Voice} (h : allocatePoly w vs = some i) :
    ∃ v, vs[i]? = some v ∧
      ((v.active = false ∧ ∀ (j : Nat) (u : Voice), j < i → vs[j]? = some u → u.active = true) ∨
       ∀ (j : Nat) (u : Voice), j < w → vs[j]? = some u → u.active = true ∧ v.age ≤ u.age ∧ (u.age = v.age → i ≤ j)) := by
  have hwin {j : Nat} (hj : j < w) : (vs.take w)[j]? = vs[j]? := List.getElem?_take_of_lt hj
  obtain ⟨hiw, hil⟩ := allocatePoly_lt h
  unfold allocatePoly at h
  split at h
  case h_1 k hfree =>
    cases h
    obtain ⟨_, hinactive, hbefore⟩ := List.findIdx?_eq_some_iff_getElem.mp hfree
    refine ⟨vs[i], List.getElem?_eq_getElem hil, .inl ⟨by simpa using hinactive, fun j u hj hu => ?_⟩⟩
    obtain ⟨hjl, rfl⟩ := List.getElem?_eq_some_iff.mp hu
    simpa using hbefore j hj
  case h_2 hnone =>
    obtain ⟨⟨k, age⟩, hold, hk⟩ := Option.map_eq_some_iff.mp h
    cases hk
    obtain ⟨v, -, hv, rfl, hleast⟩ := oldestFrom_spec hold
    rw [Nat.sub_zero, hwin hiw] at hv
    refine ⟨v, hv, .inr fun j u hj hu => ?_⟩
    rw [← hwin hj] at hu
    have hactive := List.findIdx?_eq_none_iff.mp hnone u (List.mem_of_getElem? hu)
    exact ⟨by simpa using hactive, by simpa using hleast j u hu⟩

/-- NOTE_ON with legal operands changes the pool alone, at the voice that allocation finds. -/
theorem execCmdNoteOn_next {note vel : Byte} {s : State} {i : Nat} (hn : legalNote note = true) (hv : legalVelocity vel = true)
    (ht : s.snapshot.taken = true) (hi : allocate s.snapshot.params s.pool.voices = some i) (hlt : i < s.pool.voices.length) :
    execCmdNoteOn note vel s = .next { s with pool := s.pool.noteOn s.cfg.arith s.snapshot.params.mono note vel i } := by
  simp only [execCmdNoteOn, hn, hv, ht, hi, hlt, Bool.and_self, Bool.not_true, Bool.false_eq_true, if_false, if_true]

/-- In poly mode only the taken voice changes (R610). -/
theorem noteOn_poly (a : Arith) (note vel : Byte) {i : Nat} {p : Pool} {v : Voice} (h : p.voices[i]? = some v) :
    p.noteOn a false note vel i =
      { voices := p.voices.set i (v.strike a note vel (p.ageCounter + 1)), ageCounter := p.ageCounter + 1 } := by
  rw [Pool.noteOn, List.modify_eq_set_getElem? _ i, h]
  rfl

/-- In mono mode voice 0 is taken and every other voice is cut (R612). -/
theorem noteOn_mono (a : Arith) (note vel : Byte) {p : Pool} {v : Voice} {vs : List Voice} (h : p.voices = v :: vs) :
    p.noteOn a true note vel 0 =
      { voices := v.strike a note vel (p.ageCounter + 1) :: vs.map Voice.deactivate, ageCounter := p.ageCounter + 1 } := by
  rw [Pool.noteOn, h]
  rfl

/-! ## The releases (R630, R631) -/

/-- The gate's end sets Release unless the state is Off (R432). -/
theorem noteOff_eq (e : Envelope) : e.noteOff = if e.state ≠ .off then { e with state := .release } else e :=
  (ite_not ..).symm

/-- NOTE_OFF releases an active voice on its note (R630). -/
theorem release_eq (note : Byte) (v : Voice) : v.release note =
    if v.active = true ∧ v.note = note then
      { v with env := if v.env.state ≠ .off then { v.env with state := .release } else v.env }
    else v := by
  simp only [Voice.release, Bool.and_eq_true, beq_iff_eq, noteOff_eq]

/-- ALL_NOTES_OFF releases an active voice (R631). -/
theorem releaseAny_eq (v : Voice) : v.releaseAny =
    if v.active = true then { v with env := if v.env.state ≠ .off then { v.env with state := .release } else v.env } else v := by
  rw [Voice.releaseAny, noteOff_eq]

/-! ## The waves in the reals (R621 to R625) -/

/-- The magnitude that the triangle takes by the sign of its operand. -/
theorem magnitude_fin (q : Rat) : (if (RealNum.fin q).isNeg then (RealNum.fin q).neg else .fin q) = .fin |q| := by
  rcases lt_or_ge q 0 with h | h
  · rw [RealNum.isNeg_fin, if_pos (decide_eq_true h), RealNum.neg_fin, abs_of_neg h]
  · rw [RealNum.isNeg_fin, if_neg (by simpa using h), abs_of_nonneg h]

section
variable (bits : Nat)

theorem wave_saw_reals (p : Rat) : wave (.reals bits) 0 (.fin p) = .fin (2 * p - 1) := rfl

theorem wave_square_reals (p : Rat) : wave (.reals bits) 1 (.fin p) = .fin (if p < 1 / 2 then 1 else -1) := by
  rw [apply_ite RealNum.fin]
  exact if_congr decide_eq_true_iff rfl rfl

theorem wave_triangle_reals (p : Rat) : wave (.reals bits) 2 (.fin p) = .fin (1 - 4 * |p - 1 / 2|) :=
  congrArg (fun m => (Arith.reals bits).sub (.fin 1) ((Arith.reals bits).mul (.fin 4) m)) (magnitude_fin (p - 1 / 2))

/-- The three waves that are not the sine stay in [−1, 1] over a period. -/
theorem wave_between {p : Rat} (h0 : 0 ≤ p) (h1 : p < 1) {code : Byte} (hc : code.toNat ≤ 2) :
    RealNum.between (-1) 1 (wave (.reals bits) code (.fin p)) = true := by
  obtain rfl | rfl | rfl : code = 0 ∨ code = 1 ∨ code = 2 := by bv_omega
  · rw [wave_saw_reals, between_fin]
    constructor <;> linarith
  · rw [wave_square_reals, between_fin]
    split <;> norm_num
  · rw [wave_triangle_reals, between_fin]
    have habs : |p - 1 / 2| ≤ 1 / 2 := abs_le.mpr ⟨by linarith, by linarith⟩
    constructor <;> linarith [abs_nonneg (p - 1 / 2)]

end

/-- The constant `2π` of binary32 is one rounded number, whatever it multiplies. -/
theorem twoPi_constant : ∃ q : Rat, |(q : ℝ) - 2 * Real.pi| ≤ (1 / 2) ^ 160 ∧
    ∀ p : RealNum, Arith.binary32.twoPi p = Arith.binary32.mul (roundBinary32 q) p := by
  have hpi (w : Nat) : |((2 * piApprox (w + 1) : Rat) : ℝ) - 2 * Real.pi| ≤ (1 / 2) ^ w := by
    have h := piApprox_error (w + 1)
    push_cast
    rw [← mul_sub, abs_mul, abs_two]
    rw [pow_succ] at h
    linarith
  obtain ⟨q, hq, herr⟩ := Arith.irrational_error .binary32 hpi
  exact ⟨q, herr, fun p => congrArg (Arith.binary32.mul · p) hq⟩

/-! ## One frame of a part (R520 to R524) -/

/-- What an active part gives and becomes: its memories move, its envelope advances and settles, its sample is panned. -/
theorem renderDrum_eq (c : Cfg) (fs : Nat) (r : Recipe) {d : Drum} (acc : DrumFrame) (h : d.active = true) :
    renderDrum c fs r d acc =
      let n := noiseNext acc.noise
      let x := d.sample c r (noiseValue c.arith n)
      let y := x.1.advance c.arith fs
      ({ y with active := y.attacking || !y.envLevel.lt (c.arith.const drumCutThreshold) },
        { acc with
          noise := n
          left := c.arith.add acc.left (c.arith.mul (panGains c d.pan).1 x.2)
          right := c.arith.add acc.right (c.arith.mul (panGains c d.pan).2 x.2) }) := by
  have hactive : ∀ n, ((d.sample c r n).1.advance c.arith fs).active = true := fun _ => h
  simp only [renderDrum, h, if_true, settle_eq, hactive, Bool.true_and]

/-- The build's own pan law, where a row lists the position (D49). -/
theorem panGains_table {c : Cfg} {rows : List PanRow} (h : c.panLaw = .table rows) (pan : RealNum) :
    panGains c pan = ((rows.find? fun row => c.arith.const row.pan == pan).map fun row =>
      (c.arith.const row.gainL, c.arith.const row.gainR)).getD (linearPan c.arith pan) := by
  rw [panGains, h]
  dsimp only
  split
  case h_1 hrow => rw [hrow]; rfl
  case h_2 hrow => rw [hrow]; rfl

/-! ## One frame of a voice (R640 to R642) -/

theorem retire_iff {c : Cfg} {e : Envelope} :
    retire c e = true ↔ e.state = .off ∨ (e.state = .release ∧ e.level.lt (c.arith.const c.retireEps) = true) := by
  unfold retire
  split <;> rename_i hs <;> simp [hs]

section
variable {c : Cfg} (fs : Nat) (p : Params) {v : Voice}

theorem sample_inactive (h : v.active = false) : v.sample c fs p = (v, none) := by
  rw [Voice.sample, h]
  rfl

theorem sample_retires (h : v.active = true) (hr : retire c (v.env.process c.arith) = true) :
    v.sample c fs p = ({ v with active := false, env := v.env.process c.arith }, none) := by
  simp only [Voice.sample, h, hr, Bool.not_true, Bool.false_eq_true, if_false, if_true, Voice.deactivate]

theorem sample_sounds (h : v.active = true) (hr : ¬ retire c (v.env.process c.arith) = true) :
    v.sample c fs p = (({ v with env := v.env.process c.arith } : Voice).advance c fs p.detune,
      some (({ v with env := v.env.process c.arith } : Voice).value c.arith p)) := by
  simp only [Voice.sample, h, hr, Bool.not_true, Bool.false_eq_true, if_false]

end

/-- In the reals a fraction that is a number lies in [0, 1) (R14). -/
theorem frac_unit {a : Arith} (ha : a ≠ .binary32) {x : RealNum} (h : (a.frac x).isFin = true) :
    ∃ q, a.frac x = .fin q ∧ 0 ≤ q ∧ q < 1 := by
  obtain ⟨bits, rfl⟩ := Arith.eq_reals ha
  cases x with
  | fin x => exact ⟨_, Arith.frac_reals bits x, Int.fract_nonneg x, Int.fract_lt_one x⟩
  | inf _ => cases h
  | nan => cases h

end Sys2Proof.Machine

namespace Sys2Proof
open Machine

/-- Settles O25: allocation finds a voice of the window, and NOTE_ON strikes it. -/
theorem noteOnTakesAFreeOrTheOldestVoice : Obligations.NoteOnTakesAFreeOrTheOldestVoice := by
  intro note vel s hn hvel ht hmono hone hwin
  obtain ⟨i, hi⟩ := Option.isSome_iff_exists.mp (allocatePoly_isSome hone (List.ne_nil_of_length_pos (hone.trans hwin)))
  obtain ⟨hiw, hil⟩ := allocatePoly_lt hi
  obtain ⟨v, hv, hchoice⟩ := allocatePoly_spec hi
  have halloc : allocate s.snapshot.params s.pool.voices = some i := by rw [allocate, hmono]; exact hi
  refine ⟨i, v, hiw, hv, hchoice, ?_⟩
  rw [exec, execCmdNoteOn_next hn hvel ht halloc hil, hmono, noteOn_poly _ _ _ hv]
  rfl

/-- Settles O26: mono allocation is voice 0, and the cut of the others is `Voice.deactivate`. -/
theorem noteOnInMonoTakesVoiceZero : Obligations.NoteOnInMonoTakesVoiceZero := by
  intro note vel s v vs hn hvel ht hmono hvs
  have halloc : allocate s.snapshot.params s.pool.voices = some 0 := by rw [allocate, hmono]; rfl
  have hpos : 0 < s.pool.voices.length := by rw [hvs]; exact Nat.succ_pos _
  rw [exec, execCmdNoteOn_next hn hvel ht halloc hpos, hmono, noteOn_mono _ _ _ hvs]
  rfl

/-- Settles O27: the release of one voice, and a record's decoding, which reads the primary alone. -/
theorem noteOffReleasesEveryMatch : Obligations.NoteOffReleasesEveryMatch := by
  refine ⟨fun note s hn => ?_, fun note secondary hn => if_pos hn⟩
  simp only [exec, execCmdNoteOff, hn, Bool.not_true, Bool.false_eq_true, if_false, funext (release_eq note)]

/-- Settles O28: each command maps one rule over its arena. -/
theorem allOffCommandsReleaseVoicesAndCutParts : Obligations.AllOffCommandsReleaseVoicesAndCutParts := by
  refine ⟨fun s => ?_, fun _ => rfl⟩
  simp only [exec, execCmdAllNotesOff, funext releaseAny_eq]

/-- Settles O55: the waves in the reals, the sine of either arithmetic, one part's frame, its pan gains and the bank. -/
theorem wavesAndPartsFollowTheirFormulas : Obligations.WavesAndPartsFollowTheirFormulas := by
  refine ⟨fun bits p m w1 w2 h0 h1 => ?_, fun bits p => Arith.sin_reals_error bits p, fun _ _ => rfl, ?_, fun c fs r d acc => ?_,
    fun c pan => ?_, fun c fs ds noise h => renderDrumsFrom_eq fs _ h⟩
  · exact ⟨wave_saw_reals bits p, wave_square_reals bits p, wave_triangle_reals bits p, fun _ => wave_between bits h0 h1, rfl⟩
  · exact twoPi_constant
  · refine ⟨fun h => ?_, fun h => ?_⟩
    · rw [renderDrum, h]; rfl
    · rw [renderDrum_eq c fs r acc h]
      cases hcym : r.cymbal with
      | true => simp only [Drum.sample, hcym, if_true]; rfl
      | false => simp only [Drum.sample, hcym, Bool.false_eq_true, if_false]; rfl
  · exact ⟨fun h => by rw [panGains, h]; rfl, fun rows h => panGains_table h pan⟩

/-- Settles O56: the envelope's advance decides between retiring and sounding; a phase that is a fraction lies in [0, 1). -/
theorem voiceFrameSoundsOrRetires : Obligations.VoiceFrameSoundsOrRetires := by
  intro c fs p v a rate e f1 cents f2 done
  refine ⟨sample_inactive fs p, fun h hdone => sample_retires fs p h (retire_iff.mpr hdone), fun h hdone => ?_⟩
  have hsounds := sample_sounds fs p h fun hr => hdone (retire_iff.mp hr)
  refine ⟨hsounds, fun ha hv => ?_⟩
  obtain ⟨⟨hphase1, hphase2, -⟩, -⟩ := voice_sample_numbers ha fs p hv
  rw [hsounds] at hphase1 hphase2 ⊢
  obtain ⟨x, hx, hx0, hx1⟩ := frac_unit ha hphase1
  obtain ⟨y, hy, hy0, hy1⟩ := frac_unit ha hphase2
  exact ⟨x, y, hx, hy, hx0, hx1, hy0, hy1⟩

end Sys2Proof
end

section
/-! PROOFS. The parameter store (43_parameter_store.md): what setParams publishes and refuses, what the preset operations
load and answer, and that every stored record stays in its ranges and under the feedback cap. -/

namespace Sys2Proof.Machine

/-! ## Clamps from 0 -/

/-- A clamp of a natural number from below at 0 is a minimum. -/
theorem clampNat_zero (x hi : Nat) : clampNat x 0 hi = min x hi := by
  unfold clampNat
  split_ifs <;> omega

theorem clampByte_zero (x : Byte) (hi : Nat) : clampByte x 0 hi = BitVec.ofNat 8 (max 0 (min x.toNat hi)) := by
  rw [clampByte, clampNat_zero, Nat.zero_max]

theorem presetSlot_eq (c : Cfg) (index : Word) : presetSlot c index = min index.toNat (c.presets.length - 1) :=
  clampNat_zero ..

/-! ## setParams (R702, R703) -/

/-- A value that is no number is a NaN or an infinity. -/
theorem isFin_eq_false_iff {x : RealNum} : x.isFin = false ↔ x = .nan ∨ ∃ negative, x = .inf negative := by
  cases x <;> simp [RealNum.isFin]

/-- A record of numbers passes the check of R702 unchanged. -/
@[simp] theorem finiteParams_fin (p : Params) : finiteParams (mapReals .fin p) = some p := if_pos rfl

theorem finiteParams_eq_none_iff {p : SynthParams RealNum} :
    finiteParams p = none ↔ ∃ x ∈ realFields p, x.isFin = false := by
  unfold finiteParams
  split
  · rename_i hall
    simpa using List.all_eq_true.mp hall
  · rename_i hall
    simpa using hall

/-- A record of numbers is sanitized and published. -/
theorem execSetParams_fin (p : Params) (s : State) : execSetParams (mapReals .fin p) s = .next (storeParams p s) := by
  rw [execSetParams, finiteParams_fin]

theorem execSetParams_refused_iff {p : SynthParams RealNum} {s : State} :
    execSetParams p s = .refused .nonFiniteParam ↔ finiteParams p = none := by
  unfold execSetParams
  cases finiteParams p <;> simp

/-- The record just published is the active one. -/
@[simp] theorem publish_active (st : Store) (p : Params) : (st.publish p).active = p := by
  unfold Store.publish
  split <;> rfl

/-! ## Presets (R705 to R708) -/

/-- loadPreset is setParams of the row of its clamped index, with that index. -/
theorem execLoadPreset_eq {s : State} (h : s.cfg.presets ≠ []) (index : Word) :
    ∃ p, s.cfg.presets[presetSlot s.cfg index]? = some p ∧
      execLoadPreset index s = .next (storeParams (presetRecord (presetSlot s.cfg index) p) s) := by
  obtain ⟨p, hp, hload⟩ := loadSlot_completes (presetSlot_lt (List.length_pos_iff.mpr h) index)
  exact ⟨p, hp, finish_next.mpr hload⟩

/-- resetPreset loads the preset the active record names. -/
theorem execResetPreset_eq (s : State) :
    execResetPreset s = execLoadPreset (BitVec.ofNat 32 s.store.active.presetIndex.toNat) s := by
  rw [execLoadPreset, BitVec.ofNat_toNat, execResetPreset]

/-! ## The ranges of what is stored (R710) -/

/-- The cross-field rule holds the feedback under its cap (R701). -/
theorem sanitize_capped (c : Cfg) (p : Params) : feedbackCapped c (sanitize c p) := by
  intro hmix
  show (if _ then _ else _) ≤ _
  split
  · exact le_rfl
  · rename_i hfree
    exact not_lt.mp fun hlt => hfree ⟨hlt, hmix⟩

/-- A record in range and capped. -/
abbrev storable (c : Cfg) (p : Params) : Prop := paramsInRange c p ∧ feedbackCapped c p

theorem sanitize_storable {c : Cfg} (h : c.wf) (p : Params) : storable c (sanitize c p) :=
  ⟨sanitize_inRange h p, sanitize_capped c p⟩

/-- What holds of both copies holds of the active one. -/
theorem active_of_both {P : Params → Prop} {st : Store} (h0 : P st.params0) (h1 : P st.params1) : P st.active := by
  unfold Store.active
  split
  · exact h0
  · exact h1

/-- What holds of both copies and of a record holds of both copies once the record is published. -/
theorem publish_both {P : Params → Prop} {st : Store} {p : Params} (h0 : P st.params0) (h1 : P st.params1) (hp : P p) :
    P (st.publish p).params0 ∧ P (st.publish p).params1 := by
  unfold Store.publish
  split
  · exact ⟨h0, hp⟩
  · exact ⟨hp, h1⟩

/-! ## Who writes the store (10_state.md R105) -/

/-- The store of `t` is that of `s`, or a sanitized record has been published in it. -/
def StoreStep (s t : State) : Prop := t.store = s.store ∨ ∃ p, t.store = s.store.publish (sanitize s.cfg p)

theorem StoreStep.publishes (p : Params) (s : State) : StoreStep s (storeParams p s) := .inr ⟨p, rfl⟩

theorem push_store {r : Record} {s t : State} {b : Bool} (h : push r s = .ok (t, b)) : t.store = s.store := by
  rw [(push_frame h).1]

theorem playNote_store {note vel : Byte} {gate : Word} {s t : State} (h : playNote note vel gate s = .ok t) : t.store = s.store := by
  rw [playNote_frame h]

theorem playChord_store {notes rest : List Byte} {ms : Word} {s t : State} (h : playChord notes ms s = .ok (t, rest)) :
    t.store = s.store := by
  rcases playChord_cases h with ⟨-, -, rfl⟩ | ⟨n, -, hp⟩
  · rfl
  · exact playNote_store hp

theorem loadSlot_storeStep {i : Nat} {s t : State} (h : loadSlot i s = .ok t) : StoreStep s t := by
  obtain ⟨p, -, rfl⟩ := loadSlot_ok h
  exact .publishes _ s

theorem execStart_store {k : SinkConfig} {rate size : Word} {s t : State} (h : execStart k rate size s = .next t) :
    t.store = s.store := by
  rcases execStart_cases h with ⟨-, rfl⟩ | ⟨-, -, -, ⟨-, rfl⟩ | ⟨-, rfl⟩⟩ <;> rfl

theorem execStop_store {s t : State} (h : execStop s = .next t) : t.store = s.store := by
  unfold execStop at h
  split at h <;> cases h <;> rfl

/-- setParams, loadPreset and resetPreset publish; no other instruction touches the store. -/
theorem exec_storeStep {i : Instr} {s t : State} (h : exec i s = .next t) : StoreStep s t := by
  cases i with
  | setParams p => obtain ⟨q, -, rfl⟩ := execSetParams_ok h; exact .publishes q s
  | loadPreset index => exact loadSlot_storeStep (finish_next.mp h)
  | resetPreset => exact loadSlot_storeStep (finish_next.mp h)
  | cmdNoteOn _ _ | cmdNoteOff _ | cmdAllNotesOff | cmdDrumHit _ _ | cmdAllDrumsOff =>
    rw [exec_command_frame rfl h]; exact .inl rfl
  | start k rate size => exact .inl (execStart_store h)
  | stop => exact .inl (execStop_store h)
  | running | fadeIn _ | fadeOut _ | setDrumsEnabled _ | getParams | consumeUnderruns | getPerfSnapshot => cases h; exact .inl rfl
  | presetName index => obtain ⟨r, rfl⟩ := execPresetName_ok h; exact .inl rfl
  | presetDefaults index => obtain ⟨r, rfl⟩ := execPresetDefaults_ok h; exact .inl rfl
  | noteOn note vel gate => exact .inl (playNote_store (finish_next.mp h))
  | noteOff note =>
    rcases execNoteOff_ok h with ⟨-, rfl⟩ | ⟨-, s', b, hp, rfl⟩
    · exact .inl rfl
    · exact .inl (push_store hp :)
  | allNotesOff => obtain ⟨s', b, hp, rfl⟩ := execAllNotesOff_ok h; exact .inl (push_store hp :)
  | drumHit part vel =>
    rcases execDrumHit_ok h with ⟨-, rfl⟩ | ⟨-, b, hp⟩
    · exact .inl rfl
    · exact .inl (push_store hp)
  | allDrumsOff => obtain ⟨b, hp⟩ := execAllDrumsOff_ok h; exact .inl (push_store hp)
  | triggerTestChord ms => obtain ⟨s', rest, hp, rfl⟩ := execTriggerTestChord_ok h; exact .inl (playChord_store hp :)
  | service now => obtain ⟨es, s', hp, rfl⟩ := execService_ok h; rw [(serveEntries_ok hp).1]; exact .inl rfl

theorem stopAwaitStep_store (j : Nat) (s : State) : (stopAwaitStep j s).store = s.store := by
  unfold stopAwaitStep
  split
  · rfl
  · split <;> rfl

/-- No operation touches the store between its steps. -/
theorem resumeStep_store {j : Nat} {s t : State} (h : resumeStep j s = .ok t) : t.store = s.store := by
  rcases resumeStep_cases h with ⟨-, rfl⟩ | ⟨-, rfl⟩ | ⟨-, rfl⟩ | ⟨-, rfl⟩ | ⟨notes, ms, s', rest, -, hp, rfl⟩
  · rfl
  · rfl
  · exact stopAwaitStep_store j s
  · rw [tearDown_eq]; rfl
  · exact (playChord_store hp :)

theorem RenderEffect.store {s t : State} (h : RenderEffect s t) : t.store = s.store := by
  rw [h.keepsControlState]

theorem agentStep_storeStep {m : Move} {s t : State} (h : agentStep m s = .next t) : StoreStep s t := by
  cases m with
  | render => exact .inl (renderStep_effect h).store
  | resume j => exact .inl (resumeStep_store (finish_next.mp h))
  | call c => obtain ⟨i, -, hx⟩ := runFetched_next h; exact exec_storeStep hx

theorem step_storeStep {s t : State} (h : step s = .next t) : StoreStep s t := by
  rcases step_cases h with ⟨-, rfl⟩ | ⟨i, rest, -, hx⟩
  · exact .inl rfl
  · exact (agentStep_storeStep hx : StoreStep (s.take i rest) t)

/-- A step leaves the snapshot as it is, or copies the active record into it (20_memory.md R214). -/
theorem step_snapshot {s t : State} (h : step s = .next t) : t.snapshot = s.snapshot ∨ t.snapshot.params = s.store.active := by
  rcases step_cases h with ⟨-, rfl⟩ | ⟨⟨m, d⟩, rest, -, hx⟩
  · exact .inl rfl
  · by_cases hsnap : m = .render ∧ s.life.phase = .snap
    · obtain ⟨rfl, hphase⟩ := hsnap
      exact .inr (renderStep_snapshot (s := s.take ⟨.render, d⟩ rest) hphase hx)
    · exact .inl (agentStep_keepsParameters (s := s.take ⟨m, d⟩ rest) (fun hm hphase => hsnap ⟨hm, hphase⟩) hx).1

/-- Both copies stay in range and capped. -/
theorem step_keeps_storable {s t : State} (hc : s.cfg.wf) (h0 : storable s.cfg s.store.params0) (h1 : storable s.cfg s.store.params1)
    (h : step s = .next t) : storable s.cfg t.store.params0 ∧ storable s.cfg t.store.params1 := by
  rcases step_storeStep h with hst | ⟨p, hst⟩ <;> rw [hst]
  · exact ⟨h0, h1⟩
  · exact publish_both (P := storable s.cfg) h0 h1 (sanitize_storable hc p)

end Sys2Proof.Machine

namespace Sys2Proof
open Machine

/-- Settles O11: the store holds records that were there or sanitized ones, and the snapshot is kept or copied from it. -/
theorem stepKeepsParameterRanges : Obligations.StepKeepsParameterRanges := by
  intro s t hc ⟨hr0, hr1, hrs⟩ hc0 hc1 hcs h
  obtain ⟨⟨hr0', hc0'⟩, hr1', hc1'⟩ := step_keeps_storable hc ⟨hr0, hc0⟩ ⟨hr1, hc1⟩ h
  have hsnap : (t.snapshot.taken = true → paramsInRange s.cfg t.snapshot.params) ∧ feedbackCapped s.cfg t.snapshot.params := by
    rcases step_snapshot h with hkept | hcopied
    · rw [hkept]; exact ⟨hrs, hcs⟩
    · rw [hcopied]
      obtain ⟨hr, hcap⟩ := active_of_both (P := storable s.cfg) ⟨hr0, hc0⟩ ⟨hr1, hc1⟩
      exact ⟨fun _ => hr, hcap⟩
  rw [State.paramsOk, step_keeps_cfg h]
  exact ⟨⟨hr0', hr1', hsnap.1⟩, hc0', hc1', hsnap.2⟩

/-- Settles O45: the published record is `sanitize` written out, and the check of R702 looks at every Real field. -/
theorem setParamsPublishesTheClampedRecord : Obligations.SetParamsPublishesTheClampedRecord := by
  refine ⟨?_, fun p s => ?_⟩
  · rintro _ q s rfl a real byte feedback gain stored
    have hstored : sanitize s.cfg q = stored := by
      simp only [sanitize, crossField, clampFields, clampByte_zero]
      rfl
    rw [exec, execSetParams_fin, storeParams, hstored, Store.publish]
  · rw [exec, execSetParams_refused_iff, finiteParams_eq_none_iff]
    simp only [isFin_eq_false_iff]

/-- Settles O47: each operation reads the row of the clamped index, which a table with a row has. -/
theorem presetsLoadAndAnswer : Obligations.PresetsLoadAndAnswer := by
  refine ⟨fun s h => ⟨fun index => ?_, ?_⟩, fun index s h => ?_⟩
  · obtain ⟨p, hp, hload⟩ := execLoadPreset_eq h index
    rw [← presetSlot_eq]
    exact ⟨p, _, hp, hload, execSetParams_fin _ s⟩
  · obtain ⟨p, -, hload⟩ := execLoadPreset_eq h (BitVec.ofNat 32 s.store.active.presetIndex.toNat)
    exact ⟨_, (execResetPreset_eq s).trans hload, hload⟩
  · obtain ⟨p, hp, hrow⟩ := tableRow_completes .preset (presetSlot_lt (List.length_pos_iff.mpr h) index)
    rw [← presetSlot_eq]
    exact ⟨p, hp, finish_bind hrow, finish_bind hrow⟩

/-- Settles O46: the record just published is the active one. -/
theorem getParamsReturnsTheActiveRecord : Obligations.GetParamsReturnsTheActiveRecord := by
  refine ⟨fun s => rfl, fun s p => ⟨storeParams p s, execSetParams_fin p s, ?_⟩⟩
  rw [exec, execGetParams, storeParams_store, publish_active]
  rfl

end Sys2Proof
end

section
/-! PROOFS. The command ring as a FIFO queue (44_command_queue.md): a push adds one record at the end or drops it, a DRAIN
step takes the oldest, and no other step but a start moves the queued records. -/

namespace Sys2Proof.Machine

/-! ## The records of the slots -/

/-- The queued records depend on the ring and on QCAP alone. -/
theorem queued_congr {s t : State} (hq : t.queue = s.queue) (hc : t.cfg = s.cfg) : t.queued = s.queued := by
  simp only [State.queued, State.queueDepth, State.slotAt, State.slotRecord, State.slotByte, hq, hc]

/-- A byte read of the ring is the byte its slot holds. -/
theorem slotByte_of_readByte {s : State} {i j : Nat} {v : Byte} (h : s.readByte .ring (3 * i + j) = some v) :
    s.slotByte i j = v := by
  have hv : Memory.get Space.ring.blank s.queue.slots (3 * i + j) = some v := by
    unfold State.readByte at h
    split at h
    · exact h
    · cases h
  unfold State.slotByte
  rw [hv]

/-- The bytes of a slot in range can be read. -/
theorem readByte_slot {s : State} {i j : Nat} (hi : i < s.cfg.qcap) (hj : j < 3) :
    s.readByte .ring (3 * i + j) = some (s.slotByte i j) := by
  obtain ⟨v, hv⟩ := memRead_of_lt (s := s) (sp := .ring) (a := 3 * i + j) (by simp only [State.arenaSize]; omega) (by decide)
  have hread := (memRead_ok hv).2
  rw [slotByte_of_readByte hread, hread]

/-- The slot past the youngest record is the head slot. -/
theorem slotAt_queueDepth {s : State} (h : s.ringOk) : s.slotAt s.queueDepth = s.queue.head := by
  have hd : s.queueDepth < s.cfg.qcap := Nat.mod_lt _ (Nat.zero_lt_of_lt h.1)
  rw [slotAt_eq h hd, queueDepth_eq h]
  obtain ⟨hhead, htail⟩ := h
  split_ifs <;> omega

theorem queueDepth_eq_zero_iff {s : State} (h : s.ringOk) : s.queueDepth = 0 ↔ s.queue.head = s.queue.tail := by
  rw [queueDepth_eq h]
  obtain ⟨hhead, htail⟩ := h
  split <;> omega

/-- Nothing is queued in a ring whose head is its tail. -/
theorem queued_eq_nil {s : State} (h : s.ringOk) (he : s.queue.head = s.queue.tail) : s.queued = [] := by
  unfold State.queued
  rw [(queueDepth_eq_zero_iff h).mpr he]
  rfl

/-! ## A push (R801) -/

section
variable {r : Record} {s t : State}

/-- An accepted push stores its record in the head slot and moves the head over it. -/
theorem push_pushed (h : push r s = .ok (t, true)) (hmem : s.memoryWf) : Pushed r s t := by
  rcases push_cases h with ⟨-, hb, -⟩ | ⟨-, -, s', hs', rfl⟩
  · cases hb
  · obtain ⟨m, rfl, -, -, hread, -⟩ := memWrites_ok hs'
    have hread (sp : Space) (a : Nat) : (s.setArena .ring m).advanceHead.readByte sp a =
        if sp = .ring ∧ 3 * s.queue.head ≤ a ∧ a < 3 * s.queue.head + 3 then (recordBytes r)[a - 3 * s.queue.head]?
        else s.readByte sp a :=
      (readByte_congr rfl rfl rfl rfl rfl sp a).trans (hread hmem sp a)
    have hstored (j : Nat) (hj : j < 3) :
        (s.setArena .ring m).advanceHead.readByte .ring (3 * s.queue.head + j) = (recordBytes r)[j]? := by
      rw [hread, if_pos ⟨rfl, by omega, by omega⟩, Nat.add_sub_cancel_left]
    exact {
      stored := ⟨hstored 0 (by omega), hstored 1 (by omega), hstored 2 (by omega)⟩
      others := fun sp a hout => by rw [hread, if_neg hout]
      head := rfl
      tail := rfl
      counters := rfl
      rest := rfl }

theorem push_dropped (h : push r s = .ok (t, false)) : t = raise .queueDrop s := by
  rcases push_cases h with ⟨-, -, ht⟩ | ⟨-, hb, -⟩
  · exact ht
  · cases hb

/-- What a push does, as its callers see it. -/
theorem push_outcome {b : Bool} (h : push r s = .ok (t, b)) (hring : s.ringOk) (hmem : s.memoryWf) :
    PushOutcome r s t ∧ (b = true ↔ s.queueDepth < s.cfg.qcap - 1) := by
  obtain ⟨-, ⟨rfl, hlt, -⟩ | ⟨rfl, he, -⟩⟩ := push_depth h hring
  · exact ⟨.inl ⟨hlt, push_pushed h hmem⟩, iff_of_true rfl hlt⟩
  · exact ⟨.inr ⟨he, push_dropped h⟩, iff_of_false Bool.false_ne_true (by omega)⟩

theorem Pushed.slotRecord_head (h : Pushed r s t) : t.slotRecord s.queue.head = r := by
  obtain ⟨hkind, hprimary, hsecondary⟩ := h.stored
  rw [State.slotRecord, slotByte_of_readByte (j := 0) hkind, slotByte_of_readByte hprimary, slotByte_of_readByte hsecondary]

theorem Pushed.slotRecord_of_ne (h : Pushed r s t) {i : Nat} (hi : i < s.cfg.qcap) (hne : i ≠ s.queue.head) :
    t.slotRecord i = s.slotRecord i := by
  have hbyte (j : Nat) (hj : j < 3) : t.slotByte i j = s.slotByte i j := by
    refine slotByte_of_readByte ?_
    rw [h.others .ring (3 * i + j) (by omega), readByte_slot hi hj]
  rw [State.slotRecord, hbyte 0 (by omega), hbyte 1 (by omega), hbyte 2 (by omega), State.slotRecord]

theorem Pushed.slotAt (h : Pushed r s t) (d : Nat) : t.slotAt d = s.slotAt d := by
  rw [State.slotAt, h.tail, h.rest, State.slotAt]

/-- An accepted record is the newest queued, behind the records that were there. -/
theorem Pushed.queued (h : Pushed r s t) (hring : s.ringOk) (hdepth : t.queueDepth = s.queueDepth + 1) :
    t.queued = s.queued ++ [r] := by
  have hold : ∀ d ∈ List.range s.queueDepth, t.slotRecord (s.slotAt d) = s.slotRecord (s.slotAt d) := fun d hd =>
    h.slotRecord_of_ne (Nat.mod_lt _ (Nat.zero_lt_of_lt hring.1)) (slotAt_ne_head hring (List.mem_range.mp hd))
  simp only [State.queued, hdepth, List.range_succ, List.map_append, List.map_singleton, h.slotAt]
  rw [List.map_congr_left hold, slotAt_queueDepth hring, h.slotRecord_head]

theorem push_queued {b : Bool} (h : push r s = .ok (t, b)) (hring : s.ringOk) (hmem : s.memoryWf) :
    t.queued = if b then s.queued ++ [r] else s.queued := by
  obtain ⟨-, ⟨rfl, -, hdepth, -⟩ | ⟨rfl, -⟩⟩ := push_depth h hring
  · exact (push_pushed h hmem).queued hring hdepth
  · rw [push_dropped h]; rfl

end

/-! ## The render context (R802, R803) -/

/-- The ring without its oldest record. -/
def State.popped (s : State) : State := { s with queue := { s.queue with tail := s.nextSlot s.queue.tail } }

/-- A pop takes the oldest record and leaves the others in their order. -/
theorem queued_eq_cons_popped {s : State} (h : s.ringOk) (hne : s.queue.head ≠ s.queue.tail) :
    s.queued = s.slotRecord s.queue.tail :: s.popped.queued := by
  have hring : s.popped.ringOk := ⟨h.1, Nat.mod_lt _ (Nat.zero_lt_of_lt h.1)⟩
  have hdepth : s.queueDepth = s.popped.queueDepth + 1 := by
    rw [queueDepth_eq h, queueDepth_eq hring]
    simp only [State.popped, nextSlot_eq h.2]
    obtain ⟨hhead, htail⟩ := h
    split_ifs <;> omega
  have hslot (d : Nat) : s.slotAt (d + 1) = s.popped.slotAt d := by
    simp only [State.slotAt, State.popped, State.nextSlot, Nat.mod_add_mod]
    rw [Nat.add_assoc, Nat.add_comm 1]
  have hfirst : s.slotAt 0 = s.queue.tail := Nat.mod_eq_of_lt h.2
  rw [State.queued, hdepth, List.range_succ_eq_map, List.map_cons, List.map_map, hfirst]
  refine congrArg _ (List.map_congr_left fun d _ => ?_)
  rw [Function.comp_apply, Nat.succ_eq_add_one, hslot]
  rfl

theorem drainPhase_queued {s t : State} (hring : s.ringOk) (h : drainPhase s = .next t) : t.queued = s.queued.tail := by
  rcases drainPhase_cases h with ⟨he, rfl⟩ | ⟨hne, i, hi, hx⟩
  · rw [queued_eq_nil hring he, List.tail_nil]; exact queued_eq_nil (s := s.setPhase _) hring he
  · rw [queued_eq_cons_popped hring hne, List.tail_cons, exec_command_frame (decodeRecord_isCommand hi).1 hx]
    exact queued_congr rfl rfl

theorem Idles.queue {s t : State} (h : Idles s t) : t.queue = s.queue := by rw [h]

theorem renderPhase_queue {k : Nat} {s t : State} (h : renderPhase k s = .ok t) : t.queue = s.queue := by
  rcases renderPhase_ok h with ⟨-, s', hf, ⟨-, rfl⟩ | ⟨-, hb⟩⟩ | ⟨-, hb⟩
  · rw [setPhase_queue, (frame_ok hf).1]
  · rw [(finishBlock_idles hb).queue, (frame_ok hf).1]
  · exact (finishBlock_idles hb).queue

/-- Outside DRAIN the render context leaves the ring alone. -/
theorem renderStep_queue {s t : State} (hphase : s.life.phase ≠ .drain) (h : renderStep s = .next t) : t.queue = s.queue := by
  unfold renderStep at h
  split at h
  · cases h; rfl
  · cases h
    rcases loopTest_cases s with ⟨-, he⟩ | ⟨-, he⟩
    · rw [he, setPhase_queue]
    · rw [he]
  · obtain ⟨-, rfl⟩ := snapPhase_ok (finish_next.mp h); rfl
  · exact absurd ‹_› hphase
  · exact renderPhase_queue (finish_next.mp h)
  · exact (writePhase_idles (finish_next.mp h)).queue

theorem renderStep_queued {s t : State} (hring : s.ringOk) (h : renderStep s = .next t) :
    t.queued = if s.life.phase = .drain then s.queued.tail else s.queued := by
  split
  · rename_i hphase
    have hstep : renderStep s = drainPhase s := by unfold renderStep; rw [hphase]
    exact drainPhase_queued hring (hstep ▸ h)
  · rename_i hphase
    have hcfg : t.cfg = s.cfg := by rw [(renderStep_effect h).keepsControlState]
    exact queued_congr (renderStep_queue hphase h) hcfg

/-! ## The control contexts (R801, 70_reset_and_hazards.md R1200) -/

/-- The ring of `t` can be pushed to, and holds what `s` has queued, then whatever has been pushed since. -/
def Extends (s t : State) : Prop := t.ringOk ∧ t.memoryWf ∧ s.queued <+: t.queued

theorem Extends.push {r : Record} {s t u : State} {b : Bool} (h : Extends s t) (hp : push r t = .ok (u, b)) : Extends s u := by
  obtain ⟨hring, hmem, hqueued⟩ := h
  refine ⟨push_ringOk hp hring, push_memoryWf hp hmem, hqueued.trans ?_⟩
  rw [push_queued hp hring hmem]
  cases b
  · exact ⟨[], List.append_nil _⟩
  · exact ⟨[r], rfl⟩

/-- A control context that does not start the engine only adds records at the end. -/
theorem ControlEffect.queued_extends {s t : State} (hring : s.ringOk) (hmem : s.memoryWf) (h : ControlEffect s t) :
    s.queued <+: t.queued := by
  have hs : Extends s s := ⟨hring, hmem, [], List.append_nil _⟩
  cases h with
  | quiet hq => rw [hq.frame]; exact ⟨[], List.append_nil _⟩
  | @pushes r s' b es os hp _ => exact (hs.push hp).2.2
  | @serves now es s' hp => exact (serveEntries_keeps Extends.push hp hs).2.2

/-- A start empties the ring, or leaves it: when it only answers, or fails. -/
theorem execStart_queued {k : SinkConfig} {rate size : Word} {s t : State} (hring : s.ringOk)
    (h : execStart k rate size s = .next t) : t.queued = s.queued ∨ t.queued = [] := by
  rcases execStart_cases h with ⟨-, rfl⟩ | ⟨-, -, -, ⟨-, rfl⟩ | ⟨-, rfl⟩⟩
  · exact .inl (queued_congr rfl rfl)
  · exact .inr (queued_eq_nil ⟨hring.1, hring.1⟩ rfl)
  · exact .inl (queued_congr rfl rfl)

/-- A host call only adds records at the end, or is a start that empties the ring. -/
theorem runFetched_call_queued {c : HostCall} {s t : State} (hring : s.ringOk) (hmem : s.memoryWf)
    (h : runFetched (.call c) s = .next t) :
    s.queued <+: t.queued ∨ (t.queued = [] ∧ ∃ k rate size, decodeCall c = .ok (.start k rate size)) := by
  obtain ⟨n, hn, hx⟩ := runFetched_next h
  by_cases hs : ∃ k rate size, n = .start k rate size
  · obtain ⟨k, rate, size, rfl⟩ := hs
    rcases execStart_queued hring hx with he | he
    · exact .inl (by rw [he])
    · exact .inr ⟨he, k, rate, size, hn⟩
  · refine .inl (ControlEffect.queued_extends hring hmem ?_)
    exact exec_host_effect (decodeCall_not_isCommand hn) (fun k rate size he => hs ⟨k, rate, size, he⟩) hx

end Sys2Proof.Machine

namespace Sys2Proof
open Machine

/-- Settles O23: the render context takes from the front, in DRAIN alone; a control context pushes, or starts. -/
theorem stepMovesTheRingAsAFifoQueue : Obligations.StepMovesTheRingAsAFifoQueue := by
  rintro s t ⟨m, d⟩ rest hring hmem hin h
  rw [step_cons hin] at h
  cases m with
  | render => exact ⟨fun _ => renderStep_queued (s := s.take _ rest) hring h, fun hne => absurd rfl hne⟩
  | resume j =>
    refine ⟨fun he => Move.noConfusion he, fun _ => .inl ?_⟩
    obtain ⟨new, hnew⟩ := (resumeStep_effect (finish_next.mp h)).queued_extends (s := s.take _ rest) hring hmem
    exact ⟨new, hnew.symm⟩
  | call c =>
    refine ⟨fun he => Move.noConfusion he, fun _ => ?_⟩
    rcases runFetched_call_queued (s := s.take _ rest) hring hmem h with ⟨new, hnew⟩ | ⟨he, k, rate, size, hc⟩
    · exact .inl ⟨new, hnew.symm⟩
    · exact .inr ⟨he, c, k, rate, size, rfl, hc⟩

/-- Settles O24: a push with the head in range completes, and its two outcomes differ by the depth before it. -/
theorem pushStoresOneRecordOrDrops : Obligations.PushStoresOneRecordOrDrops := by
  intro r s hring hmem
  obtain ⟨t, ht⟩ := push_completes r hring.1
  obtain ⟨houtcome, hroom⟩ := push_outcome ht hring hmem
  exact ⟨t, _, ht, houtcome, hroom, push_queued ht hring hmem⟩

/-- Settles O5: a pop with the indices in range completes, and what it gives is run. -/
theorem drainPopsTheOldestCommandAndRunsIt : Obligations.DrainPopsTheOldestCommandAndRunsIt := by
  intro s d rest hin hphase hring
  have hstep : step s = drainPhase (s.take ⟨.render, d⟩ rest) := by
    rw [step_cons hin, agentStep, renderStep, take_life, hphase]
  rw [hstep, drainPhase, pop_completes (s := s.take ⟨.render, d⟩ rest) hring]
  refine ⟨fun he => ?_, fun i hne hi => ?_⟩
  · rw [take_queue, if_pos he]
  · rw [take_queue, if_neg hne]
    have hi : decode (.record ((s.take ⟨.render, d⟩ rest).slotRecord s.queue.tail)) = .ok i := hi
    simp only [runFetched, hi]
    rfl

end Sys2Proof
end

section
/-! PROOFS. Reserved encodings (30_encoding.md R303 and R305): which records and calls decode to no instruction, and that no
instruction that decodes is refused as reserved. -/

namespace Sys2Proof.Machine

/-! ## Encodings that stand for no instruction -/

/-- A record the render context must refuse (30_encoding.md R303). -/
def ReservedRecord (r : Record) : Prop :=
  0x05 ≤ r.kind.toNat ∨ ((r.kind = 0x00 ∨ r.kind = 0x01) ∧ 0x80 ≤ r.primary.toNat) ∨
    ((r.kind = 0x00 ∨ r.kind = 0x03) ∧ 0x80 ≤ r.secondary.toNat) ∨ (r.kind = 0x03 ∧ 0x08 ≤ r.primary.toNat)

theorem decodeRecord_error_iff {r : Record} : decodeRecord r = .error .reservedCommand ↔ ReservedRecord r := by
  unfold ReservedRecord
  simp only [← BitVec.toNat_inj]
  unfold decodeRecord
  split <;> rename_i hk
  · simp [hk, imp_iff_not_or]
  · simp [hk]
  · simp [hk]
  · simp [hk, imp_iff_not_or, or_comm]
  · simp [hk]
  · simp only [imp_false] at *
    exact iff_of_true trivial (.inl (by omega))

theorem decodeCall_error_iff {c : HostCall} :
    decodeCall c = .error .reservedHostOp ↔ c.selector = 0x00 ∨ 0x16 ≤ c.selector.toNat := by
  rw [← BitVec.toNat_inj]
  unfold decodeCall
  split
  case h_22 =>
    refine iff_of_true rfl ?_
    simp only [imp_false, BitVec.ofNat_eq_ofNat, BitVec.toNat_ofNat] at *
    omega
  all_goals
    rename_i hsel
    rw [hsel]
    refine iff_of_false ?_ (by decide)
    split <;> simp

/-! ## What an instruction may be refused for -/

/-- A computation that may fault but answers no refusal. -/
structure NeverRefused {α : Type} (x : Run α) : Prop where
  ne : ∀ r, x ≠ .error (.refusal r)

section
variable {α β : Type}

theorem NeverRefused.ok (a : α) : NeverRefused (.ok a : Run α) := ⟨fun _ h => by cases h⟩

theorem NeverRefused.fault (f : Fault) : NeverRefused (.error (.fault f) : Run α) := ⟨fun _ h => by cases h⟩

theorem NeverRefused.bind {x : Run α} {f : α → Run β} (hx : NeverRefused x) (hf : ∀ a, NeverRefused (f a)) :
    NeverRefused (x >>= f) := by
  cases x with
  | ok a => exact hf a
  | error e => exact ⟨fun r h => hx.ne r (by cases h; rfl)⟩

theorem NeverRefused.finish {x : Run State} (hx : NeverRefused x) (r : Refusal) : finish x ≠ .refused r := by
  rcases x with (f | r') | t <;> intro h
  · cases h
  · exact hx.ne r' rfl
  · cases h

/-- A computation whose last part only updates the state. -/
theorem NeverRefused.update {x : Run α} {f : α → State} (hx : NeverRefused x) (r : Refusal) :
    Machine.finish (x >>= fun a => .ok (f a)) ≠ .refused r :=
  (hx.bind fun _ => .ok _).finish r

theorem tableRow_neverRefused (a : Arena) (rows : List α) (i : Nat) : NeverRefused (tableRow a rows i) := by
  unfold tableRow
  split
  · exact .ok _
  · exact .fault _

end

theorem memWrites_neverRefused (sp : Space) (a : Nat) (bs : List Byte) (s : State) : NeverRefused (memWrites sp a bs s) := by
  induction bs generalizing a s with
  | nil => exact .ok s
  | cons b bs ih =>
    refine .bind ?_ fun s' => ih (a + 1) s'
    unfold memWrite
    split
    · exact .ok _
    · exact .fault _

theorem push_neverRefused (r : Record) (s : State) : NeverRefused (push r s) := by
  unfold push
  split
  · exact .ok _
  · exact .bind (memWrites_neverRefused ..) fun _ => .ok _

theorem pushOnly_neverRefused (r : Record) (s : State) : NeverRefused (pushOnly r s) :=
  .bind (push_neverRefused r s) fun _ => .ok _

theorem playNote_neverRefused (note vel : Byte) (gate : Word) (s : State) : NeverRefused (playNote note vel gate s) := by
  unfold playNote
  split
  · refine .bind (push_neverRefused _ s) fun x => ?_
    split
    · exact .ok _
    · exact .ok _
  · exact .ok s

theorem playChord_neverRefused (notes : List Byte) (ms : Word) (s : State) : NeverRefused (playChord notes ms s) := by
  cases notes with
  | nil => exact .ok _
  | cons n rest => exact .bind (playNote_neverRefused ..) fun _ => .ok _

theorem serveEntries_neverRefused (now : Word) (es : List SchedEntry) (s : State) : NeverRefused (serveEntries now es s) := by
  induction es generalizing s with
  | nil => exact .ok _
  | cons e es ih =>
    unfold serveEntries
    split
    · exact .bind (push_neverRefused ..) fun x => .bind (ih x.1) fun _ => .ok _
    · exact .bind (ih s) fun _ => .ok _

theorem loadSlot_neverRefused (i : Nat) (s : State) : NeverRefused (loadSlot i s) :=
  .bind (tableRow_neverRefused ..) fun _ => .ok _

theorem execCmdNoteOn_refused {note vel : Byte} {s : State} {r : Refusal} (h : execCmdNoteOn note vel s = .refused r) :
    (legalNote note && legalVelocity vel) = false := by
  unfold execCmdNoteOn at h
  split at h
  · rename_i hl; exact (Bool.not_eq_true' _).mp hl
  · split at h
    · cases h
    · split at h
      · cases h
      · split at h <;> cases h

theorem execCmdDrumHit_refused {part vel : Byte} {s : State} {r : Refusal} (h : execCmdDrumHit part vel s = .refused r) :
    (legalPart part && legalVelocity vel) = false := by
  unfold execCmdDrumHit at h
  split at h
  · rename_i hl; exact (Bool.not_eq_true' _).mp hl
  · split at h
    · cases h
    · split at h
      · cases h
      · refine absurd h (NeverRefused.finish (.bind (tableRow_neverRefused ..) fun _ =>
          .bind (tableRow_neverRefused ..) fun _ => ?_) r)
        split
        · exact .ok _
        · exact .fault _

theorem execStart_refused {k : SinkConfig} {rate size : Word} {s : State} {r : Refusal}
    (h : execStart k rate size s = .refused r) : r = .badStartConfig := by
  unfold execStart at h
  split at h
  · cases h
  · split at h
    · cases h; rfl
    · dsimp only at h
      split at h <;> cases h

theorem execSetParams_refused {p : SynthParams RealNum} {s : State} {r : Refusal} (h : execSetParams p s = .refused r) :
    r = .nonFiniteParam := by
  unfold execSetParams at h
  split at h
  · cases h; rfl
  · cases h

theorem execNoteOff_ne_refused (note : Byte) (s : State) (r : Refusal) : execNoteOff note s ≠ .refused r := by
  unfold execNoteOff
  split
  · exact (pushOnly_neverRefused ..).update r
  · exact fun h => by cases h

theorem execDrumHit_ne_refused (part vel : Byte) (s : State) (r : Refusal) : execDrumHit part vel s ≠ .refused r := by
  unfold execDrumHit
  split
  · exact (pushOnly_neverRefused ..).finish r
  · exact fun h => by cases h

/-- All that an instruction with unreserved operands is refused for: a field of setParams that is no number, and the
operating point of a start. -/
theorem exec_refused {i : Instr} {s : State} {r : Refusal} (hw : i.wellFormed = true) (h : exec i s = .refused r) :
    r = .nonFiniteParam ∨ r = .badStartConfig := by
  cases i with
  | cmdNoteOn note vel => exact absurd (execCmdNoteOn_refused h) (ne_false_of_eq_true hw)
  | cmdNoteOff note => rw [exec, execCmdNoteOff, if_neg (by simpa [Instr.wellFormed] using hw)] at h; cases h
  | cmdDrumHit part vel => exact absurd (execCmdDrumHit_refused h) (ne_false_of_eq_true hw)
  | start k rate size => exact .inr (execStart_refused h)
  | stop =>
    obtain ⟨t, ht⟩ := execStop_completes s
    cases ht.symm.trans h
  | setParams p => exact .inl (execSetParams_refused h)
  | noteOn note vel gate => exact absurd h ((playNote_neverRefused ..).finish r)
  | noteOff note => exact absurd h (execNoteOff_ne_refused note s r)
  | allNotesOff => exact absurd h ((pushOnly_neverRefused ..).update r)
  | drumHit part vel => exact absurd h (execDrumHit_ne_refused part vel s r)
  | allDrumsOff => exact absurd h ((pushOnly_neverRefused ..).finish r)
  | loadPreset index => exact absurd h ((loadSlot_neverRefused ..).finish r)
  | resetPreset => exact absurd h ((loadSlot_neverRefused ..).finish r)
  | triggerTestChord ms => exact absurd h ((playChord_neverRefused ..).update r)
  | service now => exact absurd h ((serveEntries_neverRefused ..).update r)
  | presetName index => exact absurd h ((tableRow_neverRefused ..).update r)
  | presetDefaults index => exact absurd h ((tableRow_neverRefused ..).update r)
  | cmdAllNotesOff | cmdAllDrumsOff | running | fadeIn _ | fadeOut _ | setDrumsEnabled _ | getParams | consumeUnderruns
  | getPerfSnapshot => cases h

/-! ## Encodings that are refused as reserved -/

theorem refusalOf_inj {e e' : DecodeError} : refusalOf e = refusalOf e' ↔ e = e' := by
  cases e <;> cases e' <;> simp [refusalOf]

theorem refusalOf_ne (e : DecodeError) : refusalOf e ≠ .nonFiniteParam ∧ refusalOf e ≠ .badStartConfig := by
  cases e <;> simp [refusalOf]

/-- An encoding whose operands are checked by its decoding is refused for its encoding exactly when it does not decode. -/
theorem runFetched_refused_iff {f : Fetched} {s : State} {e : DecodeError}
    (hw : ∀ i, decode f = .ok i → i.wellFormed = true) :
    runFetched f s = .refused (refusalOf e) ↔ decode f = .error e := by
  unfold runFetched
  cases hd : decode f with
  | ok i =>
    obtain ⟨hparam, hstart⟩ := refusalOf_ne e
    exact iff_of_false (fun h => (exec_refused (hw i hd) h).elim hparam hstart) (by simp)
  | error e' => simp only [Host.Outcome.refused.injEq, Except.error.injEq, refusalOf_inj]

/-- A host operation accepts every operand of its width (30_encoding.md R306). -/
theorem wellFormed_of_not_isCommand {i : Instr} (h : i.isCommand = false) : i.wellFormed = true := by
  cases i with
  | cmdNoteOn _ _ | cmdNoteOff _ | cmdAllNotesOff | cmdDrumHit _ _ | cmdAllDrumsOff => cases h
  | _ => rfl

end Sys2Proof.Machine

namespace Sys2Proof
open Machine

/-- Settles O3: what decodes is not refused as reserved, so the refusals are those of the decoder. -/
theorem reservedEncodingsAreRefused : Obligations.ReservedEncodingsAreRefused := by
  refine ⟨fun r s => ?_, fun c s => ?_⟩
  · have hw (i : Instr) (hi : decode (.record r) = .ok i) : i.wellFormed = true := (decodeRecord_isCommand hi).2
    exact (runFetched_refused_iff (e := .reservedCommand) hw).trans decodeRecord_error_iff
  · have hw (i : Instr) (hi : decode (.call c) = .ok i) : i.wellFormed = true :=
      wellFormed_of_not_isCommand (decodeCall_not_isCommand hi)
    exact (runFetched_refused_iff (e := .reservedHostOp) hw).trans decodeCall_error_iff

end Sys2Proof
end

section
/-! PROOFS. One frame of the render pipeline as a step of RENDER within a block (45_render_pipeline.md R900, 46_scheduler_api.md
R1003). -/

namespace Sys2Proof.Machine

theorem step_render {s : State} {d : Draws} {rest : List Input} {k : Nat} (hin : s.inputs = ⟨.render, d⟩ :: rest)
    (hphase : s.life.phase = .render k) : step s = finish (renderPhase k (s.take ⟨.render, d⟩ rest)) := by
  rw [step_cons hin, agentStep, renderStep, take_life, hphase]

/-- A frame of the block completes, or meets a NaN in binary32. -/
theorem frame_outcome {k : Nat} {s : State} (hset : frameUnset s = none) (hdrums : s.drums.length ≤ s.cfg.recipes.length)
    (hidx : s.delay.writeIdx < s.delay.len) (hlen : 2 ≤ s.delay.len) (hnum : s.numbersOk) (hk : k < s.life.blockSize) :
    (∃ t, frame k s = .ok t) ∨ (s.cfg.arith = .binary32 ∧ frame k s = .error (.refusal .nanOperand)) := by
  by_cases ha : s.cfg.arith = .binary32
  · exact (frame_cases hset hdrums hidx hlen hk).imp_right fun h => ⟨ha, h⟩
  · exact .inl (frame_completes ha (hnum ha) hset hdrums hidx hlen hk)

/-- What an address reads does not depend on the loop position and the observations. -/
theorem readByte_setLife {s : State} {l : Lifecycle} (h : l.blockSize = s.life.blockSize) (tr : List Event) (sp : Space) (i : Nat) :
    ({ s with life := l, trace := tr } : State).readByte sp i = s.readByte sp i := by
  cases sp with
  | block => simp only [State.readByte, State.arenaSize, State.arena, h]; rfl
  | delay | ring => rfl

/-- A frame that completes within the block completes the step, which keeps its bytes and moves to the next phase. -/
theorem renderPhase_of_frame {k : Nat} {s v : State} (hk : k < s.life.blockSize) (hbelow : s.blockWritten (4 * k))
    (hv : frame k s = .ok v) :
    ∃ ph tr, renderPhase k s = .ok { v with life := { s.life with phase := ph }, trace := tr } ∧
      (∀ sp i, ({ v with life := { s.life with phase := ph }, trace := tr } : State).readByte sp i = v.readByte sp i) ∧
      (k + 1 < s.life.blockSize → ph = .render (k + 1) ∧ tr = s.trace) ∧
      (k + 1 = s.life.blockSize → ph = .write ∧ ∃ image : List Byte, tr = .block image :: s.trace ∧
        image.length = 4 * s.life.blockSize ∧ ∀ i b, image[i]? = some b → v.readByte .block i = some b) := by
  obtain ⟨hframe, -, -, -, -, -, -, -, -, hblock⟩ := frame_ok hv
  have hlife : v.life = s.life := by rw [hframe]
  have htrace : v.trace = s.trace := by rw [hframe]
  have hwritten : v.blockWritten (4 * (k + 1)) := fun i hi => hblock i (by
    by_cases h : i < 4 * k
    · exact .inl (hbelow i h)
    · exact .inr (by omega))
  obtain ⟨ph, tr, hren, hnext, hlast⟩ := renderPhase_frame hk hv hlife htrace hwritten
  exact ⟨ph, tr, hren, readByte_setLife (by rw [hlife]) tr, hnext, hlast⟩

theorem renderPhase_of_frame_error {k : Nat} {s : State} {e : Stop} (hk : k < s.life.blockSize) (h : frame k s = .error e) :
    renderPhase k s = .error e := by
  rw [renderPhase, if_pos hk, h]
  rfl

theorem fade_advance_eq (a : Arith) (f : Fade) : f.advance a = { f with
    level := if f.level.lt (fadeGoal f.target) = true then (fadeGoal f.target).min (a.add f.level f.step)
      else if (fadeGoal f.target).lt f.level = true then (fadeGoal f.target).max (a.sub f.level f.step) else f.level } := by
  unfold Fade.advance
  dsimp only
  split
  · rfl
  · split
    · rfl
    · rfl

end Sys2Proof.Machine

namespace Sys2Proof
open Machine

/-- Settles O57: the frame completes or meets a NaN, and its values are those of its stages, read one after another. -/
theorem frameFollowsThePipelineAndStoresItsBytes : Obligations.FrameFollowsThePipelineAndStoresItsBytes := by
  intro s d rest k hin hphase hk hbelow hset hdrums hidx hlen hmem hnum
  have hstep := step_render hin hphase
  rcases frame_outcome (k := k) (s := s.take ⟨.render, d⟩ rest) hset hdrums hidx hlen hnum hk with ⟨v, hv⟩ | ⟨ha, hnan⟩
  · obtain ⟨f, y, tap, b, code, clipL, clipR, codeL, codeR, hf, htap, hb, hcode, rfl, hclipL, hclipR, hcodeL, hcodeR, hvalue, hbytes,
      hcell, hothers⟩ := frame_values hv hlen hmem
    obtain ⟨ph, tr, hren, hread, hnext, hlast⟩ := renderPhase_of_frame (s := s.take ⟨.render, d⟩ rest) hk hbelow hv
    have hbyte (i : Nat) (hi : i < 4) := (hread .block (4 * k + i)).trans (hbytes (4 * k + i) (by omega) (by omega))
    simp only [Nat.add_sub_cancel_left] at hbyte
    -- With the state after the frame written out, its registers are the stages' values by definition.
    generalize v.block = m at hvalue
    subst hvalue
    refine .inl ⟨_, f, tap, b, code, codeL, codeR, clipL, clipR, hstep.trans (finish_next.mpr hren), rfl, rfl, hf, rfl, rfl, htap, hb,
      hcode, (hread _ _).trans hcell, rfl, rfl, rfl, rfl, rfl, rfl, fade_advance_eq _ _, hclipL, hclipR, hcodeL, hcodeR,
      hbyte 0 (by decide), hbyte 1 (by decide), hbyte 2 (by decide), hbyte 3 (by decide),
      fun sp i hdelay hblock => (hread sp i).trans (hothers sp i hdelay hblock), fun h => ?_, fun h => ?_⟩
    · obtain ⟨rfl, rfl⟩ := hnext h
      exact ⟨rfl, rfl⟩
    · obtain ⟨rfl, image, rfl, hsize, himage⟩ := hlast h
      exact ⟨rfl, image, rfl, hsize, fun i b hi => (hread _ _).trans (himage i b hi)⟩
  · exact .inr ⟨ha, by rw [hstep, renderPhase_of_frame_error (s := s.take ⟨.render, d⟩ rest) hk hnan]; rfl⟩

end Sys2Proof
end

section
/-! PROOFS. A core in which nothing sounds and every memory is zero stays silent (45_render_pipeline.md R940). -/

namespace Sys2Proof

/-! ## Operations on zero -/

namespace Arith
variable (a : Arith)

@[simp] theorem add_zero_zero : a.add (.fin 0) (.fin 0) = .fin 0 := (congrArg a.rnd (add_zero 0)).trans a.rnd_zero

@[simp] theorem sub_zero_zero : a.sub (.fin 0) (.fin 0) = .fin 0 := (congrArg a.rnd (sub_zero 0)).trans a.rnd_zero

@[simp] theorem mul_fin_zero (q : Rat) : a.mul (.fin q) (.fin 0) = .fin 0 := (congrArg a.rnd (mul_zero q)).trans a.rnd_zero

@[simp] theorem mul_zero_fin (q : Rat) : a.mul (.fin 0) (.fin q) = .fin 0 := (congrArg a.rnd (zero_mul q)).trans a.rnd_zero

theorem div_zero_fin {d : Rat} (hd : d ≠ 0) : a.div (.fin 0) (.fin d) = .fin 0 := by
  cases a with
  | reals bits => exact congrArg RealNum.fin (zero_div d)
  | binary32 => exact (if_neg hd).trans ((congrArg Machine.roundBinary32 (zero_div d)).trans (rnd_zero .binary32))

end Arith

end Sys2Proof

namespace Sys2Proof.Machine

@[simp] theorem roundHalfAway_zero : roundHalfAway 0 = 0 := by norm_num [roundHalfAway, Rat.floor]

@[simp] theorem softClip_zero (a : Arith) : softClip a (.fin 0) = .fin 0 := by
  have h27 : (2 : Rat) ^ (0 : Int) ≤ a.near 27 := a.le_near (by decide) (by norm_num)
  have hne : a.near 27 ≠ 0 := by rw [zpow_zero] at h27; linarith
  have hadd : a.add (.fin 27) (.fin 0) = .fin (a.near 27) :=
    (congrArg a.rnd (add_zero 27)).trans (a.rnd_eq (by norm_num [abs_of_pos]))
  norm_num [softClip, hadd, a.div_zero_fin hne]

/-! ## The stages in silence -/

/-- The signal pair of silence. -/
def Stereo.silence : Stereo := ⟨.fin 0, .fin 0⟩

theorem driveStage_zero {c : Cfg} {drive g : Rat} (hg : g ≠ 0)
    (h : c.arith.add (.fin 1) (c.arith.mul (c.arith.const c.driveK) (.fin drive)) = .fin g) : driveStage c drive (.fin 0) = .fin 0 := by
  simp [driveStage, h, Arith.div_zero_fin _ hg]

/-- A filter of zero memories answers silence with silence. -/
theorem filter_zero (a : Arith) {f : Biquad} (hf : f.numbers) (h1 : f.z1 = .fin 0) (h2 : f.z2 = .fin 0) :
    f.output a (.fin 0) = .fin 0 ∧ f.process a (.fin 0) = f := by
  obtain ⟨b0, b1, b2, a1, a2, z1, z2, configured⟩ := f
  obtain ⟨hb0, hb1, hb2, ha1, ha2, -⟩ := hf
  obtain ⟨b0, rfl⟩ := RealNum.isFin_iff.mp hb0
  obtain ⟨b1, rfl⟩ := RealNum.isFin_iff.mp hb1
  obtain ⟨b2, rfl⟩ := RealNum.isFin_iff.mp hb2
  obtain ⟨a1, rfl⟩ := RealNum.isFin_iff.mp ha1
  obtain ⟨a2, rfl⟩ := RealNum.isFin_iff.mp ha2
  subst h1 h2
  have hout : Biquad.output a ⟨.fin b0, .fin b1, .fin b2, .fin a1, .fin a2, .fin 0, .fin 0, configured⟩ (.fin 0) = .fin 0 := by
    simp [Biquad.output]
  exact ⟨hout, by simp [Biquad.process, hout]⟩

theorem dc_zero (a : Arith) : DcBlocker.output a ⟨.fin 0, .fin 0⟩ (.fin 0) = .fin 0 := by
  obtain ⟨hpole, -⟩ := a.rnd_unit (x := dcPole) (by norm_num [dcPole]) (by norm_num [dcPole])
  simp [DcBlocker.output, Arith.const, hpole]

/-- With no active voice and zero filter memories steps 1 to 6 change nothing and give silence. -/
theorem monoStage_silent {s : State} (hvoices : ∀ v ∈ s.pool.voices, v.active = false) (hf : s.filter.numbers)
    (h1 : s.filter.z1 = .fin 0) (h2 : s.filter.z2 = .fin 0) (hdrive : driveStage s.cfg s.snapshot.params.drive (.fin 0) = .fin 0) :
    monoStage s = (s, .fin 0) := by
  have hsample (v : Voice) (hv : v ∈ s.pool.voices) := sample_inactive (c := s.cfg) s.life.fs s.snapshot.params (hvoices v hv)
  have hxs : voiceContributions s.cfg s.life.fs s.snapshot.params s.pool.voices = [] :=
    List.filterMap_eq_nil_iff.mpr fun v hv => by rw [hsample v hv]
  have hvs : sampleVoices s.cfg s.life.fs s.snapshot.params s.pool.voices = s.pool.voices :=
    (List.map_congr_left fun v hv => congrArg Prod.fst (hsample v hv)).trans (List.map_id' _)
  obtain ⟨hout, hproc⟩ := filter_zero s.cfg.arith hf h1 h2
  have hmix : polyMix s.cfg [] = .fin 0 := rfl
  simp only [monoStage, hxs, hvs, hmix, hdrive, hout, hproc]

/-- A bank of inactive parts adds nothing and draws no noise (R520). -/
theorem renderDrumsFrom_inactive {c : Cfg} {fs : Nat} {rs : List Recipe} {ds : List Drum} {acc f : DrumFrame}
    (hds : ∀ d ∈ ds, d.active = false) (h : renderDrumsFrom c fs rs ds acc = .ok f) : f = { acc with drums := acc.drums ++ ds } := by
  induction ds generalizing rs acc with
  | nil => cases rs <;> (cases h; simp)
  | cons d ds ih =>
    obtain ⟨hd, hds⟩ := List.forall_mem_cons.mp hds
    cases rs with
    | nil => cases h
    | cons r rs =>
      have hr : renderDrum c fs r d acc = (d, acc) := by rw [renderDrum, hd]; rfl
      rw [renderDrumsFrom, hr] at h
      simpa using ih hds h

theorem drumStage_silent {s t : State} {x : Stereo} (hds : ∀ d ∈ s.drums, d.active = false)
    (h : drumStage s (.fin 0) = .ok (t, x)) : t = s ∧ x = .silence := by
  obtain ⟨ht, -, f, hf, hfd, hfn, hx⟩ := drumStage_ok h
  obtain rfl := renderDrumsFrom_inactive hds hf
  rw [hfd, hfn] at ht
  exact ⟨ht, by simpa [Stereo.silence] using hx⟩

theorem encodeSample_zero (a : Arith) : encodeSample a (.fin 0) = .ok 0 := by
  rw [encodeSample, a.mul_fin_zero, RealNum.round_fin, roundHalfAway_zero]
  rfl

/-- The crossfade of silence is silence, or no number where `1 − mix` overflows. -/
theorem wetDry_zero (a : Arith) (mix : Rat) : wetDry a mix (.fin 0) (.fin 0) = .fin 0 ∨ wetDry a mix (.fin 0) (.fin 0) = .nan := by
  unfold wetDry
  cases a.sub (.fin 1) (.fin mix) with
  | fin q => exact .inl (by simp)
  | inf _ => exact .inr rfl
  | nan => exact .inr rfl

/-- From a zero buffer step 8 reads and stores zero. -/
theorem delayStage_silent {s t : State} {y : Stereo} (hcells : s.delay.cells = [])
    (h : delayStage s .silence = .ok (t, y)) :
    t = { s with delay := { s.delay with writeIdx := (s.delay.writeIdx + 1) % s.delay.len } } ∧ (y = .silence ∨ y = ⟨.nan, .nan⟩) := by
  obtain ⟨d, -, h⟩ := bind_ok h
  obtain ⟨b, hb, h⟩ := bind_ok h
  obtain ⟨v, hv, h⟩ := bind_ok h
  obtain ⟨s', hw, h⟩ := bind_ok h
  obtain ⟨hlt, hread⟩ := memRead_ok hb
  obtain rfl : b = 0 := by
    rw [State.readByte, if_pos hlt, State.arena, hcells] at hread
    exact (Option.some.inj hread).symm
  have hdec : decodeSample s.cfg.arith 0 = .fin 0 := s.cfg.arith.div_zero_fin (by norm_num)
  have hhalf : s.cfg.arith.div (.fin 0) (.fin 2) = .fin 0 := s.cfg.arith.div_zero_fin (by norm_num)
  simp only [Stereo.silence, hdec, hhalf, Arith.add_zero_zero, Arith.mul_fin_zero, encodeSample_zero] at hv
  cases hv
  obtain ⟨-, rfl⟩ := memWrite_ok hw
  have hput : Memory.put Space.delay.blank (s.arena .delay) s.delay.writeIdx 0 = s.delay.cells := by
    rw [State.arena, hcells]; rfl
  rw [hput, hdec] at h
  cases h
  refine ⟨rfl, ?_⟩
  rcases wetDry_zero s.cfg.arith s.snapshot.params.delayMix with hz | hz
  · exact .inl (congrArg₂ Stereo.mk hz hz)
  · exact .inr (congrArg₂ Stereo.mk hz hz)

/-- Zero smoothers stay at zero on silence: their constants of [0, 1] are numbers in either arithmetic. -/
theorem reverb_advance_silent {c : Cfg} (h : c.mixWf) : Reverb.advance c .silence ⟨.fin 0, .fin 0⟩ = ⟨.fin 0, .fin 0⟩ := by
  obtain ⟨-, -, -, -, -, ⟨hl0, hl1⟩, ⟨hr0, hr1⟩, -, ⟨hx0, hx1⟩, -⟩ := h
  obtain ⟨hl, hlunit⟩ := c.arith.rnd_unit hl0.le hl1.le
  obtain ⟨hr, hrunit⟩ := c.arith.rnd_unit hr0.le hr1.le
  obtain ⟨hx, -⟩ := c.arith.rnd_unit hx0 hx1.le
  obtain ⟨l, hl', -⟩ := sub_unit c.arith (x := .fin 1) rfl (between_fin.mpr hlunit)
  obtain ⟨r, hr', -⟩ := sub_unit c.arith (x := .fin 1) rfl (between_fin.mpr hrunit)
  simp [Reverb.advance, Stereo.silence, Arith.const, hl, hr, hx, hl', hr']

/-- With zero memories steps 9 to 11 move the fade alone and give silence. -/
theorem outputStage_silent {s : State} (hdcL : s.dcL = ⟨.fin 0, .fin 0⟩) (hdcR : s.dcR = ⟨.fin 0, .fin 0⟩)
    (hrev : s.reverb = ⟨.fin 0, .fin 0⟩) (hmix : s.cfg.mixWf) (hfade : s.fadeOk) :
    outputStage s .silence = ({ s with fade := s.fade.advance s.cfg.arith }, .silence) := by
  obtain ⟨l, hl, -⟩ := between_iff.mp (fade_advance_unit s.cfg.arith hfade.1 hfade.2)
  have hgain (p : Params) : outputGain s.cfg.arith p (.fin 0) = .fin 0 := by simp [outputGain]
  have hwet (amount : Rat) : reverbMix s.cfg.arith amount ⟨.fin 0, .fin 0⟩ .silence = .silence := by
    simp [reverbMix, Stereo.silence]
  simp only [outputStage, hrev, reverb_advance_silent hmix, hwet]
  simp only [Stereo.silence, hgain, hdcL, hdcR, dc_zero, DcBlocker.process, softClip_zero, hl, Arith.mul_zero_fin]

/-- Steps 9 to 11 pass a NaN on, and step 12 refuses it. -/
theorem blockStage_nan (s : State) (k : Nat) :
    blockStage (outputStage s ⟨.nan, .nan⟩).1 k (outputStage s ⟨.nan, .nan⟩).2 = .error (.refusal .nanOperand) := rfl

theorem blockStage_silent {s t : State} {k : Nat} (h : blockStage s k .silence = .ok t) (hmem : s.memoryWf) :
    (∃ m, t = { s with block := m }) ∧ ∀ i, 4 * k ≤ i → i < 4 * k + 4 → t.readByte .block i = some 0x00 := by
  obtain ⟨cl, cr, l, r, m, hcl, hcr, hl, hr, ht, hread⟩ := blockStage_value h
  refine ⟨⟨m, ht⟩, fun i h0 h1 => ?_⟩
  have hclamp : clampSignal (.fin 0) (-1) 1 = .ok 0 := rfl
  obtain rfl := Except.ok.inj (hclamp.symm.trans hcl)
  obtain rfl := Except.ok.inj (hclamp.symm.trans hcr)
  rw [mul_zero, Arith.near_zero, roundHalfAway_zero] at hl hr
  rw [hread hmem, if_pos ⟨rfl, h0, h1⟩, hl, hr]
  exact (List.getElem?_replicate (n := 4) (a := (0 : Byte))).trans (if_pos (by omega))

/-- Steps 9 to 12 on silence move the fade alone, and store four zero bytes. -/
theorem outputAndBlock_silent {s t : State} {k : Nat} (h : blockStage (outputStage s .silence).1 k (outputStage s .silence).2 = .ok t)
    (hdcL : s.dcL = ⟨.fin 0, .fin 0⟩) (hdcR : s.dcR = ⟨.fin 0, .fin 0⟩) (hrev : s.reverb = ⟨.fin 0, .fin 0⟩) (hmix : s.cfg.mixWf)
    (hfade : s.fadeOk) (hmem : s.memoryWf) : (∃ m, t = { s with fade := s.fade.advance s.cfg.arith, block := m }) ∧
      ∀ i, 4 * k ≤ i → i < 4 * k + 4 → t.readByte .block i = some 0x00 := by
  rw [outputStage_silent hdcL hdcR hrev hmix hfade] at h
  exact blockStage_silent h hmem

end Sys2Proof.Machine

namespace Sys2Proof
open Machine

/-- Settles O58: each stage keeps silence and zero memories, or passes on a NaN that step 12 refuses. -/
theorem silenceStaysSilent : Obligations.SilenceStaysSilent := by
  intro k s t hvoices hparts hcells hz1 hz2 hfilter hfade hdcL hdcR hrev hmix hdrive hmem h
  obtain ⟨g, hg0, hg⟩ := hdrive
  have hmono := monoStage_silent hvoices hfilter hz1 hz2 (driveStage_zero hg0 hg)
  unfold frame at h
  split at h
  · cases h
  · obtain ⟨⟨d, x⟩, hd, h⟩ := bind_ok h
    obtain ⟨⟨u, y⟩, hu, h⟩ := bind_ok h
    rw [hmono] at hd
    obtain ⟨rfl, rfl⟩ := drumStage_silent hparts hd
    obtain ⟨rfl, rfl | rfl⟩ := delayStage_silent hcells hu
    · obtain ⟨⟨m, rfl⟩, hbytes⟩ := outputAndBlock_silent h hdcL hdcR hrev hmix hfade hmem
      exact ⟨rfl, rfl, rfl, rfl, rfl, rfl, rfl, hcells, hbytes⟩
    · cases (blockStage_nan _ k).symm.trans h

end Sys2Proof
end

section
/-! PROOFS. The notes and drums of the API and the note-off table (46_scheduler_api.md §3 and §4): each operation is the
push of one record and its change of the table; service is a run of such pushes. -/

namespace Sys2Proof.Machine

/-! ## The note-off table (R1030 to R1033) -/

section
variable {note : Byte} {due : Word} {es : List SchedEntry}

theorem holds_iff {e : SchedEntry} : e.holds note = true ↔ e.live = true ∧ e.note = note := by
  simp [SchedEntry.holds]

theorem any_holds_iff : es.any (·.holds note) = true ↔ ∃ e ∈ es, e.live = true ∧ e.note = note := by
  simp only [List.any_eq_true, holds_iff]

/-- The first entry that is not live is taken. -/
theorem schedTake_eq_set {i : Nat} {e : SchedEntry} (he : es[i]? = some e) (hfree : e.live = false)
    (hbefore : ∀ (j : Nat) (x : SchedEntry), j < i → es[j]? = some x → x.live = true) :
    schedTake note due es = es.set i ⟨true, note, due⟩ := by
  induction es generalizing i with
  | nil => cases he
  | cons x es ih =>
    cases i with
    | zero =>
      cases he
      rw [schedTake, if_neg (by simp [hfree]), List.set_cons_zero]
    | succ i =>
      have hrest := ih he fun j y hj hy => hbefore (j + 1) y (by omega) hy
      rw [schedTake, if_pos (hbefore 0 x (by omega) rfl), hrest, List.set_cons_succ]

/-- With every entry live there is none to take. -/
theorem schedTake_of_all_live (h : ∀ e ∈ es, e.live = true) : schedTake note due es = es := by
  induction es with
  | nil => rfl
  | cons x es ih =>
    rw [schedTake, if_pos (h x List.mem_cons_self), ih fun e he => h e (List.mem_cons_of_mem x he)]

theorem schedInsert_of_held (h : ∃ e ∈ es, e.live = true ∧ e.note = note) : schedInsert note due es =
    es.map fun e => if e.live = true ∧ e.note = note then { e with due := due } else e := by
  rw [schedInsert, if_pos (any_holds_iff.mpr h)]
  simp only [holds_iff]

theorem schedInsert_of_not_held (h : ¬ ∃ e ∈ es, e.live = true ∧ e.note = note) :
    schedInsert note due es = schedTake note due es :=
  if_neg fun hany => h (any_holds_iff.mp hany)

theorem schedRemove_eq : schedRemove note es =
    es.map fun e => if e.live = true ∧ e.note = note then { e with live := false } else e := by
  simp only [schedRemove, holds_iff]

end

/-- The due times are compared by the sign bit of their difference (R1030). -/
theorem isDue_iff (t due : Word) : isDue t due = true ↔ (t - due).toNat < 2 ^ 31 := by
  rw [isDue, decide_eq_true_iff, BitVec.toInt_eq_toNat_cond]
  have := (t - due).isLt
  split <;> omega

/-! ## The operations that push one record (R1020 to R1025) -/

section
variable {s : State}

/-- An operation that only pushes completes, and leaves the note-off table. -/
theorem pushOnly_outcome (r : Record) (hring : s.ringOk) (hmem : s.memoryWf) :
    ∃ t, pushOnly r s = .ok t ∧ PushOutcome r s t ∧ t.sched = s.sched := by
  obtain ⟨t, ht⟩ := pushOnly_completes r hring.1
  obtain ⟨b, hp⟩ := pushOnly_ok ht
  exact ⟨t, ht, (push_outcome hp hring hmem).1, push_sched hp⟩

theorem apiNote_eq_false {note : Byte} (h : 127 < note.toNat) : apiNote note = false := decide_eq_false (by omega)

theorem playNote_of_dropped {note : Byte} (h : 127 < note.toNat) (vel : Byte) (gate : Word) (s : State) :
    playNote note vel gate s = .ok s := by
  rw [playNote, apiNote_eq_false h]
  rfl

/-- An accepted note is pushed, and its gate is scheduled if there was room and it is not 0. -/
theorem playNote_outcome {note : Byte} (h : note.toNat ≤ 127) (vel : Byte) (gate : Word) (hring : s.ringOk) (hmem : s.memoryWf) :
    ∃ u, PushOutcome (noteOnRecord note (apiVelocity vel)) s u ∧ playNote note vel gate s = .ok { u with
      sched := if gate ≠ 0 ∧ s.queueDepth < s.cfg.qcap - 1 then schedInsert note (s.draws.nowMs + gate) s.sched else s.sched } := by
  obtain ⟨t, ht⟩ := playNote_completes note vel gate hring.1
  rcases playNote_cases ht with ⟨hn, -⟩ | ⟨-, u, b, hp, hgate⟩
  · exact absurd h (of_decide_eq_false hn)
  · obtain ⟨houtcome, hroom⟩ := push_outcome hp hring hmem
    refine ⟨u, houtcome, ht.trans (congrArg _ ?_)⟩
    rcases hgate with ⟨hb, hg, rfl⟩ | ⟨hnone, rfl⟩
    · rw [if_pos ⟨hg, hroom.mp hb⟩]
    · rw [if_neg fun ⟨hg, hlt⟩ => hnone.elim (fun hb => by rw [hroom.mpr hlt] at hb; cases hb) hg, ← push_sched hp]

/-- A note of the chord is one noteOn at the test velocity (R1026). -/
theorem playChord_cons {n : Byte} {rest : List Byte} {ms : Word} {u : State} (h : playNote n s.cfg.testVel ms s = .ok u) :
    playChord (n :: rest) ms s = .ok (u, rest) := by
  rw [playChord, h]
  rfl

theorem playNote_ongoing {note vel : Byte} {gate : Word} {u : State} (h : playNote note vel gate s = .ok u) :
    u.ongoing = s.ongoing := by
  rw [playNote_frame h]

end

/-! ## Service (R1034) -/

/-- The number of records the ring still takes. -/
def State.room (s : State) : Nat := s.cfg.qcap - 1 - s.queueDepth

theorem push_room {r : Record} {s t : State} {b : Bool} (h : push r s = .ok (t, b)) (hring : s.ringOk) :
    (b = true ∧ s.room = t.room + 1) ∨ (b = false ∧ s.room = 0 ∧ t.room = 0) := by
  unfold State.room
  obtain ⟨hcfg, ⟨hb, hlt, hdepth, -⟩ | ⟨hb, hfull, hdepth, -⟩⟩ := push_depth h hring <;> rw [hcfg, hdepth]
  · exact .inl ⟨hb, by omega⟩
  · exact .inr ⟨hb, by omega, by omega⟩

/-- A push moves two counters: the drops and the high water mark. -/
theorem push_counters {r : Record} {s t : State} {b : Bool} (h : push r s = .ok (t, b)) : t.counters = { s.counters with
    queueDrops := if b then s.counters.queueDrops else s.counters.queueDrops + 1
    queueHighWater := t.counters.queueHighWater } := by
  rcases push_cases h with ⟨-, rfl, rfl⟩ | ⟨-, rfl, s', hs', rfl⟩
  · rfl
  · obtain ⟨m, rfl, -⟩ := memWrites_ok hs'
    rfl

@[simp] theorem queued_length (s : State) : s.queued.length = s.queueDepth := by simp [State.queued]

/-- One entry at service: a due one is pushed, and stays live if the push is dropped; any other is passed over. -/
theorem serveEntries_cons {now : Word} {e : SchedEntry} {es es' : List SchedEntry} {s t : State}
    (h : serveEntries now (e :: es) s = .ok (es', t)) :
    (e.isServed now = true ∧ ∃ u b es1, push (noteOffRecord e.note) s = .ok (u, b) ∧ serveEntries now es u = .ok (es1, t) ∧
      es' = { e with live := !b } :: es1) ∨
    (e.isServed now = false ∧ ∃ es1, serveEntries now es s = .ok (es1, t) ∧ es' = e :: es1) := by
  unfold serveEntries at h
  split at h
  · rename_i hserved
    obtain ⟨⟨u, b⟩, hp, h⟩ := bind_ok h
    obtain ⟨⟨es1, t1⟩, hr, h⟩ := bind_ok h
    cases h
    have hlive : e.live = true := (Bool.and_eq_true_iff.mp hserved).1
    exact .inl ⟨hserved, u, b, es1, hp, hr, by rw [hlive, Bool.true_and]⟩
  · rename_i hserved
    obtain ⟨⟨es1, t1⟩, hr, h⟩ := bind_ok h
    cases h
    exact .inr ⟨(Bool.not_eq_true _).mp hserved, es1, hr, rfl⟩

section
variable {now : Word} {e : SchedEntry}

theorem dueEntries_of_served (h : e.isServed now = true) (es : List SchedEntry) :
    dueEntries now (e :: es) = e :: dueEntries now es := List.filter_cons_of_pos h

theorem dueEntries_of_not_served (h : e.isServed now = false) (es : List SchedEntry) :
    dueEntries now (e :: es) = dueEntries now es := List.filter_cons_of_neg (ne_true_of_eq_false h)

theorem serveFirst_zero_of_served (h : e.isServed now = true) (es : List SchedEntry) :
    serveFirst now 0 (e :: es) = e :: serveFirst now 0 es := if_pos h

theorem serveFirst_succ_of_served (h : e.isServed now = true) (k : Nat) (es : List SchedEntry) :
    serveFirst now (k + 1) (e :: es) = { e with live := false } :: serveFirst now k es := if_pos h

theorem serveFirst_of_not_served (h : e.isServed now = false) (k : Nat) (es : List SchedEntry) :
    serveFirst now k (e :: es) = e :: serveFirst now k es := by
  cases k <;> exact if_neg (ne_true_of_eq_false h)

end

section
variable {now : Word} {es es' : List SchedEntry} {s t : State}

/-- While there is room the due entries stop being live; the others stay as they are. -/
theorem serveEntries_sched (h : serveEntries now es s = .ok (es', t)) (hring : s.ringOk) : es' = serveFirst now s.room es := by
  induction es generalizing s es' with
  | nil => cases h; rfl
  | cons e es ih =>
    rcases serveEntries_cons h with ⟨hserved, u, b, es1, hp, hr, rfl⟩ | ⟨hserved, es1, hr, rfl⟩
    · rw [ih hr (push_ringOk hp hring)]
      rcases push_room hp hring with ⟨rfl, hroom⟩ | ⟨rfl, hfull, hroom⟩
      · rw [hroom, serveFirst_succ_of_served hserved]; rfl
      · have hlive : e.live = true := (Bool.and_eq_true_iff.mp hserved).1
        rw [hfull, hroom, serveFirst_zero_of_served hserved, Bool.not_false, ← hlive]
    · rw [ih hr hring, serveFirst_of_not_served hserved]

/-- The records of the due entries stand behind the others, in index order, as far as there is room. -/
theorem serveEntries_queued (h : serveEntries now es s = .ok (es', t)) (hring : s.ringOk) (hmem : s.memoryWf) :
    t.queued = s.queued ++ ((dueEntries now es).take s.room).map fun e => noteOffRecord e.note := by
  induction es generalizing s es' with
  | nil => cases h; simp [dueEntries]
  | cons e es ih =>
    rcases serveEntries_cons h with ⟨hserved, u, b, es1, hp, hr, rfl⟩ | ⟨hserved, es1, hr, rfl⟩
    · rw [ih hr (push_ringOk hp hring) (push_memoryWf hp hmem), push_queued hp hring hmem, dueEntries_of_served hserved]
      rcases push_room hp hring with ⟨rfl, hroom⟩ | ⟨rfl, hfull, hroom⟩
      · rw [hroom, List.take_succ_cons, List.map_cons, if_pos rfl, List.append_assoc, List.singleton_append]
      · rw [hfull, hroom]; rfl
    · rw [ih hr hring hmem, dueEntries_of_not_served hserved]

/-- Each due entry beyond the room is one drop. -/
theorem serveEntries_drops (h : serveEntries now es s = .ok (es', t)) (hring : s.ringOk) : t.counters.queueDrops =
    s.counters.queueDrops + BitVec.ofNat 32 ((dueEntries now es).length - s.room) := by
  induction es generalizing s es' with
  | nil => cases h; simp [dueEntries]
  | cons e es ih =>
    rcases serveEntries_cons h with ⟨hserved, u, b, es1, hp, hr, rfl⟩ | ⟨hserved, es1, hr, rfl⟩
    · rw [ih hr (push_ringOk hp hring), push_counters hp, dueEntries_of_served hserved, List.length_cons]
      rcases push_room hp hring with ⟨rfl, hroom⟩ | ⟨rfl, hfull, hroom⟩
      · rw [hroom, Nat.add_sub_add_right, if_pos rfl]
      · simp only [hfull, hroom, Nat.sub_zero, Bool.false_eq_true, if_false, BitVec.ofNat_add]
        rw [BitVec.add_assoc, BitVec.add_comm 1]
        rfl
    · rw [ih hr hring, dueEntries_of_not_served hserved]

/-- Every byte outside the slots pushed to reads as before. -/
theorem serveEntries_readByte (h : serveEntries now es s = .ok (es', t)) (hring : s.ringOk) (hmem : s.memoryWf) {sp : Space}
    {a : Nat} (hout : sp = .ring → ∀ d, d < t.queueDepth - s.queueDepth →
      ¬ (3 * ((s.queue.head + d) % s.cfg.qcap) ≤ a ∧ a < 3 * ((s.queue.head + d) % s.cfg.qcap) + 3)) :
    t.readByte sp a = s.readByte sp a := by
  induction es generalizing s es' with
  | nil => cases h; rfl
  | cons e es ih =>
    rcases serveEntries_cons h with ⟨hserved, u, b, es1, hp, hr, rfl⟩ | ⟨hserved, es1, hr, rfl⟩
    · have hring' := push_ringOk hp hring
      have hmem' := push_memoryWf hp hmem
      have hgrown : u.queueDepth ≤ t.queueDepth := by
        rw [← queued_length, ← queued_length, serveEntries_queued hr hring' hmem', List.length_append]
        omega
      obtain ⟨hcfg, ⟨rfl, -, hdepth, -⟩ | ⟨rfl, -⟩⟩ := push_depth hp hring
      · have hpushed := push_pushed hp hmem
        have hlater := ih hr hring' hmem' fun hsp d hd => by
          rw [hpushed.head, hcfg, Nat.mod_add_mod, Nat.add_assoc, Nat.add_comm 1]
          exact hout hsp (d + 1) (by omega)
        have hfirst := hpushed.others sp a fun ⟨hsp, hin⟩ => hout hsp 0 (by omega) (by rwa [Nat.add_zero, Nat.mod_eq_of_lt hring.1])
        exact hlater.trans hfirst
      · obtain rfl := push_dropped hp
        exact (ih hr hring' hmem' hout :)
    · exact ih hr hring hmem hout

theorem serveEntries_counters (h : serveEntries now es s = .ok (es', t)) : t.counters = { s.counters with
    queueDrops := t.counters.queueDrops, queueHighWater := t.counters.queueHighWater } := by
  refine serveEntries_keeps (P := fun u => u.counters = { s.counters with
    queueDrops := u.counters.queueDrops, queueHighWater := u.counters.queueHighWater }) (fun hs hp => ?_) h rfl
  rw [push_counters hp, hs]

end

end Sys2Proof.Machine

namespace Sys2Proof
open Machine

/-- Settles O43: what one served entry does, carried along the table by induction. -/
theorem serviceReleasesDueGatesInOrder : Obligations.ServiceReleasesDueGatesInOrder := by
  intro now s hring hmem
  obtain ⟨⟨es, t⟩, h⟩ := serveEntries_completes now s.sched hring
  obtain ⟨hframe, htail, -⟩ := serveEntries_ok h
  exact ⟨{ t with sched := es }, finish_bind h, serveEntries_sched h hring, (serveEntries_queued h hring hmem :),
    (serveEntries_drops h hring :), (serveEntries_highWater h hring :), (serveEntries_counters h :), htail, by rw [hframe],
    fun sp a hout => (serveEntries_readByte h hring hmem hout :)⟩

/-- Settles O37: a note the core accepts is pushed, and its gate follows the push. -/
theorem noteOnPushesAndSchedulesItsGate : Obligations.NoteOnPushesAndSchedulesItsGate := by
  intro note vel gate s hring hmem
  refine ⟨fun hn => finish_next.mpr (playNote_of_dropped hn vel gate s), fun hn => ?_⟩
  obtain ⟨u, houtcome, hplay⟩ := playNote_outcome hn vel gate hring hmem
  exact ⟨u, houtcome, finish_next.mpr hplay⟩

/-- Settles O38: a held note is refreshed where it stands, and `schedTake` finds the first entry that is not live. -/
theorem scheduleRefreshesOrTakesTheFirstFreeEntry : Obligations.ScheduleRefreshesOrTakesTheFirstFreeEntry := by
  intro note due es
  refine ⟨schedInsert_of_held, fun hnone => ?_⟩
  rw [schedInsert_of_not_held hnone]
  exact ⟨fun i e he hfree hbefore => schedTake_eq_set he hfree hbefore, schedTake_of_all_live⟩

/-- Settles O39: the push completes, and the table it leaves is the one the gates are cancelled in. -/
theorem noteOffsPushAndCancelGates : Obligations.NoteOffsPushAndCancelGates := by
  refine ⟨fun note s hring hmem => ⟨fun hn => ?_, fun hn => ?_⟩, fun s hring hmem => ?_⟩
  · rw [exec, execNoteOff, apiNote_eq_false hn]
    rfl
  · obtain ⟨u, hu, houtcome, hsched⟩ := pushOnly_outcome (noteOffRecord note) hring hmem
    refine ⟨u, houtcome, ?_⟩
    rw [exec, execNoteOff, if_pos (show apiNote note = true from decide_eq_true hn), finish_bind hu, hsched, schedRemove_eq]
    rfl
  · obtain ⟨u, hu, houtcome, hsched⟩ := pushOnly_outcome allNotesOffRecord hring hmem
    refine ⟨u, houtcome, ?_⟩
    rw [exec, execAllNotesOff, finish_bind hu, hsched]
    rfl

/-- Settles O40: the two guards of drumHit fail, or its record is pushed. -/
theorem drumHitIsGatedByDrumsEnabled : Obligations.DrumHitIsGatedByDrumsEnabled := by
  refine fun s => ⟨fun part vel hring hmem => ⟨fun hoff => if_neg ?_, fun hon hpart => ?_⟩, fun b => rfl⟩
  · rw [Bool.and_eq_true, apiPart, decide_eq_true_iff]
    rintro ⟨hon, hpart⟩
    rcases hoff with hoff | hoff
    · rw [hoff] at hon; cases hon
    · omega
  · obtain ⟨t, ht, houtcome, -⟩ := pushOnly_outcome (drumHitRecord part (apiVelocity vel)) hring hmem
    have hguard : (s.drumsEnabled && apiPart part) = true := Bool.and_eq_true_iff.mpr ⟨hon, decide_eq_true hpart⟩
    exact ⟨t, (if_pos hguard).trans (finish_next.mpr ht), houtcome⟩

/-- Settles O41: the operation is the push of its record. -/
theorem allDrumsOffPushesItsCommand : Obligations.AllDrumsOffPushesItsCommand := by
  intro s hring hmem
  obtain ⟨t, ht, houtcome, -⟩ := pushOnly_outcome allDrumsOffRecord hring hmem
  exact ⟨t, finish_next.mpr ht, houtcome⟩

/-- Settles O42: a chord step with a note left is that note's noteOn, for the call's own step and for a resumed one. -/
theorem testChordIsASequenceOfNoteOns : Obligations.TestChordIsASequenceOfNoteOns := by
  intro ms s hring
  refine ⟨fun hnil => ?_, fun n left hchord => ?_, fun j n left hj => ?_⟩
  · have hplay : playChord s.cfg.testChord ms s = .ok (s, []) := by rw [hnil]; rfl
    rw [exec, execTriggerTestChord, finish_bind hplay, chordLeft, if_pos rfl, List.append_nil]
    rfl
  · obtain ⟨u, hu⟩ := playNote_completes n s.cfg.testVel ms hring.1
    have hplay : playChord s.cfg.testChord ms s = .ok (u, left) := hchord ▸ playChord_cons hu
    refine ⟨u, finish_next.mpr hu, ?_⟩
    rw [exec, execTriggerTestChord, finish_bind hplay, playNote_ongoing hu]
    rfl
  · obtain ⟨u, hu⟩ := playNote_completes n s.cfg.testVel ms hring.1
    refine ⟨u, finish_next.mpr hu, ?_⟩
    rw [agentStep, resumeStep, hj]
    refine (finish_bind (playChord_cons hu)).trans ?_
    rw [← playNote_ongoing hu]
    rfl

/-- Settles O44: the difference of the words is that of the times modulo 2^32, whose upper half stands for a time to come. -/
theorem dueTimesCompareAcrossTheWrap : Obligations.DueTimesCompareAcrossTheWrap := by
  refine ⟨fun t due => decide_eq_true_iff, fun a b hab hba => ?_⟩
  rw [isDue_iff, BitVec.toNat_sub, BitVec.toNat_ofNat, BitVec.toNat_ofNat]
  omega

end Sys2Proof
end

section
/-! PROOFS. The render context's loop (46_scheduler_api.md R1003 to R1005): what each phase leads to, what SNAP writes and what
WRITE counts. -/

namespace Sys2Proof.Machine

/-! ## The phases of a block (R1001 to R1004) -/

theorem step_renderStep {s : State} {d : Draws} {rest : List Input} (hin : s.inputs = ⟨.render, d⟩ :: rest) :
    step s = renderStep (s.take ⟨.render, d⟩ rest) := step_cons hin

/-- A step of RENDER goes on to the next frame, or to WRITE. -/
theorem renderPhase_phase {k : Nat} {s t : State} (h : renderPhase k s = .ok t) :
    t.life.phase = .render (k + 1) ∨ t.life.phase = .write := by
  have hend {u : State} (hb : finishBlock u = .ok t) : t.life.phase = .write := by
    obtain ⟨image, -, rfl⟩ := finishBlock_ok hb
    rfl
  rcases renderPhase_ok h with ⟨-, u, -, ⟨-, rfl⟩ | ⟨-, hb⟩⟩ | ⟨-, hb⟩
  · exact .inl rfl
  · exact .inr (hend hb)
  · exact .inr (hend hb)

/-- A step of DRAIN stays there with its command, or goes on to RENDER. -/
theorem drainPhase_phase {s t : State} (h : drainPhase s = .next t) :
    t.life.phase = s.life.phase ∨ t.life.phase = .render 0 := by
  rcases drainPhase_cases h with ⟨-, rfl⟩ | ⟨-, i, hi, hx⟩
  · exact .inr rfl
  · rw [exec_command_frame (decodeRecord_isCommand hi).1 hx]
    exact .inl rfl

/-- The render context takes the phases in their order. -/
theorem renderStep_successor {s t : State} (h : renderStep s = .next t) :
    t.life.phase ∈ s.life.phase.successors s.life.enabled := by
  unfold renderStep at h
  split at h <;> rename_i hphase <;> rw [hphase]
  · cases h; rw [hphase]; exact List.mem_singleton_self _
  · cases h
    rcases loopTest_cases s with ⟨hon, he⟩ | ⟨hoff, he⟩
    · rw [he, hon]; exact List.mem_singleton_self _
    · rw [he, hoff]; exact List.mem_singleton_self _
  · obtain ⟨-, rfl⟩ := snapPhase_ok (finish_next.mp h)
    exact List.mem_singleton_self _
  · rcases drainPhase_phase h with ht | ht <;> simp [ht, hphase, Phase.successors]
  · rcases renderPhase_phase (finish_next.mp h) with ht | ht <;> simp [ht, Phase.successors]
  · obtain ⟨u, -, rfl⟩ := writePhase_ok (finish_next.mp h)
    exact List.mem_singleton_self _

/-- A host call that answers a next state is a start, by its decoding, or has the effect of a control context. -/
theorem runFetched_call_cases {c : HostCall} {s t : State} (h : runFetched (.call c) s = .next t) :
    ControlEffect s t ∨ ∃ k rate size, decodeCall c = .ok (.start k rate size) ∧ execStart k rate size s = .next t := by
  obtain ⟨i, hi, hx⟩ := runFetched_next h
  by_cases hs : ∃ k rate size, i = .start k rate size
  · obtain ⟨k, rate, size, rfl⟩ := hs
    exact .inr ⟨k, rate, size, hi, hx⟩
  · exact .inl (exec_host_effect (decodeCall_not_isCommand hi) (fun k rate size he => hs ⟨k, rate, size, he⟩) hx)

theorem ControlEffect.phase {s t : State} (h : ControlEffect s t) : t.life.phase = s.life.phase := by
  rw [h.keepsRenderState]

theorem launched_cases (p : Phase) : p.launched = p ∨ (p.launched = .loopTest ∧ p = .absent) := by
  cases p <;> simp [Phase.launched, Phase.inFlight]

/-- A start leaves the loop position, or launches a render context that was in no loop (70_reset_and_hazards.md R1202). -/
theorem execStart_phase {k : SinkConfig} {rate size : Word} {s t : State} (h : execStart k rate size s = .next t) :
    t.life.phase = s.life.phase ∨
    (t.life.phase = .loopTest ∧ s.life.phase = .absent ∧ s.life.running = false ∧ t.life.running = true) := by
  rcases execStart_cases h with ⟨-, rfl⟩ | ⟨hrun, -, -, ⟨-, rfl⟩ | ⟨-, rfl⟩⟩
  · exact .inl rfl
  · exact (launched_cases s.life.phase).imp_right fun ⟨hl, ha⟩ => ⟨hl, ha, hrun, rfl⟩
  · exact .inl rfl

/-! ## WRITE (R1005) -/

/-- A failed write counts as a failure and an underrun, a short one as an underrun, and a whole one not at all. -/
theorem account_eq_counters (n : Nat) (ok : Bool) (s : State) : account n ok s = { s with counters :=
    if ok = false then { s.counters with
      sinkWriteFailures := s.counters.sinkWriteFailures + 1
      underrunsTotal := s.counters.underrunsTotal + 1
      underrunsPending := s.counters.underrunsPending + 1 }
    else if n < 4 * s.life.blockSize then { s.counters with
      underrunsTotal := s.counters.underrunsTotal + 1
      underrunsPending := s.counters.underrunsPending + 1 }
    else s.counters } := by
  cases ok with
  | false => rfl
  | true =>
    by_cases hshort : n < 4 * s.life.blockSize
    · simp [account, hshort, raise]
    · simp [account, hshort]

theorem endBlock_of_not_late {s : State} (h : s.life.late = false) : s.endBlock = s.setPhase .loopTest := by
  rw [State.endBlock, ← h]
  rfl

theorem writePhase_of_no_call {s : State} (h : s.life.late = true ∨ s.life.sink = none) :
    writePhase s = .ok (recordRenderTime (account 0 false s)).endBlock := by
  obtain ⟨t, ht⟩ := writePhase_completes (s := s) fun hl hs => h.elim (fun hlate => by rw [hl] at hlate; cases hlate) (absurd · hs)
  obtain ⟨u, hu, rfl⟩ := writePhase_ok ht
  rcases sinkWrite_ok hu with ⟨-, rfl⟩ | ⟨hl, hs, -⟩
  · exact ht
  · exact absurd h (by simp [hl, hs])

/-- With a sink the whole block is offered, and its image is what stands in BLOCK. -/
theorem writePhase_of_sink {s : State} (hlate : s.life.late = false) (hsink : s.life.sink ≠ none)
    (hwritten : s.blockWritten (4 * s.life.blockSize)) :
    ∃ image : List Byte, image.length = 4 * s.life.blockSize ∧ (∀ a b, image[a]? = some b → s.readByte .block a = some b) ∧
      writePhase s = .ok (recordRenderTime (account (drawnBytes s image.length) s.draws.writeOk
        (s.emit (.sinkWrite image.length s.cfg.sinkTimeoutMs (image.take (drawnBytes s image.length)) s.draws.writeOk)))).endBlock := by
  obtain ⟨image, hi, hlen⟩ := blockImage_completes hwritten
  obtain ⟨t, ht⟩ := writePhase_completes fun _ _ => hwritten
  obtain ⟨u, hu, rfl⟩ := writePhase_ok ht
  refine ⟨image, hlen, fun a b hb => by simpa using memReads_get hi a b hb, ?_⟩
  rcases sinkWrite_ok hu with ⟨hno, -⟩ | ⟨-, -, image', hi', rfl⟩
  · exact absurd hno (by simp [hlate, hsink])
  · obtain rfl := Except.ok.inj (hi.symm.trans hi')
    exact ht

end Sys2Proof.Machine

namespace Sys2Proof
open Machine

/-- Settles O16: the step is SNAP, whose filter is that of `configure`; the types differ in their numerator alone. -/
theorem snapCopiesTheActiveRecordAndConfigures : Obligations.SnapCopiesTheActiveRecordAndConfigures := by
  intro s d rest hin hphase hstarted a p rate w0 c alpha a0
  obtain ⟨t, ht⟩ := snapPhase_completes (s := s.take ⟨.render, d⟩ rest) hstarted
  have hstep : step s = .next t := by
    rw [step_renderStep hin, renderStep, take_life, hphase]
    exact finish_next.mpr ht
  obtain ⟨-, rfl⟩ := snapPhase_ok ht
  refine ⟨s.filter.configure a p.filterType s.life.fs p.cutoff p.resonance, hstep, rfl, rfl, rfl, rfl, rfl, ?_⟩
  refine ⟨fun htype => ?_, fun htype => ?_, fun htype => ?_⟩
  · rw [htype]; exact ⟨rfl, rfl, rfl⟩
  · rw [htype]; exact ⟨rfl, rfl, rfl⟩
  · rw [htype]; exact ⟨rfl, rfl, rfl⟩

/-- Settles O17: the successors of a render step, and the one control step that moves the position. -/
theorem blockPhasesFollowOneAnother : Obligations.BlockPhasesFollowOneAnother := by
  rintro s t ⟨m, d⟩ rest hin h
  rw [step_cons hin] at h
  cases m with
  | render => exact ⟨fun _ => renderStep_successor (s := s.take _ rest) h, fun hne => absurd rfl hne⟩
  | resume j =>
    exact ⟨fun he => Move.noConfusion he, fun _ => .inl (resumeStep_effect (finish_next.mp h)).phase⟩
  | call c =>
    refine ⟨fun he => Move.noConfusion he, fun _ => ?_⟩
    rcases runFetched_call_cases h with hc | ⟨k, rate, size, hdecode, hx⟩
    · exact .inl hc.phase
    · exact (execStart_phase hx).imp_right fun ⟨ht, hs, hoff, hon⟩ => ⟨ht, hs, hoff, hon, c, k, rate, size, rfl, hdecode⟩

/-- Settles O22: WRITE calls no device or offers the block, and accounts what it is told. -/
theorem writeAccountsEveryUnderrun : Obligations.WriteAccountsEveryUnderrun := by
  intro s d rest hin hphase timed under failed
  have hstep : step s = finish (writePhase (s.take ⟨.render, d⟩ rest)) := by
    rw [step_renderStep hin, renderStep, take_life, hphase]
  rw [hstep]
  refine ⟨fun hno => ?_, fun hlate hsink hwritten => ?_⟩
  · exact finish_next.mpr (writePhase_of_no_call (s := s.take ⟨.render, d⟩ rest) hno)
  · obtain ⟨image, hlen, hbytes, hwrite⟩ := writePhase_of_sink (s := s.take ⟨.render, d⟩ rest) hlate hsink hwritten
    refine ⟨image, hlen, hbytes, (finish_next.mpr hwrite).trans (congrArg _ ?_)⟩
    rw [endBlock_of_not_late (by simpa using hlate), account_eq_counters, hlen]
    rfl

/-- Settles O15: the loop test reads `enabled`, and a context outside its loop does nothing. -/
theorem loopTestDecidesOnEnabled : Obligations.LoopTestDecidesOnEnabled := by
  intro s d rest hin
  rw [step_renderStep hin, renderStep, take_life]
  refine ⟨fun hphase hon => ?_, fun hphase hoff => ?_, fun hphase => by rw [hphase]⟩ <;> rw [hphase]
  · rcases loopTest_cases (s.take ⟨.render, d⟩ rest) with ⟨-, he⟩ | ⟨hoff, -⟩
    · exact congrArg _ he
    · rw [take_life, hon] at hoff; cases hoff
  · rcases loopTest_cases (s.take ⟨.render, d⟩ rest) with ⟨hon, -⟩ | ⟨-, he⟩
    · rw [take_life, hoff] at hon; cases hon
    · exact congrArg _ he

end Sys2Proof
end

section
/-! PROOFS. The lifecycle, fade and diagnostic operations (46_scheduler_api.md §2 and §5): start, the four steps of stop, the fade
requests with their ramp, and what the queries answer. -/

namespace Sys2Proof.Machine

/-! ## start (R1010) -/

theorem execStart_of_running {s : State} (h : s.life.running = true) (k : SinkConfig) (rate size : Word) :
    execStart k rate size s = .next (s.answer (.flag true)) := if_pos h

theorem execStart_of_bad_config {k : SinkConfig} {rate size : Word} {s : State} (hrun : s.life.running = false)
    (h : rate.toNat ≤ refusedRate ∨ size.toNat < 1) : execStart k rate size s = .refused .badStartConfig := by
  rw [execStart, if_neg (ne_true_of_eq_false hrun), if_pos h]

/-- A start whose sink configures is the successful one, behind the observed call. -/
theorem execStart_of_configured {k : SinkConfig} {rate size : Word} {s : State} (hrun : s.life.running = false)
    (hrate : refusedRate < rate.toNat) (hsize : 1 ≤ size.toNat) (hok : s.draws.configureOk = true) :
    execStart k rate size s = .next (startDone k (State.emit
      { s with life := { s.life with fs := rate.toNat, blockSize := size.toNat } }
      (.sinkConfigure rate.toNat 16 2 (sinkFnAt s.cfg.sinkBufferCount k) (sinkFnAt s.cfg.sinkBufferLen k) true))) := by
  rw [execStart, if_neg (ne_true_of_eq_false hrun), if_neg (by omega)]
  refine (if_pos hok).trans ?_
  rw [← hok]
  rfl

/-! ## stop (R1011) -/

section
variable {s : State} {j : Nat} {d : Draws} {rest : List Input}

theorem execStop_of_running (h : s.life.running = true) : execStop s =
    .next { fadeRequest false s.cfg.stopFadeMs s with ongoing := s.ongoing ++ [.stopDisable] } := if_pos h

/-- A step of the context inside operation `j` is the further step of that operation. -/
theorem step_resume (hin : s.inputs = ⟨.resume j, d⟩ :: rest) {t : State}
    (h : resumeStep j (s.take ⟨.resume j, d⟩ rest) = .ok t) : step s = .next t := by
  rw [step_cons hin]
  exact finish_next.mpr h

theorem resumeStep_stopDisable (h : s.ongoing[j]? = some .stopDisable) : resumeStep j s = .ok (stopDisableStep j s) := by
  rw [resumeStep, h]

theorem resumeStep_stopAwait {bound : Word} (h : s.ongoing[j]? = some (.stopAwait bound)) :
    resumeStep j s = .ok (stopAwaitStep j s) := by
  rw [resumeStep, h]

theorem resumeStep_stopTearDown (h : s.ongoing[j]? = some .stopTearDown) :
    resumeStep j s = .ok (tearDown (s.replaceOngoing j [])) := by
  rw [resumeStep, h]

/-- The wait ends with the acknowledgement or with its bound; the event E5 leaves no trace in the state. -/
theorem stopAwaitStep_of_over (h : s.life.ack = true ∨ s.draws.waitExpired = true) :
    stopAwaitStep j s = s.replaceOngoing j [.stopTearDown] := by
  unfold stopAwaitStep
  split
  · rfl
  · rw [if_pos (h.resolve_left ‹_›)]; rfl

theorem stopAwaitStep_of_waiting (hack : s.life.ack = false) (hbound : s.draws.waitExpired = false) : stopAwaitStep j s = s := by
  rw [stopAwaitStep, if_neg (ne_true_of_eq_false hack), if_neg (ne_true_of_eq_false hbound)]

/-- The tear-down silences and releases the sink that is held. -/
theorem tearDown_eq_trace (s : State) : tearDown s = { s with
    life := { s.life with sink := none, running := false }
    trace := (if s.life.sink = none then [] else [.sinkRelease, .sinkFlush]) ++ s.trace } := by
  unfold tearDown
  by_cases h : s.life.sink = none
  · rw [if_pos h, if_pos h]; rfl
  · rw [if_neg h, if_neg h]; rfl

/-! The operation under way that was added last: its steps leave the earlier ones. -/

variable {os : List Ongoing}

theorem replace_last {α : Type} (os new : List α) (o : α) :
    (os ++ [o]).take os.length ++ new ++ (os ++ [o]).drop (os.length + 1) = os ++ new := by simp

theorem resumeStep_stopDisable_last (ho : s.ongoing = os ++ [.stopDisable]) : resumeStep os.length s = .ok { s with
    life := { s.life with enabled := false }, ongoing := os ++ [.stopAwait s.cfg.stopWaitMs] } := by
  rw [resumeStep_stopDisable (by simp [ho])]
  simp only [stopDisableStep, State.replaceOngoing, ho, replace_last]

theorem resumeStep_stopAwait_last {bound : Word} (ho : s.ongoing = os ++ [.stopAwait bound])
    (hover : s.life.ack = true ∨ s.draws.waitExpired = true) :
    resumeStep os.length s = .ok { s with ongoing := os ++ [.stopTearDown] } := by
  rw [resumeStep_stopAwait (bound := bound) (by simp [ho]), stopAwaitStep_of_over hover]
  simp only [State.replaceOngoing, ho, replace_last]

theorem resumeStep_stopTearDown_last (ho : s.ongoing = os ++ [.stopTearDown]) (hsink : s.life.sink ≠ none) :
    resumeStep os.length s = .ok { s with
      life := { s.life with sink := none, running := false }, ongoing := os, trace := .sinkRelease :: .sinkFlush :: s.trace } := by
  rw [resumeStep_stopTearDown (by simp [ho]), tearDown_eq_trace]
  simp only [State.replaceOngoing, ho, replace_last, if_neg hsink]
  rw [List.append_nil]
  rfl

end

/-- The state `s` inside a stop call with the operations `os` added: faded to silence, with `life`, `inputs` and `draws`. -/
def State.stopping (s : State) (life : Lifecycle) (os : List Ongoing) (inputs : List Input) (draws : Draws) : State :=
  { s with
    life := life
    fade := (fadeRequest false s.cfg.stopFadeMs s).fade
    ongoing := s.ongoing ++ os
    inputs := inputs
    draws := draws }

section
variable {s : State} {life : Lifecycle} {d d' : Draws} {rest : List Input}

/-- The stop call of the host, step 1. -/
theorem step_stop (hin : s.inputs = ⟨.call ⟨0x02, []⟩, d⟩ :: rest) (hrun : s.life.running = true) :
    step s = .next (s.stopping s.life [.stopDisable] rest d) := by
  rw [step_cons hin]
  exact execStop_of_running (s := s.take _ rest) hrun

theorem step_stopping_disable : step (s.stopping life [.stopDisable] (⟨.resume s.ongoing.length, d'⟩ :: rest) d) =
    .next (s.stopping { life with enabled := false } [.stopAwait s.cfg.stopWaitMs] rest d') :=
  step_resume rfl (resumeStep_stopDisable_last rfl)

theorem step_stopping_await {bound : Word} (hover : life.ack = true ∨ d'.waitExpired = true) :
    step (s.stopping life [.stopAwait bound] (⟨.resume s.ongoing.length, d'⟩ :: rest) d) =
      .next (s.stopping life [.stopTearDown] rest d') :=
  step_resume rfl (resumeStep_stopAwait_last rfl hover)

theorem step_stopping_tearDown (hsink : life.sink ≠ none) :
    step (s.stopping life [.stopTearDown] (⟨.resume s.ongoing.length, d'⟩ :: rest) d) = .next { s with
      life := { life with sink := none, running := false }
      fade := (fadeRequest false s.cfg.stopFadeMs s).fade, inputs := rest, draws := d'
      trace := .sinkRelease :: .sinkFlush :: s.trace } :=
  step_resume rfl (resumeStep_stopTearDown_last rfl hsink)

end

/-! ## The fade (R1013, 45_render_pipeline.md R933) -/

theorem fadeRequest_at_once {ms : Word} {s : State} (h : ms = 0 ∨ s.life.started = false) (target : Bool) :
    fadeRequest target ms s = { s with fade := { level := fadeGoal target, target := target, step := .fin 0 } } := by
  rw [fadeRequest, if_pos h]

theorem fadeRequest_ramp {ms : Word} {s : State} (hms : ms ≠ 0) (hs : s.life.started = true) (target : Bool) :
    fadeRequest target ms s = { s with fade := {
      level := s.fade.level
      target := target
      step := s.cfg.arith.div (.fin 1000)
        (s.cfg.arith.mul (s.cfg.arith.const (ms.toNat : Nat)) (s.cfg.arith.const (s.life.fs : Nat))) } } := by
  rw [fadeRequest, if_neg (not_or.mpr ⟨hms, ne_false_of_eq_true hs⟩)]
  rfl

theorem fadeRequest_target (target : Bool) (ms : Word) (s : State) : (fadeRequest target ms s).fade.target = target := by
  unfold fadeRequest
  dsimp only
  split <;> rfl

/-- The level `n` steps of size `r` after `l`, on the way to the target. -/
def rampLevel (target : Bool) (l r : Rat) (n : Nat) : Rat := if target = true then min 1 (l + n * r) else max 0 (l - n * r)

theorem rampLevel_zero {l : Rat} (h0 : 0 ≤ l) (h1 : l ≤ 1) (target : Bool) (r : Rat) : rampLevel target l r 0 = l := by
  cases target <;> simp [rampLevel, h0, h1]

theorem rampLevel_unit {l r : Rat} (h0 : 0 ≤ l) (h1 : l ≤ 1) (hr : 0 ≤ r) (target : Bool) (n : Nat) :
    0 ≤ rampLevel target l r n ∧ rampLevel target l r n ≤ 1 := by
  have hn : 0 ≤ n * r := by positivity
  cases target
  · exact ⟨le_max_left _ _, max_le zero_le_one (by linarith)⟩
  · exact ⟨le_min zero_le_one (by linarith), min_le_left _ _⟩

/-- A step on from a level of the ramp is the next level, for the bound holds both. -/
theorem rampLevel_succ {l r : Rat} (hr : 0 ≤ r) (target : Bool) (n : Nat) :
    rampLevel target l r (n + 1) = rampLevel target (rampLevel target l r n) r 1 := by
  have hnext : ((n + 1 : Nat) : Rat) * r = n * r + r := by push_cast; ring
  cases target
  · have hmax := max_sub_sub_right 0 (l - n * r) r
    simp only [rampLevel, hnext, Nat.cast_one, one_mul, Bool.false_eq_true, if_false]
    rw [← hmax, ← max_assoc, max_eq_left (by linarith : 0 - r ≤ 0), ← sub_sub]
  · have hmin := min_add_add_right 1 (l + n * r) r
    simp only [rampLevel, hnext, Nat.cast_one, one_mul, if_true]
    rw [← hmin, ← min_assoc, min_eq_left (by linarith : 1 ≤ 1 + r), ← add_assoc]

/-- One advance in the reals moves the level one step, and holds it at the target. -/
theorem fade_advance_reals (bits : Nat) {f : Fade} {v r : Rat} (hlevel : f.level = .fin v) (hstep : f.step = .fin r)
    (h0 : 0 ≤ v) (h1 : v ≤ 1) (hr : 0 ≤ r) : f.advance (.reals bits) = { f with level := .fin (rampLevel f.target v r 1) } := by
  rw [fade_advance_eq, hlevel, hstep]
  congr 1
  cases f.target
  · rcases h0.eq_or_lt with rfl | hpos
    · simp [fadeGoal, rampLevel, hr]
    · simp [fadeGoal, rampLevel, hpos, h0]
  · rcases h1.eq_or_lt with rfl | hlt
    · simp [fadeGoal, rampLevel, hr]
    · simp [fadeGoal, rampLevel, hlt]

theorem fade_iterate_reals (bits n : Nat) {f : Fade} {l r : Rat} (hlevel : f.level = .fin l) (hstep : f.step = .fin r)
    (h0 : 0 ≤ l) (h1 : l ≤ 1) (hr : 0 ≤ r) :
    (Fade.advance (.reals bits))^[n] f = { f with level := .fin (rampLevel f.target l r n) } := by
  induction n with
  | zero => rw [rampLevel_zero h0 h1, ← hlevel]; rfl
  | succ n ih =>
    obtain ⟨hn0, hn1⟩ := rampLevel_unit h0 h1 hr f.target n
    rw [Function.iterate_succ_apply', ih, rampLevel_succ hr]
    exact fade_advance_reals bits rfl hstep hn0 hn1 hr

end Sys2Proof.Machine

namespace Sys2Proof
open Machine

/-- Settles O34: each step by its own lemma, and the four in a row on the operation that the call has added. -/
theorem stopRunsItsFourStepsToTheEnd : Obligations.StopRunsItsFourStepsToTheEnd := by
  refine ⟨fun s => ⟨fun hoff => if_neg (ne_true_of_eq_false hoff), fun hrun => ⟨_, rfl, execStop_of_running hrun⟩⟩,
    fun s j d rest hin => ?_, fun s d0 d1 d2 d3 rest hrun hsink hin hover => ?_⟩
  · intro now left
    refine ⟨fun hj => ?_, fun bound hj => ⟨fun hover => ?_, fun hack hbound => ?_⟩, fun hj => ?_⟩
    · exact step_resume hin (resumeStep_stopDisable (s := now) hj)
    · exact step_resume hin ((resumeStep_stopAwait (s := now) hj).trans (congrArg _ (stopAwaitStep_of_over hover)))
    · exact step_resume hin ((resumeStep_stopAwait (s := now) hj).trans (congrArg _ (stopAwaitStep_of_waiting hack hbound)))
    · exact step_resume hin ((resumeStep_stopTearDown (s := now) hj).trans (congrArg _ (tearDown_eq_trace _)))
  · exact ⟨_, _, _, _, step_stop hin hrun, step_stopping_disable, step_stopping_await hover, step_stopping_tearDown hsink, rfl,
      fadeRequest_target false _ _⟩

/-- Settles O36: a fade request by its two cases, and the ramp by induction on the advances. -/
theorem fadeRequestsRampLinearly : Obligations.FadeRequestsRampLinearly := by
  refine ⟨fun ms s => ⟨fun hnow => ?_, fun hms hs => ?_⟩, fun bits n f l r => fade_iterate_reals bits n⟩
  · exact ⟨congrArg _ (fadeRequest_at_once hnow true), congrArg _ (fadeRequest_at_once hnow false)⟩
  · exact ⟨congrArg _ (fadeRequest_ramp hms hs true), congrArg _ (fadeRequest_ramp hms hs false)⟩

/-- Settles O31: start looks at `running` before its operands, and at its operands before the sink. -/
theorem startWhileRunningChangesNothing : Obligations.StartWhileRunningChangesNothing :=
  fun k rate size _ => ⟨fun hrun => execStart_of_running hrun k rate size, fun hoff hbad => execStart_of_bad_config hoff hbad⟩

/-- Settles O33: what R1200 lists is what `startDone` resets, behind the observed call of the sink. -/
theorem successfulStartResetsAndLaunches : Obligations.SuccessfulStartResetsAndLaunches :=
  fun _ _ _ _ hrun hrate hsize hok => execStart_of_configured hrun hrate hsize hok

/-- Settles O35: the operation answers the flag. -/
theorem runningAnswersTheFlag : Obligations.RunningAnswersTheFlag := fun _ => rfl

/-- Settles O48: the count answered is the one exchanged with 0, which a second call finds. -/
theorem consumeUnderrunsExchangesThePendingCount : Obligations.ConsumeUnderrunsExchangesThePendingCount := by
  refine fun s => ⟨rfl, fun t ht => ⟨_, rfl, ?_⟩⟩
  cases ht
  rfl

/-- Settles O49: the operation answers the record of `perfSnapshot`. -/
theorem perfSnapshotReportsTheCounters : Obligations.PerfSnapshotReportsTheCounters := fun _ => rfl

end Sys2Proof
end

section
/-! PROOFS. What the environment answers and what it reaches (60_exceptions.md §3): a start whose sink does not configure
(R1104), and two runs that differ only in what the sink and the clock answer the render context (R1131). -/

namespace Sys2Proof.Machine

/-! ## A start whose sink does not configure (R1104) -/

/-- A start whose sink does not configure is the failed one, behind the observed call. -/
theorem execStart_of_unconfigured {k : SinkConfig} {rate size : Word} {s : State} (hrun : s.life.running = false)
    (hrate : refusedRate < rate.toNat) (hsize : 1 ≤ size.toNat) (hfail : s.draws.configureOk = false) :
    execStart k rate size s = .next (startFailed (State.emit
      { s with life := { s.life with fs := rate.toNat, blockSize := size.toNat } }
      (.sinkConfigure rate.toNat 16 2 (sinkFnAt s.cfg.sinkBufferCount k) (sinkFnAt s.cfg.sinkBufferLen k) false))) := by
  rw [execStart, if_neg (ne_true_of_eq_false hrun), if_neg (by omega)]
  refine (if_neg (ne_true_of_eq_false hfail)).trans ?_
  rw [← hfail]
  rfl

/-! ## States that differ in what the environment answers (R1131)

Every operation, run in two states of one view, completes in the second where it completes in the first and leaves
states of one view; an update of what both runs share is one use of `SameView.map`. -/

/-- `s` with the counters, the coming inputs, the draws and the observations of `u`. -/
def State.under (s u : State) : State :=
  { s with counters := u.counters, inputs := u.inputs, draws := u.draws, trace := u.trace }

/-- Two states of the same sound as the agent of the move `m` sees them: only the render context, which reads its draws
in WRITE alone, may find other draws. -/
structure SameView (m : Move) (s u : State) : Prop extends SameSound s u where
  draws : m ≠ .render → s.draws = u.draws

/-- What `f` makes of the rest of the state does not depend on counters, coming inputs, draws or observations, and `f`
keeps the inputs, the draws and the block images. -/
structure Oblivious (f : State → State) : Prop where
  core : ∀ s u, f (s.under u) = (f s).under (f (s.under u)) := by intros; rfl
  inputs : ∀ s, (f s).inputs = s.inputs := by intros; rfl
  draws : ∀ s, (f s).draws = s.draws := by intros; rfl
  images : ∀ s, blockImages (f s).trace = blockImages s.trace := by intros; rfl

/-- Where `x` completes, `y` completes with a related value. -/
def FollowsRun {α : Type} (R : α → α → Prop) (x y : Run α) : Prop := ∀ a, x = .ok a → ∃ b, y = .ok b ∧ R a b

/-- Where `x` answers a next state, `y` answers one of the same view. -/
def FollowsStep (m : Move) (x y : Outcome) : Prop := ∀ t, x = .next t → ∃ v, y = .next v ∧ SameView m t v

section
variable {m : Move} {α β : Type} {R : α → α → Prop} {S : β → β → Prop}

theorem FollowsRun.ok {a b : α} (h : R a b) : FollowsRun R (.ok a) (.ok b) := by
  intro c hc
  cases hc
  exact ⟨b, rfl, h⟩

theorem FollowsRun.error (e : Stop) (y : Run α) : FollowsRun R (.error e) y := fun _ h => nomatch h

theorem FollowsRun.bind {x y : Run α} {f g : α → Run β} (h : FollowsRun R x y) (hfg : ∀ a b, R a b → FollowsRun S (f a) (g b)) :
    FollowsRun S (x >>= f) (y >>= g) := by
  intro c hc
  obtain ⟨a, ha, hc⟩ := bind_ok hc
  obtain ⟨b, rfl, hab⟩ := h a ha
  exact hfg a b hab c hc

/-- Both sides begin with one computation. -/
theorem FollowsRun.bind_same (x : Run α) {f g : α → Run β} (hfg : ∀ a, FollowsRun S (f a) (g a)) :
    FollowsRun S (x >>= f) (x >>= g) :=
  FollowsRun.bind (R := Eq) (fun a ha => ⟨a, ha, rfl⟩) fun a _ hab => hab ▸ hfg a

theorem FollowsRun.ite {p : Prop} [Decidable p] {x x' y y' : Run α} (hpos : FollowsRun R x y) (hneg : FollowsRun R x' y') :
    FollowsRun R (if p then x else x') (if p then y else y') := by
  split
  · exact hpos
  · exact hneg

theorem FollowsStep.next {t v : State} (h : SameView m t v) : FollowsStep m (.next t) (.next v) := by
  intro t' ht
  cases ht
  exact ⟨v, rfl, h⟩

theorem FollowsStep.fault (e : Fault) (y : Outcome) : FollowsStep m (.fault e) y := fun _ h => nomatch h

theorem FollowsStep.refused (e : Refusal) (y : Outcome) : FollowsStep m (.refused e) y := fun _ h => nomatch h

theorem FollowsStep.ite {p : Prop} [Decidable p] {x x' y y' : Outcome} (hpos : FollowsStep m x y) (hneg : FollowsStep m x' y') :
    FollowsStep m (if p then x else x') (if p then y else y') := by
  split
  · exact hpos
  · exact hneg

end

section
variable {m : Move} {s u : State}

theorem FollowsRun.finish {x y : Run State} (h : FollowsRun (SameView m) x y) : FollowsStep m (finish x) (finish y) := by
  intro t ht
  obtain ⟨v, hv, htv⟩ := h t (finish_next.mp ht)
  exact ⟨v, finish_next.mpr hv, htv⟩

/-- The other state is the one with what is outside replaced. -/
theorem SameView.exists_under (h : SameView m s u) : ∃ w, u = s.under w := ⟨u, h.state⟩

theorem SameView.life (h : SameView m s u) : u.life = s.life := by rw [h.state]

theorem SameView.ongoing (h : SameView m s u) : u.ongoing = s.ongoing := by rw [h.state]

/-- An update of what both runs share, made in each. -/
theorem SameView.map (h : SameView m s u) (f : State → State) (hf : Oblivious f := by exact { }) :
    SameView m (f s) (f u) where
  state := by
    obtain ⟨w, rfl⟩ := h.exists_under
    exact hf.core s w
  inputs := by rw [hf.inputs, hf.inputs]; exact h.inputs
  images := by rw [hf.images, hf.images]; exact h.images
  draws hm := by rw [hf.draws, hf.draws]; exact h.draws hm

theorem SameView.counters (h : SameView m s u) (c d : Counters) :
    SameView m { s with counters := c } { u with counters := d } where
  state := congrArg (fun x : State => { x with counters := d }) h.state
  inputs := h.inputs
  images := h.images
  draws := h.draws

theorem blockImages_cons (e : Event) (tr : List Event) : blockImages (e :: tr) = blockImages [e] ++ blockImages tr :=
  List.filterMap_append (l := [e])

/-- The observations may differ in anything but the block images. -/
theorem SameView.emit (h : SameView m s u) {e f : Event} (hef : blockImages [e] = blockImages [f]) :
    SameView m (s.emit e) (u.emit f) where
  state := congrArg (fun x : State => { x with trace := f :: u.trace }) h.state
  inputs := h.inputs
  images := by rw [emit_trace, emit_trace, blockImages_cons, blockImages_cons f, hef, h.images]
  draws := h.draws

theorem SameView.answer (h : SameView m s u) (r r' : HostResult) : SameView m (s.answer r) (u.answer r') := h.emit rfl

end

/-! ## Memory and the ring -/

section
variable {m : Move} {s u : State}

@[simp] theorem under_arena (s u : State) (sp : Space) : (s.under u).arena sp = s.arena sp := by cases sp <;> rfl

@[simp] theorem under_arenaSize (s u : State) (sp : Space) : (s.under u).arenaSize sp = s.arenaSize sp := by cases sp <;> rfl

@[simp] theorem under_memRead (s u : State) (sp : Space) (a : Nat) : memRead (s.under u) sp a = memRead s sp a := by
  simp only [memRead, under_arena, under_arenaSize]

@[simp] theorem under_memReads (s u : State) (sp : Space) (a n : Nat) : memReads (s.under u) sp a n = memReads s sp a n := by
  induction n generalizing a with
  | zero => rfl
  | succ n ih => simp only [memReads, under_memRead, ih]

theorem SameView.blockImage (h : SameView m s u) : blockImage u = blockImage s := by
  obtain ⟨w, rfl⟩ := h.exists_under
  exact under_memReads s w .block 0 _

theorem SameView.memWrite (h : SameView m s u) (sp : Space) (a : Nat) (v : Byte) :
    FollowsRun (SameView m) (memWrite sp a v s) (memWrite sp a v u) := by
  intro t ht
  obtain ⟨ha, rfl⟩ := memWrite_ok ht
  have hstore : Oblivious fun x => x.setArena sp (Memory.put sp.blank (x.arena sp) a v) := by
    cases sp <;> exact { }
  refine ⟨_, memWrite_of_lt v ?_, h.map _ hstore⟩
  obtain ⟨w, rfl⟩ := h.exists_under
  rwa [under_arenaSize]

theorem SameView.memWrites (h : SameView m s u) (sp : Space) (a : Nat) (bs : List Byte) :
    FollowsRun (SameView m) (memWrites sp a bs s) (memWrites sp a bs u) := by
  induction bs generalizing a s u with
  | nil => exact .ok h
  | cons b bs ih => exact .bind (h.memWrite sp a b) fun _ _ h => ih h (a + 1)

/-- Two results of one computation: states of the same view, and the same answer. -/
def SameViewAnd {β : Type} (m : Move) (a b : State × β) : Prop := SameView m a.1 b.1 ∧ a.2 = b.2

theorem SameView.push (h : SameView m s u) (r : Record) : FollowsRun (SameViewAnd m) (push r s) (push r u) := by
  obtain ⟨w, rfl⟩ := h.exists_under
  refine .ite (.ok ⟨h.counters _ _, rfl⟩) (.bind (h.memWrites _ _ _) fun _ _ h => .ok ⟨?_, rfl⟩)
  exact h.map State.advanceHead

theorem SameView.pushOnly (h : SameView m s u) (r : Record) : FollowsRun (SameView m) (pushOnly r s) (pushOnly r u) :=
  .bind (h.push r) fun _ _ h => .ok h.1

/-- One encoding decodes to one instruction, or is refused. -/
theorem FollowsStep.runFetched {f : Fetched} (hexec : ∀ i, decode f = .ok i → FollowsStep m (exec i s) (exec i u)) :
    FollowsStep m (runFetched f s) (runFetched f u) := by
  unfold Machine.runFetched
  split
  · exact hexec _ ‹_›
  · exact .refused _ _

/-! ## The host operations -/

/-- One noteOn of the API; a control context reads the same clock in both runs. -/
theorem SameView.playNote (h : SameView m s u) (hm : m ≠ .render) (note vel : Byte) (gate : Word) :
    FollowsRun (SameView m) (playNote note vel gate s) (playNote note vel gate u) := by
  refine .ite (.bind (h.push _) fun ⟨t, b⟩ ⟨v, _⟩ ⟨htv, hb⟩ => ?_) (.ok h)
  cases hb
  refine .ite (.ok ?_) (.ok htv)
  rw [← htv.draws hm]
  exact htv.map (fun x => { x with sched := schedInsert note (t.draws.nowMs + gate) x.sched })

theorem SameView.playChord (h : SameView m s u) (hm : m ≠ .render) (notes : List Byte) (ms : Word) :
    FollowsRun (SameViewAnd m) (playChord notes ms s) (playChord notes ms u) := by
  obtain ⟨w, rfl⟩ := h.exists_under
  cases notes with
  | nil => exact .ok ⟨h, rfl⟩
  | cons n rest => exact .bind (h.playNote hm _ _ _) fun _ _ h => .ok ⟨h, rfl⟩

theorem SameView.serveEntries (h : SameView m s u) (now : Word) (es : List SchedEntry) :
    FollowsRun (fun a b => a.1 = b.1 ∧ SameView m a.2 b.2) (serveEntries now es s) (serveEntries now es u) := by
  induction es generalizing s u with
  | nil => exact .ok ⟨rfl, h⟩
  | cons e es ih =>
    refine .ite (.bind (h.push _) fun a b hab => .bind (ih hab.1) fun r q hrq => .ok ⟨?_, hrq.2⟩)
      (.bind (ih h) fun r q hrq => .ok ⟨congrArg (e :: ·) hrq.1, hrq.2⟩)
    rw [hab.2, hrq.1]

theorem SameView.loadSlot (h : SameView m s u) (i : Nat) : FollowsRun (SameView m) (loadSlot i s) (loadSlot i u) := by
  obtain ⟨w, rfl⟩ := h.exists_under
  exact .bind_same _ fun p => .ok (h.map (storeParams (presetRecord i p)))

/-- The draw of `sink.configure` is one of a control context: both starts succeed or both fail. -/
theorem SameView.execStart (h : SameView m s u) (hm : m ≠ .render) (k : SinkConfig) (rate size : Word) :
    FollowsStep m (execStart k rate size s) (execStart k rate size u) := by
  intro t ht
  have hd := h.draws hm
  have hset := h.map (fun x => { x with life := { x.life with fs := rate.toNat, blockSize := size.toNat } })
  obtain ⟨w, rfl⟩ := h.exists_under
  rcases execStart_cases ht with ⟨hrun, rfl⟩ | ⟨hrun, hrate, hsize, ⟨hok, rfl⟩ | ⟨hfail, rfl⟩⟩
  · exact ⟨_, execStart_of_running (s := s.under w) hrun k rate size, h.answer _ _⟩
  · exact ⟨_, execStart_of_configured (s := s.under w) hrun hrate hsize (hd ▸ hok),
      (hset.emit (by rfl)).map (startDone k)⟩
  · exact ⟨_, execStart_of_unconfigured (s := s.under w) hrun hrate hsize (hd ▸ hfail),
      (hset.emit (by rfl)).map startFailed⟩

theorem SameView.execStop (h : SameView m s u) : FollowsStep m (execStop s) (execStop u) := by
  obtain ⟨w, rfl⟩ := h.exists_under
  exact .ite (.next (h.map (fun s => { fadeRequest false s.cfg.stopFadeMs s with ongoing := s.ongoing ++ [.stopDisable] })))
    (.next h)

/-- The two queries of the preset table (43_parameter_store.md R707 and R708). -/
theorem SameView.presetAnswer (h : SameView m s u) (f : Preset → HostResult) (i : Nat) :
    FollowsStep m (finish (tableRow .preset s.cfg.presets i >>= fun p => .ok (s.answer (f p))))
      (finish (tableRow .preset u.cfg.presets i >>= fun p => .ok (u.answer (f p)))) := by
  obtain ⟨w, rfl⟩ := h.exists_under
  exact (FollowsRun.bind_same _ fun p => .ok (h.answer _ _)).finish

/-- A host operation finds the same draws in both runs. -/
theorem SameView.exec_host (h : SameView m s u) (hm : m ≠ .render) {i : Instr} (hi : i.isCommand = false) :
    FollowsStep m (exec i s) (exec i u) := by
  obtain ⟨w, rfl⟩ := h.exists_under
  cases i with
  | start k rate size => exact h.execStart hm k rate size
  | stop => exact h.execStop
  | running => exact .next (h.answer _ _)
  | fadeIn ms => exact .next (h.map (fadeRequest true ms))
  | fadeOut ms => exact .next (h.map (fadeRequest false ms))
  | noteOn note vel gate => exact (h.playNote hm note vel gate).finish
  | noteOff note =>
    exact .ite (FollowsRun.bind (h.pushOnly _) fun _ _ h =>
      .ok (h.map (fun x => { x with sched := schedRemove note x.sched }))).finish (.next h)
  | allNotesOff =>
    exact (FollowsRun.bind (h.pushOnly _) fun _ _ h =>
      .ok (h.map (fun x => { x with sched := schedClear x.sched }))).finish
  | drumHit part vel => exact .ite (h.pushOnly _).finish (.next h)
  | allDrumsOff => exact (h.pushOnly _).finish
  | setDrumsEnabled b => exact .next (h.map (fun x => { x with drumsEnabled := b }))
  | setParams p =>
    intro t ht
    obtain ⟨q, hq, rfl⟩ := execSetParams_ok ht
    exact ⟨storeParams q (s.under w), by rw [exec, execSetParams, hq], h.map (storeParams q)⟩
  | getParams => exact .next (h.answer _ _)
  | loadPreset index => exact (h.loadSlot _).finish
  | resetPreset => exact (h.loadSlot _).finish
  | triggerTestChord ms =>
    refine (FollowsRun.bind (h.playChord hm _ _) fun a b hab => .ok ?_).finish
    rw [← hab.2]
    exact hab.1.map (fun x => { x with ongoing := x.ongoing ++ chordLeft a.2 ms })
  | service now =>
    refine (FollowsRun.bind (h.serveEntries now _) fun a b hab => .ok ?_).finish
    rw [← hab.1]
    exact hab.2.map (fun x => { x with sched := a.1 })
  | consumeUnderruns => exact .next ((h.counters _ _).answer _ _)
  | getPerfSnapshot => exact .next (h.answer _ _)
  | presetName index => exact h.presetAnswer _ _
  | presetDefaults index => exact h.presetAnswer _ _
  | _ => cases hi

/-- The expiry of the bound of a stop is a draw of a control context (46_scheduler_api.md R1011). -/
theorem SameView.stopAwaitStep (h : SameView m s u) (hm : m ≠ .render) (j : Nat) :
    SameView m (stopAwaitStep j s) (stopAwaitStep j u) := by
  have hend := h.map (fun x => x.replaceOngoing j [.stopTearDown])
  unfold Machine.stopAwaitStep
  rw [h.life, ← h.draws hm]
  split
  · exact hend
  · split
    · exact hend
    · exact h

/-- stop, step 4, calls the sink that both runs hold, or none. -/
theorem SameView.tearDown (h : SameView m s u) : SameView m (tearDown s) (tearDown u) := by
  unfold Machine.tearDown
  rw [h.life]
  refine SameView.map ?_ fun x => { x with life := { x.life with sink := none, running := false } }
  split
  · exact h
  · exact (h.emit rfl).emit rfl

theorem SameView.resumeStep (h : SameView m s u) (hm : m ≠ .render) (j : Nat) :
    FollowsRun (SameView m) (resumeStep j s) (resumeStep j u) := by
  unfold Machine.resumeStep
  rw [h.ongoing]
  cases s.ongoing[j]? with
  | none => exact .ok h
  | some o =>
    cases o with
    | stopDisable => exact .ok (h.map (stopDisableStep j))
    | stopAwait bound => exact .ok (h.stopAwaitStep hm j)
    | stopTearDown => exact .ok (h.map (fun x => x.replaceOngoing j [])).tearDown
    | chord notes ms =>
      refine .bind (h.playChord hm notes ms) fun a b hab => .ok ?_
      rw [← hab.2]
      exact hab.1.map (fun x => x.replaceOngoing j (chordLeft a.2 ms))

/-! ## The render context -/

/-- A ring command reads and moves nothing but what both runs share. -/
theorem SameView.exec_command (h : SameView m s u) {i : Instr} (hi : i.isCommand = true) :
    FollowsStep m (exec i s) (exec i u) := by
  obtain ⟨w, rfl⟩ := h.exists_under
  cases i with
  | cmdNoteOn note vel =>
    intro t ht
    obtain ⟨hlegal, htaken, k, hk, hlt, rfl⟩ := execCmdNoteOn_ok ht
    obtain ⟨hnote, hvel⟩ := (Bool.and_eq_true _ _).mp hlegal
    exact ⟨_, execCmdNoteOn_next (s := s.under w) hnote hvel htaken hk hlt, (h.map (fun x =>
      { x with pool := x.pool.noteOn x.cfg.arith x.snapshot.params.mono note vel k }))⟩
  | cmdNoteOff note =>
    exact .ite (.refused _ _) (.next (h.map (fun x =>
      { x with pool := { x.pool with voices := x.pool.voices.map (Voice.release note) } })))
  | cmdAllNotesOff =>
    exact .next (h.map (fun x =>
      { x with pool := { x.pool with voices := x.pool.voices.map Voice.releaseAny } }))
  | cmdDrumHit part vel =>
    refine .ite (.refused _ _) (.ite (.fault _ _) (.ite (.fault _ _) (FollowsRun.finish ?_)))
    refine .bind_same _ fun r => .bind_same _ fun k => .ite (.ok ?_) (.error _ _)
    exact h.map (fun x => { x with drums := hitDrums x.cfg x.life.fs r k part.toNat vel x.drums })
  | cmdAllDrumsOff => exact .next (h.map (fun x => { x with drums := x.drums.map Drum.deactivate }))
  | _ => cases hi

theorem SameView.readSlot (h : SameView m s u) (i : Nat) : readSlot u i = readSlot s i := by
  obtain ⟨w, rfl⟩ := h.exists_under
  simp only [Machine.readSlot, under_memRead]

theorem SameView.pop (h : SameView m s u) :
    FollowsRun (Option.Rel fun a b => a.1 = b.1 ∧ SameView m a.2 b.2) (pop s) (pop u) := by
  unfold Machine.pop
  have hslot := h.readSlot s.queue.tail
  obtain ⟨w, rfl⟩ := h.exists_under
  refine .ite (.ok .none) ?_
  refine .bind (R := Eq) (fun a ha => ⟨a, hslot.trans ha, rfl⟩) fun r _ hr => .ok (.some ⟨hr, ?_⟩)
  exact h.map (fun x => { x with queue := { x.queue with tail := x.nextSlot x.queue.tail } })

/-- DRAIN applies the same record in both runs. -/
theorem SameView.drainPhase (h : SameView m s u) : FollowsStep m (drainPhase s) (drainPhase u) := by
  unfold Machine.drainPhase
  cases hp : Machine.pop s with
  | error e => exact fun t ht => nomatch finish_next.mp ht
  | ok o =>
    obtain ⟨o', hp', ho⟩ := h.pop o hp
    rw [hp']
    cases ho with
    | none => exact .next (h.map (fun x => x.setPhase (.render 0)))
    | @some a b hab =>
      obtain ⟨hr, hview⟩ := hab
      show FollowsStep m (Machine.runFetched (.record a.1) a.2) (Machine.runFetched (.record b.1) b.2)
      rw [← hr]
      exact FollowsStep.runFetched fun i hi => hview.exec_command (decodeRecord_isCommand hi).1

theorem SameView.snapPhase (h : SameView m s u) : FollowsRun (SameView m) (snapPhase s) (snapPhase u) := by
  obtain ⟨w, rfl⟩ := h.exists_under
  refine .ite (.ok ?_) (.error _ _)
  exact h.map (fun x => { x with
    snapshot := { params := x.store.active, taken := true }
    pool := { x.pool with voices := x.pool.voices.map (Voice.configureFrom x.cfg.arith x.life.fs x.store.active) }
    filter := x.filter.configure x.cfg.arith x.store.active.filterType x.life.fs x.store.active.cutoff x.store.active.resonance
    life := { x.life with phase := .drain } })

theorem SameView.monoStage (h : SameView m s u) : SameViewAnd m (monoStage s) (monoStage u) := by
  obtain ⟨w, rfl⟩ := h.exists_under
  exact ⟨h.map (fun x => (Machine.monoStage x).1), rfl⟩

theorem SameView.drumStage (h : SameView m s u) (y : RealNum) :
    FollowsRun (SameViewAnd m) (drumStage s y) (drumStage u y) := by
  obtain ⟨w, rfl⟩ := h.exists_under
  exact .bind_same _ fun f => .ok ⟨h.map (fun x => { x with drums := f.drums, noise := f.noise }), rfl⟩

theorem SameView.delayStage (h : SameView m s u) (x : Stereo) :
    FollowsRun (SameViewAnd m) (delayStage s x) (delayStage u x) := by
  obtain ⟨w, rfl⟩ := h.exists_under
  refine .bind_same _ fun d => ?_
  rw [under_memRead]
  refine .bind_same _ fun b => .bind_same _ fun v => .bind (h.memWrite _ _ _) fun _ _ h => .ok ⟨?_, rfl⟩
  exact h.map (fun x => { x with delay := { x.delay with writeIdx := (x.delay.writeIdx + 1) % x.delay.len } })

theorem SameView.outputStage (h : SameView m s u) (x : Stereo) : SameViewAnd m (outputStage s x) (outputStage u x) := by
  obtain ⟨w, rfl⟩ := h.exists_under
  exact ⟨h.map (fun y => (Machine.outputStage y x).1), rfl⟩

theorem SameView.blockStage (h : SameView m s u) (k : Nat) (x : Stereo) :
    FollowsRun (SameView m) (blockStage s k x) (blockStage u k x) := by
  obtain ⟨w, rfl⟩ := h.exists_under
  exact .bind_same _ fun l => .bind_same _ fun r => h.memWrites _ _ _

theorem SameView.frameUnset (h : SameView m s u) : frameUnset u = frameUnset s := by
  obtain ⟨w, rfl⟩ := h.exists_under
  rfl

/-- A frame is computed from what both runs share: each stage hands on states of one view, and one signal. -/
theorem SameView.frame (h : SameView m s u) (k : Nat) : FollowsRun (SameView m) (frame k s) (frame k u) := by
  unfold Machine.frame
  rw [h.frameUnset]
  cases Machine.frameUnset s with
  | some e => exact .error _ _
  | none =>
    dsimp only
    rw [← h.monoStage.2]
    refine .bind (h.monoStage.1.drumStage _) fun a b hab => ?_
    rw [← hab.2]
    refine .bind (hab.1.delayStage _) fun a b hab => ?_
    rw [← hab.2, ← (hab.1.outputStage a.2).2]
    exact (hab.1.outputStage a.2).1.blockStage k _

/-- The end of RENDER observes the same image in both runs. -/
theorem SameView.finishBlock (h : SameView m s u) : FollowsRun (SameView m) (finishBlock s) (finishBlock u) := by
  unfold Machine.finishBlock
  rw [h.blockImage]
  exact .bind_same _ fun image => .ok ((h.emit rfl).map (fun x => x.setPhase .write))

theorem SameView.renderPhase (h : SameView m s u) (k : Nat) : FollowsRun (SameView m) (renderPhase k s) (renderPhase k u) := by
  unfold Machine.renderPhase
  rw [h.life]
  refine .ite (.bind (h.frame k) fun a b h => ?_) h.finishBlock
  rw [h.life]
  exact .ite (.ok (h.map (fun x => x.setPhase (.render (k + 1))))) h.finishBlock

/-- What the sink answers goes to the counters and the observed call. -/
theorem SameView.account (h : SameView m s u) (n n' : Nat) (ok ok' : Bool) :
    SameView m (account n ok s) (account n' ok' u) := by
  rw [account_eq n, account_eq n']
  exact h.counters _ _

theorem SameView.sinkWrite (h : SameView m s u) : FollowsRun (SameView m) (sinkWrite s) (sinkWrite u) := by
  unfold Machine.sinkWrite
  rw [h.life, h.blockImage]
  cases s.life.late with
  | true => exact .ok (h.account _ _ _ _)
  | false =>
    cases s.life.sink with
    | none => exact .ok (h.account _ _ _ _)
    | some k => exact .bind_same _ fun image => .ok ((h.emit (by rfl)).account _ _ _ _)

theorem SameView.writePhase (h : SameView m s u) : FollowsRun (SameView m) (writePhase s) (writePhase u) :=
  .bind h.sinkWrite fun _ _ h => .ok ((h.counters _ _).map State.endBlock)

theorem SameView.loopTest (h : SameView m s u) : SameView m (loopTest s) (loopTest u) := by
  unfold Machine.loopTest
  rw [h.life]
  split
  · exact h.map (fun x => x.setPhase .snap)
  · exact h.map (fun x => { x with life := { s.life with ack := true, phase := .absent } })

theorem SameView.renderStep (h : SameView m s u) : FollowsStep m (renderStep s) (renderStep u) := by
  unfold Machine.renderStep
  rw [h.life]
  cases s.life.phase with
  | absent => exact .next h
  | loopTest => exact .next h.loopTest
  | snap => exact h.snapPhase.finish
  | drain => exact h.drainPhase
  | render k => exact (h.renderPhase k).finish
  | write => exact h.writePhase.finish

/-! ## One step -/

/-- Both runs take an input of the same move, and its agent finds states of one view. -/
theorem SameSound.take (h : SameSound s u) {i : Input} {rest : List Input} (hs : s.inputs = i :: rest) :
    ∃ j rest', u.inputs = j :: rest' ∧ i.move = j.move ∧ SameView i.move (s.take i rest) (u.take j rest') := by
  have hinputs := h.inputs
  rw [hs] at hinputs
  obtain ⟨j, rest', ⟨hmove, hdraws⟩, hrest, hu⟩ := List.forall₂_cons_left_iff.mp hinputs
  exact ⟨j, rest', hu, hmove,
    { state := congrArg (fun x : State => x.take j rest') h.state, inputs := hrest, images := h.images, draws := hdraws }⟩

theorem SameView.agentStep (h : SameView m s u) : FollowsStep m (agentStep m s) (agentStep m u) := by
  cases m with
  | call c =>
    exact FollowsStep.runFetched fun i hi => h.exec_host nofun (decodeCall_not_isCommand hi)
  | resume j => exact (h.resumeStep nofun j).finish
  | render => exact h.renderStep

end
end Sys2Proof.Machine

namespace Sys2Proof

open Machine

/-- Settles O21: the step of the next input's agent, which finds the same draws in both runs unless it is the render
context. -/
theorem sinkResultsReachOnlyTheCounters : Obligations.SinkResultsReachOnlyTheCounters := by
  intro s u t h ht
  rcases step_cases ht with ⟨hs, rfl⟩ | ⟨i, rest, hs, hstep⟩
  · have hinputs := h.inputs
    rw [hs] at hinputs
    exact ⟨u, step_nil (List.forall₂_nil_left_iff.mp hinputs), h⟩
  · obtain ⟨j, rest', hu, hmove, hview⟩ := h.take hs
    rw [step_cons hu, ← hmove]
    obtain ⟨v, hv, htv⟩ := hview.agentStep t hstep
    exact ⟨v, hv, htv.toSameSound⟩

/-- Settles O32: `startFailed` releases the sink and leaves every other register alone. -/
theorem failedStartLeavesTheEngineNotRunning : Obligations.FailedStartLeavesTheEngineNotRunning :=
  fun _ _ _ _ hrun hrate hsize hfail => execStart_of_unconfigured hrun hrate hsize hfail

end Sys2Proof
end

section
/-! PROOFS. The two encodings (30_encoding.md): an instruction decodes from its own encoding, and what decodes is the
encoding of its instruction up to the bytes the decoder does not read; and the step of a host call. -/

namespace Sys2Proof

/-- A byte by its value. -/
theorem byte_eq_of_toNat {b : Byte} {n : Nat} (h : b.toNat = n) : b = BitVec.ofNat 8 n := by
  rw [← h, BitVec.ofNat_toNat, BitVec.setWidth_eq]

/-- An instruction with an unreserved encoding decodes from it (R301, R305). -/
theorem decode_encode {i : Instr} (h : i.wellFormed = true) : decode (encode i) = .ok i := by
  cases i with
  | cmdNoteOn note vel => exact if_pos h
  | cmdNoteOff note => exact if_pos h
  | cmdDrumHit part vel => exact if_pos h
  | _ => rfl

/-- A host call that decodes is the encoding of its operation (R305). -/
theorem encode_of_decodeCall {c : HostCall} {i : Instr} (h : decodeCall c = .ok i) : encode i = .call c := by
  obtain ⟨selector, args⟩ := c
  unfold decodeCall at h
  dsimp only at h
  split at h
  case h_22 => cases h
  all_goals
    rename_i hselector
    obtain rfl := byte_eq_of_toNat hselector
    split at h
    · cases h; rfl
    · cases h

/-- `e` has the kind of `r` and every byte that kind reads (R301, R302). -/
def Record.SameRead (r e : Record) : Prop :=
  r.kind = e.kind ∧ ((r.kind = 0x00 ∨ r.kind = 0x03) → r = e) ∧ (r.kind = 0x01 → r.primary = e.primary)

/-- A record that decodes is the encoding of its command in every byte the decoder reads (R301). -/
theorem encode_of_decodeRecord {r : Record} {i : Instr} (h : decodeRecord r = .ok i) :
    ∃ e, encode i = .record e ∧ r.SameRead e := by
  obtain ⟨kind, primary, secondary⟩ := r
  unfold decodeRecord at h
  dsimp only at h
  split at h
  case h_6 => cases h
  all_goals
    rename_i hkind
    obtain rfl := byte_eq_of_toNat hkind
  case h_1 =>
    split at h
    · cases h; exact ⟨_, rfl, rfl, fun _ => rfl, fun _ => rfl⟩
    · cases h
  case h_2 =>
    split at h
    · cases h; exact ⟨_, rfl, rfl, by simp, fun _ => rfl⟩
    · cases h
  case h_3 => cases h; exact ⟨_, rfl, rfl, by simp, by simp⟩
  case h_4 =>
    split at h
    · cases h; exact ⟨_, rfl, rfl, fun _ => rfl, fun _ => rfl⟩
    · cases h
  case h_5 => cases h; exact ⟨_, rfl, rfl, by simp, by simp⟩

open Machine

/-- Settles O2: what decodes is a command or a host operation, and each decoder inverts its part of `encode`. -/
theorem encodedInstructionsDecodeBack : Obligations.EncodedInstructionsDecodeBack := by
  refine ⟨fun i => decode_encode, fun f i h => ?_⟩
  cases f with
  | record r =>
    obtain ⟨e, he, hread⟩ := encode_of_decodeRecord h
    rw [he]
    exact ⟨(decodeRecord_isCommand h).2, hread⟩
  | call c =>
    rw [encode_of_decodeCall h]
    exact ⟨wellFormed_of_not_isCommand (decodeCall_not_isCommand h), rfl⟩

/-- Settles O1: each word and each call is decoded. -/
theorem sampleEncodingsDecode : Obligations.SampleEncodingsDecode :=
  ⟨rfl, rfl, rfl, rfl, rfl, rfl, rfl, rfl, rfl, rfl, fun _ => rfl, rfl, rfl, rfl, rfl, fun _ => rfl, rfl⟩

/-- Settles O4: the step takes the input, and its call runs by its decoding. -/
theorem stepRunsTheHostCall : Obligations.StepRunsTheHostCall := by
  intro s c d rest i hin hc
  have hdecode : decode (.call c) = .ok i := hc
  rw [step_cons hin, agentStep, runFetched, hdecode]

end Sys2Proof
end

section
/-! PROOFS. What every step keeps of the byte arenas: their canonical form (20_memory.md §1). -/

namespace Sys2Proof.Machine

/-- A frame stores one delay cell and four bytes of BLOCK; no other step of the render context stores a byte. -/
theorem RenderEffect.memoryWf {s t : State} (h : RenderEffect s t) (hs : s.memoryWf) : t.memoryWf := by
  obtain ⟨hdelay, hblock, hring⟩ := hs
  have hslots : t.queue.slots = s.queue.slots := by rw [h.keepsControlState]
  refine ⟨?_, ?_, hslots ▸ hring⟩
  · rcases h.delay with hd | ⟨-, v, -, hd⟩ <;> rw [hd]
    · exact hdelay
    · exact put_wf hdelay _ _
  · cases h with
    | idles h => rw [h]; exact hblock
    | snaps h => obtain ⟨-, rfl⟩ := snapPhase_ok h; exact hblock
    | applies hi h => rw [exec_command_frame hi h]; exact hblock
    | frames hf h =>
      obtain ⟨-, -, -, -, -, -, -, -, hkeeps, -⟩ := frame_ok hf
      rw [h]
      exact (hkeeps hblock :)

theorem ControlEffect.memoryWf {s t : State} (h : ControlEffect s t) (hs : s.memoryWf) : t.memoryWf := by
  cases h with
  | quiet hq => rw [hq.frame]; exact hs
  | @pushes r s' b es os hp _ => exact (push_memoryWf hp hs : s'.memoryWf)
  | @serves now es s' hp => exact (serveEntries_keeps (fun hs hp => push_memoryWf hp hs) hp hs : s'.memoryWf)

/-- A start empties the delay line, and the block unless one is in flight. -/
theorem execStart_memoryWf {k : SinkConfig} {rate size : Word} {s t : State} (h : execStart k rate size s = .next t)
    (hs : s.memoryWf) : t.memoryWf := by
  rcases execStart_cases h with ⟨-, rfl⟩ | ⟨-, -, -, ⟨-, rfl⟩ | ⟨-, rfl⟩⟩
  · exact hs
  · obtain ⟨-, hblock, hring⟩ := hs
    have hempty (blank : Option Byte) : Memory.wf blank [] := ⟨.nil, by simp⟩
    refine ⟨hempty _, ?_, hring⟩
    rw [startDone_block]
    split
    · exact hblock
    · exact hempty _
  · exact hs

end Sys2Proof.Machine

namespace Sys2Proof
open Machine

/-- Settles O9: every store is a `put`, which keeps the form, and a start empties an arena or leaves it. -/
theorem stepKeepsMemoryCanonical : Obligations.StepKeepsMemoryCanonical := fun _ _ hs h =>
  step_keeps (P := State.memoryWf) id (fun hs hr => hr.memoryWf hs) (fun hs hc => hc.memoryWf hs)
    (fun hs hx => execStart_memoryWf hx hs) hs h

end Sys2Proof
end

section
/-! PROOFS. What every step keeps of the invariant of the core (10_state.md §8, 20_memory.md §3 and §4): the ring indices, the
stored parameters, the queued records, what a block reads, and that in the reals every register is a number. -/

namespace Sys2Proof.Machine

/-! ## The queued records are commands (30_encoding.md R303) -/

theorem queueLegal_congr {s t : State} (hq : t.queue = s.queue) (hc : t.cfg = s.cfg) (h : s.queueLegal) : t.queueLegal := by
  rw [State.queueLegal, queued_congr hq hc]
  exact h

theorem legalNote_of_apiNote {note : Byte} (h : apiNote note = true) : legalNote note = true := by
  simp only [apiNote, legalNote, decide_eq_true_eq] at h ⊢
  omega

/-- A clamped velocity is one of a record (46_scheduler_api.md R1020, R1022). -/
theorem legalVelocity_apiVelocity (vel : Byte) : legalVelocity (apiVelocity vel) = true := by
  simp only [legalVelocity, apiVelocity, decide_eq_true_eq, BitVec.toNat_ofNat]
  omega

theorem noteOnRecord_legal {note : Byte} (h : legalNote note = true) (vel : Byte) :
    recordLegal (noteOnRecord note (apiVelocity vel)) = true :=
  recordLegal_iff.mpr ⟨_, if_pos (Bool.and_eq_true_iff.mpr ⟨h, legalVelocity_apiVelocity vel⟩)⟩

theorem noteOffRecord_legal {note : Byte} (h : legalNote note = true) : recordLegal (noteOffRecord note) = true :=
  recordLegal_iff.mpr ⟨_, if_pos h⟩

theorem drumHitRecord_legal {part : Byte} (h : apiPart part = true) (vel : Byte) :
    recordLegal (drumHitRecord part (apiVelocity vel)) = true := by
  have hpart : legalPart part = true := by
    simp only [apiPart, legalPart, decide_eq_true_eq] at h ⊢
    omega
  exact recordLegal_iff.mpr ⟨_, if_pos (Bool.and_eq_true_iff.mpr ⟨hpart, legalVelocity_apiVelocity vel⟩)⟩

/-- What a step of a control context other than a start does to the sink and to the ring: it opens no sink, and it queues
no reserved record. -/
structure Careful (s t : State) : Prop where
  sink : t.life.sink = s.life.sink ∨ t.life.sink = none
  legal : s.ringOk → s.memoryWf → s.schedOk → s.queueLegal → t.queueLegal

theorem Careful.of_no_push {s t : State} (hsink : t.life.sink = s.life.sink ∨ t.life.sink = none) (hq : t.queue = s.queue)
    (hc : t.cfg = s.cfg) : Careful s t :=
  ⟨hsink, fun _ _ _ => queueLegal_congr hq hc⟩

theorem Careful.refl (s : State) : Careful s s := .of_no_push (.inl rfl) rfl rfl

/-- A push of a command, whatever else becomes of the table and of the operations under way. -/
theorem Careful.of_push {r : Record} {s s' t : State} {b : Bool} (hr : recordLegal r = true) (hp : push r s = .ok (s', b))
    (hl : t.life = s'.life) (hq : t.queue = s'.queue) (hc : t.cfg = s'.cfg) : Careful s t := by
  have hframe := (push_frame hp).1
  refine ⟨.inl (by rw [hl, hframe]), fun hring hmem _ hs r' hr' => ?_⟩
  rw [queued_congr hq hc, push_queued hp hring hmem] at hr'
  cases b with
  | false => exact hs r' hr'
  | true =>
    rcases List.mem_append.mp hr' with hold | hnew
    · exact hs r' hold
    · rw [List.mem_singleton.mp hnew]; exact hr

/-- A service pushes the note-offs of live entries, which hold note numbers (46_scheduler_api.md R1034). -/
theorem Careful.of_service {now : Word} {es : List SchedEntry} {s s' : State} (h : serveEntries now s.sched s = .ok (es, s')) :
    Careful s { s' with sched := es } := by
  have hframe := (serveEntries_ok h).1
  refine ⟨.inl (by rw [hframe]), fun hring hmem hsched hs r hr => ?_⟩
  have hqueued : ({ s' with sched := es } : State).queued = s'.queued := queued_congr rfl rfl
  rw [hqueued, serveEntries_queued h hring hmem] at hr
  rcases List.mem_append.mp hr with hold | hnew
  · exact hs r hold
  · obtain ⟨e, he, rfl⟩ := List.mem_map.mp hnew
    obtain ⟨hmem, hdue⟩ := List.mem_filter.mp (List.mem_of_mem_take he)
    exact noteOffRecord_legal (hsched.1 e hmem (Bool.and_eq_true_iff.mp hdue).1)

theorem playNote_careful {note vel : Byte} {gate : Word} {s s' : State} (os : List Ongoing) (h : playNote note vel gate s = .ok s') :
    Careful s { s' with ongoing := os } := by
  rcases playNote_cases h with ⟨-, rfl⟩ | ⟨hn, u, b, hp, ⟨-, -, rfl⟩ | ⟨-, rfl⟩⟩
  · exact .of_no_push (.inl rfl) rfl rfl
  · exact .of_push (noteOnRecord_legal (legalNote_of_apiNote hn) vel) hp rfl rfl rfl
  · exact .of_push (noteOnRecord_legal (legalNote_of_apiNote hn) vel) hp rfl rfl rfl

theorem playChord_careful {notes rest : List Byte} {ms : Word} {s s' : State} (os : List Ongoing)
    (h : playChord notes ms s = .ok (s', rest)) : Careful s { s' with ongoing := os } := by
  rcases playChord_cases h with ⟨-, -, rfl⟩ | ⟨n, -, hp⟩
  · exact .of_no_push (.inl rfl) rfl rfl
  · exact playNote_careful os hp

/-- No operation without a push changes the lifecycle registers in its call's own step. -/
theorem exec_quiet_life {i : Instr} {s t : State} (hi : i.isQuiet = true) (h : exec i s = .next t) : t.life = s.life := by
  cases i with
  | stop =>
    rw [exec, execStop] at h
    split at h <;> cases h <;> rfl
  | setParams p => obtain ⟨q, -, rfl⟩ := execSetParams_ok h; rfl
  | loadPreset index => obtain ⟨p, -, rfl⟩ := loadSlot_ok (finish_next.mp h); rfl
  | resetPreset => obtain ⟨p, -, rfl⟩ := loadSlot_ok (finish_next.mp h); rfl
  | presetName index => obtain ⟨r, rfl⟩ := execPresetName_ok h; rfl
  | presetDefaults index => obtain ⟨r, rfl⟩ := execPresetDefaults_ok h; rfl
  | running | fadeIn _ | fadeOut _ | setDrumsEnabled _ | getParams | consumeUnderruns | getPerfSnapshot => cases h; rfl
  | _ => cases hi

theorem exec_host_careful {i : Instr} {s t : State} (hc : i.isCommand = false) (hs : ∀ k rate size, i ≠ .start k rate size)
    (h : exec i s = .next t) : Careful s t := by
  by_cases hq : i.isQuiet = true
  · have hframe := (exec_quiet hq h).frame
    exact .of_no_push (.inl (congrArg _ (exec_quiet_life hq h))) (by rw [hframe]) (by rw [hframe])
  · cases i with
    | start k rate size => exact absurd rfl (hs k rate size)
    | noteOn note vel gate => exact playNote_careful t.ongoing (finish_next.mp h)
    | noteOff note =>
      rcases execNoteOff_ok h with ⟨-, rfl⟩ | ⟨hn, s', b, hp, rfl⟩
      · exact .refl t
      · exact .of_push (noteOffRecord_legal (legalNote_of_apiNote hn)) hp rfl rfl rfl
    | allNotesOff => obtain ⟨s', b, hp, rfl⟩ := execAllNotesOff_ok h; exact .of_push (by decide) hp rfl rfl rfl
    | drumHit part vel =>
      rcases execDrumHit_ok h with ⟨-, rfl⟩ | ⟨hp, b, hpush⟩
      · exact .refl t
      · exact .of_push (drumHitRecord_legal (Bool.and_eq_true_iff.mp hp).2 vel) hpush rfl rfl rfl
    | allDrumsOff => obtain ⟨b, hp⟩ := execAllDrumsOff_ok h; exact .of_push (by decide) hp rfl rfl rfl
    | triggerTestChord ms => obtain ⟨s', rest, hp, rfl⟩ := execTriggerTestChord_ok h; exact playChord_careful _ hp
    | service now => obtain ⟨es, s', hp, rfl⟩ := execService_ok h; exact .of_service hp
    | cmdNoteOn _ _ | cmdNoteOff _ | cmdAllNotesOff | cmdDrumHit _ _ | cmdAllDrumsOff => cases hc
    | _ => exact absurd rfl hq

theorem stopAwaitStep_careful (j : Nat) (s : State) : Careful s (stopAwaitStep j s) := by
  unfold stopAwaitStep
  split
  · exact .of_no_push (.inl rfl) rfl rfl
  · split
    · exact .of_no_push (.inl rfl) rfl rfl
    · exact .refl s

/-- stop releases the sink in its step 4; no other operation moves it between its steps (46_scheduler_api.md R1011). -/
theorem resumeStep_careful {j : Nat} {s t : State} (h : resumeStep j s = .ok t) : Careful s t := by
  rcases resumeStep_cases h with ⟨-, rfl⟩ | ⟨-, rfl⟩ | ⟨-, rfl⟩ | ⟨-, rfl⟩ | ⟨notes, ms, s', rest, -, hp, rfl⟩
  · exact .refl t
  · exact .of_no_push (.inl rfl) rfl rfl
  · exact stopAwaitStep_careful j s
  · rw [tearDown_eq]; exact .of_no_push (.inr rfl) rfl rfl
  · exact playChord_careful _ hp

/-- A step of the render context queues nothing. -/
theorem renderStep_queueLegal {s t : State} (hring : s.ringOk) (hs : s.queueLegal) (h : renderStep s = .next t) : t.queueLegal := by
  rw [State.queueLegal, renderStep_queued hring h]
  split
  · exact fun r hr => hs r (List.mem_of_mem_tail hr)
  · exact hs

theorem execStart_queueLegal {k : SinkConfig} {rate size : Word} {s t : State} (hring : s.ringOk) (hs : s.queueLegal)
    (h : execStart k rate size s = .next t) : t.queueLegal := by
  rcases execStart_queued hring h with he | he <;> rw [State.queueLegal, he]
  · exact hs
  · exact fun r hr => nomatch hr

/-! ## One step from a state that meets the invariant -/

/-- What holds of every state of the invariant holds after a step from one when each agent's step leads to it. -/
theorem step_from_inv {P : State → Prop} (hstay : ∀ {s}, s.Inv → P s) (hrender : ∀ {s t}, s.Inv → renderStep s = .next t → P t)
    (hcontrol : ∀ {s t}, s.Inv → ControlEffect s t → Careful s t → P t)
    (hstart : ∀ {s t k rate size}, s.Inv → execStart k rate size s = .next t → P t) {s t : State} (hs : s.Inv)
    (h : step s = .next t) : P t := by
  rcases step_cases h with ⟨-, rfl⟩ | ⟨⟨m, d⟩, rest, -, hx⟩
  · exact hstay hs
  · have hs := take_inv hs ⟨m, d⟩ rest
    cases m with
    | render => exact hrender hs hx
    | resume j =>
      have hx := finish_next.mp hx
      exact hcontrol hs (resumeStep_effect hx) (resumeStep_careful hx)
    | call c =>
      obtain ⟨i, hi, hx⟩ := runFetched_next hx
      by_cases hi' : ∃ k rate size, i = .start k rate size
      · obtain ⟨k, rate, size, rfl⟩ := hi'
        exact hstart hs hx
      · have hne (k rate size) : i ≠ .start k rate size := fun he => hi' ⟨k, rate, size, he⟩
        have hc := decodeCall_not_isCommand hi
        exact hcontrol hs (exec_host_effect hc hne hx) (exec_host_careful hc hne hx)

theorem step_keeps_queueLegal {s t : State} : s.Inv → step s = .next t → t.queueLegal :=
  step_from_inv (P := State.queueLegal) State.Inv.legal (fun hs h => renderStep_queueLegal hs.ring hs.legal h)
    (fun hs _ hc => hc.legal hs.ring hs.memory hs.sched hs.legal) (fun hs h => execStart_queueLegal hs.ring hs.legal h)

/-! ## The ring indices and the stored parameters -/

theorem RenderEffect.ringOk {s t : State} (h : RenderEffect s t) (hs : s.ringOk) : t.ringOk := by
  obtain ⟨hhead, htail⟩ := hs
  have hlt : t.queue.tail < s.cfg.qcap := by
    rcases h.tail with he | he <;> rw [he]
    · exact htail
    · exact Nat.mod_lt _ (Nat.zero_lt_of_lt hhead)
  rw [h.keepsControlState]
  exact ⟨hhead, hlt⟩

theorem ControlEffect.ringOk {s t : State} (h : ControlEffect s t) (hs : s.ringOk) : t.ringOk := by
  cases h with
  | quiet hq => rw [hq.frame]; exact hs
  | @pushes r s' b es os hp _ => exact (push_ringOk hp hs : s'.ringOk)
  | @serves now es s' hp => exact (serveEntries_keeps (fun hs hp => push_ringOk hp hs) hp hs : s'.ringOk)

theorem execStart_ringOk {k : SinkConfig} {rate size : Word} {s t : State} (h : execStart k rate size s = .next t)
    (hs : s.ringOk) : t.ringOk := by
  obtain ⟨hcfg, -, -, hhead, htail⟩ := execStart_frame h
  rw [State.ringOk, hcfg, hhead]
  refine ⟨hs.1, ?_⟩
  rcases htail with he | he <;> rw [he]
  · exact hs.2
  · exact hs.1

theorem step_keeps_ringOk {s t : State} : s.ringOk → step s = .next t → t.ringOk :=
  step_keeps (P := State.ringOk) id (fun hs hr => hr.ringOk hs) (fun hs hc => hc.ringOk hs) fun hs hx => execStart_ringOk hx hs

/-- Both copies stay in range, whether or not they are capped, and the snapshot is kept or copied from the active one. -/
theorem step_keeps_paramsOk {s t : State} (hc : s.cfg.wf) (hs : s.paramsOk) (h : step s = .next t) : t.paramsOk := by
  obtain ⟨h0, h1, hsnap⟩ := hs
  have hstored : paramsInRange s.cfg t.store.params0 ∧ paramsInRange s.cfg t.store.params1 := by
    rcases step_storeStep h with hst | ⟨p, hst⟩ <;> rw [hst]
    · exact ⟨h0, h1⟩
    · exact publish_both (P := paramsInRange s.cfg) h0 h1 (sanitize_inRange hc p)
  rw [State.paramsOk, step_keeps_cfg h]
  refine ⟨hstored.1, hstored.2, ?_⟩
  rcases step_snapshot h with hkept | hcopied
  · rw [hkept]; exact hsnap
  · rw [hcopied]; exact fun _ => active_of_both (P := paramsInRange s.cfg) h0 h1

/-! ## What a ring command keeps of every voice -/

theorem forall_mem_modify {α : Type} {P : α → Prop} {f : α → α} (hf : ∀ x, P x → P (f x)) (i : Nat) {xs : List α}
    (h : ∀ x ∈ xs, P x) : ∀ x ∈ xs.modify i f, P x := by
  intro x hx
  obtain ⟨j, hj, rfl⟩ := List.mem_iff_getElem.mp hx
  rw [List.getElem_modify]
  split
  · exact hf _ (h _ (List.getElem_mem _))
  · exact h _ (List.getElem_mem _)

section
variable {P : Voice → Prop} (hcut : ∀ v, P v → P v.deactivate) (hoff : ∀ v, P v → P { v with env := v.env.noteOff })
include hcut

theorem noteOn_forall {a : Arith} (hstrike : ∀ v note vel age, P v → P (v.strike a note vel age)) (mono : Bool) (note vel : Byte)
    (i : Nat) {p : Pool} (h : ∀ v ∈ p.voices, P v) : ∀ v ∈ (p.noteOn a mono note vel i).voices, P v := by
  have hstruck := forall_mem_modify (fun v => hstrike v note vel (p.ageCounter + 1)) i h
  unfold Pool.noteOn
  dsimp only
  split
  · unfold cutOthers
    split
    · exact fun v hv => nomatch hv
    · rename_i v vs hvs
      rw [hvs] at hstruck
      obtain ⟨hv, hvs⟩ := List.forall_mem_cons.mp hstruck
      exact List.forall_mem_cons.mpr ⟨hv, List.forall_mem_map.mpr fun u hu => hcut u (hvs u hu)⟩
  · exact hstruck

include hoff

/-- What a strike, a cut and a release keep of a voice, every ring command keeps of all. -/
theorem exec_command_voices {i : Instr} {s t : State} (hstrike : ∀ v note vel age, P v → P (v.strike s.cfg.arith note vel age))
    (hi : i.isCommand = true) (h : exec i s = .next t) (hs : ∀ v ∈ s.pool.voices, P v) : ∀ v ∈ t.pool.voices, P v := by
  cases i with
  | cmdNoteOn note vel => obtain ⟨-, -, k, -, -, rfl⟩ := execCmdNoteOn_ok h; exact noteOn_forall hcut hstrike _ _ _ _ hs
  | cmdNoteOff note =>
    obtain ⟨-, rfl⟩ := execCmdNoteOff_ok h
    refine List.forall_mem_map.mpr fun v hv => ?_
    unfold Voice.release
    split
    · exact hoff v (hs v hv)
    · exact hs v hv
  | cmdAllNotesOff =>
    cases h
    refine List.forall_mem_map.mpr fun v hv => ?_
    unfold Voice.releaseAny
    split
    · exact hoff v (hs v hv)
    · exact hs v hv
  | cmdDrumHit part vel => obtain ⟨-, -, -, r, m, -, -, rfl⟩ := execCmdDrumHit_ok h; exact hs
  | cmdAllDrumsOff => cases h; exact hs
  | _ => cases hi

end

/-! ## What a block reads has been written (10_state.md R124) -/

/-- The snapshot, the envelope increments and the filter coefficients have been written. -/
abbrev State.blockReady (s : State) : Prop :=
  s.snapshot.taken = true ∧ (∀ v ∈ s.pool.voices, v.env.configured = true) ∧ s.filter.configured = true

theorem exec_command_blockReady {i : Instr} {s t : State} (hi : i.isCommand = true) (h : exec i s = .next t) (hs : s.blockReady) :
    t.blockReady := by
  obtain ⟨htaken, hvoices, hfilter⟩ := hs
  have hvoices' := exec_command_voices (P := fun v => v.env.configured = true) (fun _ hv => hv)
    (fun _ hv => (env_noteOff_configured _).trans hv) (fun _ _ _ _ hv => hv) hi h hvoices
  rw [exec_command_frame hi h]
  exact ⟨htaken, hvoices', hfilter⟩

theorem frame_blockReady {k : Nat} {s t : State} (h : frame k s = .ok t) (hs : s.blockReady) : t.blockReady := by
  obtain ⟨htaken, hvoices, hfilter⟩ := hs
  obtain ⟨hframe, -, hv, hf, -⟩ := frame_ok h
  refine ⟨by rw [hframe]; exact htaken, ?_, hf.trans hfilter⟩
  rw [hv]
  exact List.forall_mem_map.mpr fun v hm => (sample_configured _ _ _ v).trans (hvoices v hm)

/-- SNAP writes what a block reads. -/
theorem snapPhase_blockReady {s t : State} (h : snapPhase s = .ok t) : t.blockReady := by
  obtain ⟨-, rfl⟩ := snapPhase_ok h
  exact ⟨rfl, List.forall_mem_map.mpr fun v _ => rfl, rfl⟩

theorem RenderEffect.blockReady {s t : State} (h : RenderEffect s t) (hs : s.blockReady) : t.blockReady := by
  cases h with
  | idles h => rw [h]; exact hs
  | snaps h => exact snapPhase_blockReady h
  | applies hi h => exact exec_command_blockReady hi h hs
  | frames hf h => rw [h]; exact (frame_blockReady hf hs :)

/-- A phase inside a block follows another one, or SNAP. -/
theorem successors_inBlock {p q : Phase} {enabled : Bool} (h : q ∈ p.successors enabled) (hq : q.inBlock = true) :
    p.inBlock = true ∨ p = .snap := by
  cases p with
  | absent => rw [List.mem_singleton.mp h] at hq; cases hq
  | loopTest => cases enabled <;> rw [List.mem_singleton.mp h] at hq <;> cases hq
  | snap => exact .inr rfl
  | drain | render _ | write => exact .inl rfl

theorem renderStep_phaseOk {s t : State} (hs : s.phaseOk) (h : renderStep s = .next t) : t.phaseOk := by
  obtain ⟨hpresent, hready⟩ := hs
  have heffect := renderStep_effect h
  have hnext := renderStep_successor h
  have hstarted : t.life.started = s.life.started := by rw [heffect.keepsControlState]
  refine ⟨fun ht => hstarted.trans (hpresent fun hp => ht ?_), fun ht => ?_⟩
  · rw [hp] at hnext
    exact List.mem_singleton.mp hnext
  · rcases successors_inBlock hnext ht with hp | hp
    · exact heffect.blockReady (hready hp)
    · rw [renderStep, hp] at h
      exact snapPhase_blockReady (finish_next.mp h)

theorem inFlight_of_inBlock {p : Phase} (h : p.inBlock = true) : p.inFlight = true := by
  cases p with
  | absent | loopTest | snap => cases h
  | drain | render _ | write => rfl

/-- A start puts no render context inside a block, and leaves what a block in flight reads. -/
theorem startDone_phaseOk (k : SinkConfig) {s : State} (hs : s.phaseOk) : (startDone k s).phaseOk := by
  refine ⟨fun _ => rfl, fun hb => ?_⟩
  rw [startDone_life] at hb
  have hb : s.life.phase.inBlock = true := by
    rcases launched_cases s.life.phase with hp | ⟨hp, -⟩ <;> rw [hp] at hb
    · exact hb
    · cases hb
  obtain ⟨htaken, hvoices, hfilter⟩ := hs.2 hb
  refine ⟨htaken, List.forall_mem_map.mpr fun v hv => ?_, hfilter⟩
  exact Bool.and_eq_true_iff.mpr ⟨inFlight_of_inBlock hb, hvoices v hv⟩

theorem execStart_phaseOk {k : SinkConfig} {rate size : Word} {s t : State} (hs : s.phaseOk)
    (h : execStart k rate size s = .next t) : t.phaseOk := by
  rcases execStart_cases h with ⟨-, rfl⟩ | ⟨-, -, -, ⟨-, rfl⟩ | ⟨-, rfl⟩⟩
  · exact hs
  · exact startDone_phaseOk k hs
  · exact hs

theorem step_keeps_phaseOk {s t : State} : s.Inv → step s = .next t → t.phaseOk := by
  refine step_from_inv (P := State.phaseOk) State.Inv.phase (fun hs h => renderStep_phaseOk hs.phase h) (fun hs hc _ => ?_)
    fun hs h => execStart_phaseOk hs.phase h
  rw [hc.keepsRenderState]
  exact hs.phase

/-! ## The rendered frames stand in the block buffer (10_state.md R121) -/

theorem finishBlock_blockOk {s t : State} (h : finishBlock s = .ok t) (hs : s.blockWritten (4 * s.life.blockSize)) : t.blockOk := by
  obtain ⟨image, -, rfl⟩ := finishBlock_ok h
  exact fun _ _ => hs

theorem frame_blockWritten {k : Nat} {s t : State} (h : frame k s = .ok t) (hs : s.blockWritten (4 * k)) :
    t.blockWritten (4 * (k + 1)) := by
  obtain ⟨-, -, -, -, -, -, -, -, -, hblock⟩ := frame_ok h
  exact fun a ha => hblock a ((Nat.lt_or_ge a (4 * k)).imp (hs a) fun hnew => ⟨hnew, by omega⟩)

theorem renderPhase_blockOk {k : Nat} {s t : State} (h : renderPhase k s = .ok t) (hs : s.blockWritten (4 * k)) : t.blockOk := by
  rcases renderPhase_ok h with ⟨-, s', hf, ⟨-, rfl⟩ | ⟨hend, hb⟩⟩ | ⟨hend, hb⟩
  · exact (frame_blockWritten hf hs :)
  · exact finishBlock_blockOk hb fun a ha => frame_blockWritten hf hs a (by omega)
  · exact finishBlock_blockOk hb fun a ha => hs a (by omega)

theorem drainPhase_blockOk {s t : State} (hphase : s.life.phase = .drain) (h : drainPhase s = .next t) : t.blockOk := by
  rcases drainPhase_cases h with ⟨-, rfl⟩ | ⟨-, i, hi, hx⟩
  · exact fun a ha => absurd ha (Nat.not_lt_zero a)
  · rw [exec_command_frame (decodeRecord_isCommand hi).1 hx, State.blockOk, hphase]
    trivial

theorem renderStep_blockOk {s t : State} (hs : s.blockOk) (h : renderStep s = .next t) : t.blockOk := by
  unfold renderStep at h
  split at h
  · cases h; exact hs
  · cases h
    rcases loopTest_cases s with ⟨-, he⟩ | ⟨-, he⟩ <;> rw [he] <;> trivial
  · obtain ⟨-, rfl⟩ := snapPhase_ok (finish_next.mp h); trivial
  · exact drainPhase_blockOk ‹_› h
  · rename_i k hphase
    rw [State.blockOk, hphase] at hs
    exact renderPhase_blockOk (finish_next.mp h) hs
  · obtain ⟨s', -, rfl⟩ := writePhase_ok (finish_next.mp h); trivial

/-- The block needs no more bytes when its sink goes, or when the block is late; other registers do not matter. -/
theorem blockOk_of_block {s t : State} (hs : s.blockOk) (hphase : t.life.phase = s.life.phase) (hblock : t.block = s.block)
    (hwrite : s.life.phase = .write → t.life.late = false → t.life.sink ≠ none →
      t.life.blockSize = s.life.blockSize ∧ s.life.late = false ∧ s.life.sink ≠ none) : t.blockOk := by
  rw [State.blockOk] at hs ⊢
  rw [hphase]
  cases hp : s.life.phase with
  | render k =>
    rw [hp] at hs
    intro a ha
    rw [hblock]
    exact hs a ha
  | write =>
    rw [hp] at hs
    intro hlate hsink
    obtain ⟨hsize, hlate', hsink'⟩ := hwrite hp hlate hsink
    rw [State.blockWritten, hsize, hblock]
    exact hs hlate' hsink'
  | absent | loopTest | snap | drain => trivial

theorem ControlEffect.blockOk {s t : State} (h : ControlEffect s t) (hsink : t.life.sink = s.life.sink ∨ t.life.sink = none)
    (hs : s.blockOk) : t.blockOk := by
  have hk := h.keepsRenderState
  have hsize : t.life.blockSize = s.life.blockSize := by rw [hk]
  have hlate : t.life.late = s.life.late := by rw [hk]
  refine blockOk_of_block hs h.phase (by rw [hk]) fun _ hl hne => ⟨hsize, hlate ▸ hl, fun hnone => hne ?_⟩
  rcases hsink with he | he
  · rw [he, hnone]
  · exact he

/-- A block in flight over a start is late, and a failed start leaves no sink (46_scheduler_api.md R1001, 60_exceptions.md
R1104). -/
theorem execStart_blockOk {k : SinkConfig} {rate size : Word} {s t : State} (hs : s.blockOk)
    (h : execStart k rate size s = .next t) : t.blockOk := by
  rcases execStart_cases h with ⟨-, rfl⟩ | ⟨-, -, -, ⟨-, rfl⟩ | ⟨-, rfl⟩⟩
  · exact hs
  · by_cases hf : s.life.phase.inFlight = true
    · exact blockOk_of_block hs (if_pos hf) (if_pos hf) fun _ hlate _ => absurd (hf.symm.trans hlate) nofun
    · rw [State.blockOk, startDone_life, Phase.launched, sinkConfigure_life, if_neg hf]
      trivial
  · exact blockOk_of_block hs rfl rfl fun _ _ hne => absurd rfl hne

theorem step_keeps_blockOk {s t : State} : s.Inv → step s = .next t → t.blockOk :=
  step_from_inv (P := State.blockOk) State.Inv.block (fun hs h => renderStep_blockOk hs.block h)
    (fun hs hc hcare => hc.blockOk hcare.sink hs.block) fun hs h => execStart_blockOk hs.block h

/-! ## In the reals every register holds a number (00_scope.md R13, D1) -/

theorem envelope_noteOff_numbers {e : Envelope} (h : e.numbers) : e.noteOff.numbers := by
  unfold Envelope.noteOff
  split
  · exact h
  · exact h

theorem exec_command_drums_numbers {i : Instr} {s t : State} (ha : s.cfg.arith ≠ .binary32) (hi : i.isCommand = true)
    (h : exec i s = .next t) (hs : ∀ d ∈ s.drums, d.numbers) : ∀ d ∈ t.drums, d.numbers := by
  cases i with
  | cmdNoteOn note vel => obtain ⟨-, -, k, -, -, rfl⟩ := execCmdNoteOn_ok h; exact hs
  | cmdNoteOff note => obtain ⟨-, rfl⟩ := execCmdNoteOff_ok h; exact hs
  | cmdAllNotesOff => cases h; exact hs
  | cmdDrumHit part vel => obtain ⟨-, -, -, r, m, -, -, rfl⟩ := execCmdDrumHit_ok h; exact hitDrums_numbers ha _ _ _ _ _ hs
  | cmdAllDrumsOff => cases h; exact List.forall_mem_map.mpr hs
  | _ => cases hi

theorem exec_command_numbers {i : Instr} {s t : State} (ha : s.cfg.arith ≠ .binary32) (hi : i.isCommand = true)
    (h : exec i s = .next t) (hs : s.numbers) : t.numbers := by
  obtain ⟨hvoices, hdrums, hrest⟩ := hs
  have hvoices' := exec_command_voices (P := Voice.numbers) (fun _ hv => hv)
    (fun _ ⟨hp1, hp2, hvel, henv⟩ => ⟨hp1, hp2, hvel, envelope_noteOff_numbers henv⟩)
    (fun _ note vel age hv => voice_strike_numbers ha note vel age hv) hi h hvoices
  have hdrums' := exec_command_drums_numbers ha hi h hdrums
  rw [exec_command_frame hi h]
  exact ⟨hvoices', hdrums', hrest⟩

theorem snapPhase_numbers {s t : State} (ha : s.cfg.arith ≠ .binary32) (h : snapPhase s = .ok t) (hs : s.numbers) : t.numbers := by
  obtain ⟨hvoices, hdrums, hfilter, hrest⟩ := hs
  obtain ⟨-, rfl⟩ := snapPhase_ok h
  refine ⟨List.forall_mem_map.mpr fun v hv => ?_, hdrums, filter_configure_numbers ha _ _ _ _ hfilter, hrest⟩
  obtain ⟨hp1, hp2, hvel, henv⟩ := hvoices v hv
  exact ⟨hp1, hp2, hvel, envelope_configure_numbers ha _ _ _ _ _ henv⟩

theorem RenderEffect.numbers {s t : State} (ha : s.cfg.arith ≠ .binary32) (h : RenderEffect s t) (hs : s.numbers) : t.numbers := by
  cases h with
  | idles h => rw [h]; exact hs
  | snaps h => exact snapPhase_numbers ha h hs
  | applies hi h => exact exec_command_numbers (s := s.popped) ha hi h hs
  | frames hf h => rw [h]; exact (frame_numbers hf ha hs :)

theorem fadeRequest_numbers {s : State} (ha : s.cfg.arith ≠ .binary32) (target : Bool) (ms : Word) (hs : s.fade.level.isFin = true) :
    (fadeRequest target ms s).fade.level.isFin = true ∧ (fadeRequest target ms s).fade.step.isFin = true := by
  unfold fadeRequest
  dsimp only
  split
  · exact ⟨by cases target <;> rfl, rfl⟩
  · exact ⟨hs, Arith.div_isFin ha rfl (Arith.mul_isFin ha (Arith.const_isFin ha _) (Arith.const_isFin ha _))⟩

theorem ControlEffect.numbers {s t : State} (ha : s.cfg.arith ≠ .binary32) (h : ControlEffect s t) (hs : s.numbers) : t.numbers := by
  obtain ⟨hvoices, hdrums, hfilter, hdcL, hdcR, hrevL, hrevR, hlevel, hstep⟩ := hs
  have hfade : t.fade.level.isFin = true ∧ t.fade.step.isFin = true := by
    rcases h.fade with he | ⟨target, ms, he⟩ <;> rw [he]
    · exact ⟨hlevel, hstep⟩
    · exact fadeRequest_numbers ha target ms hlevel
  rw [h.keepsRenderState]
  exact ⟨hvoices, hdrums, hfilter, hdcL, hdcR, hrevL, hrevR, hfade⟩

theorem startDone_numbers (k : SinkConfig) {s : State} (hs : s.numbers) : (startDone k s).numbers := by
  obtain ⟨hvoices, -, ⟨hb0, hb1, hb2, ha1, ha2, -⟩, -⟩ := hs
  refine ⟨List.forall_mem_map.mpr fun v hv => ?_, fun d hd => ?_, ⟨hb0, hb1, hb2, ha1, ha2, rfl, rfl⟩, ⟨rfl, rfl⟩, ⟨rfl, rfl⟩, rfl,
    rfl, rfl, rfl⟩
  · obtain ⟨-, -, -, -, hincs⟩ := hvoices v hv
    exact ⟨rfl, rfl, rfl, rfl, hincs⟩
  · rw [List.eq_of_mem_replicate hd]
    decide

theorem execStart_numbers {k : SinkConfig} {rate size : Word} {s t : State} (h : execStart k rate size s = .next t)
    (hs : s.numbers) : t.numbers := by
  rcases execStart_cases h with ⟨-, rfl⟩ | ⟨-, -, -, ⟨-, rfl⟩ | ⟨-, rfl⟩⟩
  · exact hs
  · exact startDone_numbers k hs
  · exact hs

theorem step_keeps_numbersOk {s t : State} (hs : s.numbersOk) (h : step s = .next t) : t.numbersOk := by
  intro ha
  rw [step_keeps_cfg h] at ha
  refine (step_keeps (P := fun u => u.cfg.arith ≠ .binary32 ∧ u.numbers) id ?_ ?_ ?_ ⟨ha, hs ha⟩ h).2
  · rintro u v ⟨ha, hu⟩ hr
    exact ⟨by rw [hr.keepsControlState]; exact ha, hr.numbers ha hu⟩
  · rintro u v ⟨ha, hu⟩ hc
    exact ⟨by rw [hc.keepsRenderState]; exact ha, hc.numbers ha hu⟩
  · rintro u v k rate size ⟨ha, hu⟩ hx
    exact ⟨by rw [(execStart_frame hx).1]; exact ha, execStart_numbers hx hu⟩

end Sys2Proof.Machine

namespace Sys2Proof
open Machine

/-- Settles O7: each part of the invariant is kept, some of them under the others. -/
theorem stepKeepsTheInvariant : Obligations.StepKeepsTheInvariant := fun s t hs h => {
  cfgWf := step_keeps_cfg h ▸ hs.cfgWf
  sizes := step_keeps_sizes hs.sizes h
  ring := step_keeps_ringOk hs.ring h
  memory := stepKeepsMemoryCanonical s t hs.memory h
  delay := storedSamplesAvoidTheForbiddenCodes.1 s t hs.delay h
  params := step_keeps_paramsOk hs.cfgWf hs.params h
  legal := step_keeps_queueLegal hs h
  sched := (step_keeps_table hs.sched h).1
  phase := step_keeps_phaseOk hs h
  block := step_keeps_blockOk hs h
  numbers := step_keeps_numbersOk hs.numbers h }

end Sys2Proof
end

section
/-! PROOFS. The core after construction (70_reset_and_hazards.md §1): it meets the invariant and every range that a step keeps. -/

namespace Sys2Proof.Machine

theorem initialParams_inRange {c : Cfg} (h : c.wf) : paramsInRange c (initialParams c) := sanitize_inRange h _

theorem initialParams_capped (c : Cfg) : feedbackCapped c (initialParams c) := sanitize_capped c _

/-- A table with no live entry is in order. -/
theorem tableOk_replicate_initial (n : Nat) : tableOk (List.replicate n .initial) := by
  have hfree {e : SchedEntry} (he : e ∈ List.replicate n .initial) : e.live = false := by rw [List.eq_of_mem_replicate he]; rfl
  refine ⟨fun e he hl => absurd hl (by simp [hfree he]), ?_⟩
  exact List.pairwise_replicate.mpr (.inr fun hl => nomatch hl)

/-- Every register of a constructed core holds a number. -/
theorem construct_numbers (c : Cfg) : (State.construct c).numbers := by
  refine ⟨fun v hv => ?_, fun d hd => ?_, (by decide : Biquad.initial.numbers), ⟨rfl, rfl⟩, ⟨rfl, rfl⟩, rfl, rfl, rfl, rfl⟩
  · rw [List.eq_of_mem_replicate hv]; decide
  · rw [List.eq_of_mem_replicate hd]; decide

theorem construct_inv {c : Cfg} (h : c.wf) : (State.construct c).Inv := by
  have hqcap : 0 < c.qcap := by
    obtain ⟨-, hq, -⟩ := h.1
    omega
  have hring : (State.construct c).ringOk := ⟨hqcap, hqcap⟩
  have hempty (blank : Option Byte) : Memory.wf blank [] := ⟨.nil, by simp⟩
  exact {
    cfgWf := h
    sizes := ⟨List.length_replicate, List.length_replicate, List.length_replicate⟩
    ring := hring
    memory := ⟨hempty _, hempty _, hempty _⟩
    delay := ⟨nofun, nofun⟩
    params := ⟨initialParams_inRange h, initialParams_inRange h, nofun⟩
    legal := by rw [State.queueLegal, queued_eq_nil hring rfl]; nofun
    sched := tableOk_replicate_initial c.schedN
    phase := ⟨fun hp => absurd rfl hp, nofun⟩
    block := trivial
    numbers := fun _ => construct_numbers c }

theorem construct_envelopes (c : Cfg) : envelopesInRange (State.construct c).pool.voices := by
  intro v hv
  rw [List.eq_of_mem_replicate hv]
  decide

/-- The constants of the reset state are in range. -/
theorem defaultCfg_wf : defaultCfg.wf := by decide +kernel

end Sys2Proof.Machine

namespace Sys2Proof
open Machine

/-- Settles O6: each register of a constructed core has its initial value, and both records are sanitized. -/
theorem constructionMeetsTheInvariants : Obligations.ConstructionMeetsTheInvariants := by
  refine ⟨?_, construct_inv defaultCfg_wf, rfl⟩
  rintro c hc s rfl
  have hinv := construct_inv hc
  have hcap := initialParams_capped c
  obtain ⟨-, ⟨hseed, -⟩, -⟩ := hc
  exact ⟨hinv, ⟨rfl, rfl⟩, nofun, hseed, construct_envelopes c, hcap, hcap, hcap, Nat.zero_le _,
    fun j hj => nomatch hj.1⟩

end Sys2Proof
end
